-- ==== Sys2Proof/Word.lean ====
section
/-! DEFINITION. The word types of the DK-620: bytes, line data, byte-enable masks, ticks, sequences, counts and tags
(spec/11, R188; spec/02, R21). -/

namespace Sys2Proof

/-- One byte of a link or of a line. -/
abbrev Byte := BitVec 8

/-- The 64 data bytes of a line: byte `n` is bits `8n+7 .. 8n`. -/
abbrev LineData := BitVec 512

/-- The 64 byte-enables of a WRITE: bit `n` enables byte `n` (spec/11, section 11.2). -/
abbrev Mask := BitVec 64

/-- The uptime tick, 32 bits, wrapping (R177). -/
abbrev Tick := BitVec 32

/-- A 32-bit sequence: fault sequence (R155) or journal sequence (R116). -/
abbrev Seq32 := BitVec 32

/-- A 16-bit saturating count (R24, R94, R155). -/
abbrev Count16 := BitVec 16

/-- A host tag, 0 to 15 (R21). -/
abbrev Tag := BitVec 4

/-- A line address as a link carries it: 3 bytes (R188). -/
abbrev Addr24 := BitVec 24

end Sys2Proof
end

