-- ==== Sys2Proof/Config.lean ====
section
/-! DEFINITION. The fixed numbers of spec/00, and the free values: what the spec leaves open, as constants with no body. -/

namespace Sys2Proof

/-- What the line checker makes of one READ answer (R64): the data it hands on, or none. -/
inductive Classification where
  | clean (data : LineData)
  | corrected (data : LineData)
  | uncorrectable
  deriving DecidableEq, Repr, Inhabited

/-- What the pattern of a line's bytes leads the line checker to, where the spec leaves that to the pattern (R64): the line
matches its check bytes, the checker takes one data byte for defective and repairs it (by flipping these of its bits), or it
cannot repair the line. -/
inductive Verdict where
  | clean
  | repaired (byte : Fin 64) (flips : Byte)
  | uncorrectable
  deriving DecidableEq, Repr, Inhabited

/-- The requesters of array operations (R56). -/
inductive Requester where
  | journal
  | relocation
  | writeBuffer
  | hostLink
  | survey
  deriving DecidableEq, Repr

/-- The six policy fields, in the order of R180. -/
inductive PolicyField where
  | retryDepth
  | watchLimit
  | spareLow
  | pendingHigh
  | posting
  | surveyGap
  deriving DecidableEq, Repr

/-- Lines of the journal area, J (spec/00, R115). -/
def Config.journalLines : Nat := 4096
/-- Lines of one journal bank (R115). -/
def Config.bankLines : Nat := 2048
/-- Smallest spare count S (R49). -/
def Config.minSpares : Nat := 64
/-- Largest spare count S (R49). -/
def Config.maxSpares : Nat := 8192
/-- Spare count of a journal formatted without a stated fence (spec/00, R133). -/
def Config.defaultSpares : Nat := 1024
/-- Relocation Slots (R93). -/
def Config.slotCount : Nat := 4
/-- Spares tried per relocation (R99). -/
def Config.sparesTried : Nat := 3
/-- Pending List entries (R106). -/
def Config.pendingLimit : Nat := 32
/-- Watch Table entries (R110). -/
def Config.watchEntries : Nat := 64
/-- Largest watch count (R110). -/
def Config.watchCountMax : Nat := 15
/-- Write Buffer entries (R75). -/
def Config.bufferEntries : Nat := 8
/-- Deferred Report Queue (R34). -/
def Config.reportLimit : Nat := 4
/-- Array operations in flight (R57). -/
def Config.flightLimit : Nat := 8
/-- Records per journal line (R116). -/
def Config.recordsPerLine : Nat := 6
/-- Journal Queue records (R119). -/
def Config.queueLimit : Nat := 16
/-- Journal low mark: unwritten lines of the active bank (R120). -/
def Config.lowMark : Nat := 64
/-- Fault Log records (R155). -/
def Config.faultLimit : Nat := 16
/-- Request Trace items (R153). -/
def Config.traceLimit : Nat := 4
/-- Unlock attempts (R173). -/
def Config.unlockAttempts : Nat := 5
/-- Value of the start marker byte (R190). -/
def Config.startMarker : Byte := 165
/-- Vendor code (spec/11, section 11.5). -/
def Config.vendorCode : Nat := 3162
/-- Part code (spec/11, section 11.5). -/
def Config.partCode : Nat := 1568

/-- FREE VALUE (log 11): the silicon revision that IDENTIFY returns (R178). -/
opaque Config.siliconRevision : Byte

/-- FREE VALUE (log 9): what the checker makes of a line of this ala with three or more defective bytes (R64: whichever
classification the pattern of its bytes produces; `neverWritten` keeps the data written from being handed on). The arguments are
the ala, the data as written, the data as read, and the flipped bits of the check bytes. -/
opaque Config.manyDefects : Nat → LineData → LineData → BitVec 64 → Verdict

/-- FREE VALUE (log 10): does the checker repair a line whose one defective byte is a check byte? R64 has any one defective byte
corrected, but gives CORRECTED for a defective data byte alone. The arguments are the ala, the data, and the flipped bits of the
check bytes. -/
opaque Config.checkByteRepaired : Nat → LineData → BitVec 64 → Bool

/-- FREE VALUE (log 10): what the checker makes of a line the bridge never wrote (R65, third row). The arguments are the ala, the
data and the check bytes read. -/
opaque Config.foreignLine : Nat → LineData → BitVec 64 → Verdict

/-- FREE VALUE (log 12): in which order requests of different requesters placed in one event take their ages (R62). The
arguments are the event's number and the requester. -/
opaque Config.placingRank : Nat → Requester → Nat

/-- FREE VALUE (log 13): which of the responses still to leave in one event leaves next (R33). The arguments are the event's
number and how many are left. -/
opaque Config.pick : Nat → Nat → Nat

/-- FREE VALUE (log 14): the three bytes sent for a line count that does not fit in them (R188 gives 0 to 2^24-1). -/
opaque Config.wide24 : Nat → BitVec 24

/-- FREE VALUE (log 15): the byte by which a RANGE answer of POLICY_STAGE names a field (R181 states no code). -/
opaque Config.fieldCode : PolicyField → Byte

/-- FREE VALUE (log 16): the sequence taken as that of the last written line when replay ends at line 0 (R130). -/
opaque Config.noLineSequence : Seq32

end Sys2Proof
end

