-- ==== Sys2Proof/Syntax.lean ====
section
/-! DEFINITION. The commands of the DK-620: one constructor of `Instr` per row of spec/opcode_table.json, with the operands
the spec gives the row. -/

namespace Sys2Proof

/-- The 8 check bytes of a stored line (R56). Their code is not given by the spec, so check bytes the bridge computed are
held as the place and data they were computed for, with the bits that have flipped since; any other check bytes are held as their
bits (log 8). -/
inductive CheckBytes where
  /-- the check bytes the bridge computes for this ala and this data -/
  | code (ala : Nat) (data : LineData)
  /-- the same, with these bits flipped since: a byte with a flipped bit is a defective check byte -/
  | damaged (ala : Nat) (data : LineData) (flips : BitVec 64)
  /-- check bytes of a line the bridge never wrote -/
  | raw (bits : BitVec 64)
  deriving DecidableEq, Repr

/-- The array's answer to a READ: the 64 data bytes and the 8 check bytes stored (R56). -/
structure ArrayLine where
  data : LineData
  check : CheckBytes
  deriving DecidableEq, Repr

/-- The array's answer to a WRITE (R56). -/
inductive WriteAnswer where
  | done
  | fault
  deriving DecidableEq, Repr

/-- Any answer of the array, for a late answer whose content is discarded (R59). -/
inductive ArrayAnswer where
  | read (line : ArrayLine)
  | write (answer : WriteAnswer)
  | ident (count : Nat)
  deriving DecidableEq, Repr

/-- The commands, in the table's order. `tag` and `hla` of the host requests are the transfer's fields as sent (R188, R189).
A service command carries its frame's sequence, its arguments (R192) and the frame check as received (R190). -/
inductive Instr where
  | powerOnReset
  | resetInput
  | hostRead (tag : Byte) (hla : Addr24)
  | hostWrite (tag : Byte) (hla : Addr24) (mask : Mask) (data : LineData)
  | barrier (tag : Byte)
  | hrst
  | nonRequestTransfer (kind : Byte)
  | requestPresentation
  | bufferRoomEntry
  | arbiterGrant
  | identAnswer (count : Nat)
  | journalLineReadAnswer (line : ArrayLine)
  | hostReadAttemptAnswer (line : ArrayLine)
  | rmwReadAnswer (line : ArrayLine)
  | lineRetireReadAnswer (line : ArrayLine)
  | surveyReadAnswer (line : ArrayLine)
  | surveyGapExpiry
  | drainWriteAnswer (answer : WriteAnswer)
  | inPlaceWriteAnswer (answer : WriteAnswer)
  | targetWriteAnswer (answer : WriteAnswer)
  | finishingWriteAnswer (answer : WriteAnswer)
  | fallbackWriteAnswer (answer : WriteAnswer)
  | slotHandoff
  | logLineWriteAnswer (answer : WriteAnswer)
  | journalRecordJoin
  | imageLineWriteAnswer (answer : WriteAnswer)
  | formatLineWriteAnswer (answer : WriteAnswer)
  | arrayOpTimeout
  | lateAnswer (answer : ArrayAnswer)
  | quiesceEnd
  | uptimeTick
  | frameByteTimeout
  | responseTransmitEnd
  | unknownCommand (seq : Byte) (code : Byte) (args : List Byte) (check : BitVec 16)
  | identify (seq : Byte) (check : BitVec 16)
  | status (seq : Byte) (check : BitVec 16)
  | lookupLine (seq : Byte) (hla : Addr24) (check : BitVec 16)
  | mapSeek (seq : Byte) (hla : Addr24) (check : BitVec 16)
  | mapNext (seq : Byte) (check : BitVec 16)
  | listRead (seq : Byte) (list : Byte) (index : Byte) (check : BitVec 16)
  | faultNext (seq : Byte) (check : BitVec 16)
  | faultRewind (seq : Byte) (check : BitVec 16)
  | surveyReport (seq : Byte) (check : BitVec 16)
  | policyRead (seq : Byte) (set : Byte) (check : BitVec 16)
  | alertRead (seq : Byte) (check : BitVec 16)
  | surveyStart (seq : Byte) (mode : Byte) (first count : Addr24) (check : BitVec 16)
  | surveyStop (seq : Byte) (check : BitVec 16)
  | alertAck (seq : Byte) (set : BitVec 16) (check : BitVec 16)
  | alertMask (seq : Byte) (set : BitVec 16) (check : BitVec 16)
  | policyStage (seq : Byte) (retryDepth watchLimit : Byte) (spareLow : BitVec 16)
      (pendingHigh posting surveyGap : Byte) (check : BitVec 16)
  | journalCompact (seq : Byte) (check : BitVec 16)
  | fenceAdjust (seq : Byte) (expected new : Addr24) (check : BitVec 16)
  | lineRetire (seq : Byte) (hla : Addr24) (check : BitVec 16)
  | policyExchange (seq : Byte) (check : BitVec 16)
  | faultClear (seq : Byte) (check : BitVec 16)
  | journalFormat (seq : Byte) (fence : Option Addr24) (check : BitVec 16)
  | bridgeRestart (seq : Byte) (check : BitVec 16)
  | guardLock (seq : Byte) (word : BitVec 32) (check : BitVec 16)
  | guardUnlock (seq : Byte) (word : BitVec 32) (check : BitVec 16)
  | guardFreeze (seq : Byte) (check : BitVec 16)
  | serviceLinkByteArrival (byte : Byte)
  deriving DecidableEq, Repr

end Sys2Proof
end

