-- ==== Sys2Proof/Machine/State.lean ====
section
/-! DEFINITION. The state of the DK-620 as plain data, module by module, its value after power-on reset, and the (empty)
reasons a step could stop. -/

namespace Sys2Proof.Machine

/-! ### Host Link (spec/02) -/

/-- The three kinds of host request (R21). -/
inductive ReqKind where
  | read
  | write
  | barrier
  deriving DecidableEq, Repr

/-- Host response statuses (R22). -/
inductive HostStatus where
  | ok
  | corrected
  | poison
  | done
  | poisonHit
  | incomplete
  | refused
  deriving DecidableEq, Repr

/-- Reasons of a REFUSED response (R22). -/
inductive RefuseReason where
  | notReady
  | beyond
  deriving DecidableEq, Repr

/-- Reasons of a deferred report (R34). -/
inductive ReportReason where
  | unreadableMerge
  | noSpare
  | dataLost
  deriving DecidableEq, Repr

/-- A deferred report (R34). -/
structure DeferredReport where
  hla : Nat
  reason : ReportReason
  deriving DecidableEq, Repr

/-- A response on the Host Link with the fields its status carries (R22). -/
structure HostResponse where
  kind : ReqKind
  tag : Tag
  status : HostStatus
  reason : Option RefuseReason
  report : Option DeferredReport
  data : Option LineData
  deriving DecidableEq, Repr

/-- The age of an arbiter request (R61): the event it was placed in, and its order among the requests its requester placed in
that event. Drain requests of direct writes come after those of entries. -/
structure Age where
  event : Nat
  direct : Bool
  order : Nat
  deriving DecidableEq, Repr

/-- A retry ladder (R66): the ala every attempt reads, the sampled depth, the present step, the age of step 0, and whether
step 0 has been granted. -/
structure Ladder where
  ala : Nat
  depth : Nat
  step : Nat
  age : Age
  granted : Bool
  deriving DecidableEq, Repr

/-- Where an accepted READ or WRITE stands in its line's order (R26, R27, R42, R88). -/
inductive ReqStage where
  /-- waits behind an earlier request of its line, or is about to be presented -/
  | queued
  /-- a READ that waits on a masked Write Buffer entry -/
  | waitEntry (entry : Nat)
  /-- a READ routed to the array -/
  | inArray (ladder : Ladder)
  /-- a posted WRITE that waits for buffer room -/
  | waitRoom
  /-- an unposted WRITE on the direct path -/
  | direct
  deriving DecidableEq, Repr

/-- An accepted READ or WRITE whose effect is not yet in place. `live` tells that its tag is still outstanding: a host link
reset clears it on work that continues (R37). `write` holds a WRITE's data and mask. -/
structure HostReq where
  id : Nat
  tag : Tag
  live : Bool
  hla : Nat
  write : Option (LineData × Mask)
  stage : ReqStage
  deriving DecidableEq, Repr

/-- A waiting BARRIER with its barrier epoch (R78). -/
structure Barrier where
  tag : Tag
  epoch : Nat
  deriving DecidableEq, Repr

/-- The Host Link Unit. -/
structure HostLink where
  /-- outstanding tags (R23) -/
  tags : List Tag
  /-- accepted requests whose effect is not in place, in arrival order; one line's order is its sublist (R26) -/
  order : List HostReq
  /-- writes waiting for buffer room, by request, in order of presentation (R77) -/
  roomWait : List Nat
  /-- waiting barriers, in arrival order (R33) -/
  barriers : List Barrier
  /-- the Deferred Report Queue, oldest first (R34) -/
  reports : List DeferredReport
  /-- the protocol-fault count (R24) -/
  protocolCount : Count16
  /-- the acknowledgement epoch count (R78) -/
  epochCount : Nat
  deriving DecidableEq, Repr

/-! ### Remap Table, Spare Pool, fence (spec/01, spec/03) -/

/-- Relocation causes (R90). -/
inductive RelocCause where
  | watch
  | retry
  | pendingWrite
  | writeFault
  | service
  deriving DecidableEq, Repr

/-- A remap entry (R1). Its state is MOVING when `target` is present, BOUND otherwise. -/
structure RemapEntry where
  home : Nat
  spare : Option Nat
  target : Option Nat
  cause : Option RelocCause
  boundTick : Option Tick
  deriving DecidableEq, Repr

/-- Spare states (R6). -/
inductive SpareState where
  | free
  | held
  | bound
  | dead
  deriving DecidableEq, Repr

/-- The state of one reserve line that is not FREE. -/
structure SpareMark where
  ala : Nat
  state : SpareState
  deriving DecidableEq, Repr

/-- A withdrawal range of a raise (R14) or a closing range of a lowering (R52). -/
inductive RangeKind where
  | withdrawal
  | closing
  deriving DecidableEq, Repr

/-- The lines `lo` up to but not including `hi` of a fence move; `kept` when R54 keeps them after the command has ended. -/
structure FenceRange where
  kind : RangeKind
  lo : Nat
  hi : Nat
  kept : Bool
  deriving DecidableEq, Repr

/-- The Remap Table, the Spare Pool, the map cursor and the fence. -/
structure MapState where
  /-- remap entries by rising home (R3) -/
  table : List RemapEntry
  /-- reserve lines that are HELD, BOUND or DEAD, by rising ala (R6) -/
  marks : List SpareMark
  /-- the lines of the reserve that bear no mark are FREE (R7: from the end of replay on) -/
  poolBuilt : Bool
  /-- the map cursor (R16) -/
  cursor : Nat
  /-- the fence F, none while cleared (R49) -/
  fence : Option Nat
  /-- the range of a fence move (R50, R54) -/
  range : Option FenceRange
  deriving DecidableEq, Repr

/-! ### Array Link (spec/04) -/

/-- A Write Buffer entry or a direct write, by its identity. -/
inductive ItemRef where
  | entry (id : Nat)
  | direct (id : Nat)
  deriving DecidableEq, Repr

/-- What a slot's write is for (R98, R102, R103). -/
inductive SlotWriteKind where
  | target
  | finishing
  | fallback
  deriving DecidableEq, Repr

/-- What a journal line write is (R61, class 1). -/
inductive JournalWriteKind where
  | log
  | image
  | format
  deriving DecidableEq, Repr

/-- The requester an outcome is handed back to (R56). -/
inductive Owner where
  | ident
  | journalRead
  | journalWrite (kind : JournalWriteKind)
  | slotWrite (home : Nat) (kind : SlotWriteKind)
  | inPlace (item : ItemRef)
  | drainWrite (item : ItemRef)
  | rmwRead (item : ItemRef)
  | hostRead (id : Nat)
  | retireRead (id : Nat)
  | surveyRead
  deriving DecidableEq, Repr

/-- An operation sent to the array (R56). The check bytes of a WRITE are those of its ala and data. -/
inductive ArrayOp where
  | ident
  | read (ala : Nat)
  | write (ala : Nat) (data : LineData)
  deriving DecidableEq, Repr

/-- An operation in flight: the operation, its requester, the attempt step of a READ, and the timed-out mark (R57, R58). -/
structure Flight where
  op : ArrayOp
  owner : Owner
  step : Nat
  timedOut : Bool
  deriving DecidableEq, Repr

/-- A request waiting at the arbiter (R61). -/
inductive ReqBody where
  | journalRead (ala : Nat)
  | journalWrite (kind : JournalWriteKind) (ala : Nat) (data : LineData)
  | slotWrite (home : Nat)
  | inPlace (item : ItemRef)
  | drain (item : ItemRef)
  | rmwRead (item : ItemRef)
  | hostRead (id : Nat)
  | retireRead (id : Nat)
  | surveyRead
  deriving DecidableEq, Repr

/-- A waiting request with its age. -/
structure ArbReq where
  body : ReqBody
  age : Age
  deriving DecidableEq, Repr

/-- The Array Link Unit. -/
structure ArrayLink where
  /-- C (R60) -/
  lineCount : Nat
  /-- operations in flight, oldest first (R57) -/
  inFlight : List Flight
  /-- requests waiting at the arbiter (R61) -/
  waiting : List ArbReq
  deriving DecidableEq, Repr

/-! ### Write Buffer (spec/05) -/

/-- Phases of an entry (R74). -/
inductive Phase where
  | waiting
  | reading
  | assembled
  | writing
  | relocating
  deriving DecidableEq, Repr

/-- A Write Buffer entry (R74), or a direct write (R88: no ack epoch; its tag is held by the request of the same identity).
`place` is the array line fixed at translation, `ladder` the ladder of a read half. -/
structure Item where
  id : Nat
  hla : Nat
  data : LineData
  mask : Mask
  phase : Phase
  epoch : Option Nat
  place : Nat
  ladder : Option Ladder
  deriving DecidableEq, Repr

/-- The Write Buffer in creation order and the direct path in order of presentation. -/
structure WriteBuffer where
  entries : List Item
  direct : List Item
  deriving DecidableEq, Repr

/-! ### Retirement (spec/06) -/

/-- Slot states (R96). -/
inductive SlotState where
  | writing
  | journaling
  | finishing
  | returning
  deriving DecidableEq, Repr

/-- An unposted write whose data a slot holds; `live` while its tag is outstanding (R96). -/
structure WaitingWrite where
  tag : Tag
  live : Bool
  deriving DecidableEq, Repr

/-- A busy Relocation Slot (R96). -/
structure Slot where
  home : Nat
  data : LineData
  state : SlotState
  dirty : Bool
  attempts : Nat
  epoch : Option Nat
  waiting : List WaitingWrite
  deriving DecidableEq, Repr

/-- The outcome of a FINISHING write that would complete the binding, held while the journal is STALLED (R105, log 39); `dropped` when
the Pending List add of a fault was dropped for fullness in the fault event (R107). -/
structure HeldOutcome where
  home : Nat
  answer : WriteAnswer
  dropped : Bool
  deriving DecidableEq, Repr

/-- What waits in the slot queue (R93). -/
inductive QueueItem where
  | request (item : ItemRef) (home : Nat) (cause : RelocCause)
  | reservation (home : Nat)
  deriving DecidableEq, Repr

/-- A LINE_RETIRE read on its ladder; `live` while the command's reservation stands (R112). -/
structure RetireRead where
  id : Nat
  home : Nat
  ladder : Ladder
  live : Bool
  deriving DecidableEq, Repr

/-- Origins of a Pending List entry (R106). -/
inductive PendingOrigin where
  | hostRead
  | survey
  | spareRead
  | mergeRead
  | writeFault
  | relocate
  | service
  deriving DecidableEq, Repr

/-- A Pending List entry (R106). -/
structure PendingEntry where
  hla : Nat
  origin : PendingOrigin
  entered : Tick
  hits : Byte
  deriving DecidableEq, Repr

/-- A Watch Table entry (R110). -/
structure WatchEntry where
  hla : Nat
  count : Nat
  last : Tick
  deriving DecidableEq, Repr

/-- The Relocation Engine, the Pending List and the Watch Table. -/
structure Retirement where
  /-- busy slots, by home; a slot that is free is not listed (R93) -/
  slots : List Slot
  /-- the home of a LINE_RETIRE reservation that holds a slot (R112) -/
  reserved : Option Nat
  /-- the slot queue, oldest first (R93) -/
  queue : List QueueItem
  /-- FINISHING outcomes held while the journal is STALLED, oldest first (R105) -/
  held : List HeldOutcome
  /-- LINE_RETIRE reads -/
  retireReads : List RetireRead
  /-- the Pending List, oldest first (R106) -/
  pendingList : List PendingEntry
  /-- the Watch Table, most recent first (R110) -/
  watch : List WatchEntry
  /-- the relocations-deferred count (R94) -/
  deferred : Count16
  deriving DecidableEq, Repr

/-! ### Policy, journal, start-up (spec/07, spec/10) -/

/-- One policy set (R180). -/
structure PolicySet where
  retryDepth : Nat
  watchLimit : Nat
  spareLow : Nat
  pendingHigh : Nat
  posting : Bool
  surveyGap : Nat
  deriving DecidableEq, Repr

/-- The default values of R180. -/
def PolicySet.default : PolicySet :=
  { retryDepth := 4, watchLimit := 3, spareLow := 32, pendingHigh := 8, posting := true, surveyGap := 16 }

/-- The Active and Staged sets (R180). -/
structure PolicySets where
  active : PolicySet
  staged : PolicySet
  deriving DecidableEq, Repr

/-- The two journal banks (R115). -/
inductive Bank where
  | a
  | b
  deriving DecidableEq, Repr

/-- Journal records (R117). -/
inductive Record where
  | bind (home spare : Nat)
  | dead (spare : Nat)
  | fence (f : Nat)
  | policy (set : PolicySet)
  deriving DecidableEq, Repr

/-- Journal states (spec/07, section 7.3). -/
inductive JournalState where
  | ready
  | appending
  | compacting
  | stalled
  deriving DecidableEq, Repr

/-- The LOG line being written: how many head records it carries and its sequence (R120). -/
structure LogLine where
  count : Nat
  seq : Seq32
  deriving DecidableEq, Repr

/-- A compaction in progress: the bank written, the position and sequence of the present image line, the image lines left
with the present one first, and the image line faults so far (R122 to R124). -/
structure Compaction where
  bank : Bank
  pos : Nat
  seq : Seq32
  lines : List (List Record)
  faults : Nat
  deriving DecidableEq, Repr

/-- The Journal Controller's write side. -/
structure Journal where
  state : JournalState
  /-- the active bank, none until start-up has chosen one (R118) -/
  active : Option Bank
  /-- the next line of the active bank (R118) -/
  nextLine : Nat
  /-- the sequence of the active bank's last written line (R120) -/
  lastSeq : Seq32
  /-- the Journal Queue, oldest first (R119) -/
  queue : List Record
  /-- records waiting outside the full queue, in offer order (R119) -/
  wait : List Record
  /-- the LOG line being written, in APPENDING -/
  line : Option LogLine
  /-- the compaction, in COMPACTING -/
  compaction : Option Compaction
  /-- the records of a LOG line whose write faulted, until a compaction commits (R121, R54) -/
  faulted : List Record
  deriving DecidableEq, Repr

/-- HELD reasons (R127). -/
inductive HeldReason where
  | noArray
  | noJournal
  deriving DecidableEq, Repr

/-- Operating states (R127). -/
inductive OpState where
  | starting
  | held (reason : HeldReason)
  | running
  | quiescing
  deriving DecidableEq, Repr

/-- What the examination of the banks keeps of a readable line 0 (R129). -/
structure LineZero where
  seq : Seq32
  image : Bool
  deriving DecidableEq, Repr

/-- Where start-up stands: which journal line read it waits for (R128 to R130). -/
inductive StartPhase where
  | idle
  | ident
  | lineA
  | lineB (a : Option LineZero)
  /-- examining `bank` at `pos`; `prev` is the sequence of the line before, `next` a candidate still to be examined -/
  | examine (bank : Bank) (pos : Nat) (prev : Seq32) (a b : Option LineZero) (next : Option Bank)
  /-- replaying `bank` at `pos`; `prev` is the sequence of the last replayed line -/
  | replay (bank : Bank) (pos : Nat) (prev : Seq32)
  deriving DecidableEq, Repr

/-- JOURNAL_FORMAT's writing: the fence it writes and how many lines have completed (R133). -/
structure FormatJob where
  fence : Nat
  index : Nat
  deriving DecidableEq, Repr

/-- The start-up controller. -/
structure StartUp where
  op : OpState
  phase : StartPhase
  format : Option FormatJob
  deriving DecidableEq, Repr

/-! ### Survey (spec/08) -/

/-- Survey modes (R140). -/
inductive SurveyMode where
  | span
  | spares
  deriving DecidableEq, Repr

/-- Survey outcomes (R150). -/
inductive SurveyOutcome where
  | done
  | stopped
  | haltedFull
  | reset
  deriving DecidableEq, Repr

/-- The seven counts of R150. -/
structure SurveyCounts where
  linesRead : Nat
  skipped : Nat
  cleanAfterRetry : Nat
  corrected : Nat
  retriedCorrected : Nat
  uncorrectable : Nat
  markedDead : Nat
  deriving DecidableEq, Repr

/-- Survey phases (R139): a read of the next line on its ladder, or a gap with the SURVEY_GAP it was begun with (R142). -/
inductive SurveyPhase where
  | reading (ladder : Ladder)
  | gap (units : Nat)
  deriving DecidableEq, Repr

/-- The live survey (R139, R141). The lines to visit are those from `start` up to but not including `limit`, without the lines
of `excluded` (SPARES: reserve lines not FREE at the start). The survey is STOPPING when an end is requested. -/
structure LiveSurvey where
  mode : SurveyMode
  first : Nat
  count : Nat
  start : Nat
  limit : Nat
  excluded : List Nat
  next : Nat
  phase : SurveyPhase
  startTick : Tick
  counts : SurveyCounts
  firstUncorrectable : Option Nat
  endRequested : Option SurveyOutcome
  deriving DecidableEq, Repr

/-- The Survey Report (R150). -/
structure SurveyReport where
  mode : SurveyMode
  first : Nat
  count : Nat
  startTick : Tick
  endTick : Tick
  outcome : SurveyOutcome
  next : Nat
  counts : SurveyCounts
  firstUncorrectable : Option Nat
  deriving DecidableEq, Repr

/-- The Survey Engine; it is IDLE when no survey is live. -/
structure Survey where
  live : Option LiveSurvey
  report : Option SurveyReport
  deriving DecidableEq, Repr

/-! ### Fault Log, Request Trace, Alert (spec/09) -/

/-- The thirteen fault kinds (section 9.3). -/
inductive FaultKind where
  | uncorrectableRead
  | retryCorrected
  | homeWriteFault
  | spareWriteFault
  | relocateFail
  | dataLost
  | spareShort
  | pendingOverflow
  | journalWriteFault
  | replayTail
  | replayBank
  | replayRecord
  | protocol
  deriving DecidableEq, Repr

/-- A Request Trace item (R153). -/
structure TraceItem where
  kind : ReqKind
  tag : Tag
  hla : Option Nat
  tick : Tick
  deriving DecidableEq, Repr

/-- A fault record (R154). -/
structure FaultRecord where
  seq : Seq32
  kind : FaultKind
  tick : Tick
  hla : Option Nat
  ala : Option Nat
  step : Option Nat
  trace : List TraceItem
  deriving DecidableEq, Repr

/-- The Request Trace and the Fault Log. -/
structure FaultLog where
  /-- the Request Trace, oldest first (R153) -/
  trace : List TraceItem
  /-- the records held, oldest first (R155) -/
  records : List FaultRecord
  /-- the next sequence (R155) -/
  next : Seq32
  /-- the fault cursor (R157) -/
  cursor : Seq32
  /-- the fault count (R155) -/
  count : Count16
  deriving DecidableEq, Repr

/-- The ten alert causes (R162). -/
inductive AlertCause where
  | sparesLow
  | sparesOut
  | pendingHigh
  | pendingFull
  | deferred
  | deferredLost
  | journal
  | surveyEnd
  | protocol
  | logWrap
  deriving DecidableEq, Repr

/-- The Alert Unit: bit n of each word is the nth cause of R162 (R188). -/
structure Alert where
  causes : BitVec 10
  mask : BitVec 10
  deriving DecidableEq, Repr

/-! ### Service Port and Guard (spec/10) -/

/-- Response statuses (section 10.4, R191). -/
inductive Status where
  | ok
  | empty
  | busy
  | unknown
  | state
  | range
  | stale
  | blocked
  | journalFault
  | refusedGuard
  | mismatch
  | attempts
  | pending
  | alreadyMoving
  | exhausted
  | failed
  deriving DecidableEq, Repr

/-- A response frame by its sequence, status and result bytes; its bytes on the link follow from them (R190, R191). -/
structure Response where
  seq : Byte
  status : Status
  results : List Byte
  deriving DecidableEq, Repr

/-- The receiver (R167): HUNTING, or RECEIVING with the bytes taken after the start marker. -/
inductive Receiver where
  | hunting
  | receiving (bytes : List Byte)
  deriving DecidableEq, Repr

/-- The commands that can stay in progress (R169). LINE_RETIRE notes whether its relocation has begun. -/
inductive LongCommand where
  | fenceAdjust (new : Nat)
  | lineRetire (home : Nat) (moving : Bool)
  | policyExchange
  | journalCompact
  | journalFormat
  | bridgeRestart
  deriving DecidableEq, Repr

/-- A command in progress with its frame's sequence. -/
structure InProgress where
  seq : Byte
  command : LongCommand
  deriving DecidableEq, Repr

/-- The Service Port. -/
structure ServicePort where
  receiver : Receiver
  /-- the response frame being transmitted (R171) -/
  sending : Option Response
  /-- responses waiting to be transmitted, in the order they became ready (R171) -/
  waiting : List Response
  /-- the command in progress (R169) -/
  command : Option InProgress
  /-- the stored response; the last sequence is its sequence (R170) -/
  stored : Option Response
  deriving DecidableEq, Repr

/-- Guard states (R173). -/
inductive GuardState where
  | open
  | locked
  | frozen
  deriving DecidableEq, Repr

/-- The Guard (R173). -/
structure Guard where
  state : GuardState
  attempts : Nat
  word : Option (BitVec 32)
  deriving DecidableEq, Repr

/-! ### The whole part -/

/-- What has been sent on the Array Link (R56, R60). -/
inductive ArrayOut where
  | linkReset
  | ident
  | read (ala : Nat)
  | write (ala : Nat) (data : LineData) (check : CheckBytes)
  deriving DecidableEq, Repr

/-- The model's transcripts of what has left the part, oldest first: host responses, Array Link traffic, and the response
frames whose transmission has ended (log 23). -/
structure Outputs where
  host : List HostResponse
  array : List ArrayOut
  service : List Response
  deriving DecidableEq, Repr

/-- The model's own counters: the number of the present event and the next identity (log 24). -/
structure Counters where
  event : Nat
  nextId : Nat
  deriving DecidableEq, Repr

/-- The state of the DK-620. -/
structure State where
  host : HostLink
  map : MapState
  array : ArrayLink
  buf : WriteBuffer
  reloc : Retirement
  jour : Journal
  start : StartUp
  survey : Survey
  log : FaultLog
  alert : Alert
  port : ServicePort
  guard : Guard
  policy : PolicySets
  tick : Tick
  out : Outputs
  ids : Counters
  pending : List Instr
  deriving DecidableEq, Repr

/-- Reasons a step could fault: none. No rule of the spec stops the part. -/
inductive Fault where
  deriving DecidableEq, Repr

/-- Reasons a step could refuse a command. -/
inductive Refusal where
  /-- raised by `exec` for a row of the table that has no meaning; no arm raises it. Safe: the model stops. -/
  | notModelled (mnemonic : String)
  deriving DecidableEq, Repr

/-- What every meaning answers. -/
abbrev Result := Host.Outcome State Fault Refusal

/-! Module updates: one per module, so that a definition never writes the whole record. -/

/-- The state with another Host Link Unit. -/
def State.setHost (s : State) (v : HostLink) : State := { s with host := v }
/-- The state with another map and fence. -/
def State.setMap (s : State) (v : MapState) : State := { s with map := v }
/-- The state with another Array Link Unit. -/
def State.setArray (s : State) (v : ArrayLink) : State := { s with array := v }
/-- The state with another Write Buffer. -/
def State.setBuf (s : State) (v : WriteBuffer) : State := { s with buf := v }
/-- The state with another Relocation Engine. -/
def State.setReloc (s : State) (v : Retirement) : State := { s with reloc := v }
/-- The state with another Journal Controller. -/
def State.setJour (s : State) (v : Journal) : State := { s with jour := v }
/-- The state with another start-up controller. -/
def State.setStart (s : State) (v : StartUp) : State := { s with start := v }
/-- The state with another Survey Engine. -/
def State.setSurvey (s : State) (v : Survey) : State := { s with survey := v }
/-- The state with another Fault Log. -/
def State.setLog (s : State) (v : FaultLog) : State := { s with log := v }
/-- The state with another Alert Unit. -/
def State.setAlert (s : State) (v : Alert) : State := { s with alert := v }
/-- The state with another Service Port. -/
def State.setPort (s : State) (v : ServicePort) : State := { s with port := v }
/-- The state with another Guard. -/
def State.setGuard (s : State) (v : Guard) : State := { s with guard := v }
/-- The state with another policy sets. -/
def State.setPolicy (s : State) (v : PolicySets) : State := { s with policy := v }
/-- The state with another uptime tick. -/
def State.setTick (s : State) (v : Tick) : State := { s with tick := v }
/-- The state with another transcripts. -/
def State.setOut (s : State) (v : Outputs) : State := { s with out := v }
/-- The state with another counters. -/
def State.setIds (s : State) (v : Counters) : State := { s with ids := v }
/-- The state with another queue of waiting commands. -/
def State.setPending (s : State) (v : List Instr) : State := { s with pending := v }

/-- The state right after power-on reset (R19, R38, R55, R73, R89, R114, R137, R152, R166, R187): everything empty, the fence
cleared, the policies at their defaults, the Guard OPEN, the operating state STARTING, and, as the first event of start-up
has it (R60), the array link reset sent and IDENT in flight. -/
def State.reset : State where
  host :=
    { tags := [], order := [], roomWait := [], barriers := [], reports := [], protocolCount := 0, epochCount := 0 }
  map := { table := [], marks := [], poolBuilt := false, cursor := 0, fence := none, range := none }
  array :=
    { lineCount := 0, inFlight := [{ op := .ident, owner := .ident, step := 0, timedOut := false }], waiting := [] }
  buf := { entries := [], direct := [] }
  reloc :=
    { slots := [], reserved := none, queue := [], held := [], retireReads := [], pendingList := [], watch := [],
      deferred := 0 }
  jour :=
    { state := .ready, active := none, nextLine := 0, lastSeq := 0, queue := [], wait := [], line := none,
      compaction := none, faulted := [] }
  start := { op := .starting, phase := .ident, format := none }
  survey := { live := none, report := none }
  log := { trace := [], records := [], next := 1, cursor := 1, count := 0 }
  alert := { causes := 0, mask := BitVec.allOnes 10 }
  port := { receiver := .hunting, sending := none, waiting := [], command := none, stored := none }
  guard := { state := .open, attempts := 5, word := none }
  policy := { active := .default, staged := .default }
  tick := 0
  out := { host := [], array := [.linkReset, .ident], service := [] }
  ids := { event := 0, nextId := 0 }
  pending := []

end Sys2Proof.Machine
end

