-- ==== Sys2Proof/Machine/Flags.lean ====
section
/-! DEFINITION. The Alert Unit's flags (spec/09, R162 to R165) and the saturating and wrapping counts. -/

namespace Sys2Proof.Machine

/-- The number of a cause in R162, its bit in a set of causes (R188). -/
def AlertCause.index : AlertCause → Nat
  | .sparesLow => 0
  | .sparesOut => 1
  | .pendingHigh => 2
  | .pendingFull => 3
  | .deferred => 4
  | .deferredLost => 5
  | .journal => 6
  | .surveyEnd => 7
  | .protocol => 8
  | .logWrap => 9

/-- The set that holds one cause. -/
def AlertCause.bit (c : AlertCause) : BitVec 10 := 1#10 <<< c.index

/-- The level causes, SPARES_LOW and PENDING_HIGH; the other eight are latched (R162). -/
def levelCauses : BitVec 10 := AlertCause.sparesLow.bit ||| AlertCause.pendingHigh.bit

/-- Set a latched cause; set it stays set (R162). -/
def latch (c : AlertCause) (s : State) : State :=
  s.setAlert { s.alert with causes := s.alert.causes ||| c.bit }

/-- A level cause follows its condition (R162). -/
def followLevel (c : AlertCause) (condition : Bool) (causes : BitVec 10) : BitVec 10 :=
  if condition then causes ||| c.bit else causes &&& ~~~c.bit

/-- Is a cause set? -/
def State.hasCause (s : State) (c : AlertCause) : Bool := s.alert.causes.getLsbD c.index

/-- The ALERT output: at least one cause set and enabled (R163). -/
def State.alertOut (s : State) : Bool := s.alert.causes &&& s.alert.mask != 0#10

/-- One more, staying at 65535 (R24, R94, R155). -/
def saturate16 (n : Count16) : Count16 := if n = 0xFFFF#16 then n else n + 1

/-- One more, staying at 255 (R44, R106). -/
def saturate8 (n : Byte) : Byte := if n = 0xFF#8 then n else n + 1

end Sys2Proof.Machine
end

