-- ==== Sys2Proof/WellFormed.lean ====
section
/-! DEFINITION. Which commands are well formed: the operand checks that belong to the command itself and not to the state. -/

namespace Sys2Proof

/-- The twenty-six command codes of R192. -/
def knownCodes : List Byte :=
  [1, 2, 3, 4, 5, 6, 7, 8, 9, 10, 11, 32, 33, 34, 35, 36, 37, 64, 65, 66, 67, 68, 69, 96, 97, 98]

/-- A transfer kind that names no request (R189). -/
def notRequestKind (kind : Byte) : Bool := kind != 0 && kind != 1 && kind != 2

/-- Is this command well formed? A NON_REQUEST_TRANSFER has a kind byte other than 0, 1 and 2 (R189). An UNKNOWN_COMMAND has a
code outside the catalogue and at most 7 argument bytes (R168, R190). A policy field or a named argument out of range is no
ill-formed command: the part answers it RANGE (R192). -/
def Instr.wellFormed : Instr → Bool
  | .nonRequestTransfer kind => notRequestKind kind
  | .unknownCommand _ code args _ => !knownCodes.contains code && args.length ≤ 7
  | .powerOnReset | .resetInput | .hostRead _ _ | .hostWrite _ _ _ _ | .barrier _ | .hrst => true
  | .requestPresentation | .bufferRoomEntry | .arbiterGrant | .identAnswer _ => true
  | .journalLineReadAnswer _ | .hostReadAttemptAnswer _ | .rmwReadAnswer _ | .lineRetireReadAnswer _ => true
  | .surveyReadAnswer _ | .surveyGapExpiry | .drainWriteAnswer _ | .inPlaceWriteAnswer _ => true
  | .targetWriteAnswer _ | .finishingWriteAnswer _ | .fallbackWriteAnswer _ | .slotHandoff => true
  | .logLineWriteAnswer _ | .journalRecordJoin | .imageLineWriteAnswer _ | .formatLineWriteAnswer _ => true
  | .arrayOpTimeout | .lateAnswer _ | .quiesceEnd | .uptimeTick | .frameByteTimeout => true
  | .responseTransmitEnd | .identify _ _ | .status _ _ | .lookupLine _ _ _ | .mapSeek _ _ _ => true
  | .mapNext _ _ | .listRead _ _ _ _ | .faultNext _ _ | .faultRewind _ _ | .surveyReport _ _ => true
  | .policyRead _ _ _ | .alertRead _ _ | .surveyStart _ _ _ _ _ | .surveyStop _ _ => true
  | .alertAck _ _ _ | .alertMask _ _ _ | .policyStage _ _ _ _ _ _ _ _ | .journalCompact _ _ => true
  | .fenceAdjust _ _ _ _ | .lineRetire _ _ _ | .policyExchange _ _ | .faultClear _ _ => true
  | .journalFormat _ _ _ | .bridgeRestart _ _ | .guardLock _ _ _ | .guardUnlock _ _ _ => true
  | .guardFreeze _ _ | .serviceLinkByteArrival _ => true

end Sys2Proof
end

