-- ==== Sys2Proof/Decode.lean ====
section
/-! DEFINITION. Reading commands from bits. No row of spec/opcode_table.json gives bits, so `decodeTableWord` answers none
for every word. A host transfer (spec/11, section 11.2) is read from its bytes by `decodeTransfer`. -/

namespace Sys2Proof

/-- The command a word spells by the table's bits: the table gives none. -/
def decodeTableWord (_nbits _w : Nat) : Option Instr := none

/-- A list of bytes, most significant first, as one number of `w` bits (R188). -/
def bigEndian (w : Nat) (bytes : List Byte) : BitVec w :=
  bytes.foldl (fun acc b => (acc <<< 8) ||| b.setWidth w) 0#w

/-- 64 data bytes, byte 0 first, as line data. -/
def lineOfBytes : List Byte → LineData
  | [] => 0
  | b :: bs => (lineOfBytes bs <<< 8) ||| b.setWidth 512

/-- A transfer of the Host Link (spec/11, section 11.2): a READ of 5 bytes, a WRITE of 77 bytes, a BARRIER of 2 bytes, or a
transfer that is not a request (R189). A transfer of a request kind with another number of bytes has no meaning in the spec
and is refused. -/
def decodeTransfer : List Byte → Option Instr
  | [] => none
  | kind :: rest =>
    if notRequestKind kind then some (.nonRequestTransfer kind)
    else match rest with
      | [] => none
      | tag :: body =>
        if kind = 2 then
          if body.isEmpty then some (.barrier tag) else none
        else if kind = 0 then
          if body.length = 3 then some (.hostRead tag (bigEndian 24 body)) else none
        else
          if body.length = 75 then
            some (.hostWrite tag (bigEndian 24 (body.take 3)) (bigEndian 64 ((body.drop 3).take 8))
              (lineOfBytes (body.drop 11)))
          else none

end Sys2Proof
end

