-- ==== Sys2Proof/Machine/Formats.lean ====
section
/-! DEFINITION. Record and frame formats (spec/11): the encoding of fields, host responses, service frames with their frame
check, journal lines and records. -/

namespace Sys2Proof.Machine

/-! ### Encoding of fields (R188) -/

/-- One byte of a number, by its place from the low end. -/
def byteOf (n place : Nat) : Byte := BitVec.ofNat 8 (n >>> (8 * place))

/-- Two bytes, most significant first. -/
def enc16 (n : Nat) : List Byte := [byteOf n 1, byteOf n 0]

/-- Three bytes, most significant first: an HLA, ALA, F, S, C, first or count. A value that three bytes cannot hold (C = 2^24)
is sent as a free value (log 14). -/
def enc24 (n : Nat) : List Byte :=
  let v := if n < 2 ^ 24 then n else (Config.wide24 n).toNat
  [byteOf v 2, byteOf v 1, byteOf v 0]

/-- Four bytes, most significant first. -/
def enc32 (v : BitVec 32) : List Byte := [byteOf v.toNat 3, byteOf v.toNat 2, byteOf v.toNat 1, byteOf v.toNat 0]

/-- One byte. -/
def enc8 (n : Nat) : List Byte := [byteOf n 0]

/-- Yes or no. -/
def encBool (b : Bool) : List Byte := [if b then 1 else 0]

/-- An optional field: a presence byte, then the field when present. -/
def encOpt {α : Type} (f : α → List Byte) : Option α → List Byte
  | none => [0]
  | some v => 1 :: f v

/-- Fields one after another. -/
def encAll (fields : List (List Byte)) : List Byte := fields.flatten

/-! ### Codes of named values (section 11.1) -/

/-- Operating state codes. -/
def OpState.code : OpState → Nat
  | .starting => 0
  | .held _ => 1
  | .running => 2
  | .quiescing => 3

/-- HELD reason codes. -/
def HeldReason.code : HeldReason → Nat
  | .noArray => 0
  | .noJournal => 1

/-- Guard state codes. -/
def GuardState.code : GuardState → Nat
  | .open => 0
  | .locked => 1
  | .frozen => 2

/-- Journal state codes. -/
def JournalState.code : JournalState → Nat
  | .ready => 0
  | .appending => 1
  | .compacting => 2
  | .stalled => 3

/-- Survey outcome codes. -/
def SurveyOutcome.code : SurveyOutcome → Nat
  | .done => 0
  | .stopped => 1
  | .haltedFull => 2
  | .reset => 3

/-- Survey mode codes. -/
def SurveyMode.code : SurveyMode → Nat
  | .span => 0
  | .spares => 1

/-- Survey phase codes. -/
def SurveyPhase.code : SurveyPhase → Nat
  | .reading _ => 0
  | .gap _ => 1

/-- Relocation cause codes. -/
def RelocCause.code : RelocCause → Nat
  | .watch => 0
  | .retry => 1
  | .pendingWrite => 2
  | .writeFault => 3
  | .service => 4

/-- Pending origin codes. -/
def PendingOrigin.code : PendingOrigin → Nat
  | .hostRead => 0
  | .survey => 1
  | .spareRead => 2
  | .mergeRead => 3
  | .writeFault => 4
  | .relocate => 5
  | .service => 6

/-- Spare state codes. -/
def SpareState.code : SpareState → Nat
  | .free => 0
  | .held => 1
  | .bound => 2
  | .dead => 3

/-- Fault kind codes, 1 to 13. -/
def FaultKind.code : FaultKind → Nat
  | .uncorrectableRead => 1
  | .retryCorrected => 2
  | .homeWriteFault => 3
  | .spareWriteFault => 4
  | .relocateFail => 5
  | .dataLost => 6
  | .spareShort => 7
  | .pendingOverflow => 8
  | .journalWriteFault => 9
  | .replayTail => 10
  | .replayBank => 11
  | .replayRecord => 12
  | .protocol => 13

/-- Bank codes. -/
def Bank.code : Bank → Nat
  | .a => 0
  | .b => 1

/-- Blocker kinds of a BLOCKED answer (R51, R52). -/
inductive Blocker where
  | held
  | bound
  | dead
  | entry
  | pending
  | buffered
  | request
  deriving DecidableEq, Repr

/-- Blocker kind codes. -/
def Blocker.code : Blocker → Nat
  | .held => 0
  | .bound => 1
  | .dead => 2
  | .entry => 3
  | .pending => 4
  | .buffered => 5
  | .request => 6

/-- Response status codes (R191). -/
def Status.code : Status → Nat
  | .ok => 0
  | .empty => 1
  | .busy => 2
  | .unknown => 3
  | .state => 4
  | .range => 5
  | .stale => 6
  | .blocked => 8
  | .journalFault => 9
  | .refusedGuard => 10
  | .mismatch => 11
  | .attempts => 12
  | .pending => 13
  | .alreadyMoving => 14
  | .exhausted => 15
  | .failed => 16

/-- The command code of a command in progress (R192). -/
def LongCommand.code : LongCommand → Byte
  | .fenceAdjust _ => 64
  | .lineRetire _ _ => 65
  | .policyExchange => 66
  | .journalCompact => 37
  | .journalFormat => 68
  | .bridgeRestart => 69

/-! ### Host transfers (section 11.2) -/

/-- Request kind codes. -/
def ReqKind.code : ReqKind → Nat
  | .read => 0
  | .write => 1
  | .barrier => 2

/-- Host status codes. -/
def HostStatus.code : HostStatus → Nat
  | .ok => 0
  | .done => 0
  | .corrected => 1
  | .poisonHit => 1
  | .incomplete => 1
  | .poison => 2
  | .refused => 3

/-- Reason codes of a REFUSED response; other statuses send 0. -/
def RefuseReason.code : RefuseReason → Nat
  | .notReady => 0
  | .beyond => 1

/-- Report reason codes. -/
def ReportReason.code : ReportReason → Nat
  | .unreadableMerge => 0
  | .noSpare => 1
  | .dataLost => 2

/-- The 64 data bytes of a line, byte 0 first. -/
def bytesOfLine (d : LineData) : List Byte := (List.range 64).map fun i => BitVec.ofNat 8 (d.toNat >>> (8 * i))

/-- A host response as its transfer's bytes. -/
def HostResponse.bytes (r : HostResponse) : List Byte :=
  encAll
    [enc8 r.kind.code, enc8 r.tag.toNat, enc8 r.status.code,
      enc8 ((r.reason.map RefuseReason.code).getD 0),
      if r.kind = .read then [] else encOpt (fun p => enc24 p.hla ++ enc8 p.reason.code) r.report,
      (r.data.map bytesOfLine).getD []]

/-! ### Service frames (R190, R191) -/

/-- One bit of the cyclic check x^16 + x^12 + x^5 + 1, most significant bit first. -/
def crcBit (reg : BitVec 16) (bit : Bool) : BitVec 16 :=
  if reg.msb = bit then reg <<< 1 else (reg <<< 1) ^^^ 0x1021#16

/-- The bits of a byte, most significant first. -/
def bitsOf (b : Byte) : List Bool := [b.getLsbD 7, b.getLsbD 6, b.getLsbD 5, b.getLsbD 4, b.getLsbD 3, b.getLsbD 2,
  b.getLsbD 1, b.getLsbD 0]

/-- The frame check over the length byte and every byte after it up to the check: register preset to all ones, no final
inversion (R190). -/
def frameCheck (bytes : List Byte) : BitVec 16 := (bytes.flatMap bitsOf).foldl crcBit 0xFFFF#16

/-- A frame's bytes from the start marker, given what follows the length byte up to the check. -/
def frameBytes (body : List Byte) (check : BitVec 16) : List Byte :=
  Config.startMarker :: BitVec.ofNat 8 (body.length + 2) :: body ++ enc16 check.toNat

/-- A command frame's bytes as they arrive, with the frame check as received. -/
def commandFrame (seq code : Byte) (args : List Byte) (check : BitVec 16) : List Byte :=
  frameBytes (seq :: code :: args) check

/-- The frame check that a command frame with this content should carry. -/
def commandCheck (seq code : Byte) (args : List Byte) : BitVec 16 :=
  frameCheck (BitVec.ofNat 8 (args.length + 4) :: seq :: code :: args)

/-- A response frame's bytes. -/
def Response.bytes (r : Response) : List Byte :=
  let body := r.seq :: byteOf r.status.code 0 :: r.results
  frameBytes body (frameCheck (BitVec.ofNat 8 (body.length + 2) :: body))

/-- The argument lengths R192 lists for a known command code; none for an unknown code. -/
def argLengths (code : Byte) : Option (List Nat) :=
  match code.toNat with
  | 1 | 2 | 5 | 7 | 8 | 9 | 11 | 33 | 37 | 66 | 67 | 69 | 98 => some [0]
  | 3 | 4 | 65 => some [3]
  | 6 | 34 | 35 => some [2]
  | 10 => some [1]
  | 32 | 36 => some [7]
  | 64 => some [6]
  | 68 => some [0, 3]
  | 96 | 97 => some [4]
  | _ => none

/-! ### Policy packing (section 11.6) -/

/-- The seven bytes of a policy set. -/
def PolicySet.pack (p : PolicySet) : List Byte :=
  enc8 p.retryDepth ++ enc8 p.watchLimit ++ enc16 p.spareLow ++ enc8 p.pendingHigh ++ encBool p.posting ++ enc8 p.surveyGap

/-- Six field values as a policy set, or the first field out of its range in the order of R180. -/
def policyOf (retryDepth watchLimit spareLow pendingHigh posting surveyGap : Nat) : Except PolicyField PolicySet :=
  if 4 < retryDepth then .error .retryDepth
  else if watchLimit < 1 || 15 < watchLimit then .error .watchLimit
  else if 1024 < spareLow then .error .spareLow
  else if pendingHigh < 1 || 32 < pendingHigh then .error .pendingHigh
  else if 1 < posting then .error .posting
  else if 255 < surveyGap then .error .surveyGap
  else .ok { retryDepth, watchLimit, spareLow, pendingHigh, posting := posting == 1, surveyGap }

/-- Seven packed bytes as a policy set, or the first field out of range. -/
def unpackPolicy (bytes : List Byte) : Except PolicyField PolicySet :=
  let at_ (i : Nat) : Nat := (bytes.getD i 0).toNat
  policyOf (at_ 0) (at_ 1) (at_ 2 * 256 + at_ 3) (at_ 4) (at_ 5) (at_ 6)

/-! ### Journal lines and records (section 11.7, R116, R193) -/

/-- The nine bytes of a record place. -/
def Record.bytes : Record → List Byte
  | .bind home spare => 1 :: enc24 home ++ enc24 spare ++ [0, 0]
  | .dead spare => 2 :: enc24 spare ++ [0, 0, 0, 0, 0]
  | .fence f => 3 :: enc24 f ++ [0, 0, 0, 0, 0]
  | .policy set => 4 :: set.pack ++ [0]

/-- A journal line's 64 data bytes: header, records in places from 0 upward, the rest 0. -/
def journalLine (seq : Seq32) (bank : Bank) (image commit : Bool) (records : List Record) : LineData :=
  let flags := (if image then 1 else 0) + (if commit then 2 else 0)
  lineOfBytes (enc32 seq ++ enc8 bank.code ++ enc8 flags ++ enc8 records.length ++ [0, 0, 0] ++ records.flatMap Record.bytes)

/-- A readable journal line's header (R116) and its record places. -/
structure JournalHeader where
  seq : Seq32
  image : Bool
  commit : Bool
  places : List (List Byte)
  deriving DecidableEq, Repr

/-- The record places of a line, `n` of them from place `k`. -/
def recordPlaces (bytes : List Byte) : Nat → List (List Byte)
  | 0 => []
  | n + 1 => recordPlaces bytes n ++ [(bytes.drop (10 + 9 * n)).take 9]

/-- The header of a line read from a bank, when the line is readable: its bank byte names the bank and its record count lies
from 1 to 6 (R116, R193). -/
def decodeJournalLine (bank : Bank) (d : LineData) : Option JournalHeader :=
  let bytes := bytesOfLine d
  let at_ (i : Nat) : Byte := bytes.getD i 0
  let count := (at_ 6).toNat
  if (at_ 4).toNat = bank.code ∧ 1 ≤ count ∧ count ≤ Config.recordsPerLine then
    some
      { seq := bigEndian 32 (bytes.take 4)
        image := (at_ 5).getLsbD 0
        commit := (at_ 5).getLsbD 1
        places := recordPlaces bytes count }
  else none

/-- A record place as replay decodes it (R193). -/
inductive DecodedRecord where
  /-- a record of a known kind with its values -/
  | known (r : Record)
  /-- a POLICY record with a field out of range -/
  | badPolicy
  /-- a kind byte that is not 1 to 4 -/
  | unknownKind
  deriving DecidableEq, Repr

/-- Three bytes of a record place from an offset, as a line number. -/
def placeLine (place : List Byte) (at_ : Nat) : Nat := (bigEndian 24 ((place.drop at_).take 3)).toNat

/-- The record in a place (R193). -/
def decodeRecord (place : List Byte) : DecodedRecord :=
  match (place.getD 0 0).toNat with
  | 1 => .known (.bind (placeLine place 1) (placeLine place 4))
  | 2 => .known (.dead (placeLine place 1))
  | 3 => .known (.fence (placeLine place 1))
  | 4 =>
    match unpackPolicy ((place.drop 1).take 7) with
    | .ok set => .known (.policy set)
    | .error _ => .badPolicy
  | _ => .unknownKind

end Sys2Proof.Machine
end

