-- ==== Sys2Proof/Machine/Operands.lean ====
section
/-! DEFINITION. The operands that commands bring: merging a write's enabled bytes into a line, and the line checker, which
classifies a line the array returned (spec/04, R64, R65). -/

namespace Sys2Proof.Machine

/-- The bits of a line that a mask enables: eight for each enabled byte. -/
def spreadMask (m : Mask) : LineData := BitVec.ofFnLE fun i : Fin 512 => m.getLsbD (i.val / 8)

/-- A line with the bytes a mask enables taken from `new` (R21, R76). -/
def mergeLine (old new : LineData) (m : Mask) : LineData := (new &&& spreadMask m) ||| (old &&& ~~~spreadMask m)

/-- The mask of a full write (R21). -/
def fullMask : Mask := BitVec.allOnes 64

/-- Byte `i` of a line. -/
def lineByte (d : LineData) (i : Nat) : Byte := BitVec.ofNat 8 (d.toNat >>> (8 * i))

/-- How many of the 64 data bytes of two lines differ. -/
def differingBytes (a b : LineData) : Nat := ((List.range 64).filter fun i => lineByte a i != lineByte b i).length

/-- How many of the 8 check bytes have a flipped bit. -/
def defectiveCheckBytes (flips : BitVec 64) : Nat :=
  ((List.range 8).filter fun i => BitVec.ofNat 8 (flips.toNat >>> (8 * i)) != 0).length

/-- The data a verdict hands on (R64): the bytes as read when CLEAN, the bytes as read with one byte repaired when CORRECTED. -/
def handOn (read : LineData) : Verdict → Classification
  | .clean => .clean read
  | .repaired byte flips => .corrected (read ^^^ (flips.setWidth 512 <<< (8 * byte.val)))
  | .uncorrectable => .uncorrectable

/-- A line with three or more defective bytes is never taken for the data written: what the checker hands on of it differs from them
(R64), and a verdict that would hand them on is UNCORRECTABLE (log 9). -/
def neverWritten (written : LineData) : Classification → Classification
  | .clean data => if data = written then .uncorrectable else .clean data
  | .corrected data => if data = written then .uncorrectable else .corrected data
  | .uncorrectable => .uncorrectable

/-- The line checker on a line of this ala (R64), by its defective data bytes and its defective check bytes: none is CLEAN; one data
byte alone is CORRECTED to the data written; one check byte alone is CORRECTED with the data as read, or UNCORRECTABLE (log 10);
two of either kind are UNCORRECTABLE; more are a free value, of those that do not hand on the data written (log 9). -/
def classifyOwn (ala : Nat) (written read : LineData) (flips : BitVec 64) : Classification :=
  match differingBytes written read, defectiveCheckBytes flips with
  | 0, 0 => .clean read
  | 1, 0 => .corrected written
  | 0, 1 => if Config.checkByteRepaired ala read flips then .corrected read else .uncorrectable
  | dataBytes, checkBytes =>
    if dataBytes + checkBytes = 2 then .uncorrectable
    else neverWritten written (handOn read (Config.manyDefects ala written read flips))

/-- The line checker (R64, R65). Check bytes the bridge computed for another ala: UNCORRECTABLE. For this ala: by the defective
bytes. Check bytes of a line the bridge never wrote: a free value (log 10). -/
def classify (ala : Nat) (line : ArrayLine) : Classification :=
  match line.check with
  | .raw bits => handOn line.data (Config.foreignLine ala line.data bits)
  | .code place written => if place ≠ ala then .uncorrectable else classifyOwn ala written line.data 0
  | .damaged place written flips => if place ≠ ala then .uncorrectable else classifyOwn ala written line.data flips

/-- The line the array holds after the bridge wrote this data at this ala without defect (R56). -/
def writtenLine (ala : Nat) (data : LineData) : ArrayLine := { data, check := .code ala data }

end Sys2Proof.Machine
end

