-- ==== Sys2Proof/Machine/Ops.lean ====
section
/-! DEFINITION. The shared operations on the state: the Fault Log, host responses and barriers, the Remap Table and the Spare
Pool, placing requests with the arbiter, offering journal records, and completing service commands. -/

namespace Sys2Proof.Machine

/-! ### Events and identities (log 24) -/

/-- The state at the start of the next event. -/
def nextEvent (s : State) : State := s.setIds { s.ids with event := s.ids.event + 1 }

/-- The state after the next identity has been taken; the identity is `s.ids.nextId`. -/
def takeId (s : State) : State := s.setIds { s.ids with nextId := s.ids.nextId + 1 }

/-- A list in a free order: at each place one of the elements left is taken, which one is a free value (log 13). -/
def freeOrder {α : Type} (event : Nat) : Nat → List α → List α
  | 0, l => l
  | n + 1, l =>
    match l with
    | [] => []
    | [a] => [a]
    | a :: b :: rest =>
      let all := a :: b :: rest
      let i := Config.pick event all.length % all.length
      match all[i]? with
      | some x => x :: freeOrder event n (all.eraseIdx i)
      | none => all

/-! ### Request Trace and Fault Log (R153, R155, R158) -/

/-- Add an arrival to the Request Trace; the oldest of four leaves (R153). -/
def addTrace (kind : ReqKind) (tag : Tag) (hla : Option Nat) (s : State) : State :=
  let old := if s.log.trace.length < Config.traceLimit then s.log.trace else s.log.trace.drop 1
  s.setLog { s.log with trace := old ++ [{ kind, tag, hla, tick := s.tick }] }

/-- The record that would be written now (R154, R155). -/
def newRecord (kind : FaultKind) (hla ala step : Option Nat) (s : State) : FaultRecord :=
  { seq := s.log.next, kind, tick := s.tick, hla, ala, step, trace := s.log.trace }

/-- The oldest record, when it must leave for a new one and is unread: the cursor names it (R157, R158). -/
def overwritesUnread (s : State) : Bool :=
  Config.faultLimit ≤ s.log.records.length && (s.log.records.head?.map (·.seq)) == some s.log.cursor

/-- Write a fault record (R155): it takes the next sequence, the tick and the trace; the oldest of 16 leaves, and if it was
unread LOG_WRAP latches and the cursor moves to the oldest record now held (R158). -/
def writeFault (kind : FaultKind) (hla ala step : Option Nat) (s : State) : State :=
  let r := newRecord kind hla ala step s
  let kept := if Config.faultLimit ≤ s.log.records.length then s.log.records.drop 1 else s.log.records
  let records := kept ++ [r]
  let cursor := if overwritesUnread s then (records.head?.map (·.seq)).getD s.log.next else s.log.cursor
  let t := if overwritesUnread s then latch .logWrap s else s
  t.setLog { s.log with records, cursor, next := s.log.next + 1, count := saturate16 s.log.count }

/-! ### Host responses, deferred reports, barriers (R22, R31 to R35) -/

/-- Queue a deferred report (R34). -/
def queueReport (hla : Nat) (reason : ReportReason) (s : State) : State :=
  if s.host.reports.length < Config.reportLimit then
    latch .deferred (s.setHost { s.host with reports := s.host.reports ++ [{ hla, reason }] })
  else latch .deferredLost s

/-- A response leaves: a WRITE or BARRIER response takes the head report (R35), and the tag is released (R23). -/
def sendResponse (kind : ReqKind) (tag : Tag) (status : HostStatus) (reason : Option RefuseReason)
    (data : Option LineData) (s : State) : State :=
  let report := if kind = .read then none else s.host.reports.head?
  let reports := if kind = .read then s.host.reports else s.host.reports.drop 1
  (s.setHost { s.host with tags := s.host.tags.filter (· != tag), reports }).setOut
    { s.out with host := s.out.host ++ [{ kind, tag, status, reason, report, data }] }

/-- Is data of this ack epoch in the covered set of this barrier (R78)? -/
def coveredBy (b : Barrier) : Option Nat → Bool
  | some e => e ≤ b.epoch
  | none => false

/-- Does a barrier cover data in the Write Buffer or in a slot (R31)? -/
def coversSomething (s : State) (b : Barrier) : Bool :=
  s.buf.entries.any (fun e => coveredBy b e.epoch) || s.reloc.slots.any (fun q => coveredBy b q.epoch)

/-- Does an entry wait for a slot? -/
def waitsForSlot (s : State) (id : Nat) : Bool :=
  s.reloc.queue.any fun
    | .request (.entry e) _ _ => e == id
    | _ => false

/-- Does a barrier cover data held in a slot, or waiting for one (R32)? -/
def coversSlotData (s : State) (b : Barrier) : Bool :=
  s.reloc.slots.any (fun q => coveredBy b q.epoch) ||
    s.buf.entries.any fun e => coveredBy b e.epoch && waitsForSlot s e.id

/-- What a waiting barrier is answered now, if anything (R31, R32). -/
def barrierVerdict (s : State) (b : Barrier) : Option HostStatus :=
  if s.jour.state = .stalled ∧ coversSlotData s b then some .incomplete
  else if coversSomething s b then none
  else some .done

/-- Answer the waiting barriers for which a verdict is given, in a free order (R33, log 13). -/
def answerBarriers (verdict : Barrier → Option HostStatus) (s : State) : State :=
  let answered := s.host.barriers.filter fun b => (verdict b).isSome
  let rest := s.host.barriers.filter fun b => (verdict b).isNone
  (freeOrder s.ids.event answered.length answered).foldl
    (fun t b =>
      match verdict b with
      | some status => sendResponse .barrier b.tag status none none t
      | none => t)
    (s.setHost { s.host with barriers := rest })

/-- Answer every barrier whose answer is due (R31, R32). -/
def settleBarriers (s : State) : State := answerBarriers (barrierVerdict s) s

/-- Data of this ack epoch has been discarded: the barriers covering it are answered INCOMPLETE (R32). -/
def failCovered (epoch : Option Nat) (s : State) : State :=
  answerBarriers (fun b => if coveredBy b epoch then some .incomplete else none) s

/-! ### The same-line order (R26) -/

/-- The request of an identity. -/
def findReq (s : State) (id : Nat) : Option HostReq := s.host.order.find? (·.id == id)

/-- The request leaves its line's order (R26). -/
def dropReq (id : Nat) (s : State) : State :=
  s.setHost { s.host with order := s.host.order.filter (·.id != id) }

/-- Change where a request stands. -/
def setStage (id : Nat) (stage : ReqStage) (s : State) : State :=
  s.setHost { s.host with order := s.host.order.map fun r => if r.id == id then { r with stage } else r }

/-- Answer a request, if its tag is still outstanding (R36), as it leaves its line's order. -/
def answerReq (r : HostReq) (kind : ReqKind) (status : HostStatus) (data : Option LineData) (s : State) : State :=
  let t := dropReq r.id s
  if r.live then sendResponse kind r.tag status none data t else t

/-! ### Remap Table, Spare Pool, fence (R1 to R14, R49) -/

/-- The remap entry of a home (R3). -/
def entryOf (s : State) (home : Nat) : Option RemapEntry := s.map.table.find? (·.home == home)

/-- Is the home's entry MOVING (R1)? -/
def isMoving (s : State) (home : Nat) : Bool := ((entryOf s home).bind (·.target)).isSome

/-- The array line that serves a home: the spare of a BOUND entry, the home otherwise (R41, R80). -/
def servingPlace (s : State) (home : Nat) : Nat := ((entryOf s home).bind (·.spare)).getD home

/-- Put an entry into a table ordered by home, replacing the entry of the same home (R2, R3). -/
def insertEntry (e : RemapEntry) : List RemapEntry → List RemapEntry
  | [] => [e]
  | x :: xs => if e.home < x.home then e :: x :: xs else if e.home = x.home then e :: xs else x :: insertEntry e xs

/-- Set the entry of a home. -/
def setEntry (e : RemapEntry) (s : State) : State := s.setMap { s.map with table := insertEntry e s.map.table }

/-- Remove the entry of a home. -/
def removeEntry (home : Nat) (s : State) : State :=
  s.setMap { s.map with table := s.map.table.filter (·.home != home) }

/-- The first line after the spare reserve, C-J. -/
def reserveEnd (s : State) : Nat := s.array.lineCount - Config.journalLines

/-- The fence as STATUS reports it: 0 while cleared (R49). -/
def fenceValue (s : State) : Nat := s.map.fence.getD 0

/-- The spare count S: 0 while the fence is cleared (R49). -/
def spareCount (s : State) : Nat :=
  match s.map.fence with
  | some f => reserveEnd s - f
  | none => 0

/-- Does a line lie in the spare reserve [F, C-J)? -/
def inReserve (s : State) (ala : Nat) : Bool :=
  match s.map.fence with
  | some f => f ≤ ala && ala < reserveEnd s
  | none => false

/-- The mark of a reserve line that is not FREE. -/
def markOf (marks : List SpareMark) (ala : Nat) : Option SpareState := (marks.find? (·.ala == ala)).map (·.state)

/-- Mark a line, in a list ordered by ala. -/
def insertMark (ala : Nat) (state : SpareState) : List SpareMark → List SpareMark
  | [] => [{ ala, state }]
  | x :: xs =>
    if ala < x.ala then { ala, state } :: x :: xs
    else if ala = x.ala then { ala, state } :: xs
    else x :: insertMark ala state xs

/-- Give a reserve line the state HELD, BOUND or DEAD (R7). -/
def setMark (ala : Nat) (state : SpareState) (s : State) : State :=
  s.setMap { s.map with marks := insertMark ala state s.map.marks }

/-- The spare state of a line of the reserve (R6); none outside it, and for a line that start-up has not yet assigned. -/
def spareStateOf (s : State) (ala : Nat) : Option SpareState :=
  if inReserve s ala then
    match markOf s.map.marks ala with
    | some state => some state
    | none => if s.map.poolBuilt then some .free else none
  else none

/-- The number of reserve lines in one marked state (R12). -/
def countMarks (s : State) (state : SpareState) : Nat := (s.map.marks.filter (·.state == state)).length

/-- The free count (R12). -/
def freeCount (s : State) : Nat := if s.map.poolBuilt then spareCount s - s.map.marks.length else 0

/-- Does a line lie in a range of a fence move of this kind? -/
def inRange (s : State) (kind : RangeKind) (line : Nat) : Bool :=
  match s.map.range with
  | some r => r.kind == kind && r.lo ≤ line && line < r.hi
  | none => false

/-- The FREE spare with the lowest ala, leaving aside a withdrawal range (R8). -/
def lowestFree (s : State) : Option Nat :=
  (List.range' (fenceValue s) (spareCount s)).find? fun a =>
    spareStateOf s a == some .free && !inRange s .withdrawal a

/-- SPARES_LOW and PENDING_HIGH follow their conditions (R13, R109). -/
def evalLevels (s : State) : State :=
  let low := (s.start.op == .running || s.start.op == .quiescing) && freeCount s ≤ s.policy.active.spareLow
  let high := s.policy.active.pendingHigh ≤ s.reloc.pendingList.length
  s.setAlert
    { s.alert with causes := followLevel .pendingHigh high (followLevel .sparesLow low s.alert.causes) }

/-! ### Write Buffer items (R74, R88) -/

/-- The entry or direct write a reference names. -/
def findItem (s : State) : ItemRef → Option Item
  | .entry id => s.buf.entries.find? (·.id == id)
  | .direct id => s.buf.direct.find? (·.id == id)

/-- Change an entry or direct write. -/
def updateItem (ref : ItemRef) (f : Item → Item) (s : State) : State :=
  match ref with
  | .entry id => s.setBuf { s.buf with entries := s.buf.entries.map fun e => if e.id == id then f e else e }
  | .direct id => s.setBuf { s.buf with direct := s.buf.direct.map fun e => if e.id == id then f e else e }

/-- A READ waiting on an entry that leaves is to be routed again from the top (R42). -/
def requeueWaiters (entry : Nat) (s : State) : State :=
  s.setHost
    { s.host with
      order := s.host.order.map fun r => if r.stage = .waitEntry entry then { r with stage := .queued } else r }

/-- An entry leaves the buffer, or a direct write leaves the direct path and its line's order (R81, R88). -/
def leaveItem (ref : ItemRef) (s : State) : State :=
  match ref with
  | .entry id => requeueWaiters id (s.setBuf { s.buf with entries := s.buf.entries.filter (·.id != id) })
  | .direct id => dropReq id (s.setBuf { s.buf with direct := s.buf.direct.filter (·.id != id) })

/-- The waiting write that a direct write becomes when its data passes to a slot; an entry brings none (R96). -/
def waitingWriteOf (s : State) : ItemRef → List WaitingWrite
  | .entry _ => []
  | .direct id => ((findReq s id).map fun r => { tag := r.tag, live := r.live }).toList

/-- An item whose data has reached its durable place leaves; a direct write still outstanding is answered DONE (R29, R85). -/
def completeItem (ref : ItemRef) (s : State) : State :=
  match ref with
  | .entry _ => leaveItem ref s
  | .direct id =>
    let t := leaveItem ref s
    match findReq s id with
    | some r => if r.live then sendResponse .write r.tag .done none none t else t
    | none => t

/-- An item's data is discarded (R30, R37): a posted write, or a direct write whose tag was released, queues a report; a
direct write still outstanding is answered POISON_HIT. The item leaves and barriers covering it are INCOMPLETE (R32). -/
def discardItem (ref : ItemRef) (item : Item) (reason : ReportReason) (s : State) : State :=
  match ref with
  | .entry _ => failCovered item.epoch (leaveItem ref (queueReport item.hla reason s))
  | .direct id =>
    match findReq s id with
    | some r =>
      if r.live then sendResponse .write r.tag .poisonHit none none (leaveItem ref s)
      else leaveItem ref (queueReport item.hla reason s)
    | none => leaveItem ref (queueReport item.hla reason s)

/-! ### The arbiter's waiting list (R61) -/

/-- Place a request with the arbiter, aged in this event. -/
def placeRequest (body : ReqBody) (s : State) : State :=
  let age : Age := { event := s.ids.event, direct := false, order := s.ids.nextId }
  takeId (s.setArray { s.array with waiting := s.array.waiting ++ [{ body, age }] })

/-- Place a request with a given age: a later attempt keeps the age of step 0 (R61). -/
def placeAged (body : ReqBody) (age : Age) (s : State) : State :=
  s.setArray { s.array with waiting := s.array.waiting ++ [{ body, age }] }

/-- The age a request placed next in this event takes. -/
def ageNow (s : State) : Age := { event := s.ids.event, direct := false, order := s.ids.nextId }

/-- Withdraw the waiting requests with this body (R61). -/
def withdraw (body : ReqBody) (s : State) : State :=
  s.setArray { s.array with waiting := s.array.waiting.filter (·.body != body) }

/-! ### Journal records (R119) -/

/-- Offer a record: it joins the queue, or waits outside when the queue holds 16 (R119). -/
def offerRecord (r : Record) (s : State) : State :=
  if s.jour.queue.length < Config.queueLimit then
    s.setJour { s.jour with queue := s.jour.queue ++ [r] }
  else s.setJour { s.jour with wait := s.jour.wait ++ [r] }

/-- A spare becomes DEAD and its DEAD record is queued (R10, R11). -/
def killSpare (ala : Nat) (s : State) : State := offerRecord (.dead ala) (setMark ala .dead s)

/-! ### Service responses (R169 to R171) -/

/-- Begin the transmission of a waiting response when the transmitter is idle and the receiver is HUNTING (R171). -/
def beginTransmit (s : State) : State :=
  match s.port.sending, s.port.receiver, s.port.waiting with
  | none, .hunting, r :: rest => s.setPort { s.port with sending := some r, waiting := rest }
  | _, _, _ => s

/-- A response becomes ready (R171). -/
def readyResponse (r : Response) (s : State) : State :=
  beginTransmit (s.setPort { s.port with waiting := s.port.waiting ++ [r] })

/-- A command completes: its response is stored, with the last sequence, and becomes ready (R170). -/
def completeCommand (seq : Byte) (status : Status) (results : List Byte) (s : State) : State :=
  let r : Response := { seq, status, results }
  readyResponse r (s.setPort { s.port with command := none, stored := some r })

/-- The command in progress completes. -/
def completeCurrent (status : Status) (results : List Byte) (s : State) : State :=
  match s.port.command with
  | some c => completeCommand c.seq status results s
  | none => s

/-- The long command in progress, if any. -/
def currentCommand (s : State) : Option LongCommand := s.port.command.map (·.command)

/-- F and S as results. -/
def fenceResults (s : State) : List Byte := enc24 (fenceValue s) ++ enc24 (spareCount s)

end Sys2Proof.Machine
end

