-- ==== Sys2Proof/Machine/Retirement.lean ====
section
/-! DEFINITION. The Relocation Engine (spec/06): slots and merges, the Pending List, the Watch Table, allocation, admission,
the slot queue, bindings and returns. -/

namespace Sys2Proof.Machine

/-! ### Slots (R96, R97, R100) -/

/-- The slot of a home. -/
def findSlot (s : State) (home : Nat) : Option Slot := s.reloc.slots.find? (·.home == home)

/-- The slot that holds a MOVING line's data (R40). -/
def movingSlot (s : State) (home : Nat) : Option Slot := if isMoving s home then findSlot s home else none

/-- Change the slot of a home. -/
def updateSlot (home : Nat) (f : Slot → Slot) (s : State) : State :=
  s.setReloc { s.reloc with slots := s.reloc.slots.map fun q => if q.home == home then f q else q }

/-- How many of the four slots are busy; one that holds a LINE_RETIRE reservation is (R112). -/
def Retirement.busy (r : Retirement) : Nat := r.slots.length + (if r.reserved.isSome then 1 else 0)

/-- Is one of the four slots free (R93)? -/
def slotFree (s : State) : Bool := s.reloc.busy < Config.slotCount

/-- Is a write of the slot of this home in flight (R97)? A timed-out one is not; one whose outcome is held is, for its outcome has
not been taken (log 39). -/
def slotWriteInFlight (s : State) (home : Nat) : Bool :=
  (s.array.inFlight.any fun f =>
    !f.timedOut &&
      match f.owner with
      | .slotWrite h _ => h == home
      | _ => false) ||
    s.reloc.held.any (·.home == home)

/-- The lower of two optional epochs (R96). -/
def lowerEpoch : Option Nat → Option Nat → Option Nat
  | none, e => e
  | e, none => e
  | some a, some b => some (min a b)

/-- Merge bytes into the slot of a home (R100): the data changes; dirty is set while a write of the slot is in flight or the
slot is JOURNALING (R97); the slot keeps the lower ack epoch and takes the waiting writes (R96). -/
def mergeSlot (home : Nat) (data : LineData) (mask : Mask) (epoch : Option Nat) (writes : List WaitingWrite)
    (s : State) : State :=
  let flying := slotWriteInFlight s home
  updateSlot home
    (fun q =>
      { q with
        data := mergeLine q.data data mask
        dirty := q.dirty || flying || q.state == .journaling
        epoch := lowerEpoch q.epoch epoch
        waiting := q.waiting ++ writes })
    s

/-- An item translated or ended while its line is MOVING: its bytes, epoch and tag pass to the slot, and it leaves (R81, R86). -/
def mergeItem (ref : ItemRef) (item : Item) (s : State) : State :=
  leaveItem ref (mergeSlot item.hla item.data item.mask item.epoch (waitingWriteOf s ref) s)

/-! ### Pending List (R106 to R108) -/

/-- Is a line on the Pending List? -/
def isPending (s : State) (hla : Nat) : Bool := s.reloc.pendingList.any (·.hla == hla)

/-- The Watch Table entry of a line is removed, if there is one (R111). -/
def unwatch (hla : Nat) (s : State) : State :=
  s.setReloc { s.reloc with watch := s.reloc.watch.filter (·.hla != hla) }

/-- A line leaves the Pending List (R108). -/
def unpend (hla : Nat) (s : State) : State :=
  s.setReloc { s.reloc with pendingList := s.reloc.pendingList.filter (·.hla != hla) }

/-- One more hit of a pending line, to at most 255 (R44, R106). -/
def hitPending (hla : Nat) (s : State) : State :=
  s.setReloc
    { s.reloc with
      pendingList := s.reloc.pendingList.map fun p => if p.hla == hla then { p with hits := saturate8 p.hits } else p }

/-- Does this origin count the READ that made the add (R106)? -/
def countsHit : PendingOrigin → Bool
  | .hostRead | .spareRead => true
  | .survey | .mergeRead | .writeFault | .relocate | .service => false

/-- Would an add of this line be dropped for fullness (R106, R107)? -/
def addDropped (s : State) (hla : Nat) : Bool :=
  !isMoving s hla && !isPending s hla && Config.pendingLimit ≤ s.reloc.pendingList.length

/-- A dropped add latches PENDING_FULL and writes PENDING_OVERFLOW (R107). -/
def dropAdd (hla : Nat) (s : State) : State := writeFault .pendingOverflow (some hla) none none (latch .pendingFull s)

/-- A Pending List add, by the first row of R106 that applies; an add that finds the list full is dropped (R107). -/
def pendingAdd (hla : Nat) (origin : PendingOrigin) (s : State) : State :=
  if isMoving s hla then s
  else if isPending s hla then (if countsHit origin then hitPending hla s else s)
  else if Config.pendingLimit ≤ s.reloc.pendingList.length then
    dropAdd hla s
  else
    let entry : PendingEntry := { hla, origin, entered := s.tick, hits := if countsHit origin then 1 else 0 }
    unwatch hla (s.setReloc { s.reloc with pendingList := s.reloc.pendingList ++ [entry] })

/-! ### Allocation and the start of a relocation (R8, R9, R96) -/

/-- Allocate the lowest FREE spare, which becomes HELD, or latch SPARES_OUT (R8, R9). -/
def allocate (s : State) : Option Nat × State :=
  match lowestFree s with
  | some a => (some a, setMark a .held s)
  | none => (none, latch .sparesOut s)

/-- Allocate a spare for a home (R8, R9), which is a host line and not MOVING (R2, R4: in every state a run reaches, log 40). -/
def allocateFor (home : Nat) (s : State) : Option Nat × State :=
  if home < fenceValue s && !isMoving s home then allocate s else (none, s)

/-- The entry of a home whose relocation begins (R4, first two rows). -/
def beginEntry (s : State) (home spare : Nat) (cause : RelocCause) : RemapEntry :=
  match entryOf s home with
  | some e => { e with target := some spare, cause := some cause }
  | none => { home, spare := none, target := some spare, cause := some cause, boundTick := none }

/-- A relocation begins in a slot with an allocated spare (R96, steps 1 to 4 and 7). The slot is a free one, or the one that a
LINE_RETIRE reservation of the home holds (R112). -/
def beginRelocation (home spare : Nat) (cause : RelocCause) (data : LineData) (epoch : Option Nat)
    (writes : List WaitingWrite) (s : State) : State :=
  let s1 := setEntry (beginEntry s home spare cause) s
  let slot : Slot := { home, data, state := .writing, dirty := false, attempts := 1, epoch, waiting := writes }
  let s2 := s1.setReloc
    { s1.reloc with
      slots := s1.reloc.slots ++ [slot]
      reserved := if s1.reloc.reserved = some home then none else s1.reloc.reserved }
  let s3 := unwatch home s2
  let s4 := if cause = .pendingWrite ∨ cause = .writeFault then unpend home s3 else s3
  placeRequest (.slotWrite home) s4

/-! ### Requests that carry host write data (R91 to R95) -/

/-- Does a LINE_RETIRE reservation stand for this home, in a slot or in the queue (R91)? -/
def reservationFor (s : State) (home : Nat) : Bool :=
  s.reloc.reserved == some home || s.reloc.queue.contains (.reservation home)

/-- Does a PENDING_WRITE or WRITE_FAULT request for this home wait for a slot? -/
def requestWaits (s : State) (home : Nat) : Bool :=
  s.reloc.queue.any fun
    | .request _ h _ => h == home
    | .reservation _ => false

/-- Does the home have a relocation in progress (R91)? -/
def relocationInProgress (s : State) (home : Nat) : Bool :=
  isMoving s home || requestWaits s home || reservationFor s home

/-- A pending line's healing write is placed to the place that serves the line, for want of a spare (R95). -/
def healInPlace (ref : ItemRef) (item : Item) (s : State) : State :=
  let ala := servingPlace s item.hla
  let s1 := updateItem ref (fun e => { e with place := ala }) s
  writeFault .spareShort (some item.hla) (some ala) none (placeRequest (.inPlace ref) s1)

/-- A write fault that finds no spare (R87): the line is added to the Pending List, HOME_WRITE_FAULT is written, the data is
discarded with reason NO_SPARE. -/
def loseItem (ref : ItemRef) (item : Item) (s : State) : State :=
  discardItem ref item .noSpare
    (writeFault .homeWriteFault (some item.hla) (some item.place) none (pendingAdd item.hla .writeFault s))

/-- Admit an item's request with a slot known free (R92): the relocation begins and the item leaves, or the failed allocation
leads to the in-place write or to the loss of the line. -/
def admitItem (ref : ItemRef) (item : Item) (cause : RelocCause) (s : State) : State :=
  match allocateFor item.hla s with
  | (some spare, t) =>
    leaveItem ref (beginRelocation item.hla spare cause item.data item.epoch (waitingWriteOf t ref) t)
  | (none, t) => if cause = .pendingWrite then healInPlace ref item t else loseItem ref item t

/-- Offer an item's PENDING_WRITE or WRITE_FAULT request (R91, R92, R93): the item is RELOCATING; while a LINE_RETIRE
reservation stands for the home, or no slot is free, the request joins the slot queue. -/
def offerItem (ref : ItemRef) (item : Item) (cause : RelocCause) (s : State) : State :=
  let s1 := updateItem ref (fun e => { e with phase := .relocating }) s
  if !reservationFor s item.hla && slotFree s then admitItem ref item cause s1
  else s1.setReloc { s1.reloc with queue := s1.reloc.queue ++ [.request ref item.hla cause] }

/-! ### WATCH and RETRY requests, the Watch Table (R94, R110, R111) -/

/-- A dropped request re-watches its line: front of the table, count at the limit, and the relocations-deferred count rises
(R94). -/
def rewatch (hla : Nat) (s : State) : State :=
  let others := s.reloc.watch.filter (·.hla != hla)
  let entry : WatchEntry := { hla, count := s.policy.active.watchLimit, last := s.tick }
  s.setReloc
    { s.reloc with
      watch := entry :: others.take (Config.watchEntries - 1)
      deferred := saturate16 s.reloc.deferred }

/-- Offer a WATCH or RETRY request (R91, R92): discarded for a pending line or one with a relocation in progress; otherwise
admitted, or dropped and re-watched. -/
def offerRead (cause : RelocCause) (home : Nat) (data : LineData) (s : State) : State :=
  if isPending s home || relocationInProgress s home then s
  else if slotFree s then
    match allocateFor home s with
    | (some spare, t) => beginRelocation home spare cause data none [] t
    | (none, t) => rewatch home t
  else rewatch home s

/-- The Watch Table entry a watch update gives a line (R110). -/
def watchedEntry (s : State) (hla : Nat) : WatchEntry :=
  match s.reloc.watch.find? (·.hla == hla) with
  | some w => { w with count := min (w.count + 1) Config.watchCountMax, last := s.tick }
  | none => { hla, count := 1, last := s.tick }

/-- A watch update (R110), and the WATCH request at WATCH_LIMIT (R111). -/
def watchUpdate (hla : Nat) (data : LineData) (s : State) : State :=
  if isPending s hla || isMoving s hla then s
  else
    let entry := watchedEntry s hla
    let others := s.reloc.watch.filter (·.hla != hla)
    if s.policy.active.watchLimit ≤ entry.count then
      offerRead .watch hla data
        (s.setReloc { s.reloc with watch := others.take (Config.watchEntries - 1) })
    else s.setReloc { s.reloc with watch := entry :: others.take (Config.watchEntries - 1) }

/-! ### Dispatch of a read's final outcome (R67, R68, R69) -/

/-- The effects on the tables of a host, read-modify-write or SPAN survey read that ended at this step (R67, R68, R144). -/
def dispatchRead (hla ala step : Nat) (origin : PendingOrigin) (outcome : Classification) (s : State) : State :=
  match outcome with
  | .clean data => if step = 0 then s else watchUpdate hla data s
  | .corrected data =>
    if step = 0 then watchUpdate hla data s
    else
      writeFault .retryCorrected (some hla) (some ala) (some step) (offerRead .retry hla data (unwatch hla s))
  | .uncorrectable =>
    pendingAdd hla origin (writeFault .uncorrectableRead (some hla) (some ala) (some step) (unwatch hla s))

/-! ### LINE_RETIRE reservations (R112) -/

/-- A reservation takes a slot, and the LINE_RETIRE read of the line's place is placed (R112). -/
def takeReservation (home : Nat) (s : State) : State :=
  let id := s.ids.nextId
  let s1 := takeId s
  let ladder : Ladder :=
    { ala := servingPlace s1 home, depth := s1.policy.active.retryDepth, step := 0, age := ageNow s1, granted := false }
  let s2 := s1.setReloc
    { s1.reloc with
      reserved := some home
      retireReads := s1.reloc.retireReads ++ [{ id, home, ladder, live := true }] }
  placeRequest (.retireRead id) s2

/-- The reservation is released, wherever it stands (R112). -/
def releaseReservation (s : State) : State :=
  s.setReloc
    { s.reloc with
      reserved := none
      queue := s.reloc.queue.filter fun
        | .reservation _ => false
        | .request _ _ _ => true
      retireReads := s.reloc.retireReads.map fun r => { r with live := false } }

/-- A PENDING_WRITE or WRITE_FAULT request that waits in the queue for a home (R96, step 5). -/
def waitingRequest (s : State) (home : Nat) : Option ItemRef :=
  s.reloc.queue.findSome? fun
    | .request ref h _ => if h == home then some ref else none
    | .reservation _ => none

/-- A SERVICE relocation begins in the reserved slot; a request that waits for the home is merged in (R96, step 5). -/
def beginService (home spare : Nat) (data : LineData) (s : State) : State :=
  let s1 := beginRelocation home spare .service data none [] s
  match waitingRequest s1 home with
  | none => s1
  | some ref =>
    let s2 := s1.setReloc
      { s1.reloc with
        queue := s1.reloc.queue.filter fun
          | .request _ h _ => h != home
          | .reservation _ => true }
    match findItem s2 ref with
    | some item => mergeItem ref item s2
    | none => s2

/-! ### The slot queue (R93) -/

/-- Can this queue item be handed a slot? A request for a home whose LINE_RETIRE reservation stands is passed over (R93). -/
def canTakeSlot (s : State) : QueueItem → Bool
  | .reservation _ => true
  | .request _ home _ => !reservationFor s home

/-- Hand a free slot to the oldest request of the slot queue that may take it (R93). -/
def handoffNext (s : State) : Option State :=
  if slotFree s then
    match s.reloc.queue.find? (canTakeSlot s) with
    | none => none
    | some q =>
      let t := s.setReloc { s.reloc with queue := s.reloc.queue.erase q }
      match q with
      | .reservation home => some (takeReservation home t)
      | .request ref _ cause =>
        match findItem t ref with
        | some item => some (admitItem ref item cause t)
        | none => some t
  else none

/-! ### Ends of a relocation (R4, R99 to R104) -/

/-- Answer the unposted writes a slot holds, those still outstanding, in a free order (R29, R96). -/
def answerWaiting (slot : Slot) (status : HostStatus) (s : State) : State :=
  let live := slot.waiting.filter (·.live)
  (freeOrder s.ids.event live.length live).foldl (fun t w => sendResponse .write w.tag status none none t) s

/-- The slot becomes free (R93). -/
def freeSlot (home : Nat) (s : State) : State :=
  s.setReloc { s.reloc with slots := s.reloc.slots.filter (·.home != home) }

/-- Is a LINE_RETIRE of this home, with its relocation begun, in progress (R112)? -/
def retiring (s : State) (home : Nat) : Bool := currentCommand s == some (.lineRetire home true)

/-- The LINE_RETIRE whose relocation this is is answered (R102, R103). -/
def answerRetire (home : Nat) (status : Status) (results : List Byte) (s : State) : State :=
  if retiring s home then completeCurrent status results s else s

/-- The table and pool effects of a completed binding (R4): the entry is BOUND to its target, which becomes BOUND, and the old
spare becomes DEAD. -/
def bindTarget (home : Nat) (s : State) : State :=
  match entryOf s home with
  | some e =>
    match e.target with
    | some t =>
      let s1 := setEntry { e with spare := some t, target := none, boundTick := some s.tick } s
      let s2 := setMark t .bound s1
      match e.spare with
      | some old => setMark old .dead s2
      | none => s2
    | none => s
  | none => s

/-- The target of a home's relocation. -/
def targetOf (s : State) (home : Nat) : Nat := ((entryOf s home).bind (·.target)).getD home

/-- The binding completes (R102). -/
def completeBinding (slot : Slot) (s : State) : State :=
  let target := targetOf s slot.home
  let s1 := freeSlot slot.home (bindTarget slot.home s)
  let s2 := answerWaiting slot .done s1
  answerRetire slot.home .ok (enc24 slot.home ++ enc24 target) s2

/-- The host and the port learn that a slot's data is lost (R102, R104): a report is queued, waiting writes are answered POISON_HIT,
covering barriers INCOMPLETE and a LINE_RETIRE FAILED. -/
def tellLost (slot : Slot) (s : State) : State :=
  let s1 := answerWaiting slot .poisonHit (queueReport slot.home .dataLost s)
  answerRetire slot.home .failed [] (failCovered slot.epoch s1)

/-- A slot's data is lost (R102, R104): the line is added to the Pending List, DATA_LOST is written with the place, and the loss is
told. -/
def loseSlot (slot : Slot) (place : Nat) (s : State) : State :=
  tellLost slot (writeFault .dataLost (some slot.home) (some place) none (pendingAdd slot.home .relocate s))

/-- A FINISHING write faults: the binding completes with the line lost (R102). -/
def finishLost (slot : Slot) (s : State) : State :=
  let target := targetOf s slot.home
  let s1 := writeFault .spareWriteFault (some slot.home) (some target) none s
  loseSlot slot target (freeSlot slot.home (bindTarget slot.home s1))

/-- Does the Pending List have no room for a line that is not on it (R107)? -/
def pendingListFull (s : State) (hla : Nat) : Bool := !isPending s hla && Config.pendingLimit ≤ s.reloc.pendingList.length

/-- The fault records of a FINISHING write that faults while the journal is STALLED: they are written in the fault event, in the
order of R156, with PENDING_OVERFLOW between the two when the Pending List is full, though the binding completes later (R105, R155,
log 39). -/
def recordHeldFault (slot : Slot) (s : State) : State :=
  let target := targetOf s slot.home
  let s1 := writeFault .spareWriteFault (some slot.home) (some target) none s
  let s2 := if pendingListFull s slot.home then dropAdd slot.home s1 else s1
  writeFault .dataLost (some slot.home) (some target) none s2

/-- The rest of such a fault: the binding completes with the line lost (R102), its records written already; an add dropped in the fault
event is not made again (log 39). -/
def finishHeldFault (slot : Slot) (dropped : Bool) (s : State) : State :=
  let t := freeSlot slot.home (bindTarget slot.home s)
  tellLost slot (if dropped then t else pendingAdd slot.home .relocate t)

/-- The place a return writes to: the entry's spare, or the home (R103). -/
def fallbackPlace (s : State) (home : Nat) : Nat := servingPlace s home

/-- The table effect of the end of a return (R4): the entry reverts, or is removed if it had no spare. -/
def dropTarget (home : Nat) (e : RemapEntry) (s : State) : State :=
  match e.spare with
  | some _ => setEntry { e with target := none } s
  | none => removeEntry home s

/-- The table and pool effects of the end of a return (R4): the entry reverts or is removed, and the last target becomes DEAD with
its record queued (R10). -/
def revertEntry (home : Nat) (s : State) : State :=
  match entryOf s home with
  | some e =>
    match e.target with
    | some t => killSpare t (dropTarget home e s)
    | none => dropTarget home e s
  | none => s

/-- A return ends with the data in place (R103). Its slot becomes free in a STALLED journal as well: R105 says so, though R32 says that
no slot frees then (log 41). -/
def endReturn (slot : Slot) (s : State) : State :=
  let s1 := freeSlot slot.home (revertEntry slot.home s)
  answerRetire slot.home .failed [] (answerWaiting slot .done s1)

/-- A fallback write faults: the return ends with the data lost (R104). -/
def returnLost (slot : Slot) (s : State) : State :=
  let place := fallbackPlace s slot.home
  loseSlot slot place (freeSlot slot.home (revertEntry slot.home s))

/-- The slot enters RETURNING (R99, R103). -/
def enterReturning (home : Nat) (s : State) : State :=
  let s1 := writeFault .relocateFail (some home) (some (targetOf s home)) none s
  placeRequest (.slotWrite home) (updateSlot home (fun q => { q with state := .returning }) s1)

/-- The table and pool effects of a next target (R4, third row): the allocated spare is HELD and the entry's target, the faulted one
DEAD. -/
def retarget (home next : Nat) (s : State) : State :=
  match entryOf s home with
  | some e =>
    match e.target with
    | some old => setEntry { e with target := some next } (setMark old .dead (setMark next .held s))
    | none => s
  | none => s

/-- A target write faults in WRITING (R99): a next spare is allocated and the faulted target becomes DEAD with its record queued
(R10), or the slot enters RETURNING. -/
def targetFault (slot : Slot) (s : State) : State :=
  let old := targetOf s slot.home
  let s1 := writeFault .spareWriteFault (some slot.home) (some old) none s
  if slot.attempts < Config.sparesTried then
    match allocate s1 with
    | (some next, _) =>
      placeRequest (.slotWrite slot.home)
        (updateSlot slot.home (fun q => { q with attempts := q.attempts + 1 })
          (offerRecord (.dead old) (retarget slot.home next s1)))
    | (none, t) => enterReturning slot.home t
  else enterReturning slot.home s1

/-- The outcome of a target write (R98, R99). -/
def targetOutcome (slot : Slot) (answer : WriteAnswer) (s : State) : State :=
  match answer with
  | .fault => targetFault slot s
  | .done =>
    if slot.dirty then placeRequest (.slotWrite slot.home) s
    else
      offerRecord (.bind slot.home (targetOf s slot.home))
        (updateSlot slot.home (fun q => { q with state := .journaling }) s)

/-- The end of a slot in FINISHING (R102): the binding completes, with the line lost when the write faulted. -/
def endFinishing (slot : Slot) (answer : WriteAnswer) (s : State) : State :=
  match answer with
  | .fault => finishLost slot s
  | .done => completeBinding slot s

/-- The outcome of a FINISHING write is held while the journal is STALLED (R105, log 39); of a fault the records are written in its
event (R155). -/
def holdOutcome (slot : Slot) (answer : WriteAnswer) (s : State) : State :=
  match answer with
  | .done => s.setReloc { s.reloc with held := s.reloc.held ++ [{ home := slot.home, answer := .done, dropped := false }] }
  | .fault =>
    let t := recordHeldFault slot s
    let held : HeldOutcome := { home := slot.home, answer := .fault, dropped := pendingListFull s slot.home }
    t.setReloc { t.reloc with held := t.reloc.held ++ [held] }

/-- The outcome of a FINISHING write (R102): a DONE with dirty set places a further write; any other ends the slot, but while the
journal is STALLED no binding completes (R105), and the outcome is held, a fault's records being written at once (R155, log 39). -/
def finishingOutcome (slot : Slot) (answer : WriteAnswer) (s : State) : State :=
  if answer = .done ∧ slot.dirty then placeRequest (.slotWrite slot.home) s
  else if s.jour.state = .stalled then holdOutcome slot answer s
  else endFinishing slot answer s

/-- A held outcome is taken (R102): a DONE as one that comes now, a fault as the rest of the fault whose records are written. -/
def takeHeld (slot : Slot) (held : HeldOutcome) (s : State) : State :=
  match held.answer with
  | .done => finishingOutcome slot .done s
  | .fault => finishHeldFault slot held.dropped s

/-- The oldest held outcome is taken once a compaction has succeeded and the journal is READY again (R32, R105, log 39). -/
def heldNext (s : State) : Option State :=
  match s.reloc.held with
  | [] => none
  | h :: rest =>
    if s.jour.state = .ready then
      let t := s.setReloc { s.reloc with held := rest }
      match findSlot t h.home with
      | some slot => some (takeHeld slot h t)
      | none => some t
    else none

/-- The outcome of a fallback write (R103, R104). -/
def fallbackOutcome (slot : Slot) (answer : WriteAnswer) (s : State) : State :=
  match answer with
  | .fault => returnLost slot s
  | .done => if slot.dirty then placeRequest (.slotWrite slot.home) s else endReturn slot s

/-- The BIND record of a home becomes durable (R101): its JOURNALING slot's binding completes, or the slot enters FINISHING. -/
def bindDurable (home : Nat) (s : State) : State :=
  match findSlot s home with
  | some slot =>
    if slot.state = .journaling then
      if slot.dirty then
        placeRequest (.slotWrite home) (updateSlot home (fun q => { q with state := .finishing }) s)
      else completeBinding slot s
    else s
  | none => s

end Sys2Proof.Machine
end

