-- ==== Sys2Proof/Machine/JournalOps.lean ====
section
/-! DEFINITION. The Journal Controller (spec/07): LOG lines, compaction, the stall, start-up and replay, the format's lines, and
the quiesce. -/

namespace Sys2Proof.Machine

/-! ### Banks and lines (R115, R116) -/

/-- The other bank. -/
def Bank.other : Bank → Bank
  | .a => .b
  | .b => .a

/-- The ala of line `n` of a bank (R115). -/
def journalAla (s : State) (bank : Bank) (n : Nat) : Nat :=
  match bank with
  | .a => s.array.lineCount - Config.journalLines + n
  | .b => s.array.lineCount - Config.bankLines + n

/-- Is sequence `a` newer than `b` on the circle of 2^32 (R116)? -/
def newer (a b : Seq32) : Bool := 1 ≤ (a - b).toNat && (a - b).toNat ≤ 2 ^ 31 - 1

/-- A list cut into pieces of `n` (R122: 6 records to a line); the first argument bounds the pieces. -/
def chunksOf {α : Type} (n : Nat) : Nat → List α → List (List α)
  | 0, _ => []
  | k + 1, l => if l.isEmpty then [] else l.take n :: chunksOf n k (l.drop n)

/-! ### LOG lines and compaction (R120 to R124) -/

/-- Is the slot of this home FINISHING? -/
def isFinishing (s : State) (home : Nat) : Bool := (findSlot s home).any (·.state == .finishing)

/-- The records of a compaction image, in image order (R122). -/
def snapshot (s : State) : List Record :=
  let finishing := s.map.table.filter fun e => isFinishing s e.home
  let dead := (s.map.marks.filter (·.state == .dead)).map fun m => Record.dead m.ala
  let leaving := finishing.filterMap fun e => e.spare.map Record.dead
  let binds := s.map.table.filterMap fun e =>
    let place := if isFinishing s e.home then e.target else e.spare
    place.map (Record.bind e.home)
  [.fence (fenceValue s), .policy s.policy.active] ++ dead ++ leaving ++ binds

/-- Place the present image line with the arbiter: IMAGE, and COMMIT on the last (R123). -/
def placeImageLine (c : Compaction) (s : State) : State :=
  placeRequest
    (.journalWrite .image (journalAla s c.bank c.pos)
      (journalLine c.seq c.bank true (c.lines.length == 1) (c.lines.headD [])))
    (s.setJour { s.jour with state := .compacting, compaction := some c })

/-- A compaction begins, or restarts, with a fresh snapshot (R122, R124). -/
def beginCompaction (faults : Nat) (s : State) : State :=
  match s.jour.active with
  | none => s
  | some bank =>
    let records := snapshot s
    placeImageLine
      { bank := bank.other
        pos := 0
        seq := s.jour.lastSeq + 1
        lines := chunksOf Config.recordsPerLine records.length records
        faults }
      (s.setJour { s.jour with line := none })

/-- A LOG line is formed from up to 6 head records and placed (R120). -/
def formLogLine (bank : Bank) (s : State) : State :=
  let records := s.jour.queue.take Config.recordsPerLine
  let seq := s.jour.lastSeq + 1
  placeRequest
    (.journalWrite .log (journalAla s bank s.jour.nextLine) (journalLine seq bank false false records))
    (s.setJour { s.jour with state := .appending, line := some { count := records.length, seq } })

/-- The decision of R120 in READY, when it leads to an action. In STARTING and HELD the journal decides nothing. -/
def decideNext (s : State) : Option State :=
  if s.jour.state = .ready ∧ (s.start.op = .running ∨ s.start.op = .quiescing) then
    match s.jour.active with
    | none => none
    | some bank =>
      if currentCommand s = some .journalCompact ∨ Config.bankLines < s.jour.nextLine + Config.lowMark then
        some (beginCompaction 0 s)
      else if s.jour.queue.isEmpty then none
      else some (formLogLine bank s)
  else none

/-- A record waiting outside the queue joins it when there is room (R119). -/
def joinNext (s : State) : Option State :=
  match s.jour.wait with
  | [] => none
  | r :: rest =>
    if s.jour.queue.length < Config.queueLimit then
      some (s.setJour { s.jour with queue := s.jour.queue ++ [r], wait := rest })
    else none

/-- The records waiting outside join the queue, oldest first, as many as there is room for (R119). -/
def joinAll (s : State) : State :=
  let room := Config.queueLimit - s.jour.queue.length
  s.setJour { s.jour with queue := s.jour.queue ++ s.jour.wait.take room, wait := s.jour.wait.drop room }

/-! ### What durability does (R49, R53, R121, R183) -/

/-- Does S lie from 64 to 8192 for this fence (R49)? -/
def fenceInBounds (s : State) (f : Nat) : Bool :=
  f + Config.minSpares ≤ reserveEnd s && reserveEnd s ≤ f + Config.maxSpares

/-- May this fence take effect: S in bounds, no spare state left below it and no entry's home left in the reserve (R131)? -/
def fenceApplies (s : State) (f : Nat) : Bool :=
  fenceInBounds s f &&
    !(s.map.marks.any fun m => inReserve s m.ala && m.ala < f) &&
    !(s.map.table.any fun e => f ≤ e.home && e.home < reserveEnd s && !inReserve s e.home)

/-- May the fence of a FENCE_ADJUST take effect? The checks and the ranges of R50 to R52 have made it so in every state a run reaches
(log 40). -/
def fenceMoves (s : State) (f : Nat) : Bool := s.map.poolBuilt && fenceApplies s f

/-- The new fence takes effect (R53). -/
def fenceTakesEffect (new : Nat) (s : State) : State :=
  let closing := inRange s .closing
  let s1 := s.setReloc { s.reloc with watch := s.reloc.watch.filter fun w => !closing w.hla }
  let s2 := s1.setMap { s1.map with fence := some new, range := none }
  completeCurrent .ok (fenceResults s2) s2

/-- Active and Staged are exchanged (R183). -/
def exchangePolicies (s : State) : State :=
  let t := s.setPolicy { active := s.policy.staged, staged := s.policy.active }
  completeCurrent .ok t.policy.active.pack t

/-- What a record's durability does for the producer that waits on it (R121). -/
def applyDurable (s : State) (r : Record) : State :=
  match r with
  | .bind home _ => bindDurable home s
  | .dead _ => s
  | .fence f => if currentCommand s = some (.fenceAdjust f) ∧ fenceMoves s f then fenceTakesEffect f s else s
  | .policy _ => if currentCommand s = some .policyExchange then exchangePolicies s else s

/-- A LOG line completes DONE (R121). -/
def logLineDone (line : LogLine) (s : State) : State :=
  let durable := s.jour.queue.take line.count
  durable.foldl applyDurable
    (joinAll
      (s.setJour
        { s.jour with
          state := .ready
          nextLine := s.jour.nextLine + 1
          lastSeq := line.seq
          queue := s.jour.queue.drop line.count
          line := none }))

/-- A LOG line faults: its records stay, and a compaction begins (R121). -/
def logLineFault (line : LogLine) (ala : Nat) (s : State) : State :=
  let t := writeFault .journalWriteFault none (some ala) none s
  beginCompaction 0 (t.setJour { t.jour with faulted := t.jour.queue.take line.count })

/-- A range that R54 keeps is dissolved (R123). -/
def dissolveKept (s : State) : State :=
  match s.map.range with
  | some r => if r.kept then s.setMap { s.map with range := none } else s
  | none => s

/-- The COMMIT line completes DONE: the other bank becomes active (R123). -/
def commitImage (c : Compaction) (s : State) : State :=
  let s1 := dissolveKept s
  let s2 := s1.setJour
    { s1.jour with
      state := .ready, active := some c.bank, nextLine := c.pos + 1, lastSeq := c.seq, compaction := none, faulted := [] }
  if currentCommand s2 = some .journalCompact then
    completeCurrent .ok (enc8 c.bank.code ++ enc16 (c.pos + 1)) s2
  else s2

/-- An image line completes DONE: the next is placed, or the image commits (R123). -/
def imageLineDone (c : Compaction) (s : State) : State :=
  match c.lines.drop 1 with
  | [] => commitImage c s
  | rest => placeImageLine { c with pos := c.pos + 1, seq := c.seq + 1, lines := rest } s

/-- Is this a record that a command in progress produced (R125)? -/
def isFenceRecord : Record → Bool
  | .fence _ => true
  | _ => false

/-- Is this a POLICY record? -/
def isPolicyRecord : Record → Bool
  | .policy _ => true
  | _ => false

/-- Records are removed from the Journal Controller's keeping (R54, R184). -/
def removeRecords (which : Record → Bool) (s : State) : State :=
  s.setJour
    { s.jour with
      queue := s.jour.queue.filter fun r => !which r
      wait := s.jour.wait.filter fun r => !which r }

/-- The range of a FENCE_ADJUST that the stall ends: dissolved, or kept when a faulted LOG line carried its record (R54). -/
def endRange (s : State) : State :=
  match s.map.range with
  | some r =>
    if s.jour.faulted.any isFenceRecord then s.setMap { s.map with range := some { r with kept := true } }
    else s.setMap { s.map with range := none }
  | none => s

/-- What the stall does to the command in progress (R54, R112, R126, R136, R184). -/
def stallCommand (s : State) : State :=
  match currentCommand s with
  | some (.fenceAdjust _) => completeCurrent .journalFault [] (endRange (removeRecords isFenceRecord s))
  | some .policyExchange => completeCurrent .journalFault [] (removeRecords isPolicyRecord s)
  | some (.lineRetire _ _) => completeCurrent .journalFault [] (releaseReservation s)
  | some .journalCompact => completeCurrent .journalFault [] s
  | some .bridgeRestart => completeCurrent .journalFault [] (s.setStart { s.start with op := .running })
  | some .journalFormat => s
  | none => s

/-- The journal enters STALLED (R125): barriers whose covered data is held in a slot, or waits for one, are answered INCOMPLETE as the
slots stand at that moment (R32); what the stall does to the command, and the slot that a released reservation hands on, follow. -/
def stall (s : State) : State :=
  stallCommand (latch .journal (settleBarriers (s.setJour { s.jour with state := .stalled, compaction := none })))

/-- An image line faults: the first restarts the compaction, the second stalls the journal (R124). -/
def imageLineFault (c : Compaction) (ala : Nat) (s : State) : State :=
  let t := writeFault .journalWriteFault none (some ala) none s
  if c.faults = 0 then beginCompaction 1 t else stall t

/-! ### Start-up (R60, R127 to R132) -/

/-- What every start-up clears in its first event (R128): table, pool, fence, active bank, queue; the policies take their
defaults and the journal is READY. -/
def clearForStartUp (s : State) : State :=
  let s1 := s.setMap
    { s.map with table := [], marks := [], poolBuilt := false, fence := none, range := none }
  let s2 := s1.setJour
    { s1.jour with
      state := .ready, active := none, nextLine := 0, queue := [], wait := [], line := none, compaction := none,
      faulted := [] }
  s2.setPolicy { active := .default, staged := .default }

/-- Place the read of a journal line, one at a time (R128). -/
def placeJournalRead (bank : Bank) (n : Nat) (phase : StartPhase) (s : State) : State :=
  placeRequest (.journalRead (journalAla s bank n)) (s.setStart { s.start with phase })

/-- Start-up that begins at the Array Link Unit: the list of operations is emptied, the array link reset and IDENT are sent
(R60, R128). -/
def startAtArray (s : State) : State :=
  let s1 := clearForStartUp s
  let s2 := s1.setArray
    { lineCount := 0, inFlight := [{ op := .ident, owner := .ident, step := 0, timedOut := false }], waiting := [] }
  let s3 := s2.setReloc { s2.reloc with retireReads := [] }
  let s4 := s3.setOut { s3.out with array := s3.out.array ++ [.linkReset, .ident] }
  s4.setStart { op := .starting, phase := .ident, format := none }

/-- Start-up after JOURNAL_FORMAT: without the array link reset and IDENT, C unchanged (R133). -/
def startAfterFormat (s : State) : State :=
  let s1 := clearForStartUp s
  placeJournalRead .a 0 .lineA (s1.setStart { op := .starting, phase := .lineA, format := none })

/-- The command that waits for the end of start-up is answered (R133, R135). -/
def answerStartUp (s : State) : State :=
  match currentCommand s, s.start.op with
  | some .journalFormat, .running => completeCurrent .ok (fenceResults s) s
  | some .journalFormat, .held r => completeCurrent .state (enc8 r.code) s
  | some .bridgeRestart, .running => completeCurrent .ok (enc8 OpState.running.code) s
  | some .bridgeRestart, .held r => completeCurrent .state (enc8 r.code) s
  | _, _ => s

/-- Start-up stops in HELD (R127). -/
def enterHeld (reason : HeldReason) (s : State) : State :=
  answerStartUp (s.setStart { s.start with op := .held reason, phase := .idle })

/-- The line counts start-up accepts: powers of two from 2^18 to 2^24 (R60). -/
def acceptableCount (n : Nat) : Bool := (List.range' 18 7).any fun k => n == 2 ^ k

/-- The answer to IDENT is taken as C while start-up waits for it; start-up goes on, or stops in HELD with NO_ARRAY (R60). A timed-out
IDENT gives 0. -/
def identOutcome (count : Nat) (s : State) : State :=
  let t := s.setArray { s.array with lineCount := count }
  if s.start.phase ≠ .ident then s
  else if acceptableCount count then placeJournalRead .a 0 .lineA t
  else enterHeld .noArray t

/-- The readable journal line that a single-attempt read delivered, if it is readable (R68, R116). -/
def readableLine (bank : Bank) : Classification → Option JournalHeader
  | .clean d | .corrected d => decodeJournalLine bank d
  | .uncorrectable => none

/-- What bank examination keeps of a line 0. -/
def lineZero (h : JournalHeader) : LineZero := { seq := h.seq, image := h.image }

/-- The candidate to examine first, and the one to examine next if it is not committed (R129). -/
def candidates (a b : Option LineZero) : Option (Bank × Option Bank) :=
  match a.filter (·.image), b.filter (·.image) with
  | some x, some y => if newer y.seq x.seq then some (.b, some .a) else some (.a, some .b)
  | some _, none => some (.a, none)
  | none, some _ => some (.b, none)
  | none, none => none

/-- Begin the examination of a bank from its line 0 (R129, log 19). -/
def examineBank (bank : Bank) (a b : Option LineZero) (next : Option Bank) (s : State) : State :=
  placeJournalRead bank 0 (.examine bank 0 0 a b next) s

/-- A candidate is not committed: the next is examined, or start-up stops in HELD with NO_JOURNAL (R129). -/
def candidateFails (a b : Option LineZero) (next : Option Bank) (s : State) : State :=
  match next with
  | some bank => examineBank bank a b none s
  | none => enterHeld .noJournal s

/-- The first committed candidate is chosen; an unreadable line 0 of the other bank writes REPLAY_BANK and latches JOURNAL
(R129): what counts is the first read of that line 0, not a second one in the other's examination (log 19). The chosen bank is active, and replay reads it from line 0 (R130). -/
def chooseBank (bank : Bank) (a b : Option LineZero) (s : State) : State :=
  let otherZero := match bank with
    | .a => b
    | .b => a
  let s1 :=
    if otherZero.isNone then
      writeFault .replayBank none (some (journalAla s bank.other 0)) none (latch .journal s)
    else s
  let s2 := s1.setJour { s1.jour with active := some bank }
  placeJournalRead bank 0 (.replay bank 0 0) s2

/-- May replay apply a BIND record (R131)? -/
def bindApplies (s : State) (home spare : Nat) : Bool :=
  home < fenceValue s && inReserve s spare &&
    ((markOf s.map.marks spare).isNone || (entryOf s home).bind (·.spare) == some spare)

/-- The table and pool effects of an applied BIND record (R5, R7). -/
def replayBind (home spare : Nat) (s : State) : State :=
  let old := (entryOf s home).bind (·.spare)
  let s1 := setEntry { home, spare := some spare, target := none, cause := none, boundTick := some s.tick } s
  let s2 :=
    match old with
    | some o => if o = spare then s1 else setMark o .dead s1
    | none => s1
  setMark spare .bound s2

/-- A skipped record writes REPLAY_RECORD (R131, R193). -/
def skipRecord (ala : Nat) (hla : Option Nat) (s : State) : State := writeFault .replayRecord hla (some ala) none s

/-- Replay applies one decoded record of the journal line at this ala, or skips it (R131, R193). -/
def replayRecord (ala : Nat) (s : State) (r : DecodedRecord) : State :=
  match r with
  | .known (.fence f) => if fenceApplies s f then s.setMap { s.map with fence := some f } else skipRecord ala none s
  | .known (.policy p) => s.setPolicy { active := p, staged := p }
  | .known (.dead x) =>
    if inReserve s x && markOf s.map.marks x != some .bound then setMark x .dead s else skipRecord ala none s
  | .known (.bind home x) => if bindApplies s home x then replayBind home x s else skipRecord ala (some home) s
  | .badPolicy => skipRecord ala none s
  | .unknownKind => skipRecord ala none s

/-- Replay ends (R130, R132): every other line of the reserve becomes FREE and the part is RUNNING. The next line is set here alone:
while replay runs, STATUS reports 0 lines used of the bank already active (log 38). -/
def endReplay (next : Nat) (last : Seq32) (s : State) : State :=
  let s1 := s.setJour { s.jour with nextLine := next, lastSeq := last }
  let s2 := s1.setStart { s1.start with op := .running, phase := .idle }
  answerStartUp (s2.setMap { s2.map with poolBuilt := true })

/-- The sequence of the last replayed line when replay ends at `pos`; none at line 0 (log 16). -/
def lastReplayed (pos : Nat) (prev : Seq32) : Seq32 := if pos = 0 then Config.noLineSequence else prev

/-- A journal line read of the examination completes (R129). -/
def examineOutcome (bank : Bank) (pos : Nat) (prev : Seq32) (a b : Option LineZero) (next : Option Bank)
    (line : Option JournalHeader) (s : State) : State :=
  match line with
  | some h =>
    if h.image && (pos == 0 || h.seq == prev + 1) then
      if h.commit then chooseBank bank a b s
      else if pos + 1 < Config.bankLines then
        placeJournalRead bank (pos + 1) (.examine bank (pos + 1) h.seq a b next) s
      else candidateFails a b next s
    else candidateFails a b next s
  | none => candidateFails a b next s

/-- A journal line read of the replay completes (R130). -/
def replayOutcome (bank : Bank) (pos : Nat) (prev : Seq32) (line : Option JournalHeader) (s : State) : State :=
  match line with
  | none =>
    endReplay pos (lastReplayed pos prev)
      (writeFault .replayTail none (some (journalAla s bank pos)) none s)
  | some h =>
    if pos == 0 || h.seq == prev + 1 then
      let t := (h.places.map decodeRecord).foldl (replayRecord (journalAla s bank pos)) s
      if pos + 1 < Config.bankLines then placeJournalRead bank (pos + 1) (.replay bank (pos + 1) h.seq) t
      else endReplay (pos + 1) h.seq t
    else endReplay pos (lastReplayed pos prev) s

/-- The outcome of a start-up journal line read (R129, R130). -/
def journalReadOutcome (c : Classification) (s : State) : State :=
  match s.start.phase with
  | .lineA => placeJournalRead .b 0 (.lineB ((readableLine .a c).map lineZero)) s
  | .lineB a =>
    let b := (readableLine .b c).map lineZero
    match candidates a b with
    | some (bank, next) => examineBank bank a b next s
    | none => enterHeld .noJournal s
  | .examine bank pos prev a b next => examineOutcome bank pos prev a b next (readableLine bank c) s
  | .replay bank pos prev => replayOutcome bank pos prev (readableLine bank c) s
  | .ident => s
  | .idle => s

/-! ### JOURNAL_FORMAT's lines (R133) -/

/-- Bank, position, and whether it is line 0 of bank A, for the line written at each place of R133's order. -/
def formatPlace (index : Nat) : Bank × Nat :=
  if index < Config.bankLines then (.b, index)
  else if index + 1 < Config.journalLines then (.a, index + 1 - Config.bankLines)
  else (.a, 0)

/-- The content of a format line (R133): FENCE alone with sequence 0 and no flags; line 0 of bank A, written last, is a whole
image with sequence 1. -/
def formatLine (f index : Nat) : LineData :=
  if index + 1 < Config.journalLines then journalLine 0 (formatPlace index).1 false false [.fence f]
  else journalLine 1 .a true true [.fence f, .policy .default]

/-- Place the present format line (R133). -/
def placeFormatLine (job : FormatJob) (s : State) : State :=
  placeRequest
    (.journalWrite .format (journalAla s (formatPlace job.index).1 (formatPlace job.index).2)
      (formatLine job.fence job.index))
    (s.setStart { s.start with format := some job })

/-- A format line completes (R133). -/
def formatLineOutcome (job : FormatJob) (ala : Nat) (answer : WriteAnswer) (s : State) : State :=
  match answer with
  | .done =>
    if job.index + 1 < Config.journalLines then placeFormatLine { job with index := job.index + 1 } s
    else startAfterFormat s
  | .fault =>
    completeCurrent .journalFault []
      (writeFault .journalWriteFault none (some ala) none (s.setStart { s.start with format := none }))

/-! ### The quiesce (R134, R135) -/

/-- All conditions of R134's table. -/
def quiesceComplete (s : State) : Bool :=
  s.host.tags.isEmpty && s.host.order.isEmpty &&
    s.buf.entries.isEmpty && s.buf.direct.isEmpty && s.host.roomWait.isEmpty &&
    s.reloc.slots.isEmpty && s.reloc.reserved.isNone && s.reloc.queue.isEmpty &&
    s.survey.live.isNone &&
    s.jour.state == .ready && s.jour.queue.isEmpty && s.jour.wait.isEmpty

/-- The quiesce ends (R135): the volatile lists, latches, the Survey Report and the map cursor are cleared, and start-up begins
at the Array Link Unit. -/
def endQuiesce (s : State) : State :=
  let s1 := s.setReloc { s.reloc with pendingList := [], watch := [], held := [] }
  let s2 := s1.setHost { s1.host with reports := [], barriers := [] }
  let s3 := s2.setAlert { s2.alert with causes := s2.alert.causes &&& levelCauses }
  let s4 := s3.setSurvey { s3.survey with report := none }
  startAtArray (s4.setMap { s4.map with cursor := 0 })

/-- The quiesce ends if it may. -/
def quiesceNext (s : State) : Option State :=
  if s.start.op = .quiescing ∧ quiesceComplete s then some (endQuiesce s) else none

end Sys2Proof.Machine
end

