-- ==== Sys2Proof/Machine/HostPath.lean ====
section
/-! DEFINITION. The Host Link Unit and the Address Path (spec/02, spec/03): arrival and the refusal checks, presentation and the
routes of a READ and a WRITE, entering the Write Buffer, and the host link reset. -/

namespace Sys2Proof.Machine

/-! ### Arrival (R23 to R25, R39) -/

/-- The refusal checks, in the order of R39; a BARRIER has no line and takes the first alone. -/
def refusal (s : State) (hla : Option Nat) : Option RefuseReason :=
  if s.start.op ≠ .running then some .notReady
  else
    match hla with
    | none => none
    | some line =>
      if fenceValue s ≤ line then some .beyond
      else if inRange s .closing line then some .beyond
      else none

/-- A tag clash (R24): the request is discarded, counted and logged. -/
def protocolFault (hla : Option Nat) (s : State) : State :=
  writeFault .protocol hla none none
    (latch .protocol (s.setHost { s.host with protocolCount := saturate16 s.host.protocolCount }))

/-- The arrival of a request, in the order of R25, up to the point where it is accepted and passes the refusal checks. -/
def arrive (kind : ReqKind) (tag : Tag) (hla : Option Nat) (accepted : State → State) (s : State) : State :=
  let s1 := addTrace kind tag hla s
  if s1.host.tags.contains tag then protocolFault hla s1
  else
    let s2 := s1.setHost { s1.host with tags := s1.host.tags ++ [tag] }
    match refusal s2 hla with
    | some reason => sendResponse kind tag .refused (some reason) none s2
    | none => accepted s2

/-- The request joins the order of its line (R26). -/
def joinOrder (tag : Tag) (hla : Nat) (write : Option (LineData × Mask)) (s : State) : State :=
  let r : HostReq := { id := s.ids.nextId, tag, live := true, hla, write, stage := .queued }
  takeId (s.setHost { s.host with order := s.host.order ++ [r] })

/-- A READ that passes the checks joins its line's order (R25). -/
def acceptRead (tag : Tag) (hla : Nat) (s : State) : State := joinOrder tag hla none s

/-- A WRITE that passes the checks: an empty write is answered DONE, any other joins its line's order (R21, R25). -/
def acceptWrite (tag : Tag) (hla : Nat) (mask : Mask) (data : LineData) (s : State) : State :=
  if mask = 0 then sendResponse .write tag .done none none s else joinOrder tag hla (some (data, mask)) s

/-- A BARRIER that passes the check takes its barrier epoch and waits (R31, R78). -/
def acceptBarrier (tag : Tag) (s : State) : State :=
  s.setHost { s.host with barriers := s.host.barriers ++ [{ tag, epoch := s.host.epochCount }] }

/-! ### Read routes (R41 to R45) -/

/-- The newest Write Buffer entry of a line (R41). -/
def newestEntry (s : State) (hla : Nat) : Option Item := (s.buf.entries.filter (·.hla == hla)).getLast?

/-- The routes of R41. -/
inductive ReadRoute where
  | fromEntry (data : LineData)
  | waitOn (entry : Nat)
  | fromSlot (data : LineData)
  | poison
  | toArray (ala : Nat)
  deriving DecidableEq, Repr

/-- The route of a READ, by the first row of R41 that applies. -/
def readRoute (s : State) (hla : Nat) : ReadRoute :=
  match newestEntry s hla with
  | some e => if e.mask = fullMask then .fromEntry e.data else .waitOn e.id
  | none =>
    match movingSlot s hla with
    | some slot => .fromSlot slot.data
    | none => if isPending s hla then .poison else .toArray (servingPlace s hla)

/-- A ladder begun in this event at a place, with the depth of the Active policy (R66). -/
def newLadder (s : State) (ala : Nat) : Ladder :=
  { ala, depth := s.policy.active.retryDepth, step := 0, age := ageNow s, granted := false }

/-- A READ is presented (R41 to R45). -/
def presentRead (r : HostReq) (s : State) : State :=
  match readRoute s r.hla with
  | .fromEntry data => answerReq r .read .ok (some data) s
  | .waitOn entry => setStage r.id (.waitEntry entry) s
  | .fromSlot data => answerReq r .read .ok (some data) s
  | .poison => answerReq r .read .poison none (hitPending r.hla s)
  | .toArray ala => placeRequest (.hostRead r.id) (setStage r.id (.inArray (newLadder s ala)) s)

/-! ### Write routes (R46, R47, R76, R77, R88) -/

/-- An acknowledgement of a posted WRITE: the epoch count rises by one (R78). -/
def riseEpoch (s : State) : State := s.setHost { s.host with epochCount := s.host.epochCount + 1 }

/-- A new Write Buffer entry at the tail of creation order (R76). -/
def newEntry (hla : Nat) (data : LineData) (mask : Mask) (s : State) : State :=
  let e : Item :=
    { id := s.ids.nextId, hla, data, mask, phase := .waiting, epoch := some s.host.epochCount, place := hla, ladder := none }
  takeId (s.setBuf { s.buf with entries := s.buf.entries ++ [e] })

/-- A merge into an un-issued entry (R76): it keeps its place and its ack epoch. -/
def mergeEntry (id : Nat) (data : LineData) (mask : Mask) (s : State) : State :=
  updateItem (.entry id) (fun e => { e with data := mergeLine e.data data mask, mask := e.mask ||| mask }) s

/-- A posted WRITE enters the buffer and is acknowledged DONE, when the buffer can take it (R76). -/
def enterBuffer (r : HostReq) (data : LineData) (mask : Mask) (s : State) : Option State :=
  let fresh : Option State :=
    if s.buf.entries.length < Config.bufferEntries then
      some (answerReq r .write .done none (newEntry r.hla data mask (riseEpoch s)))
    else none
  match newestEntry s r.hla with
  | some e =>
    if e.phase = .waiting then some (answerReq r .write .done none (mergeEntry e.id data mask (riseEpoch s))) else fresh
  | none => fresh

/-- A posted WRITE routed to the Write Buffer enters it, or waits for room (R27, R76, R77). The writes waiting for room form one list
in the order of their presentation, as R77 has it; R27 says their arrival order, and where the two differ, because an earlier
arrival was presented later, the model follows R77 (log 37). -/
def toBuffer (r : HostReq) (data : LineData) (mask : Mask) (s : State) : State :=
  match enterBuffer r data mask s with
  | some t => t
  | none => setStage r.id .waitRoom (s.setHost { s.host with roomWait := s.host.roomWait ++ [r.id] })

/-- An unposted WRITE becomes a direct write (R88). -/
def toDirect (r : HostReq) (data : LineData) (mask : Mask) (s : State) : State :=
  let item : Item :=
    { id := r.id, hla := r.hla, data, mask, phase := .waiting, epoch := none, place := r.hla, ladder := none }
  setStage r.id .direct (s.setBuf { s.buf with direct := s.buf.direct ++ [item] })

/-- A WRITE merged into the slot of its MOVING line (R47): a posted one is acknowledged at the merge and brings its epoch, an
unposted one becomes a waiting write of the slot. -/
def toSlot (r : HostReq) (data : LineData) (mask : Mask) (posted : Bool) (s : State) : State :=
  if posted then
    let t := riseEpoch s
    answerReq r .write .done none (mergeSlot r.hla data mask (some t.host.epochCount) [] t)
  else dropReq r.id (mergeSlot r.hla data mask none [{ tag := r.tag, live := r.live }] s)

/-- The routes of R46. -/
inductive WriteRoute where
  | poisonHit
  | buffer
  | direct
  | slot
  deriving DecidableEq, Repr

/-- The route of a non-empty WRITE, by the first row of R46 that applies. -/
def writeRoute (s : State) (hla : Nat) (mask : Mask) (posted : Bool) : WriteRoute :=
  let hasEntry := (newestEntry s hla).isSome
  let held : WriteRoute := if posted then .buffer else .direct
  if mask ≠ fullMask ∧ isPending s hla ∧ !hasEntry then .poisonHit
  else if hasEntry then held
  else if (movingSlot s hla).isSome then .slot
  else held

/-- A WRITE is presented (R46); POSTING is sampled now (R28). -/
def presentWrite (r : HostReq) (data : LineData) (mask : Mask) (s : State) : State :=
  let posted := s.policy.active.posting
  match writeRoute s r.hla mask posted with
  | .poisonHit => answerReq r .write .poisonHit none s
  | .buffer => toBuffer r data mask s
  | .direct => toDirect r data mask s
  | .slot => toSlot r data mask posted s

/-! ### Presentation and room entry as steps (R40, R77) -/

/-- The first request waiting to be presented that has nothing ahead of it in its line's order (R26, R40); `seen` are the lines
of the requests before. -/
def firstReady (seen : List Nat) : List HostReq → Option HostReq
  | [] => none
  | r :: rest => if r.stage = .queued ∧ r.hla ∉ seen then some r else firstReady (r.hla :: seen) rest

/-- Present one request. -/
def present (r : HostReq) (s : State) : State :=
  match r.write with
  | none => presentRead r s
  | some (data, mask) => presentWrite r data mask s

/-- Present the next request that may be presented (R40). -/
def presentNext (s : State) : Option State := (firstReady [] s.host.order).map fun r => present r s

/-- The oldest write waiting for room, by presentation (log 37), enters the buffer, when it can (R77). -/
def roomEntryNext (s : State) : Option State :=
  match s.host.roomWait with
  | [] => none
  | id :: rest =>
    let t := s.setHost { s.host with roomWait := rest }
    match findReq s id with
    | none => some t
    | some r =>
      match r.write with
      | none => some t
      | some (data, mask) => enterBuffer r data mask t

/-! ### Host link reset (R36, R37, R72) -/

/-- Does a host link reset drop this request (R36)? -/
def droppedAtHrst (r : HostReq) : Bool :=
  match r.stage with
  | .queued => true
  | .waitEntry _ => true
  | .waitRoom => true
  | .inArray ladder => !ladder.granted
  | .direct => false

/-- Every outstanding tag is released; waiting work is dropped and issued work goes on without response (R36, R72). -/
def hostLinkReset (s : State) : State :=
  let dropped := (s.host.order.filter droppedAtHrst).map fun r => ReqBody.hostRead r.id
  let kept := (s.host.order.filter fun r => !droppedAtHrst r).map fun r => { r with live := false }
  let s1 := s.setHost { s.host with tags := [], order := kept, roomWait := [], barriers := [] }
  let s2 := s1.setArray { s1.array with waiting := s1.array.waiting.filter fun q => !dropped.contains q.body }
  s2.setReloc
    { s2.reloc with
      slots := s2.reloc.slots.map fun q => { q with waiting := q.waiting.map fun w => { w with live := false } } }

end Sys2Proof.Machine
end

