-- ==== Sys2Proof/Machine/Settle.lean ====
section
/-! DEFINITION. What follows in the same event: the part's internal steps (held outcomes, slot handoff, room entry, presentation, record join,
the journal's decision), the drain requests, the barriers, the quiesce and the level causes (log 2). -/

namespace Sys2Proof.Machine

/-! ### Drain requests (R61, R79, R88) -/

/-- A request of the Write Buffer for an item takes this age: direct writes come after entries of the same event (R61). -/
def itemAge (ref : ItemRef) (s : State) : Age :=
  match ref with
  | .entry _ => { event := s.ids.event, direct := false, order := s.ids.nextId }
  | .direct _ => { event := s.ids.event, direct := true, order := s.ids.nextId }

/-- Place the drain request of an item. -/
def placeDrain (ref : ItemRef) (s : State) : State := takeId (placeAged (.drain ref) (itemAge ref s) s)

/-- Does the drain request of an item wait at the arbiter? -/
def drainWaits (s : State) (ref : ItemRef) : Bool := s.array.waiting.any (·.body == .drain ref)

/-- The drain-ready entries: WAITING, with no older entry of the line (R79); `seen` are the lines of the older entries. -/
def readyEntries (seen : List Nat) : List Item → List ItemRef
  | [] => []
  | e :: rest =>
    let later := readyEntries (e.hla :: seen) rest
    if e.phase = .waiting ∧ e.hla ∉ seen then .entry e.id :: later else later

/-- The drain-ready direct writes: WAITING, with no entry of the line (R88). -/
def readyDirect (s : State) : List ItemRef :=
  (s.buf.direct.filter fun d => d.phase == .waiting && !(s.buf.entries.any (·.hla == d.hla))).map fun d => .direct d.id

/-- Every drain-ready item has placed its one drain request (R79). -/
def placeDrains (s : State) : State :=
  (readyEntries [] s.buf.entries ++ readyDirect s).foldl (fun t ref => if drainWaits t ref then t else placeDrain ref t) s

/-! ### The internal steps of an event -/

/-- The next internal step the present state requires, if any. -/
def microStep (s : State) : Option State :=
  (heldNext s).or ((handoffNext s).or ((roomEntryNext s).or ((presentNext s).or ((joinNext s).or (decideNext s)))))

/-- Internal steps until none is required, at most `fuel` of them (log 35). -/
def settleLoop : Nat → State → State
  | 0, s => s
  | n + 1, s =>
    match microStep s with
    | some t => settleLoop n t
    | none => s

/-- More internal steps than an event can require (log 35). -/
def settleFuel (s : State) : Nat :=
  2 * (s.reloc.queue.length + s.reloc.held.length + s.host.order.length + s.host.roomWait.length + s.jour.wait.length) + 8

/-- The quiesce ends if it may (R134, R135). -/
def settleQuiesce (s : State) : State := (quiesceNext s).getD s

/-- The rest of an event, once its own effect has been taken. -/
def settle (s : State) : State :=
  evalLevels (settleQuiesce (settleBarriers (placeDrains (settleLoop (settleFuel s) s))))

/-- An event with this effect. -/
def event (effect : State → State) (s : State) : State := settle (effect (nextEvent s))

/-- An event that is one internal step, when the state requires it; no change otherwise (log 2, log 4). -/
def internalEvent (next : State → Option State) (s : State) : State :=
  match next (nextEvent s) with
  | some t => settle t
  | none => s

end Sys2Proof.Machine
end

