-- ==== Sys2Proof/Machine/SurveyOps.lean ====
section
/-! DEFINITION. The Survey Engine (spec/08): start, examination, reads, stops, the report. -/

namespace Sys2Proof.Machine

/-- All counts 0 (R140). -/
def SurveyCounts.zero : SurveyCounts :=
  { linesRead := 0, skipped := 0, cleanAfterRetry := 0, corrected := 0, retriedCorrected := 0, uncorrectable := 0,
    markedDead := 0 }

/-- The survey state (R139). -/
inductive SurveyState where
  | idle
  | running
  | stopping
  deriving DecidableEq, Repr

/-- Survey state codes (section 11.1). -/
def SurveyState.code : SurveyState → Nat
  | .idle => 0
  | .running => 1
  | .stopping => 2

/-- The survey state as STATUS and SURVEY_REPORT give it (R139). -/
def surveyState (s : State) : SurveyState :=
  match s.survey.live with
  | none => .idle
  | some l => if l.endRequested.isNone then .running else .stopping

/-- The state with another live survey. -/
def setLive (live : Option LiveSurvey) (s : State) : State := s.setSurvey { s.survey with live }

/-- A survey ends (R150): the report replaces the last, SURVEY_END latches, the live survey is discarded. -/
def endSurvey (outcome : SurveyOutcome) (l : LiveSurvey) (s : State) : State :=
  let report : SurveyReport :=
    { mode := l.mode, first := l.first, count := l.count, startTick := l.startTick, endTick := s.tick, outcome,
      next := l.next, counts := l.counts, firstUncorrectable := l.firstUncorrectable }
  latch .surveyEnd (s.setSurvey { live := none, report := some report })

/-- The first line at or above `line` that is not excluded; `fuel` bounds the excluded lines passed. -/
def passExcluded (excluded : List Nat) : Nat → Nat → Nat
  | 0, line => line
  | n + 1, line => if line ∈ excluded then passExcluded excluded n (line + 1) else line

/-- The first line to visit at or above `line`: in SPARES mode the next of the worklist, or the end of the reserve (R141,
log 31). -/
def nextVisit (excluded : List Nat) (limit line : Nat) : Nat := min limit (passExcluded excluded excluded.length line)

/-- The next line moves past its line. -/
def LiveSurvey.passLine (l : LiveSurvey) : LiveSurvey := { l with next := nextVisit l.excluded l.limit (l.next + 1) }

/-- Is this line skipped when it is examined (R143, R145)? -/
def skipsLine (s : State) (l : LiveSurvey) : Bool :=
  match l.mode with
  | .span =>
    isPending s l.next || isMoving s l.next || s.buf.entries.any (·.hla == l.next) || s.buf.direct.any (·.hla == l.next)
  | .spares => spareStateOf s l.next != some .free

/-- The ladder of a survey read (R143, R145): in SPARES mode one attempt at the spare itself. -/
def surveyLadder (s : State) (l : LiveSurvey) : Ladder :=
  match l.mode with
  | .span => newLadder s (servingPlace s l.next)
  | .spares => { newLadder s l.next with depth := 0 }

/-- The step 0 request of the next line is placed (R142). -/
def placeSurveyRead (l : LiveSurvey) (s : State) : State :=
  placeRequest .surveyRead (setLive (some { l with phase := .reading (surveyLadder s l) }) s)

/-- The survey examines lines from the next line upward (R142, R146); `fuel` bounds the lines. -/
def examineLines : Nat → LiveSurvey → State → State
  | 0, l, s => endSurvey .done l s
  | n + 1, l, s =>
    if l.limit ≤ l.next then endSurvey .done l s
    else if skipsLine s l then
      examineLines n { l.passLine with counts := { l.counts with skipped := l.counts.skipped + 1 } } s
    else placeSurveyRead l s

/-- The survey examines the lines left. -/
def examine (l : LiveSurvey) (s : State) : State := examineLines (l.limit - l.next + 1) l s

/-- The reserve lines that are not FREE, which a SPARES worklist leaves out (R141). -/
def excludedSpares (s : State) : List Nat := s.map.marks.map (·.ala)

/-- The first line of a SPARES survey's range, after a withdrawal range that R54 keeps (R141); the end of the reserve while the fence
is cleared, for the reserve is empty (R49, log 21). -/
def sparesFrom (s : State) : Nat :=
  match s.map.fence, s.map.range with
  | none, _ => reserveEnd s
  | some f, some r => if r.kind = .withdrawal then max f r.hi else f
  | some f, none => f

/-- The live survey a SURVEY_START fixes (R141). -/
def fixSurvey (s : State) (mode : SurveyMode) (first count : Nat) : LiveSurvey :=
  match mode with
  | .span =>
    let limit := if count = 0 then fenceValue s else min (first + count) (fenceValue s)
    { mode, first, count := limit - first, start := first, limit, excluded := [], next := first,
      phase := .gap 0, startTick := s.tick, counts := .zero, firstUncorrectable := none, endRequested := none }
  | .spares =>
    let start := sparesFrom s
    let limit := reserveEnd s
    let excluded := excludedSpares s
    { mode, first := fenceValue s, count := limit - start - (excluded.filter fun x => start ≤ x ∧ x < limit).length,
      start, limit, excluded, next := nextVisit excluded limit start, phase := .gap 0, startTick := s.tick,
      counts := .zero, firstUncorrectable := none, endRequested := none }

/-- The counts a SPAN outcome raises (R144). -/
def spanCounts (c : SurveyCounts) (step : Nat) : Classification → SurveyCounts
  | .clean _ =>
    if step = 0 then { c with linesRead := c.linesRead + 1 }
    else { c with linesRead := c.linesRead + 1, cleanAfterRetry := c.cleanAfterRetry + 1 }
  | .corrected _ =>
    if step = 0 then { c with linesRead := c.linesRead + 1, corrected := c.corrected + 1 }
    else { c with linesRead := c.linesRead + 1, retriedCorrected := c.retriedCorrected + 1 }
  | .uncorrectable => { c with linesRead := c.linesRead + 1, uncorrectable := c.uncorrectable + 1 }

/-- The counts a SPARES outcome raises, apart from the marks (R145). -/
def sparesCounts (c : SurveyCounts) : Classification → SurveyCounts
  | .clean _ => { c with linesRead := c.linesRead + 1 }
  | .corrected _ => { c with linesRead := c.linesRead + 1, corrected := c.corrected + 1 }
  | .uncorrectable => { c with linesRead := c.linesRead + 1, uncorrectable := c.uncorrectable + 1 }

/-- The first uncorrectable line is kept (R144, R145). -/
def keepFirst (l : LiveSurvey) (c : Classification) : Option Nat :=
  match l.firstUncorrectable, c with
  | some x, _ => some x
  | none, .uncorrectable => some l.next
  | none, _ => none

/-- A SPAN read ends: dispatched and counted (R144). -/
def spanDispatch (ladder : Ladder) (c : Classification) (l : LiveSurvey) (s : State) : LiveSurvey × State :=
  ({ l with counts := spanCounts l.counts ladder.step c, firstUncorrectable := keepFirst l c },
    dispatchRead l.next ladder.ala ladder.step .survey c s)

/-- A SPARES read ends: counted, and a DEAD mark offered unless it is CLEAN (R11, R145). -/
def sparesDispatch (c : Classification) (l : LiveSurvey) (s : State) : LiveSurvey × State :=
  let counted := { l with counts := sparesCounts l.counts c, firstUncorrectable := keepFirst l c }
  match c with
  | .clean _ => (counted, s)
  | .corrected _ | .uncorrectable =>
    if spareStateOf s l.next = some .free then
      ({ counted with counts := { counted.counts with markedDead := counted.counts.markedDead + 1 } },
        killSpare l.next s)
    else (counted, s)

/-- How a survey read's end leads on (R142, R147, R148, R149). -/
def surveyGoesOn (dropped : Bool) (l : LiveSurvey) (s : State) : State :=
  match l.endRequested with
  | some .reset => endSurvey .reset l s
  | some outcome => endSurvey (if dropped then .haltedFull else outcome) l s
  | none =>
    if dropped then endSurvey .haltedFull l s
    else if s.policy.active.surveyGap = 0 then examine l s
    else setLive (some { l with phase := .gap s.policy.active.surveyGap }) s

/-- Does this outcome's Pending List add meet a full list (R147)? -/
def dropsAdd (s : State) (l : LiveSurvey) (c : Classification) : Bool :=
  l.mode == .span && c == .uncorrectable && addDropped s l.next

/-- A survey read's final outcome is taken (R142, R144, R145). -/
def surveyReadEnd (ladder : Ladder) (c : Classification) (l : LiveSurvey) (s : State) : State :=
  let dropped := dropsAdd s l c
  let r :=
    match l.mode with
    | .span => spanDispatch ladder c l s
    | .spares => sparesDispatch c l s
  surveyGoesOn dropped r.1.passLine r.2

/-- The outcome of a survey attempt (R66, R142). -/
def surveyReadOutcome (c : Classification) (s : State) : State :=
  match s.survey.live with
  | none => s
  | some l =>
    match l.phase with
    | .gap _ => s
    | .reading ladder =>
      if c = .uncorrectable ∧ ladder.step < ladder.depth then
        placeAged .surveyRead ladder.age
          (setLive (some { l with phase := .reading { ladder with step := ladder.step + 1 } }) s)
      else surveyReadEnd ladder c l s

/-- The gap of a survey expires (R142): the state after, when there is a gap. -/
def gapExpires (s : State) : Option State :=
  match s.survey.live with
  | none => none
  | some l =>
    match l.phase with
    | .gap _ => some (examine l s)
    | .reading _ => none

/-- A survey is stopped (R148, R149): at once when it has no read in the array, else when its ladder ends. -/
def stopSurvey (outcome : SurveyOutcome) (l : LiveSurvey) (s : State) : State :=
  match l.phase with
  | .gap _ => endSurvey outcome l s
  | .reading ladder =>
    if ladder.granted then setLive (some { l with endRequested := some outcome }) s
    else endSurvey outcome l (withdraw .surveyRead s)

/-- A restart's acceptance stops a survey with outcome RESET (R149). -/
def resetSurvey (s : State) : State :=
  match s.survey.live with
  | none => s
  | some l => stopSurvey .reset l s

end Sys2Proof.Machine
end

