-- ==== Sys2Proof/Machine/ArrayPath.lean ====
section
/-! DEFINITION. The Array Link Unit (spec/04) and the Write Buffer's drain (spec/05): the arbiter, translation, and the outcome
of each operation handed to its requester. -/

namespace Sys2Proof.Machine

/-! ### The arbiter (R61 to R63) -/

/-- The requester of a request (R56). -/
def ReqBody.requester : ReqBody → Requester
  | .journalRead _ => .journal
  | .journalWrite _ _ _ => .journal
  | .slotWrite _ => .relocation
  | .inPlace _ => .relocation
  | .drain _ => .writeBuffer
  | .rmwRead _ => .writeBuffer
  | .hostRead _ => .hostLink
  | .retireRead _ => .relocation
  | .surveyRead => .survey

/-- The class of a drain request at a grant decision (R79): a masked item's read in class 4, a full item's write in class 3
while the buffer holds 8 entries and in class 5 otherwise. -/
def drainClass (s : State) (ref : ItemRef) : Nat :=
  let full := (findItem s ref).any fun e => decide (e.mask = fullMask)
  if !full then 4 else if Config.bufferEntries ≤ s.buf.entries.length then 3 else 5

/-- The grant class of a request (R61). -/
def grantClass (s : State) : ReqBody → Nat
  | .journalRead _ => 1
  | .journalWrite _ _ _ => 1
  | .slotWrite _ => 2
  | .inPlace _ => 2
  | .drain ref => drainClass s ref
  | .rmwRead _ => 4
  | .hostRead _ => 4
  | .retireRead _ => 4
  | .surveyRead => 6

/-- Which of two ages of one event goes first (R61, log 12): by requester in a free order, then direct writes after entries,
then by order of placing. -/
def placedBefore (a b : ArbReq) : Bool :=
  let ra := a.body.requester
  let rb := b.body.requester
  if ra ≠ rb ∧ Config.placingRank a.age.event ra ≠ Config.placingRank b.age.event rb then
    Config.placingRank a.age.event ra < Config.placingRank b.age.event rb
  else if a.age.direct ≠ b.age.direct then b.age.direct
  else a.age.order < b.age.order

/-- Does the arbiter choose request `a` before request `b` (R62)? -/
def goesBefore (s : State) (a b : ArbReq) : Bool :=
  if grantClass s a.body ≠ grantClass s b.body then grantClass s a.body < grantClass s b.body
  else if a.age.event ≠ b.age.event then a.age.event < b.age.event
  else placedBefore a b

/-- The request the arbiter chooses (R62). -/
def chooseRequest (s : State) : Option ArbReq :=
  match s.array.waiting with
  | [] => none
  | r :: rest => some (rest.foldl (fun best q => if goesBefore s q best then q else best) r)

/-- An operation is issued: it takes the newest place and is sent (R56, R57, R62). -/
def issue (op : ArrayOp) (owner : Owner) (step : Nat) (s : State) : State :=
  let sent : ArrayOut :=
    match op with
    | .ident => .ident
    | .read ala => .read ala
    | .write ala data => .write ala data (.code ala data)
  (s.setArray { s.array with inFlight := s.array.inFlight ++ [{ op, owner, step, timedOut := false }] }).setOut
    { s.out with array := s.out.array ++ [sent] }

/-! ### Translation at drain (R80 to R85) -/

/-- What a grant decision comes to: an operation issued, or the place left free. -/
inductive Granted where
  | issued (s : State)
  | free (s : State)

/-- The read half of a masked item is issued (R84); its depth is sampled now (log 17). -/
def beginReadHalf (ref : ItemRef) (item : Item) (age : Age) (s : State) : State :=
  let place := servingPlace s item.hla
  let ladder : Ladder := { ala := place, depth := s.policy.active.retryDepth, step := 0, age, granted := true }
  issue (.read place) (.rmwRead ref) 0
    (updateItem ref (fun e => { e with phase := .reading, place, ladder := some ladder }) s)

/-- The array write of a whole line is issued (R85). -/
def beginLineWrite (ref : ItemRef) (item : Item) (s : State) : State :=
  let place := servingPlace s item.hla
  issue (.write place item.data) (.drainWrite ref) 0 (updateItem ref (fun e => { e with phase := .writing, place }) s)

/-- An item is translated by the first row of R80 that applies. -/
def translate (ref : ItemRef) (item : Item) (age : Age) (s : State) : Granted :=
  if isMoving s item.hla then .free (mergeItem ref item s)
  else if isPending s item.hla ∧ item.mask = fullMask then .free (offerItem ref item .pendingWrite s)
  else if isPending s item.hla then .free (discardItem ref item .unreadableMerge s)
  else if item.mask ≠ fullMask then .issued (beginReadHalf ref item age s)
  else .issued (beginLineWrite ref item s)

/-! ### Grants (R62) -/

/-- What the slot of a state writes: the place and the kind (R98, R102, R103). -/
def slotWritePlan (s : State) (slot : Slot) : Nat × SlotWriteKind :=
  match slot.state with
  | .writing => (targetOf s slot.home, .target)
  | .journaling => (targetOf s slot.home, .target)
  | .finishing => (targetOf s slot.home, .finishing)
  | .returning => (fallbackPlace s slot.home, .fallback)

/-- A slot's write is issued with the slot data as it stands, and dirty is cleared (R97). -/
def grantSlotWrite (home : Nat) (s : State) : Granted :=
  match findSlot s home with
  | none => .free s
  | some slot =>
    let plan := slotWritePlan s slot
    .issued
      (issue (.write plan.1 slot.data) (.slotWrite home plan.2) 0 (updateSlot home (fun q => { q with dirty := false }) s))

/-- An attempt of a host read is issued. -/
def grantHostRead (id : Nat) (s : State) : Granted :=
  match findReq s id with
  | none => .free s
  | some r =>
    match r.stage with
    | .inArray ladder =>
      .issued
        (issue (.read ladder.ala) (.hostRead id) ladder.step (setStage id (.inArray { ladder with granted := true }) s))
    | _ => .free s

/-- Change the LINE_RETIRE read of an identity. -/
def updateRetireRead (id : Nat) (f : RetireRead → RetireRead) (s : State) : State :=
  s.setReloc { s.reloc with retireReads := s.reloc.retireReads.map fun r => if r.id == id then f r else r }

/-- The LINE_RETIRE read of an identity. -/
def findRetireRead (s : State) (id : Nat) : Option RetireRead := s.reloc.retireReads.find? (·.id == id)

/-- An attempt of a LINE_RETIRE read is issued. -/
def grantRetireRead (id : Nat) (s : State) : Granted :=
  match findRetireRead s id with
  | none => .free s
  | some r =>
    .issued
      (issue (.read r.ladder.ala) (.retireRead id) r.ladder.step
        (updateRetireRead id (fun q => { q with ladder := { q.ladder with granted := true } }) s))

/-- An attempt of the survey read is issued. -/
def grantSurveyRead (s : State) : Granted :=
  match s.survey.live with
  | none => .free s
  | some l =>
    match l.phase with
    | .gap _ => .free s
    | .reading ladder =>
      .issued
        (issue (.read ladder.ala) .surveyRead ladder.step
          (setLive (some { l with phase := .reading { ladder with granted := true } }) s))

/-- A later attempt of a read half is issued. -/
def grantReadHalf (ref : ItemRef) (s : State) : Granted :=
  match (findItem s ref).bind (·.ladder) with
  | none => .free s
  | some ladder => .issued (issue (.read ladder.ala) (.rmwRead ref) ladder.step s)

/-- The in-place write of a pending line is issued (R95). -/
def grantInPlace (ref : ItemRef) (s : State) : Granted :=
  match findItem s ref with
  | none => .free s
  | some item => .issued (issue (.write item.place item.data) (.inPlace ref) 0 s)

/-- A drain request is chosen: its item is translated (R79, R80). -/
def grantDrain (ref : ItemRef) (age : Age) (s : State) : Granted :=
  match findItem s ref with
  | none => .free s
  | some item => translate ref item age s

/-- The chosen request is granted. -/
def grantRequest (r : ArbReq) (s : State) : Granted :=
  match r.body with
  | .journalRead ala => .issued (issue (.read ala) .journalRead 0 s)
  | .journalWrite kind ala data => .issued (issue (.write ala data) (.journalWrite kind) 0 s)
  | .slotWrite home => grantSlotWrite home s
  | .inPlace ref => grantInPlace ref s
  | .drain ref => grantDrain ref r.age s
  | .rmwRead ref => grantReadHalf ref s
  | .hostRead id => grantHostRead id s
  | .retireRead id => grantRetireRead id s
  | .surveyRead => grantSurveyRead s

/-- Can the arbiter decide a grant (R57, R62)? -/
def grantPossible (s : State) : Bool :=
  s.array.inFlight.length < Config.flightLimit && !s.array.waiting.isEmpty

/-- One grant (R62): a choice that takes no place leaves it to the next choice of the same event (R79). What the choice makes due comes
before the next choice, and the requests so placed are among those it chooses from (log 42). The drain requests of the event are
placed at its end, all together, in the creation order of their entries (R61). -/
def grantLoop : Nat → State → State
  | 0, s => s
  | n + 1, s =>
    if grantPossible s then
      match chooseRequest s with
      | none => s
      | some r =>
        match grantRequest r (s.setArray { s.array with waiting := s.array.waiting.erase r }) with
        | .issued t => t
        | .free t => grantLoop n (settleLoop (settleFuel t) t)
    else s

/-- More choices than a grant can make: each choice that takes no place ends an item or a stale request (log 35). -/
def grantFuel (s : State) : Nat :=
  2 * (s.array.waiting.length + s.buf.entries.length + s.buf.direct.length + s.host.order.length) + 4

/-- One grant, when the arbiter can decide one. -/
def grantNext (s : State) : Option State := if grantPossible s then some (grantLoop (grantFuel s) s) else none

/-! ### Outcomes of reads (R66 to R69, R84, R112) -/

/-- A host read's ladder ends (R67). -/
def hostReadEnd (r : HostReq) (ladder : Ladder) (c : Classification) (s : State) : State :=
  let origin : PendingOrigin := if ladder.ala = r.hla then .hostRead else .spareRead
  let t := dispatchRead r.hla ladder.ala ladder.step origin c s
  match c with
  | .clean data => answerReq r .read .ok (some data) t
  | .corrected data => answerReq r .read .corrected (some data) t
  | .uncorrectable => answerReq r .read .poison none t

/-- The outcome of a host read attempt (R66, R67). -/
def hostReadOutcome (id : Nat) (c : Classification) (s : State) : State :=
  match findReq s id with
  | none => s
  | some r =>
    match r.stage with
    | .inArray ladder =>
      if c = .uncorrectable ∧ ladder.step < ladder.depth then
        placeAged (.hostRead id) ladder.age (setStage id (.inArray { ladder with step := ladder.step + 1 }) s)
      else hostReadEnd r ladder c s
    | _ => s

/-- A read half ends with data: the item is ASSEMBLED and its write half is placed (R84). -/
def assemble (ref : ItemRef) (data : LineData) (s : State) : State :=
  placeDrain ref
    (updateItem ref
      (fun e =>
        { e with data := mergeLine data e.data e.mask, mask := fullMask, phase := .assembled, ladder := none }) s)

/-- A read half's ladder ends (R84). -/
def readHalfEnd (ref : ItemRef) (item : Item) (ladder : Ladder) (c : Classification) (s : State) : State :=
  let t := dispatchRead item.hla ladder.ala ladder.step .mergeRead c s
  match c with
  | .clean data => assemble ref data t
  | .corrected data => assemble ref data t
  | .uncorrectable => discardItem ref item .unreadableMerge t

/-- The outcome of a read half's attempt (R66, R84). -/
def readHalfOutcome (ref : ItemRef) (c : Classification) (s : State) : State :=
  match findItem s ref with
  | none => s
  | some item =>
    match item.ladder with
    | none => s
    | some ladder =>
      if c = .uncorrectable ∧ ladder.step < ladder.depth then
        placeAged (.rmwRead ref) ladder.age
          (updateItem ref (fun e => { e with ladder := some { ladder with step := ladder.step + 1 } }) s)
      else readHalfEnd ref item ladder c s

/-- LINE_RETIRE ends without a relocation: the reservation is released and the command answered (R112). -/
def endRetire (status : Status) (s : State) : State := completeCurrent status [] (releaseReservation s)

/-- A LINE_RETIRE relocation begins: the command waits for its end (R112). -/
def retireMoves (home : Nat) (s : State) : State :=
  match s.port.command with
  | some c => s.setPort { s.port with command := some { c with command := .lineRetire home true } }
  | none => s

/-- The LINE_RETIRE read delivered data (R112). -/
def retireData (home : Nat) (data : LineData) (s : State) : State :=
  if isPending s home then endRetire .pending s
  else
    match allocateFor home s with
    | (some spare, t) => retireMoves home (beginService home spare data t)
    | (none, t) => endRetire .exhausted t

/-- Does the reservation that this LINE_RETIRE read was made for still stand (R112)? -/
def reservationStands (r : RetireRead) (s : State) : Bool := r.live && s.reloc.reserved == some r.home

/-- A LINE_RETIRE read's ladder ends: dispatched by R68, and taken by the command while its reservation stands (R112). -/
def retireReadEnd (r : RetireRead) (c : Classification) (s : State) : State :=
  let s1 := s.setReloc { s.reloc with retireReads := s.reloc.retireReads.filter (·.id != r.id) }
  match c with
  | .clean data => if reservationStands r s then retireData r.home data s1 else s1
  | .corrected data => if reservationStands r s then retireData r.home data s1 else s1
  | .uncorrectable =>
    let s2 := pendingAdd r.home .service
      (writeFault .uncorrectableRead (some r.home) (some r.ladder.ala) (some r.ladder.step) s1)
    if reservationStands r s then endRetire .pending s2 else s2

/-- The outcome of a LINE_RETIRE read attempt (R66, R112). -/
def retireReadOutcome (id : Nat) (c : Classification) (s : State) : State :=
  match findRetireRead s id with
  | none => s
  | some r =>
    if c = .uncorrectable ∧ r.ladder.step < r.ladder.depth then
      placeAged (.retireRead id) r.ladder.age
        (updateRetireRead id (fun q => { q with ladder := { q.ladder with step := q.ladder.step + 1 } }) s)
    else retireReadEnd r c s

/-! ### Outcomes of writes (R70, R85, R86, R95) -/

/-- A drain write completes DONE on a line that became MOVING (R85): the bytes are copied into the slot, the item leaves, and a BARRIER
whose last covered data this was is answered DONE. Then the ack epoch, or the tag of a direct write, answered by now, passes to the
slot with the bytes (R100, log 18). -/
def drainDoneMoving (ref : ItemRef) (item : Item) (s : State) : State :=
  let answered := (waitingWriteOf s ref).map fun w => { w with live := false }
  let t := settleBarriers (completeItem ref (unpend item.hla (mergeSlot item.hla item.data fullMask none [] s)))
  updateSlot item.hla
    (fun q => { q with epoch := lowerEpoch q.epoch item.epoch, waiting := q.waiting ++ answered }) t

/-- A drain write completes DONE (R85): a line that became MOVING takes the bytes into its slot, a pending line is healed, and the item
leaves. -/
def drainDone (ref : ItemRef) (item : Item) (s : State) : State :=
  if isMoving s item.hla then drainDoneMoving ref item s else completeItem ref (unpend item.hla s)

/-- A drain write faults (R86): merged into the slot of a MOVING line, or offered as a WRITE_FAULT relocation. -/
def drainFault (ref : ItemRef) (item : Item) (s : State) : State :=
  if isMoving s item.hla then mergeItem ref item s else offerItem ref item .writeFault s

/-- The outcome of a drain write, a write half or a direct-path write (R85, R86). -/
def drainOutcome (ref : ItemRef) (answer : WriteAnswer) (s : State) : State :=
  match findItem s ref with
  | none => s
  | some item =>
    match answer with
    | .done => drainDone ref item s
    | .fault => drainFault ref item s

/-- An in-place write faults (R95): HOME_WRITE_FAULT, the data discarded with reason NO_SPARE. -/
def inPlaceFault (ref : ItemRef) (item : Item) (s : State) : State :=
  discardItem ref item .noSpare (writeFault .homeWriteFault (some item.hla) (some item.place) none s)

/-- The outcome of an in-place write (R95). -/
def inPlaceOutcome (ref : ItemRef) (answer : WriteAnswer) (s : State) : State :=
  match findItem s ref with
  | none => s
  | some item =>
    match answer with
    | .done => completeItem ref (unpend item.hla s)
    | .fault => inPlaceFault ref item s

/-- The outcome of a slot's write, by what it was for (R98, R102, R103). -/
def slotWriteOutcome (home : Nat) (kind : SlotWriteKind) (answer : WriteAnswer) (s : State) : State :=
  match findSlot s home with
  | none => s
  | some slot =>
    match kind with
    | .target => targetOutcome slot answer s
    | .finishing => finishingOutcome slot answer s
    | .fallback => fallbackOutcome slot answer s

/-- The outcome of a LOG line write at this ala (R121). -/
def logOutcome (ala : Nat) (answer : WriteAnswer) (s : State) : State :=
  match s.jour.line with
  | none => s
  | some line =>
    match answer with
    | .done => logLineDone line s
    | .fault => logLineFault line ala s

/-- The outcome of an image line write at this ala (R123, R124). -/
def imageOutcome (ala : Nat) (answer : WriteAnswer) (s : State) : State :=
  match s.jour.compaction with
  | none => s
  | some c =>
    match answer with
    | .done => imageLineDone c s
    | .fault => imageLineFault c ala s

/-- The outcome of a format line write at this ala (R133). -/
def formatOutcome (ala : Nat) (answer : WriteAnswer) (s : State) : State :=
  match s.start.format with
  | none => s
  | some job => formatLineOutcome job ala answer s

/-! ### Taking answers (R57 to R59) -/

/-- The ala of an operation; IDENT has none. -/
def ArrayOp.ala : ArrayOp → Nat
  | .ident => 0
  | .read a => a
  | .write a _ => a

/-- An answer is matched with the oldest operation (R57). When that operation has not timed out and its requester is of the
answer's kind, the answer is an event: the operation leaves the list and the effect is taken. No change otherwise (log 4). -/
def answerEvent (accepts : Owner → Bool) (effect : Flight → State → State) (s : State) : State :=
  match s.array.inFlight with
  | [] => s
  | f :: rest =>
    if !f.timedOut && accepts f.owner then
      event (fun t => effect f (t.setArray { t.array with inFlight := rest })) s
    else s

/-- The outcome of a read attempt, handed to its requester (R56). -/
def readOutcome (owner : Owner) (c : Classification) (s : State) : State :=
  match owner with
  | .journalRead => journalReadOutcome c s
  | .hostRead id => hostReadOutcome id c s
  | .rmwRead ref => readHalfOutcome ref c s
  | .retireRead id => retireReadOutcome id c s
  | .surveyRead => surveyReadOutcome c s
  | .ident | .journalWrite _ | .slotWrite _ _ | .inPlace _ | .drainWrite _ => s

/-- The outcome of a write, handed to its requester (R56, R70). -/
def writeOutcome (owner : Owner) (ala : Nat) (answer : WriteAnswer) (s : State) : State :=
  match owner with
  | .journalWrite .log => logOutcome ala answer s
  | .journalWrite .image => imageOutcome ala answer s
  | .journalWrite .format => formatOutcome ala answer s
  | .slotWrite home kind => slotWriteOutcome home kind answer s
  | .inPlace ref => inPlaceOutcome ref answer s
  | .drainWrite ref => drainOutcome ref answer s
  | .ident | .journalRead | .hostRead _ | .rmwRead _ | .retireRead _ | .surveyRead => s

/-- An answer to a READ, classified against the ala of the READ (R64). -/
def takeRead (line : ArrayLine) (f : Flight) (s : State) : State :=
  readOutcome f.owner (classify f.op.ala line) s

/-- An answer to a WRITE. -/
def takeWrite (answer : WriteAnswer) (f : Flight) (s : State) : State := writeOutcome f.owner f.op.ala answer s

/-- The oldest operation not yet timed out is marked timed out (R58); none when every one is. -/
def markOldest : List Flight → Option (Flight × List Flight)
  | [] => none
  | f :: rest =>
    if f.timedOut then (markOldest rest).map fun r => (r.1, f :: r.2)
    else some (f, { f with timedOut := true } :: rest)

/-- The outcome a requester receives at a timeout (R58): an UNCORRECTABLE attempt, a WRITE_FAULT, or no line count. -/
def timeoutOutcome (f : Flight) (s : State) : State :=
  match f.op with
  | .ident => identOutcome 0 s
  | .read _ => readOutcome f.owner .uncorrectable s
  | .write ala _ => writeOutcome f.owner ala .fault s

/-- An operation times out (R58, log 5). -/
def timeoutEvent (s : State) : State :=
  match markOldest s.array.inFlight with
  | none => s
  | some (f, flights) => event (fun t => timeoutOutcome f (t.setArray { t.array with inFlight := flights })) s

/-- A late answer: the oldest operation, timed out, leaves its place and nothing else happens (R59). -/
def lateEvent (s : State) : State :=
  match s.array.inFlight with
  | [] => s
  | f :: rest =>
    if f.timedOut then event (fun t => t.setArray { t.array with inFlight := rest }) s else s

end Sys2Proof.Machine
end

