-- ==== Sys2Proof/Machine/ServiceOps.lean ====
section
/-! DEFINITION. The Service Port (spec/10): the results of the queries, the twenty-six commands, taking a complete frame, and
the receiver. -/

namespace Sys2Proof.Machine

/-! ### Results (spec/11, sections 11.1 and 11.5) -/

/-- A remap entry as results (R1, section 11.5). -/
def RemapEntry.bytes (e : RemapEntry) : List Byte :=
  encAll
    [enc24 e.home, encOpt enc24 e.spare, encOpt enc24 e.target, enc8 (if e.target.isSome then 0 else 1),
      encOpt (fun c => enc8 c.code) e.cause, encOpt enc32 e.boundTick]

/-- A trace item as results (section 11.5). -/
def TraceItem.bytes (i : TraceItem) : List Byte :=
  encAll [enc8 i.kind.code, enc8 i.tag.toNat, encOpt enc24 i.hla, enc32 i.tick]

/-- A fault record as results (R154, section 11.5). -/
def FaultRecord.bytes (r : FaultRecord) : List Byte :=
  encAll
    [enc32 r.seq, enc8 r.kind.code, enc32 r.tick, encOpt enc24 r.hla, encOpt enc24 r.ala, encOpt enc8 r.step,
      enc8 r.trace.length, r.trace.flatMap TraceItem.bytes]

/-- The seven survey counts as results (R150, R188). -/
def SurveyCounts.bytes (c : SurveyCounts) : List Byte :=
  encAll
    [enc24 c.linesRead, enc24 c.skipped, enc24 c.cleanAfterRetry, enc24 c.corrected, enc24 c.retriedCorrected,
      enc24 c.uncorrectable, enc24 c.markedDead]

/-- The Survey Report as results (R150). -/
def SurveyReport.bytes (r : SurveyReport) : List Byte :=
  encAll
    [enc8 r.mode.code, enc24 r.first, enc24 r.count, enc32 r.startTick, enc32 r.endTick, enc8 r.outcome.code, enc24 r.next,
      r.counts.bytes, encOpt enc24 r.firstUncorrectable]

/-- The live survey as results (R151). -/
def LiveSurvey.bytes (l : LiveSurvey) : List Byte :=
  encAll
    [enc8 l.mode.code, enc24 l.first, enc24 l.count, enc32 l.startTick, enc24 l.next, enc8 l.phase.code, l.counts.bytes]

/-- A Pending List entry as results (R113). -/
def PendingEntry.bytes (p : PendingEntry) : List Byte :=
  encAll [enc24 p.hla, enc8 p.origin.code, enc32 p.entered, [p.hits]]

/-- A Watch Table entry as results (R113). -/
def WatchEntry.bytes (w : WatchEntry) : List Byte := encAll [enc24 w.hla, enc8 w.count, enc32 w.last]

/-- A set of causes in two bytes (R188). -/
def causeBytes (causes : BitVec 10) : List Byte := enc16 causes.toNat

/-- The Guard state and attempts as results (R174 to R176). -/
def guardResults (s : State) : List Byte := enc8 s.guard.state.code ++ enc8 s.guard.attempts

/-- The results of IDENTIFY (R178, section 11.5). -/
def identifyResults (s : State) : List Byte :=
  encAll
    [enc16 Config.vendorCode, enc16 Config.partCode, [Config.siliconRevision], enc24 s.array.lineCount,
      enc24 Config.journalLines, fenceResults s, enc16 Config.maxSpares, enc16 Config.slotCount,
      enc16 Config.sparesTried, enc16 Config.pendingLimit, enc16 Config.watchEntries, enc16 Config.bufferEntries,
      enc16 Config.reportLimit, enc16 16, enc16 Config.flightLimit, enc16 Config.queueLimit,
      enc16 Config.recordsPerLine, enc16 Config.bankLines, enc16 Config.faultLimit, enc16 Config.traceLimit,
      enc16 Config.unlockAttempts]

/-- The HELD reason, in HELD (R179). -/
def heldReason : OpState → Option HeldReason
  | .held r => some r
  | .starting => none
  | .running => none
  | .quiescing => none

/-- How many entries are MOVING (R3). -/
def movingCount (s : State) : Nat := (s.map.table.filter (·.target.isSome)).length

/-- The results of STATUS, in the order of R179. -/
def statusResults (s : State) : List Byte :=
  encAll
    [enc8 s.start.op.code, encOpt (fun r => enc8 r.code) (heldReason s.start.op), guardResults s, fenceResults s,
      enc16 (freeCount s), enc16 (countMarks s .held), enc16 (countMarks s .bound), enc16 (countMarks s .dead),
      enc16 s.map.table.length, enc8 (movingCount s), enc8 s.reloc.pendingList.length, enc8 s.reloc.watch.length,
      enc8 s.buf.entries.length, enc8 s.jour.state.code, encOpt (fun b => enc8 b.code) s.jour.active,
      enc16 s.jour.nextLine, enc8 (surveyState s).code, enc16 s.log.count.toNat, enc16 s.host.protocolCount.toNat,
      enc16 s.reloc.deferred.toNat, enc32 s.tick]

/-- The results of LOOKUP_LINE (R15). -/
def lookupResults (s : State) (hla : Nat) : List Byte :=
  encAll
    [encOpt RemapEntry.bytes (entryOf s hla), encBool (isPending s hla),
      encOpt (fun w => enc8 w.count) (s.reloc.watch.find? (·.hla == hla)), encBool (s.buf.entries.any (·.hla == hla)),
      encBool (decide (fenceValue s ≤ hla)), encOpt (fun x => enc8 x.code) (spareStateOf s hla)]

/-- The results of SURVEY_REPORT (R151). -/
def surveyResults (s : State) : List Byte :=
  encAll [enc8 (surveyState s).code, encOpt SurveyReport.bytes s.survey.report, encOpt LiveSurvey.bytes s.survey.live]

/-! ### Queries (R172: no class check) -/

/-- Does the operating state show the tables: RUNNING or QUIESCING (R15, R17, R113)? -/
def tablesShown (s : State) : Bool := s.start.op == .running || s.start.op == .quiescing

/-- IDENTIFY (R178). -/
def runIdentify (seq : Byte) (s : State) : State := completeCommand seq .ok (identifyResults s) s

/-- STATUS (R179). -/
def runStatus (seq : Byte) (s : State) : State := completeCommand seq .ok (statusResults s) s

/-- LOOKUP_LINE (R15). -/
def runLookup (seq : Byte) (hla : Nat) (s : State) : State :=
  if !tablesShown s then completeCommand seq .state [] s
  else if reserveEnd s ≤ hla then completeCommand seq .range [] s
  else completeCommand seq .ok (lookupResults s hla) s

/-- MAP_SEEK (R16). -/
def runMapSeek (seq : Byte) (hla : Nat) (s : State) : State :=
  completeCommand seq .ok [] (s.setMap { s.map with cursor := hla })

/-- The entry with the lowest home at or above the cursor (R17). -/
def entryAtCursor (s : State) : Option RemapEntry := s.map.table.find? fun e => s.map.cursor ≤ e.home

/-- MAP_NEXT (R17). -/
def runMapNext (seq : Byte) (s : State) : State :=
  if !tablesShown s then completeCommand seq .state [] s
  else
    match entryAtCursor s with
    | some e => completeCommand seq .ok e.bytes (s.setMap { s.map with cursor := e.home + 1 })
    | none => completeCommand seq .empty [] s

/-- What LIST_READ finds: none for a list that is neither PENDING nor WATCH (R113). -/
def listItem (s : State) (list index : Byte) : Option (Option (List Byte)) :=
  if list = 0 then some (s.reloc.pendingList[index.toNat]?.map PendingEntry.bytes)
  else if list = 1 then some (s.reloc.watch[index.toNat]?.map WatchEntry.bytes)
  else none

/-- LIST_READ (R113). -/
def runListRead (seq list index : Byte) (s : State) : State :=
  match listItem s list index with
  | none => completeCommand seq .range [] s
  | some item =>
    if !tablesShown s then completeCommand seq .state [] s
    else
      match item with
      | some bytes => completeCommand seq .ok bytes s
      | none => completeCommand seq .empty [] s

/-- The record the fault cursor names (R157). -/
def recordAtCursor (s : State) : Option FaultRecord := s.log.records.find? (·.seq == s.log.cursor)

/-- FAULT_NEXT (R159). -/
def runFaultNext (seq : Byte) (s : State) : State :=
  match recordAtCursor s with
  | some r => completeCommand seq .ok r.bytes (s.setLog { s.log with cursor := r.seq + 1 })
  | none => completeCommand seq .empty [] s

/-- The sequence of the oldest record held (R160). -/
def oldestSeq (s : State) : Option Seq32 := s.log.records.head?.map (·.seq)

/-- FAULT_REWIND (R160). -/
def runFaultRewind (seq : Byte) (s : State) : State :=
  completeCommand seq .ok (enc8 s.log.records.length ++ encOpt enc32 (oldestSeq s))
    (s.setLog { s.log with cursor := (oldestSeq s).getD s.log.next })

/-- SURVEY_REPORT (R151). -/
def runSurveyReport (seq : Byte) (s : State) : State := completeCommand seq .ok (surveyResults s) s

/-- POLICY_READ (R185). -/
def runPolicyRead (seq set : Byte) (s : State) : State :=
  if set = 0 then completeCommand seq .ok s.policy.active.pack s
  else if set = 1 then completeCommand seq .ok s.policy.staged.pack s
  else completeCommand seq .range [] s

/-- ALERT_READ (R165). -/
def runAlertRead (seq : Byte) (s : State) : State :=
  completeCommand seq .ok (causeBytes s.alert.causes ++ causeBytes s.alert.mask ++ encBool s.alertOut) s

/-! ### Operational commands (R172: no class check) -/

/-- The mode of a SURVEY_START, if it is one (R140, R192). -/
def surveyModeOf (mode : Byte) : Option SurveyMode := if mode = 0 then some .span else if mode = 1 then some .spares else none

/-- SURVEY_START's checks in the order of R140. -/
def surveyStartCheck (mode : Byte) (first : Nat) (s : State) : Except Status SurveyMode :=
  if s.start.op ≠ .running then .error .state
  else if s.survey.live.isSome then .error .state
  else
    match surveyModeOf mode with
    | none => .error .range
    | some .span => if fenceValue s ≤ first then .error .range else .ok .span
    | some .spares => .ok .spares

/-- SURVEY_START (R140, R141): answered with the mode and the range fixed. -/
def runSurveyStart (seq mode : Byte) (first count : Nat) (s : State) : State :=
  match surveyStartCheck mode first s with
  | .error status => completeCommand seq status [] s
  | .ok m =>
    let l := fixSurvey s m first count
    settle (completeCommand seq .ok (enc8 m.code ++ enc24 l.first ++ enc24 l.count) (examine l s))

/-- SURVEY_STOP (R148). -/
def runSurveyStop (seq : Byte) (s : State) : State :=
  match s.survey.live with
  | none => completeCommand seq .state [] s
  | some l =>
    let t := if l.endRequested.isNone then stopSurvey .stopped l s else s
    settle (completeCommand seq .ok (enc8 (surveyState t).code) t)

/-- The causes a set of two bytes names; bits 10 to 15 are ignored (R163, R164). -/
def namedCauses (set : BitVec 16) : BitVec 10 := set.setWidth 10

/-- ALERT_ACK (R164): the latched causes named are cleared. -/
def runAlertAck (seq : Byte) (set : BitVec 16) (s : State) : State :=
  let causes := s.alert.causes &&& ~~~(namedCauses set &&& ~~~levelCauses)
  completeCommand seq .ok (causeBytes causes) (s.setAlert { s.alert with causes })

/-- ALERT_MASK (R163). -/
def runAlertMask (seq : Byte) (set : BitVec 16) (s : State) : State :=
  completeCommand seq .ok (causeBytes (namedCauses set)) (s.setAlert { s.alert with mask := namedCauses set })

/-- POLICY_STAGE (R181): all six values, or none; a RANGE answer names the first field out of range (log 15). -/
def runPolicyStage (seq : Byte) (packed : List Byte) (s : State) : State :=
  if s.start.op ≠ .running then completeCommand seq .state [] s
  else
    match unpackPolicy packed with
    | .error field => completeCommand seq .range [Config.fieldCode field] s
    | .ok set => completeCommand seq .ok set.pack (s.setPolicy { s.policy with staged := set })

/-- A command stays in progress (R169). -/
def beginCommand (seq : Byte) (command : LongCommand) (s : State) : State :=
  s.setPort { s.port with command := some { seq, command } }

/-- JOURNAL_COMPACT (R126): from STALLED a compaction begins at once; in READY and APPENDING the journal's next decision
begins it. -/
def runJournalCompact (seq : Byte) (s : State) : State :=
  if s.start.op ≠ .running then completeCommand seq .state [] s
  else
    match s.jour.state with
    | .compacting => completeCommand seq .state [] s
    | .stalled => settle (beginCompaction 0 (beginCommand seq .journalCompact s))
    | .ready => settle (beginCommand seq .journalCompact s)
    | .appending => settle (beginCommand seq .journalCompact s)

/-! ### Guarded commands, after the class check (R172) -/

/-- The lowest blocking line of a raise and its kind (R51). -/
def raiseBlocker (s : State) (old new : Nat) : Option (Nat × Blocker) :=
  (List.range' old (new - old)).findSome? fun a =>
    match spareStateOf s a with
    | some .held => some (a, .held)
    | some .bound => some (a, .bound)
    | some .dead => some (a, .dead)
    | some .free => none
    | none => none

/-- The kind by which a host line blocks a lowering, the first that applies (R52). -/
def lineBlocker (s : State) (line : Nat) : Option Blocker :=
  if (entryOf s line).isSome then some .entry
  else if isPending s line then some .pending
  else if s.buf.entries.any (·.hla == line) then some .buffered
  else if s.host.order.any (·.hla == line) then some .request
  else none

/-- The lowest blocking line of a lowering and its kind (R52). -/
def loweringBlocker (s : State) (new old : Nat) : Option (Nat × Blocker) :=
  (List.range' new (old - new)).findSome? fun line => (lineBlocker s line).map fun k => (line, k)

/-- The blocking line of a fence move, if any (R50, checks 7 and 8). -/
def fenceBlocker (s : State) (new : Nat) : Option (Nat × Blocker) :=
  if fenceValue s < new then raiseBlocker s (fenceValue s) new else loweringBlocker s new (fenceValue s)

/-- The range an accepted fence move forms (R14, R52). -/
def moveRange (s : State) (new : Nat) : FenceRange :=
  if fenceValue s < new then { kind := .withdrawal, lo := fenceValue s, hi := new, kept := false }
  else { kind := .closing, lo := new, hi := fenceValue s, kept := false }

/-- FENCE_ADJUST's checks in the order of R50: the answer that ends the command, or none when it is accepted. -/
def fenceCheck (expected new : Nat) (s : State) : Option (Status × List Byte) :=
  if s.start.op ≠ .running then some (.state, [])
  else if s.jour.state = .stalled then some (.journalFault, [])
  else if expected ≠ fenceValue s then some (.stale, enc24 (fenceValue s))
  else if new = fenceValue s then some (.ok, fenceResults s)
  else if !fenceInBounds s new then some (.range, [])
  else if s.survey.live.isSome then some (.state, [])
  else (fenceBlocker s new).map fun b => (.blocked, enc24 b.1 ++ enc8 b.2.code)

/-- FENCE_ADJUST (R50). -/
def runFenceAdjust (seq : Byte) (expected new : Nat) (s : State) : State :=
  match fenceCheck expected new s with
  | some (status, results) => completeCommand seq status results s
  | none =>
    let t := s.setMap { s.map with range := some (moveRange s new) }
    settle (offerRecord (.fence new) (beginCommand seq (.fenceAdjust new) t))

/-- LINE_RETIRE's checks in the order of R112. -/
def retireCheck (hla : Nat) (s : State) : Option Status :=
  if s.start.op ≠ .running then some .state
  else if s.jour.state = .stalled then some .journalFault
  else if fenceValue s ≤ hla then some .range
  else if isPending s hla then some .pending
  else if relocationInProgress s hla then some .alreadyMoving
  else none

/-- A reservation takes a free slot at once, or waits in the slot queue (R112). -/
def reserveSlot (hla : Nat) (s : State) : State :=
  if slotFree s && s.reloc.queue.isEmpty then takeReservation hla s
  else s.setReloc { s.reloc with queue := s.reloc.queue ++ [.reservation hla] }

/-- LINE_RETIRE (R112). -/
def runLineRetire (seq : Byte) (hla : Nat) (s : State) : State :=
  match retireCheck hla s with
  | some status => completeCommand seq status [] s
  | none => settle (reserveSlot hla (beginCommand seq (.lineRetire hla false) s))

/-- POLICY_EXCHANGE (R182). -/
def runPolicyExchange (seq : Byte) (s : State) : State :=
  if s.start.op ≠ .running then completeCommand seq .state [] s
  else if s.jour.state = .stalled then completeCommand seq .journalFault [] s
  else settle (offerRecord (.policy s.policy.staged) (beginCommand seq .policyExchange s))

/-- FAULT_CLEAR (R161). -/
def runFaultClear (seq : Byte) (s : State) : State :=
  completeCommand seq .ok (enc32 s.log.next) (s.setLog { s.log with records := [], cursor := s.log.next })

/-- The fence JOURNAL_FORMAT writes (R133). -/
def formatFence (fence : Option Nat) (s : State) : Nat := fence.getD (reserveEnd s - Config.defaultSpares)

/-- JOURNAL_FORMAT (R133). -/
def runJournalFormat (seq : Byte) (fence : Option Nat) (s : State) : State :=
  if s.start.op ≠ .held .noJournal then completeCommand seq .state [] s
  else if (fence.map fun f => !fenceInBounds s f).getD false then completeCommand seq .range [] s
  else
    settle (placeFormatLine { fence := formatFence fence s, index := 0 } (beginCommand seq .journalFormat s))

/-- BRIDGE_RESTART (R134): QUIESCING begins and a survey is stopped with outcome RESET. -/
def runBridgeRestart (seq : Byte) (s : State) : State :=
  if s.start.op ≠ .running then completeCommand seq .state [] s
  else if s.jour.state = .stalled then completeCommand seq .journalFault [] s
  else
    settle (resetSurvey (beginCommand seq .bridgeRestart (s.setStart { s.start with op := .quiescing })))

/-! ### Guard commands (R173 to R176) -/

/-- GUARD_LOCK (R174). -/
def runGuardLock (seq : Byte) (word : BitVec 32) (s : State) : State :=
  match s.guard.state with
  | .open =>
    let t := s.setGuard { state := .locked, attempts := Config.unlockAttempts, word := some word }
    completeCommand seq .ok (guardResults t) t
  | .locked => completeCommand seq .refusedGuard (guardResults s) s
  | .frozen => completeCommand seq .refusedGuard (guardResults s) s

/-- The Guard's answer and state after an unlock (R175). -/
def unlock (word : BitVec 32) (g : Guard) : Status × Guard :=
  match g.state with
  | .open => (.ok, g)
  | .frozen => (.refusedGuard, g)
  | .locked =>
    if g.attempts = 0 then (.attempts, g)
    else if g.word = some word then (.ok, { state := .open, attempts := Config.unlockAttempts, word := none })
    else (.mismatch, { g with attempts := g.attempts - 1 })

/-- GUARD_UNLOCK (R175). -/
def runGuardUnlock (seq : Byte) (word : BitVec 32) (s : State) : State :=
  let r := unlock word s.guard
  let t := s.setGuard r.2
  completeCommand seq r.1 (guardResults t) t

/-- GUARD_FREEZE (R176). -/
def runGuardFreeze (seq : Byte) (s : State) : State :=
  let t := s.setGuard { s.guard with state := .frozen, word := none }
  completeCommand seq .ok (guardResults t) t

/-! ### Taking a frame (R168 to R172) -/

/-- Three argument bytes from an offset, as a line number. -/
def argLine (args : List Byte) (from_ : Nat) : Nat := (bigEndian 24 ((args.drop from_).take 3)).toNat

/-- Is the code that of a guarded command (section 10.4)? -/
def isGuarded (code : Byte) : Bool := 64 ≤ code.toNat && code.toNat ≤ 69

/-- A command whose class allows it is run, by its code (R192). -/
def runByCode (seq code : Byte) (args : List Byte) (s : State) : State :=
  let b (i : Nat) : Byte := args.getD i 0
  match code.toNat with
  | 1 => runIdentify seq s
  | 2 => runStatus seq s
  | 3 => runLookup seq (argLine args 0) s
  | 4 => runMapSeek seq (argLine args 0) s
  | 5 => runMapNext seq s
  | 6 => runListRead seq (b 0) (b 1) s
  | 7 => runFaultNext seq s
  | 8 => runFaultRewind seq s
  | 9 => runSurveyReport seq s
  | 10 => runPolicyRead seq (b 0) s
  | 11 => runAlertRead seq s
  | 32 => runSurveyStart seq (b 0) (argLine args 1) (argLine args 4) s
  | 33 => runSurveyStop seq s
  | 34 => runAlertAck seq (bigEndian 16 (args.take 2)) s
  | 35 => runAlertMask seq (bigEndian 16 (args.take 2)) s
  | 36 => runPolicyStage seq args s
  | 37 => runJournalCompact seq s
  | 64 => runFenceAdjust seq (argLine args 0) (argLine args 3) s
  | 65 => runLineRetire seq (argLine args 0) s
  | 66 => runPolicyExchange seq s
  | 67 => runFaultClear seq s
  | 68 => runJournalFormat seq (if args.isEmpty then none else some (argLine args 0)) s
  | 69 => runBridgeRestart seq s
  | 96 => runGuardLock seq (bigEndian 32 (args.take 4)) s
  | 97 => runGuardUnlock seq (bigEndian 32 (args.take 4)) s
  | 98 => runGuardFreeze seq s
  | _ => completeCommand seq .unknown [] s

/-- A command is run (R172): a guarded one only while the Guard is OPEN. -/
def runCommand (seq code : Byte) (args : List Byte) (s : State) : State :=
  if isGuarded code ∧ s.guard.state ≠ .open then completeCommand seq .refusedGuard [] s
  else runByCode seq code args s

/-- A frame whose frame check and argument length have passed is taken (R168, checks 3 to 7). -/
def takeCommand (seq code : Byte) (args : List Byte) (s : State) : State :=
  match s.port.command with
  | some c => if c.seq = seq then s else readyResponse { seq, status := .busy, results := [c.command.code] } s
  | none =>
    match s.port.stored with
    | some r => if r.seq = seq then readyResponse r s else runCommand seq code args (nextEvent s)
    | none => runCommand seq code args (nextEvent s)

/-- Is the number of argument bytes one R192 lists for the code? A frame with an unknown code is not checked (R191). -/
def argLengthAllowed (code : Byte) (n : Nat) : Bool :=
  match argLengths code with
  | none => true
  | some lengths => lengths.contains n

/-- A complete frame, from its length byte to its frame check, is taken by the checks of R168. -/
def takeFrame (frame : List Byte) (s : State) : State :=
  let covered := frame.take (frame.length - 2)
  let check : BitVec 16 := bigEndian 16 (frame.drop (frame.length - 2))
  match covered with
  | _ :: seq :: code :: args =>
    if frameCheck covered ≠ check then s
    else if !argLengthAllowed code args.length then s
    else takeCommand seq code args s
  | _ => s

/-! ### The receiver (R167, R191) -/

/-- Is this length byte one of a command frame (R191)? -/
def lengthAllowed (b : Byte) : Bool := 4 ≤ b.toNat && b.toNat ≤ 11

/-- The state with another receiver. -/
def setReceiver (r : Receiver) (s : State) : State := s.setPort { s.port with receiver := r }

/-- A byte is collected in RECEIVING (R167): a length byte out of range abandons the frame, the last byte completes it. -/
def collect (bytes : List Byte) (b : Byte) (s : State) : State :=
  match bytes with
  | [] => if lengthAllowed b then setReceiver (.receiving [b]) s else beginTransmit (setReceiver .hunting s)
  | n :: _ =>
    let frame := bytes ++ [b]
    if frame.length < n.toNat + 1 then setReceiver (.receiving frame) s
    else beginTransmit (takeFrame frame (setReceiver .hunting s))

/-- A byte arrives on the Service Link (R167). -/
def byteArrival (b : Byte) (s : State) : State :=
  if s.port.sending.isSome then s
  else
    match s.port.receiver with
    | .hunting => if b = Config.startMarker then setReceiver (.receiving []) s else s
    | .receiving bytes => collect bytes b s

/-- The bytes of a command frame arrive one after another (log 22). -/
def receiveFrame (seq code : Byte) (args : List Byte) (check : BitVec 16) (s : State) : State :=
  (commandFrame seq code args check).foldl (fun t b => byteArrival b t) s

/-- 2 ms pass with no further byte: the frame is abandoned (R167), and a waiting response may begin (R171). -/
def frameTimeout (s : State) : State :=
  match s.port.receiver with
  | .hunting => s
  | .receiving _ => beginTransmit (setReceiver .hunting s)

/-- The transmission of a response ends, and the next may begin (R171). -/
def transmitEnd (s : State) : State :=
  match s.port.sending with
  | none => s
  | some r =>
    beginTransmit
      ((s.setPort { s.port with sending := none }).setOut { s.out with service := s.out.service ++ [r] })

/-- The argument bytes of a number in three bytes, two bytes and four bytes, most significant first (R188). -/
def arg24 (v : Addr24) : List Byte := [byteOf v.toNat 2, byteOf v.toNat 1, byteOf v.toNat 0]

end Sys2Proof.Machine
end

