-- ==== Sys2Proof/Machine/ArrayCommands.lean ====
section
/-! DEFINITION. The meanings of the array's answers and of the operation timeout (spec/04, R57 to R59, R64 to R70). -/

namespace Sys2Proof.Machine

/-- Is the requester start-up's journal read? -/
def Owner.isJournalRead : Owner → Bool
  | .journalRead => true
  | _ => false

/-- Is the requester a host read? -/
def Owner.isHostRead : Owner → Bool
  | .hostRead _ => true
  | _ => false

/-- Is the requester a read half of the Write Buffer? -/
def Owner.isReadHalf : Owner → Bool
  | .rmwRead _ => true
  | _ => false

/-- Is the requester a LINE_RETIRE read? -/
def Owner.isRetireRead : Owner → Bool
  | .retireRead _ => true
  | _ => false

/-- Is the requester the survey? -/
def Owner.isSurveyRead : Owner → Bool
  | .surveyRead => true
  | _ => false

/-- Is the requester a drain write? -/
def Owner.isDrainWrite : Owner → Bool
  | .drainWrite _ => true
  | _ => false

/-- Is the requester an in-place write? -/
def Owner.isInPlace : Owner → Bool
  | .inPlace _ => true
  | _ => false

/-- Is the requester a slot's write of this kind? -/
def Owner.isSlotWrite (kind : SlotWriteKind) : Owner → Bool
  | .slotWrite _ k => k == kind
  | _ => false

/-- Is the requester a journal line write of this kind? -/
def Owner.isJournalWrite (kind : JournalWriteKind) : Owner → Bool
  | .journalWrite k => k == kind
  | _ => false

/-- Is the requester start-up's IDENT? -/
def Owner.isIdent : Owner → Bool
  | .ident => true
  | _ => false

/-- IDENT_ANSWER (R60). -/
def execIdentAnswer (count : Nat) (s : State) : Result :=
  .next (answerEvent Owner.isIdent (fun _ => identOutcome count) s)

/-- JOURNAL_LINE_READ_ANSWER (R129, R130). -/
def execJournalLineReadAnswer (line : ArrayLine) (s : State) : Result :=
  .next (answerEvent Owner.isJournalRead (takeRead line) s)

/-- HOST_READ_ATTEMPT_ANSWER (R66, R67). -/
def execHostReadAttemptAnswer (line : ArrayLine) (s : State) : Result :=
  .next (answerEvent Owner.isHostRead (takeRead line) s)

/-- RMW_READ_ANSWER (R84). -/
def execRmwReadAnswer (line : ArrayLine) (s : State) : Result :=
  .next (answerEvent Owner.isReadHalf (takeRead line) s)

/-- LINE_RETIRE_READ_ANSWER (R112). -/
def execLineRetireReadAnswer (line : ArrayLine) (s : State) : Result :=
  .next (answerEvent Owner.isRetireRead (takeRead line) s)

/-- SURVEY_READ_ANSWER (R142). -/
def execSurveyReadAnswer (line : ArrayLine) (s : State) : Result :=
  .next (answerEvent Owner.isSurveyRead (takeRead line) s)

/-- DRAIN_WRITE_ANSWER (R85, R86). -/
def execDrainWriteAnswer (answer : WriteAnswer) (s : State) : Result :=
  .next (answerEvent Owner.isDrainWrite (takeWrite answer) s)

/-- IN_PLACE_WRITE_ANSWER (R95). -/
def execInPlaceWriteAnswer (answer : WriteAnswer) (s : State) : Result :=
  .next (answerEvent Owner.isInPlace (takeWrite answer) s)

/-- TARGET_WRITE_ANSWER (R98, R99). -/
def execTargetWriteAnswer (answer : WriteAnswer) (s : State) : Result :=
  .next (answerEvent (Owner.isSlotWrite .target) (takeWrite answer) s)

/-- FINISHING_WRITE_ANSWER (R102). -/
def execFinishingWriteAnswer (answer : WriteAnswer) (s : State) : Result :=
  .next (answerEvent (Owner.isSlotWrite .finishing) (takeWrite answer) s)

/-- FALLBACK_WRITE_ANSWER (R103, R104). -/
def execFallbackWriteAnswer (answer : WriteAnswer) (s : State) : Result :=
  .next (answerEvent (Owner.isSlotWrite .fallback) (takeWrite answer) s)

/-- LOG_LINE_WRITE_ANSWER (R121). -/
def execLogLineWriteAnswer (answer : WriteAnswer) (s : State) : Result :=
  .next (answerEvent (Owner.isJournalWrite .log) (takeWrite answer) s)

/-- IMAGE_LINE_WRITE_ANSWER (R123, R124). -/
def execImageLineWriteAnswer (answer : WriteAnswer) (s : State) : Result :=
  .next (answerEvent (Owner.isJournalWrite .image) (takeWrite answer) s)

/-- FORMAT_LINE_WRITE_ANSWER (R133). -/
def execFormatLineWriteAnswer (answer : WriteAnswer) (s : State) : Result :=
  .next (answerEvent (Owner.isJournalWrite .format) (takeWrite answer) s)

/-- ARRAY_OP_TIMEOUT (R58). -/
def execArrayOpTimeout (s : State) : Result := .next (timeoutEvent s)

/-- LATE_ANSWER: its content is discarded (R59). -/
def execLateAnswer (_answer : ArrayAnswer) (s : State) : Result := .next (lateEvent s)

end Sys2Proof.Machine
end

