-- ==== Sys2Proof/Machine/GuardCommands.lean ====
section
/-! DEFINITION. The meanings of the Guard commands (section 10.5), of a frame with an unknown code (R168) and of one byte of the Service
Link (R167). -/

namespace Sys2Proof.Machine

/-- GUARD_LOCK (R174). -/
def execGuardLock (seq : Byte) (word : BitVec 32) (check : BitVec 16) (s : State) : Result :=
  .next (receiveFrame seq 96 (enc32 word) check s)

/-- GUARD_UNLOCK (R175). -/
def execGuardUnlock (seq : Byte) (word : BitVec 32) (check : BitVec 16) (s : State) : Result :=
  .next (receiveFrame seq 97 (enc32 word) check s)

/-- GUARD_FREEZE (R176). -/
def execGuardFreeze (seq : Byte) (check : BitVec 16) (s : State) : Result :=
  .next (receiveFrame seq 98 [] check s)

/-- UNKNOWN_COMMAND: a frame with a code outside the catalogue (R168). -/
def execUnknownCommand (seq code : Byte) (args : List Byte) (check : BitVec 16) (s : State) : Result :=
  .next (receiveFrame seq code args check s)

/-- SERVICE_LINK_BYTE_ARRIVAL (R167). -/
def execServiceLinkByteArrival (byte : Byte) (s : State) : Result := .next (byteArrival byte s)

end Sys2Proof.Machine
end

