-- ==== Sys2Proof/Machine/GuardedCommands.lean ====
section
/-! DEFINITION. The meanings of the six guarded commands (section 10.4): each is the arrival of its frame (log 22). -/

namespace Sys2Proof.Machine

/-- FENCE_ADJUST (R50). -/
def execFenceAdjust (seq : Byte) (expected new : Addr24) (check : BitVec 16) (s : State) : Result :=
  .next (receiveFrame seq 64 (arg24 expected ++ arg24 new) check s)

/-- LINE_RETIRE (R112). -/
def execLineRetire (seq : Byte) (hla : Addr24) (check : BitVec 16) (s : State) : Result :=
  .next (receiveFrame seq 65 (arg24 hla) check s)

/-- POLICY_EXCHANGE (R182). -/
def execPolicyExchange (seq : Byte) (check : BitVec 16) (s : State) : Result :=
  .next (receiveFrame seq 66 [] check s)

/-- FAULT_CLEAR (R161). -/
def execFaultClear (seq : Byte) (check : BitVec 16) (s : State) : Result :=
  .next (receiveFrame seq 67 [] check s)

/-- JOURNAL_FORMAT (R133): F is present when 3 argument bytes are sent. -/
def execJournalFormat (seq : Byte) (fence : Option Addr24) (check : BitVec 16) (s : State) : Result :=
  .next (receiveFrame seq 68 ((fence.map arg24).getD []) check s)

/-- BRIDGE_RESTART (R134). -/
def execBridgeRestart (seq : Byte) (check : BitVec 16) (s : State) : Result :=
  .next (receiveFrame seq 69 [] check s)

end Sys2Proof.Machine
end

