-- ==== Sys2Proof/Machine/HostCommands.lean ====
section
/-! DEFINITION. The meanings of the Host Link's commands (spec/02): READ, WRITE, BARRIER, HRST and transfers that are no
request. -/

namespace Sys2Proof.Machine

/-- The tag of a request: the low four bits of the field sent (R189). -/
def tagOf (field : Byte) : Tag := field.setWidth 4

/-- HOST_READ (R25). -/
def execHostRead (tag : Byte) (hla : Addr24) (s : State) : Result :=
  .next (event (arrive .read (tagOf tag) (some hla.toNat) (acceptRead (tagOf tag) hla.toNat)) s)

/-- HOST_WRITE (R25). -/
def execHostWrite (tag : Byte) (hla : Addr24) (mask : Mask) (data : LineData) (s : State) : Result :=
  .next (event (arrive .write (tagOf tag) (some hla.toNat) (acceptWrite (tagOf tag) hla.toNat mask data)) s)

/-- BARRIER (R25, R31). -/
def execBarrier (tag : Byte) (s : State) : Result :=
  .next (event (arrive .barrier (tagOf tag) none (acceptBarrier (tagOf tag))) s)

/-- HRST (R36). -/
def execHrst (s : State) : Result := .next (event hostLinkReset s)

/-- NON_REQUEST_TRANSFER: discarded whole, with no effect (R189). -/
def execNonRequestTransfer (_kind : Byte) (s : State) : Result := .next s

end Sys2Proof.Machine
end

