-- ==== Sys2Proof/Machine/InternalCommands.lean ====
section
/-! DEFINITION. The meanings of the rows that are the part's own steps: presentation, room entry, arbiter grant, slot handoff,
record join, quiesce end (log 2, log 3). -/

namespace Sys2Proof.Machine

/-- REQUEST_PRESENTATION (R40). -/
def execRequestPresentation (s : State) : Result := .next (internalEvent presentNext s)

/-- BUFFER_ROOM_ENTRY (R77). -/
def execBufferRoomEntry (s : State) : Result := .next (internalEvent roomEntryNext s)

/-- ARBITER_GRANT (R62). -/
def execArbiterGrant (s : State) : Result := .next (internalEvent grantNext s)

/-- SLOT_HANDOFF (R93). -/
def execSlotHandoff (s : State) : Result := .next (internalEvent handoffNext s)

/-- JOURNAL_RECORD_JOIN (R119). -/
def execJournalRecordJoin (s : State) : Result := .next (internalEvent joinNext s)

/-- QUIESCE_END (R135). -/
def execQuiesceEnd (s : State) : Result := .next (internalEvent quiesceNext s)

end Sys2Proof.Machine
end

