-- ==== Sys2Proof/Machine/OperationalCommands.lean ====
section
/-! DEFINITION. The meanings of the six operational commands (section 10.4): each is the arrival of its frame (log 22). -/

namespace Sys2Proof.Machine

/-- SURVEY_START (R140). -/
def execSurveyStart (seq : Byte) (mode : Byte) (first count : Addr24) (check : BitVec 16) (s : State) : Result :=
  .next (receiveFrame seq 32 (mode :: arg24 first ++ arg24 count) check s)

/-- SURVEY_STOP (R148). -/
def execSurveyStop (seq : Byte) (check : BitVec 16) (s : State) : Result :=
  .next (receiveFrame seq 33 [] check s)

/-- ALERT_ACK (R164). -/
def execAlertAck (seq : Byte) (set : BitVec 16) (check : BitVec 16) (s : State) : Result :=
  .next (receiveFrame seq 34 (enc16 set.toNat) check s)

/-- ALERT_MASK (R163). -/
def execAlertMask (seq : Byte) (set : BitVec 16) (check : BitVec 16) (s : State) : Result :=
  .next (receiveFrame seq 35 (enc16 set.toNat) check s)

/-- POLICY_STAGE (R181); its arguments are packed by section 11.6. -/
def execPolicyStage (seq : Byte) (retryDepth watchLimit : Byte) (spareLow : BitVec 16)
    (pendingHigh posting surveyGap : Byte) (check : BitVec 16) (s : State) : Result :=
  .next (receiveFrame seq 36 
    ([retryDepth, watchLimit] ++ enc16 spareLow.toNat ++ [pendingHigh, posting, surveyGap]) check s)

/-- JOURNAL_COMPACT (R126). -/
def execJournalCompact (seq : Byte) (check : BitVec 16) (s : State) : Result :=
  .next (receiveFrame seq 37 [] check s)

end Sys2Proof.Machine
end

