-- ==== Sys2Proof/Machine/QueryCommands.lean ====
section
/-! DEFINITION. The meanings of the eleven queries (section 10.4): each is the arrival of its frame (log 22). -/

namespace Sys2Proof.Machine

/-- IDENTIFY (R178). -/
def execIdentify (seq : Byte) (check : BitVec 16) (s : State) : Result :=
  .next (receiveFrame seq 1 [] check s)

/-- STATUS (R179). -/
def execStatus (seq : Byte) (check : BitVec 16) (s : State) : Result :=
  .next (receiveFrame seq 2 [] check s)

/-- LOOKUP_LINE (R15). -/
def execLookupLine (seq : Byte) (hla : Addr24) (check : BitVec 16) (s : State) : Result :=
  .next (receiveFrame seq 3 (arg24 hla) check s)

/-- MAP_SEEK (R16). -/
def execMapSeek (seq : Byte) (hla : Addr24) (check : BitVec 16) (s : State) : Result :=
  .next (receiveFrame seq 4 (arg24 hla) check s)

/-- MAP_NEXT (R17). -/
def execMapNext (seq : Byte) (check : BitVec 16) (s : State) : Result :=
  .next (receiveFrame seq 5 [] check s)

/-- LIST_READ (R113). -/
def execListRead (seq : Byte) (list index : Byte) (check : BitVec 16) (s : State) : Result :=
  .next (receiveFrame seq 6 [list, index] check s)

/-- FAULT_NEXT (R159). -/
def execFaultNext (seq : Byte) (check : BitVec 16) (s : State) : Result :=
  .next (receiveFrame seq 7 [] check s)

/-- FAULT_REWIND (R160). -/
def execFaultRewind (seq : Byte) (check : BitVec 16) (s : State) : Result :=
  .next (receiveFrame seq 8 [] check s)

/-- SURVEY_REPORT (R151). -/
def execSurveyReport (seq : Byte) (check : BitVec 16) (s : State) : Result :=
  .next (receiveFrame seq 9 [] check s)

/-- POLICY_READ (R185). -/
def execPolicyRead (seq : Byte) (set : Byte) (check : BitVec 16) (s : State) : Result :=
  .next (receiveFrame seq 10 [set] check s)

/-- ALERT_READ (R165). -/
def execAlertRead (seq : Byte) (check : BitVec 16) (s : State) : Result :=
  .next (receiveFrame seq 11 [] check s)

end Sys2Proof.Machine
end

