-- ==== Sys2Proof/Machine/ResetCommands.lean ====
section
/-! DEFINITION. The meanings of POWER_ON_RESET and RESET_INPUT (spec/07, R128; spec/04, R60). -/

namespace Sys2Proof.Machine

/-- The part after a reset: every module at its reset value, the array link reset and IDENT sent (R60). The waiting commands and
the model's transcripts and counters go on (log 1, log 23, log 24). -/
def resetPart (s : State) : State :=
  (State.reset.setPending s.pending).setIds s.ids |>.setOut
    { s.out with array := s.out.array ++ [.linkReset, .ident] }

/-- POWER_ON_RESET (R128). -/
def execPowerOnReset (s : State) : Result := .next (resetPart s)

/-- RESET_INPUT: as at power-on (R128). -/
def execResetInput (s : State) : Result := .next (resetPart s)

end Sys2Proof.Machine
end

