-- ==== Sys2Proof/Machine/TimeCommands.lean ====
section
/-! DEFINITION. The meanings of the commands that stand for time passing: the uptime tick, the survey gap, the byte gap and the
end of a transmission (log 6). -/

namespace Sys2Proof.Machine

/-- UPTIME_TICK: the tick counts and wraps (R177). -/
def execUptimeTick (s : State) : Result := .next (s.setTick (s.tick + 1))

/-- SURVEY_GAP_EXPIRY (R142). -/
def execSurveyGapExpiry (s : State) : Result := .next (internalEvent gapExpires s)

/-- FRAME_BYTE_TIMEOUT (R167). -/
def execFrameByteTimeout (s : State) : Result := .next (frameTimeout s)

/-- RESPONSE_TRANSMIT_END (R171). -/
def execResponseTransmitEnd (s : State) : Result := .next (transmitEnd s)

end Sys2Proof.Machine
end

