-- ==== Sys2Proof/Machine/Dispatch.lean ====
section
/-! DEFINITION. One arm per command: its meaning. -/

namespace Sys2Proof.Machine

/-- A command's effect on everything but the queue of waiting commands. -/
def exec (i : Instr) (s : State) : Host.Outcome State Fault Refusal :=
  match i with
  | .powerOnReset => Sys2Proof.Machine.execPowerOnReset s
  | .resetInput => Sys2Proof.Machine.execResetInput s
  | .hostRead tag hla => Sys2Proof.Machine.execHostRead tag hla s
  | .hostWrite tag hla mask data => Sys2Proof.Machine.execHostWrite tag hla mask data s
  | .barrier tag => Sys2Proof.Machine.execBarrier tag s
  | .hrst => Sys2Proof.Machine.execHrst s
  | .nonRequestTransfer kind => Sys2Proof.Machine.execNonRequestTransfer kind s
  | .requestPresentation => Sys2Proof.Machine.execRequestPresentation s
  | .bufferRoomEntry => Sys2Proof.Machine.execBufferRoomEntry s
  | .arbiterGrant => Sys2Proof.Machine.execArbiterGrant s
  | .identAnswer count => Sys2Proof.Machine.execIdentAnswer count s
  | .journalLineReadAnswer line => Sys2Proof.Machine.execJournalLineReadAnswer line s
  | .hostReadAttemptAnswer line => Sys2Proof.Machine.execHostReadAttemptAnswer line s
  | .rmwReadAnswer line => Sys2Proof.Machine.execRmwReadAnswer line s
  | .lineRetireReadAnswer line => Sys2Proof.Machine.execLineRetireReadAnswer line s
  | .surveyReadAnswer line => Sys2Proof.Machine.execSurveyReadAnswer line s
  | .surveyGapExpiry => Sys2Proof.Machine.execSurveyGapExpiry s
  | .drainWriteAnswer answer => Sys2Proof.Machine.execDrainWriteAnswer answer s
  | .inPlaceWriteAnswer answer => Sys2Proof.Machine.execInPlaceWriteAnswer answer s
  | .targetWriteAnswer answer => Sys2Proof.Machine.execTargetWriteAnswer answer s
  | .finishingWriteAnswer answer => Sys2Proof.Machine.execFinishingWriteAnswer answer s
  | .fallbackWriteAnswer answer => Sys2Proof.Machine.execFallbackWriteAnswer answer s
  | .slotHandoff => Sys2Proof.Machine.execSlotHandoff s
  | .logLineWriteAnswer answer => Sys2Proof.Machine.execLogLineWriteAnswer answer s
  | .journalRecordJoin => Sys2Proof.Machine.execJournalRecordJoin s
  | .imageLineWriteAnswer answer => Sys2Proof.Machine.execImageLineWriteAnswer answer s
  | .formatLineWriteAnswer answer => Sys2Proof.Machine.execFormatLineWriteAnswer answer s
  | .arrayOpTimeout => Sys2Proof.Machine.execArrayOpTimeout s
  | .lateAnswer answer => Sys2Proof.Machine.execLateAnswer answer s
  | .quiesceEnd => Sys2Proof.Machine.execQuiesceEnd s
  | .uptimeTick => Sys2Proof.Machine.execUptimeTick s
  | .frameByteTimeout => Sys2Proof.Machine.execFrameByteTimeout s
  | .responseTransmitEnd => Sys2Proof.Machine.execResponseTransmitEnd s
  | .unknownCommand seq code args check => Sys2Proof.Machine.execUnknownCommand seq code args check s
  | .identify seq check => Sys2Proof.Machine.execIdentify seq check s
  | .status seq check => Sys2Proof.Machine.execStatus seq check s
  | .lookupLine seq hla check => Sys2Proof.Machine.execLookupLine seq hla check s
  | .mapSeek seq hla check => Sys2Proof.Machine.execMapSeek seq hla check s
  | .mapNext seq check => Sys2Proof.Machine.execMapNext seq check s
  | .listRead seq list index check => Sys2Proof.Machine.execListRead seq list index check s
  | .faultNext seq check => Sys2Proof.Machine.execFaultNext seq check s
  | .faultRewind seq check => Sys2Proof.Machine.execFaultRewind seq check s
  | .surveyReport seq check => Sys2Proof.Machine.execSurveyReport seq check s
  | .policyRead seq set check => Sys2Proof.Machine.execPolicyRead seq set check s
  | .alertRead seq check => Sys2Proof.Machine.execAlertRead seq check s
  | .surveyStart seq mode first count check => Sys2Proof.Machine.execSurveyStart seq mode first count check s
  | .surveyStop seq check => Sys2Proof.Machine.execSurveyStop seq check s
  | .alertAck seq set check => Sys2Proof.Machine.execAlertAck seq set check s
  | .alertMask seq set check => Sys2Proof.Machine.execAlertMask seq set check s
  | .policyStage seq retryDepth watchLimit spareLow pendingHigh posting surveyGap check => Sys2Proof.Machine.execPolicyStage seq retryDepth watchLimit spareLow pendingHigh posting surveyGap check s
  | .journalCompact seq check => Sys2Proof.Machine.execJournalCompact seq check s
  | .fenceAdjust seq expected new check => Sys2Proof.Machine.execFenceAdjust seq expected new check s
  | .lineRetire seq hla check => Sys2Proof.Machine.execLineRetire seq hla check s
  | .policyExchange seq check => Sys2Proof.Machine.execPolicyExchange seq check s
  | .faultClear seq check => Sys2Proof.Machine.execFaultClear seq check s
  | .journalFormat seq fence check => Sys2Proof.Machine.execJournalFormat seq fence check s
  | .bridgeRestart seq check => Sys2Proof.Machine.execBridgeRestart seq check s
  | .guardLock seq word check => Sys2Proof.Machine.execGuardLock seq word check s
  | .guardUnlock seq word check => Sys2Proof.Machine.execGuardUnlock seq word check s
  | .guardFreeze seq check => Sys2Proof.Machine.execGuardFreeze seq check s
  | .serviceLinkByteArrival byte => Sys2Proof.Machine.execServiceLinkByteArrival byte s

end Sys2Proof.Machine
end

