-- ==== Sys2Proof/Safety.lean ====
section
/-! DEFINITION. The terms claims are stated in: when nothing internal is due, when the Service Port is ready, and the laws that
every step keeps. -/

namespace Sys2Proof

/-! ### The commands of the Service Link -/

/-- Is this a command of the Service Link: a command frame, a byte, the byte gap, or the end of a transmission? -/
def Instr.ofServiceLink : Instr → Bool
  | .frameByteTimeout | .responseTransmitEnd | .unknownCommand _ _ _ _ | .identify _ _ | .status _ _
  | .lookupLine _ _ _ | .mapSeek _ _ _ | .mapNext _ _ | .listRead _ _ _ _ | .faultNext _ _ | .faultRewind _ _
  | .surveyReport _ _ | .policyRead _ _ _ | .alertRead _ _ | .surveyStart _ _ _ _ _ | .surveyStop _ _
  | .alertAck _ _ _ | .alertMask _ _ _ | .policyStage _ _ _ _ _ _ _ _ | .journalCompact _ _
  | .fenceAdjust _ _ _ _ | .lineRetire _ _ _ | .policyExchange _ _ | .faultClear _ _ | .journalFormat _ _ _
  | .bridgeRestart _ _ | .guardLock _ _ _ | .guardUnlock _ _ _ | .guardFreeze _ _ | .serviceLinkByteArrival _ => true
  | .powerOnReset | .resetInput | .hostRead _ _ | .hostWrite _ _ _ _ | .barrier _ | .hrst
  | .nonRequestTransfer _ | .requestPresentation | .bufferRoomEntry | .arbiterGrant | .identAnswer _
  | .journalLineReadAnswer _ | .hostReadAttemptAnswer _ | .rmwReadAnswer _ | .lineRetireReadAnswer _
  | .surveyReadAnswer _ | .surveyGapExpiry | .drainWriteAnswer _ | .inPlaceWriteAnswer _
  | .targetWriteAnswer _ | .finishingWriteAnswer _ | .fallbackWriteAnswer _ | .slotHandoff
  | .logLineWriteAnswer _ | .journalRecordJoin | .imageLineWriteAnswer _ | .formatLineWriteAnswer _
  | .arrayOpTimeout | .lateAnswer _ | .quiesceEnd | .uptimeTick => false

end Sys2Proof

namespace Sys2Proof.Machine

/-! ### When an event ends with its own effect -/

/-- No internal step of the part is due: nothing waits for a slot, for buffer room, for the Journal Queue or for presentation, no held
outcome is due, no barrier waits, the journal decides nothing, and no quiesce can end. What is left of an event that leaves the part
so is that drain-ready items place their requests (R79) and the level causes are evaluated (R13, R109). -/
def steady (s : State) : Bool :=
  s.reloc.queue.isEmpty && (heldNext s).isNone && s.host.roomWait.isEmpty && s.jour.wait.isEmpty &&
    s.host.barriers.isEmpty && s.host.order.all (fun r => r.stage != .queued) && (decideNext s).isNone &&
    (quiesceNext s).isNone

/-- Every drain-ready item has its one request at the arbiter (R79). -/
def drained (s : State) : Bool := (readyEntries [] s.buf.entries ++ readyDirect s).all (drainWaits s)

/-- No internal step is due and no drain request is to be placed: what is left of an event is the level causes alone. -/
def calm (s : State) : Bool := steady s && drained s

/-- The state in the event that takes the answer of the oldest operation, once that operation has left the list (R57). -/
def answerTaken (rest : List Flight) (s : State) : State := (nextEvent s).setArray { s.array with inFlight := rest }

/-- An operation in flight that has not timed out. -/
def inFlightNow (op : ArrayOp) (owner : Owner) (step : Nat) : Flight := { op, owner, step, timedOut := false }

/-! ### A request that is presented in its arrival event -/

/-- A request with this tag for this line is accepted, passes the refusal checks (R39) and is presented in its arrival event
(R40): no earlier request of its line remains, nothing waits to be presented, for room or for a slot, and no held outcome is due
(R105). Its identity is new. -/
def presentedAtOnce (s : State) (tag : Tag) (hla : Nat) : Bool :=
  s.start.op == .running && !s.host.tags.contains tag && decide (hla < fenceValue s) && !inRange s .closing hla &&
    s.host.order.all (fun r => r.hla != hla && r.stage != .queued && r.id != s.ids.nextId) && s.host.roomWait.isEmpty &&
    s.reloc.queue.isEmpty && (heldNext s).isNone

/-- The state once an arrival has been recorded in the Request Trace (R25, R153). -/
def arrived (kind : ReqKind) (tag : Tag) (hla : Option Nat) (s : State) : State := addTrace kind tag hla (nextEvent s)

/-- The response to a READ that is not refused (R22, R35). -/
def readAnswer (tag : Tag) (status : HostStatus) (data : Option LineData) : HostResponse :=
  { kind := .read, tag, status, reason := none, report := none, data }

/-- The response to a WRITE or BARRIER that is not refused: it carries the oldest deferred report (R22, R35). -/
def reportingAnswer (kind : ReqKind) (tag : Tag) (status : HostStatus) (s : State) : HostResponse :=
  { kind, tag, status, reason := none, report := s.host.reports.head?, data := none }

/-- The state in which this response has left on the Host Link. -/
def responded (r : HostResponse) (s : State) : State := s.setOut { s.out with host := s.out.host ++ [r] }

/-! ### The Service Port ready to run a command -/

/-- The port is idle, no command is in progress, and this sequence is not the last one (R168, R171). -/
def portReady (s : State) (seq : Byte) : Bool :=
  s.port.sending.isNone && s.port.receiver == .hunting && s.port.waiting.isEmpty && s.port.command.isNone &&
    s.port.stored.map (·.seq) != some seq

/-- The port is ready for this sequence, and the frame carries the right frame check (R168, R190). -/
def portTakes (s : State) (seq code : Byte) (args : List Byte) (check : BitVec 16) : Bool :=
  portReady s seq && check == commandCheck seq code args

/-- The state in which this response is being transmitted and is the stored one. -/
def answered (r : Response) (s : State) : State := s.setPort { s.port with sending := some r, stored := some r }

/-- The outcome in which a command has completed with this answer (R170). -/
def replied (seq : Byte) (status : Status) (results : List Byte) (s : State) : Result :=
  .next (answered { seq, status, results } s)

/-! ### Laws of the spec that every step keeps -/

/-- The Guard's law (R173, R175): attempts lie between 0 and 5, they are 5 while OPEN, and a guard word is present exactly while
LOCKED. -/
def guardLaw (g : Guard) : Bool :=
  g.attempts ≤ Config.unlockAttempts && (g.state != .open || g.attempts == Config.unlockAttempts) &&
    g.word.isSome == (g.state == .locked)

/-- Every field of a policy set lies in its range (R180). -/
def inRanges (p : PolicySet) : Bool :=
  p.retryDepth ≤ 4 && 1 ≤ p.watchLimit && p.watchLimit ≤ 15 && p.spareLow ≤ 1024 && 1 ≤ p.pendingHigh &&
    p.pendingHigh ≤ 32 && p.surveyGap ≤ 255

/-- Both policy sets are in range (R180). -/
def policyLaw (p : PolicySets) : Bool := inRanges p.active && inRanges p.staged

/-- The sequences of `n` records that end just before `next`, oldest first. -/
def sequencesBefore (next : Seq32) : Nat → List Seq32
  | 0 => []
  | n + 1 => (next - BitVec.ofNat 32 (n + 1)) :: sequencesBefore next n

/-- The Fault Log's law (R153, R155, R157): at most 16 records of consecutive sequences that end before the next sequence; the
cursor names a held record or the next sequence; at most 4 trace items. -/
def logLaw (l : FaultLog) : Bool :=
  l.records.length ≤ Config.faultLimit &&
    l.records.map (·.seq) == sequencesBefore l.next l.records.length &&
    ((l.records.map (·.seq)).contains l.cursor || l.cursor == l.next) && l.trace.length ≤ Config.traceLimit

/-- The capacities of the part's lists (R34, R57, R75, R93, R106, R110, R119): the slots count with the one a reservation holds. -/
def capacityLaw (s : State) : Bool :=
  s.host.reports.length ≤ Config.reportLimit && s.buf.entries.length ≤ Config.bufferEntries &&
    s.reloc.pendingList.length ≤ Config.pendingLimit && s.reloc.watch.length ≤ Config.watchEntries &&
    s.jour.queue.length ≤ Config.queueLimit && s.array.inFlight.length ≤ Config.flightLimit &&
    s.reloc.busy ≤ Config.slotCount

/-- The level causes follow their conditions: SPARES_LOW, cause 0 (R13), and PENDING_HIGH, cause 2 (R109). -/
def levelLaw (s : State) : Prop :=
  (s.alert.causes.getLsbD 0 = true ↔
    (s.start.op = .running ∨ s.start.op = .quiescing) ∧ freeCount s ≤ s.policy.active.spareLow) ∧
    (s.alert.causes.getLsbD 2 = true ↔ s.policy.active.pendingHigh ≤ s.reloc.pendingList.length)

/-- A record whose line numbers fit in 3 bytes and whose policy fields are in range. -/
def recordFits : Record → Bool
  | .bind home spare => home < 2 ^ 24 && spare < 2 ^ 24
  | .dead spare => spare < 2 ^ 24
  | .fence f => f < 2 ^ 24
  | .policy set => inRanges set

/-- Outstanding host tags are distinct (R23). -/
def tagLaw (h : HostLink) : Prop := h.tags.Nodup

/-- Every request in the same-line order bears an identity taken before, and no identity twice (log 24). -/
def idLaw (s : State) : Prop := (s.host.order.map (·.id)).Nodup ∧ ∀ r ∈ s.host.order, r.id < s.ids.nextId

/-- The Remap Table is ordered by rising home, so no home has two entries, and the Spare Pool's marks by rising ala, so no line has
two states (R2, R3, R6). -/
def mapLaw (m : MapState) : Prop :=
  (m.table.map (·.home)).Pairwise (· < ·) ∧ (m.marks.map (·.ala)).Pairwise (· < ·)

/-- Does an entry name this line, as spare or as target (R1)? -/
def RemapEntry.namesLine (e : RemapEntry) (a : Nat) : Prop := e.spare = some a ∨ e.target = some a

/-- The laws of the Remap Table and the Spare Pool (R2, R6, R49), with what start-up keeps of them (R7, R128). -/
structure PlacesLaw (s : State) : Prop where
  /-- entries by rising home, marks by rising ala -/
  ordered : mapLaw s.map
  /-- every home is below F (R2) -/
  homesBelow : ∀ e ∈ s.map.table, e.home < fenceValue s
  /-- no line is named by two entries (R2) -/
  namedOnce : ∀ d ∈ s.map.table, ∀ e ∈ s.map.table, ∀ a, d.namesLine a → e.namesLine a → d = e
  /-- a spare is BOUND (R6) -/
  spareBound : ∀ e ∈ s.map.table, ∀ a, e.spare = some a → markOf s.map.marks a = some .bound
  /-- a target is HELD (R6) -/
  targetHeld : ∀ e ∈ s.map.table, ∀ a, e.target = some a → markOf s.map.marks a = some .held
  /-- a BOUND line is an entry's spare (R6) -/
  boundNamed : ∀ a, markOf s.map.marks a = some .bound → ∃ e ∈ s.map.table, e.spare = some a
  /-- a HELD line is an entry's target (R6) -/
  heldNamed : ∀ a, markOf s.map.marks a = some .held → ∃ e ∈ s.map.table, e.target = some a
  /-- a line with a mark lies in [F, C-J) (R2, R6), and its mark is not FREE -/
  marked : ∀ a state, markOf s.map.marks a = some state → inReserve s a = true ∧ state ≠ .free
  /-- the spare count lies in its bounds (R49) -/
  bounds : ∀ f, s.map.fence = some f → fenceInBounds s f = true
  /-- while the pool is being built no line is a target (R7) -/
  building : s.map.poolBuilt = false → ∀ e ∈ s.map.table, e.target = none
  /-- while start-up reads the journal the pool is being built (R7) -/
  starting : s.start.phase ≠ .idle → s.map.poolBuilt = false
  /-- while start-up waits for IDENT nothing has been built (R128) -/
  counting : s.start.phase = .ident → s.map.table = [] ∧ s.map.marks = [] ∧ s.map.fence = none

end Sys2Proof.Machine
end

