-- ==== Sys2Proof/Certificates/Slice0/Obligations.lean ====
section
/-! DEFINITION. The statements for the provers. Each says what a command, a shared operation or every step does, in the terms of
Sys2Proof/Safety.lean. `t` names the state that a command's own effect gives; `settle t` is the rest of the
event, which EventEnds states: internal steps that are due, drain requests (R79), the journal's decision (R120) and the level causes
(R13, R109). `calm t` and `steady t` say that none of those steps is due. Where a statement names identities, the
event counter or the transcripts of what the part has sent, they are the model's own (log 23, 24). -/

open Sys2Proof Sys2Proof.Machine

/-! ### The queue and reset -/

/-- A step runs the command at the front of the queue on the state with the rest of the queue; on an empty queue the part idles.
Model's choice (log 1). -/
def Obligations.StepRunsFrontCommand : Prop :=
  ∀ s : State,
    (∀ (c : Instr) (rest : List Instr), s.pending = c :: rest → step s = exec c (s.setPending rest)) ∧
      (s.pending = [] → step s = .next s)

/-- What power-on leaves (R19, R38, R73, R89, R114, R137, R152, R166, R187): every list empty, the fence cleared, both policy sets
at their defaults, the Guard OPEN with 5 attempts, STARTING, the tick 0, the next fault sequence and the fault cursor 1, every alert
cause clear and enabled, the receiver HUNTING with nothing to send, and IDENT the one operation sent (R60). -/
def Obligations.ResetStateValues : Prop :=
  State.reset.host.tags = [] ∧ State.reset.host.order = [] ∧ State.reset.host.barriers = [] ∧
    State.reset.host.roomWait = [] ∧ State.reset.host.reports = [] ∧ State.reset.host.protocolCount = 0 ∧ State.reset.host.epochCount = 0 ∧
    State.reset.map.table = [] ∧ State.reset.map.marks = [] ∧ State.reset.map.cursor = 0 ∧
    State.reset.map.poolBuilt = false ∧ State.reset.map.fence = none ∧ State.reset.map.range = none ∧
    State.reset.array.waiting = [] ∧
    State.reset.array.inFlight = [{ op := .ident, owner := .ident, step := 0, timedOut := false }] ∧
    State.reset.array.lineCount = 0 ∧ State.reset.buf.entries = [] ∧ State.reset.buf.direct = [] ∧
    State.reset.reloc.slots = [] ∧ State.reset.reloc.reserved = none ∧ State.reset.reloc.queue = [] ∧
    State.reset.reloc.held = [] ∧ State.reset.reloc.retireReads = [] ∧ State.reset.reloc.pendingList = [] ∧
    State.reset.reloc.watch = [] ∧ State.reset.reloc.deferred = 0 ∧ State.reset.jour.state = .ready ∧
    State.reset.jour.active = none ∧ State.reset.jour.nextLine = 0 ∧ State.reset.jour.queue = [] ∧
    State.reset.jour.wait = [] ∧ State.reset.jour.line = none ∧ State.reset.jour.compaction = none ∧
    State.reset.jour.faulted = [] ∧ State.reset.start = { op := .starting, phase := .ident, format := none } ∧
    State.reset.survey.live = none ∧ State.reset.survey.report = none ∧ State.reset.log.records = [] ∧
    State.reset.log.trace = [] ∧ State.reset.log.next = 1 ∧ State.reset.log.cursor = 1 ∧ State.reset.log.count = 0 ∧
    State.reset.alert.causes = 0 ∧
    State.reset.alert.mask = BitVec.allOnes 10 ∧ State.reset.guard = { state := .open, attempts := 5, word := none } ∧
    State.reset.policy.active = .default ∧ State.reset.policy.staged = .default ∧ State.reset.tick = 0 ∧
    State.reset.port = { receiver := .hunting, sending := none, waiting := [], command := none, stored := none }

/-- Power-on reset and the RESET input (R128): both leave every module at its value after reset, whatever the state, and send the
array link reset and IDENT (R60). The queue of commands and the model's transcripts and counters go on (log 1, 23, 24). -/
def Obligations.ResetCommandsRestart : Prop :=
  ∀ s t : State,
    t = { State.reset with
          out := { s.out with array := s.out.array ++ [.linkReset, .ident] }, ids := s.ids, pending := s.pending } →
    exec .powerOnReset s = .next t ∧ exec .resetInput s = .next t

/-- The laws of the part hold after reset: the Guard's, the policy ranges, the Fault Log's, the capacities, distinct tags, fresh
identities, and the Remap Table's and the Spare Pool's (R2, R6). -/
def Obligations.LawsHoldAtReset : Prop :=
  guardLaw State.reset.guard = true ∧ policyLaw State.reset.policy = true ∧ logLaw State.reset.log = true ∧
    capacityLaw State.reset = true ∧ tagLaw State.reset.host ∧ idLaw State.reset ∧ PlacesLaw State.reset

/-! ### Laws that every step keeps -/

/-- The Guard's law (R173, R175) is kept by every step: attempts lie between 0 and 5, they are 5 while OPEN, and a guard word is held
exactly while LOCKED.
Every field of both policy sets stays in its range (R180), whatever a command stages or the journal replays. -/
def Obligations.GuardAndPolicyLawsKept : Prop :=
  (∀ s t : State, guardLaw s.guard = true → step s = .next t → guardLaw t.guard = true) ∧
  (∀ s t : State, policyLaw s.policy = true → step s = .next t → policyLaw t.policy = true)

/-- The Fault Log's law (R153, R155, R157, R158) is kept by every step: at most 16 records of consecutive sequences that end before
the next sequence, the cursor at a held record or at the next sequence, at most 4 trace items. -/
def Obligations.FaultLogLawKept : Prop :=
  ∀ s t : State, logLaw s.log = true → step s = .next t → logLaw t.log = true

/-- No list grows past its capacity (R34, R57, R75, R93, R106, R110, R119): 4 reports, 8 entries, 32 pending lines, 64 watched lines,
16 journal records, 8 operations in flight, and 4 slots, counting the one that a LINE_RETIRE reservation holds (R112). -/
def Obligations.CapacitiesKept : Prop :=
  ∀ s t : State, capacityLaw s = true → step s = .next t → capacityLaw t = true

/-- R109, R13: the level causes are true after every step: PENDING_HIGH is set exactly while the number of Pending List entries is at
or above PENDING_HIGH of the Active policy, SPARES_LOW exactly while the part is RUNNING or QUIESCING with the free count at or
below SPARE_LOW; no ALERT_ACK and no other command leaves them otherwise, and they hold after reset. -/
def Obligations.LevelCausesTrue : Prop :=
  levelLaw State.reset ∧ ∀ s t : State, levelLaw s → step s = .next t → levelLaw t

/-- Outstanding host tags stay distinct (R23).
The identities of accepted requests stay distinct and below the next one. Model's own counter (log 24). -/
def Obligations.TagsAndIdentitiesKept : Prop :=
  (∀ s t : State, tagLaw s.host → step s = .next t → tagLaw t.host) ∧
  (∀ s t : State, idLaw s → step s = .next t → idLaw t)

/-- The Remap Table stays ordered by home with at most one entry for any home, and the Spare Pool holds one state for a line
(R2, R3, R6). With the whole law of the two (PlacesLaw), every step also keeps: no line is named by two entries, every home lies below
F, every spare and target lies in [F, C-J), a line is BOUND exactly while an entry has it as spare and HELD exactly while an entry has
it as target. The law holds in every state a run reaches; guards that are neutral there keep it in the others (log 40). -/
def Obligations.MapOrderKept : Prop :=
  (∀ s t : State, mapLaw s.map → step s = .next t → mapLaw t.map) ∧
    ∀ s t : State, PlacesLaw s → step s = .next t → PlacesLaw t

/-- The uptime tick (R177): UPTIME_TICK adds 1, wrapping from 2^32-1 to 0 and changing nothing else; a reset sets it to 0; every
other command, the host link reset among them, leaves it. -/
def Obligations.TickCounts : Prop :=
  (∀ s : State, exec .uptimeTick s = .next (s.setTick (s.tick + 1))) ∧
    (∀ s : State, s.tick = BitVec.allOnes 32 → s.tick + 1 = 0) ∧
    ∀ (c : Instr) (s t : State), exec c s = .next t →
      ((c = .powerOnReset ∨ c = .resetInput) → t.tick = 0) ∧
        (c ≠ .powerOnReset → c ≠ .resetInput → c ≠ .uptimeTick → t.tick = s.tick)

/-- Nothing outside the Service Link but a reset changes the Guard (R173 to R176): no host request, host link reset, array answer,
timeout, internal step or tick does. -/
def Obligations.GuardOutOfReach : Prop :=
  ∀ (c : Instr) (s t : State), c.ofServiceLink = false → c ≠ .powerOnReset → c ≠ .resetInput → exec c s = .next t →
    t.guard = s.guard

/-! ### Host Link and Address Path -/

/-- R189: a tag field is taken as its low four bits; a transfer whose kind byte is not 0, 1 or 2 is discarded whole, with no
effect. -/
def Obligations.TagBitsAndNonRequests : Prop :=
  (∀ tag : Byte, tagOf tag = BitVec.ofNat 4 (tag.toNat % 16)) ∧
    (∀ (s : State) (tag : Byte) (hla : Addr24) (mask : Mask) (data : LineData),
      exec (.hostRead tag hla) s = exec (.hostRead (BitVec.ofNat 8 (tag.toNat % 16)) hla) s ∧
        exec (.hostWrite tag hla mask data) s = exec (.hostWrite (BitVec.ofNat 8 (tag.toNat % 16)) hla mask data) s ∧
        exec (.barrier tag) s = exec (.barrier (BitVec.ofNat 8 (tag.toNat % 16))) s) ∧
    (∀ (kind : Byte) (rest : List Byte), kind ≠ 0 → kind ≠ 1 → kind ≠ 2 →
      decodeTransfer (kind :: rest) = some (.nonRequestTransfer kind)) ∧
    ∀ (kind : Byte) (s : State), kind ≠ 0 → kind ≠ 1 → kind ≠ 2 → exec (.nonRequestTransfer kind) s = .next s

/-- A request whose tag is outstanding is discarded (R24): it is recorded in the trace, counted, latches PROTOCOL and writes a
PROTOCOL record with the request's hla, none for a BARRIER, and nothing else of it remains.
The refusal checks, in the order of R39: NOT_READY for any request unless RUNNING; BEYOND for a line at or above F, and for a
line of a closing range. A refused request is recorded in the trace and answered in its arrival event, a WRITE or BARRIER carrying
the oldest deferred report, and nothing else of it remains. -/
def Obligations.RequestsDiscardedOrRefused : Prop :=
  (∀ (s : State) (tag : Byte) (hla : Addr24) (mask : Mask) (data : LineData) (kind : ReqKind) (line : Option Nat) (t : State),
      s.host.tags.contains (tagOf tag) = true →
      line = (if kind = .barrier then none else some hla.toNat) →
      t = writeFault .protocol line none none
            (((arrived kind (tagOf tag) line s).setHost
              { s.host with
                protocolCount := if s.host.protocolCount = 65535 then 65535 else s.host.protocolCount + 1 }).setAlert
              { s.alert with causes := s.alert.causes ||| AlertCause.protocol.bit }) →
      (kind = .read → exec (.hostRead tag hla) s = .next (settle t)) ∧
        (kind = .write → exec (.hostWrite tag hla mask data) s = .next (settle t)) ∧
        (kind = .barrier → exec (.barrier tag) s = .next (settle t))) ∧
  (∀ (s : State) (tag : Byte) (hla : Addr24) (mask : Mask) (data : LineData) (kind : ReqKind) (line : Option Nat)
      (reason : RefuseReason) (t : State),
      s.host.tags.contains (tagOf tag) = false →
      line = (if kind = .barrier then none else some hla.toNat) →
      ((s.start.op ≠ .running ∧ reason = .notReady) ∨
        (s.start.op = .running ∧ kind ≠ .barrier ∧ reason = .beyond ∧
          (s.map.fence.getD 0 ≤ hla.toNat ∨
            ∃ r, s.map.range = some r ∧ r.kind = .closing ∧ r.lo ≤ hla.toNat ∧ hla.toNat < r.hi))) →
      t = responded
            { kind, tag := tagOf tag, status := .refused, reason := some reason,
              report := if kind = .read then none else s.host.reports.head?, data := none }
            ((arrived kind (tagOf tag) line s).setHost
              { s.host with reports := if kind = .read then s.host.reports else s.host.reports.drop 1 }) →
      (kind = .read → exec (.hostRead tag hla) s = .next (settle t)) ∧
        (kind = .write → exec (.hostWrite tag hla mask data) s = .next (settle t)) ∧
        (kind = .barrier → exec (.barrier tag) s = .next (settle t)))

/-- R44: a READ of a pending line, with no buffer entry and no MOVING entry, is answered POISON in the presentation event with no
array access; the line's hits count rises by one unless it stands at 255; no fault record, watch update or relocation request
follows, and the line stays pending. So at every presentation of such a READ, and so for one that is presented when it arrives. -/
def Obligations.PendingReadAnsweredPoison : Prop :=
  ∀ (s : State) (hla : Addr24) (hits : List PendingEntry),
    (∀ e ∈ s.buf.entries, e.hla ≠ hla.toNat) → isMoving s hla.toNat = false → isPending s hla.toNat = true →
    hits = (s.reloc.pendingList.map fun p =>
      if p.hla = hla.toNat then { p with hits := if p.hits = 255 then 255 else p.hits + 1 } else p) →
    (∀ r : HostReq, r.hla = hla.toNat → r.live = true →
      presentRead r s =
        responded (readAnswer r.tag .poison none)
          ((s.setReloc { s.reloc with pendingList := hits }).setHost
            { s.host with
              order := s.host.order.filter (·.id != r.id), tags := s.host.tags.filter (· != r.tag) })) ∧
    ∀ (tag : Byte) (t : State), presentedAtOnce s (tagOf tag) hla.toNat = true →
      t = responded (readAnswer (tagOf tag) .poison none)
            ((takeId (arrived .read (tagOf tag) (some hla.toNat) s)).setReloc { s.reloc with pendingList := hits }) →
      calm t = true → exec (.hostRead tag hla) s = .next (evalLevels t)

/-- A READ whose line has a full newest buffer entry, or no buffer entry and a MOVING entry's slot, receives a copy of the 64 bytes
held there, with status OK, whatever the slot's state; nothing else follows (R41 rows 1 and 3, R43).
A READ whose newest buffer entry is masked waits on that entry with its tag outstanding (R41 row 2, R42); a READ of a line with
no buffer entry, not MOVING and not pending, is placed with the arbiter as step 0 of a ladder of the Active depth, at the spare of
the line's entry or at its home (R41 rows 5 and 6, R45, R66). -/
def Obligations.ReadAnsweredByState : Prop :=
  (∀ (s : State) (tag : Byte) (hla : Addr24) (data : LineData) (t : State),
      presentedAtOnce s (tagOf tag) hla.toNat = true →
      ((∃ e, newestEntry s hla.toNat = some e ∧ e.mask = BitVec.allOnes 64 ∧ e.data = data) ∨
        ((∀ e ∈ s.buf.entries, e.hla ≠ hla.toNat) ∧ isMoving s hla.toNat = true ∧
          ∃ q, findSlot s hla.toNat = some q ∧ q.data = data)) →
      t = responded (readAnswer (tagOf tag) .ok (some data)) (takeId (arrived .read (tagOf tag) (some hla.toNat) s)) →
      calm t = true → exec (.hostRead tag hla) s = .next (evalLevels t)) ∧
  (∀ (s : State) (tag : Byte) (hla : Addr24) (t : State),
      presentedAtOnce s (tagOf tag) hla.toNat = true →
      (∀ e : Item, newestEntry s hla.toNat = some e → e.mask ≠ BitVec.allOnes 64 →
        t = (takeId (arrived .read (tagOf tag) (some hla.toNat) s)).setHost
              { s.host with
                tags := s.host.tags ++ [tagOf tag]
                order := s.host.order ++
                  [{ id := s.ids.nextId, tag := tagOf tag, live := true, hla := hla.toNat, write := none,
                     stage := .waitEntry e.id }] } →
        calm t = true → exec (.hostRead tag hla) s = .next (evalLevels t)) ∧
      ∀ age : Age, (∀ e ∈ s.buf.entries, e.hla ≠ hla.toNat) → isMoving s hla.toNat = false →
        isPending s hla.toNat = false →
        age = { event := s.ids.event + 1, direct := false, order := s.ids.nextId + 1 } →
        t = ((takeId (takeId (arrived .read (tagOf tag) (some hla.toNat) s))).setHost
              { s.host with
                tags := s.host.tags ++ [tagOf tag]
                order := s.host.order ++
                  [{ id := s.ids.nextId, tag := tagOf tag, live := true, hla := hla.toNat, write := none,
                     stage := .inArray
                       { ala := ((entryOf s hla.toNat).bind (·.spare)).getD hla.toNat
                         depth := s.policy.active.retryDepth, step := 0, age, granted := false } }] }).setArray
              { s.array with waiting := s.array.waiting ++ [{ body := .hostRead s.ids.nextId, age }] } →
        calm t = true → exec (.hostRead tag hla) s = .next (evalLevels t))

/-- An empty write that passes the refusal checks is answered DONE when they are taken and reaches nothing else (R21, R25); a masked
WRITE to a pending line with no buffer entry is answered POISON_HIT, with nothing changed but the trace (R46 row 1). Both responses
carry the oldest deferred report (R35).
An unposted WRITE to a line that is not MOVING, or that has a buffer entry, becomes a direct write in order of presentation, its
tag outstanding (R46 rows 2 and 4, R88). -/
def Obligations.WritesOutsideBuffer : Prop :=
  (∀ (s : State) (tag : Byte) (hla : Addr24) (mask : Mask) (data : LineData) (t : State),
      (mask = 0 → s.start.op = .running → s.host.tags.contains (tagOf tag) = false → hla.toNat < fenceValue s →
        inRange s .closing hla.toNat = false →
        t = responded (reportingAnswer .write (tagOf tag) .done s)
              ((arrived .write (tagOf tag) (some hla.toNat) s).setHost { s.host with reports := s.host.reports.drop 1 }) →
        exec (.hostWrite tag hla mask data) s = .next (settle t)) ∧
      (mask ≠ 0 → mask ≠ BitVec.allOnes 64 → presentedAtOnce s (tagOf tag) hla.toNat = true →
        (∀ e ∈ s.buf.entries, e.hla ≠ hla.toNat) → isPending s hla.toNat = true →
        t = responded (reportingAnswer .write (tagOf tag) .poisonHit s)
              ((takeId (arrived .write (tagOf tag) (some hla.toNat) s)).setHost
                { s.host with reports := s.host.reports.drop 1 }) →
        calm t = true → exec (.hostWrite tag hla mask data) s = .next (evalLevels t))) ∧
  (∀ (s : State) (tag : Byte) (hla : Addr24) (mask : Mask) (data : LineData) (t : State),
      mask ≠ 0 → s.policy.active.posting = false → presentedAtOnce s (tagOf tag) hla.toNat = true →
      ((newestEntry s hla.toNat).isSome = true ∨
        (isMoving s hla.toNat = false ∧ (isPending s hla.toNat = false ∨ mask = BitVec.allOnes 64))) →
      t = ((takeId (arrived .write (tagOf tag) (some hla.toNat) s)).setHost
            { s.host with
              tags := s.host.tags ++ [tagOf tag]
              order := s.host.order ++
                [{ id := s.ids.nextId, tag := tagOf tag, live := true, hla := hla.toNat, write := some (data, mask),
                   stage := .direct }] }).setBuf
            { s.buf with
              direct := s.buf.direct ++
                [{ id := s.ids.nextId, hla := hla.toNat, data, mask, phase := .waiting, epoch := none, place := hla.toNat,
                   ladder := none }] } →
      steady t = true → exec (.hostWrite tag hla mask data) s = .next (evalLevels (placeDrains t)))

/-- A posted WRITE to a line that is not MOVING and has no buffer entry, of a line that is not pending or with a full mask, makes a
new entry at the tail, is acknowledged DONE with the epoch count one higher, and the entry takes that epoch; a posted WRITE to a
line whose newest entry is WAITING merges its enabled bytes into it, and the entry keeps its place and epoch (R28, R46, R76, R78). -/
def Obligations.PostedWriteEntersBuffer : Prop :=
  ∀ (s : State) (tag : Byte) (hla : Addr24) (mask : Mask) (data : LineData) (t : State),
    mask ≠ 0 → s.policy.active.posting = true → presentedAtOnce s (tagOf tag) hla.toNat = true →
    ((∀ e ∈ s.buf.entries, e.hla ≠ hla.toNat) → isMoving s hla.toNat = false →
      (isPending s hla.toNat = false ∨ mask = BitVec.allOnes 64) → s.buf.entries.length < 8 →
      t = responded (reportingAnswer .write (tagOf tag) .done s)
            (((takeId (takeId (arrived .write (tagOf tag) (some hla.toNat) s))).setHost
              { s.host with reports := s.host.reports.drop 1, epochCount := s.host.epochCount + 1 }).setBuf
              { s.buf with
                entries := s.buf.entries ++
                  [{ id := s.ids.nextId + 1, hla := hla.toNat, data, mask, phase := .waiting,
                     epoch := some (s.host.epochCount + 1), place := hla.toNat, ladder := none }] }) →
      steady t = true → exec (.hostWrite tag hla mask data) s = .next (evalLevels (placeDrains t))) ∧
    ∀ e : Item, newestEntry s hla.toNat = some e → e.phase = .waiting →
      t = responded (reportingAnswer .write (tagOf tag) .done s)
            (((takeId (arrived .write (tagOf tag) (some hla.toNat) s)).setHost
              { s.host with reports := s.host.reports.drop 1, epochCount := s.host.epochCount + 1 }).setBuf
              { s.buf with
                entries := s.buf.entries.map fun x =>
                  if x.id == e.id then { x with data := mergeLine x.data data mask, mask := x.mask ||| mask } else x }) →
      steady t = true → exec (.hostWrite tag hla mask data) s = .next (evalLevels (placeDrains t))

/-- A WRITE to a MOVING line with no buffer entry has its enabled bytes copied over the slot data (R46 row 3, R47, R100): the slot is
dirty if a write of it is in flight or it is JOURNALING (R97). A posted one is acknowledged DONE and brings its epoch, the lower
staying; an unposted one becomes a waiting write of the slot, its tag outstanding (R96). -/
def Obligations.WriteMergesIntoSlot : Prop :=
  ∀ (s : State) (tag : Byte) (hla : Addr24) (mask : Mask) (data : LineData) (t : State) (posted : Bool),
    mask ≠ 0 → s.policy.active.posting = posted → presentedAtOnce s (tagOf tag) hla.toNat = true →
    (∀ e ∈ s.buf.entries, e.hla ≠ hla.toNat) → isMoving s hla.toNat = true → (findSlot s hla.toNat).isSome = true →
    (isPending s hla.toNat = false ∨ mask = BitVec.allOnes 64) →
    (posted = true →
      t = responded (reportingAnswer .write (tagOf tag) .done s)
            (((takeId (arrived .write (tagOf tag) (some hla.toNat) s)).setHost
              { s.host with reports := s.host.reports.drop 1, epochCount := s.host.epochCount + 1 }).setReloc
              { s.reloc with
                slots := s.reloc.slots.map fun q =>
                  if q.home == hla.toNat then
                    { q with
                      data := mergeLine q.data data mask
                      dirty := q.dirty || slotWriteInFlight s hla.toNat || q.state == .journaling
                      epoch := some (match q.epoch with
                        | some e => min e (s.host.epochCount + 1)
                        | none => s.host.epochCount + 1) }
                  else q }) →
      calm t = true → exec (.hostWrite tag hla mask data) s = .next (evalLevels t)) ∧
    (posted = false →
      t = ((takeId (arrived .write (tagOf tag) (some hla.toNat) s)).setHost
            { s.host with tags := s.host.tags ++ [tagOf tag] }).setReloc
            { s.reloc with
              slots := s.reloc.slots.map fun q =>
                if q.home == hla.toNat then
                  { q with
                    data := mergeLine q.data data mask
                    dirty := q.dirty || slotWriteInFlight s hla.toNat || q.state == .journaling
                    waiting := q.waiting ++ [{ tag := tagOf tag, live := true }] }
                else q } →
      calm t = true → exec (.hostWrite tag hla mask data) s = .next (evalLevels t))

/-- A BARRIER whose covered set is empty is answered DONE at arrival, carrying the oldest deferred report; one that covers data in
the buffer or in a slot waits with its barrier epoch, its tag outstanding, while the journal is not STALLED (R31, R35, R78).
Waiting BARRIERs are answered later (R31, R32, R35), stated for one: with nothing it covers left in the buffer or in a slot it
is answered DONE; in a STALLED journal, while it covers data in a slot or waiting for one, INCOMPLETE; otherwise it goes on waiting.
A loss of covered data answers INCOMPLETE. So the drain write that completes the last covered entry answers the BARRIER DONE in its
event (R85), and an in-place write's fault of a covered entry answers it INCOMPLETE. -/
def Obligations.BarrierAnsweredOrWaits : Prop :=
  (∀ (s : State) (tag : Byte) (covered : Bool) (t : State),
      s.start.op = .running → s.host.tags.contains (tagOf tag) = false → calm s = true →
      covered = (s.buf.entries.any (fun e => decide (∃ n, e.epoch = some n ∧ n ≤ s.host.epochCount)) ||
        s.reloc.slots.any fun q => decide (∃ n, q.epoch = some n ∧ n ≤ s.host.epochCount)) →
      (covered = false →
        t = responded (reportingAnswer .barrier (tagOf tag) .done s)
              ((arrived .barrier (tagOf tag) none s).setHost { s.host with reports := s.host.reports.drop 1 }) →
        exec (.barrier tag) s = .next (evalLevels t)) ∧
      (covered = true → s.jour.state ≠ .stalled →
        t = (arrived .barrier (tagOf tag) none s).setHost
              { s.host with
                tags := s.host.tags ++ [tagOf tag], barriers := [{ tag := tagOf tag, epoch := s.host.epochCount }] } →
        exec (.barrier tag) s = .next (evalLevels t))) ∧
  (∀ (s : State) (b : Barrier) (answer : HostStatus → State → State), s.host.barriers = [b] →
      (∀ status x, answer status x = responded (reportingAnswer .barrier b.tag status x)
        (x.setHost
          { x.host with
            barriers := [], tags := x.host.tags.filter (· != b.tag), reports := x.host.reports.drop 1 })) →
      ((∀ e ∈ s.buf.entries, ∀ n, e.epoch = some n → b.epoch < n) → (∀ q ∈ s.reloc.slots, ∀ n, q.epoch = some n → b.epoch < n) →
        settleBarriers s = answer .done s) ∧
      (s.jour.state = .stalled →
        ((∃ q ∈ s.reloc.slots, ∃ n, q.epoch = some n ∧ n ≤ b.epoch) ∨
          ∃ e ∈ s.buf.entries, ∃ n home cause, e.epoch = some n ∧ n ≤ b.epoch ∧
            QueueItem.request (.entry e.id) home cause ∈ s.reloc.queue) →
        settleBarriers s = answer .incomplete s) ∧
      ((∃ e ∈ s.buf.entries, ∃ n, e.epoch = some n ∧ n ≤ b.epoch) →
        (s.jour.state ≠ .stalled ∨
          ((∀ q ∈ s.reloc.slots, ∀ n, q.epoch = some n → b.epoch < n) ∧ s.reloc.queue = [])) →
        settleBarriers s = s) ∧
      ((∃ q ∈ s.reloc.slots, ∃ n, q.epoch = some n ∧ n ≤ b.epoch) → s.jour.state ≠ .stalled → settleBarriers s = s) ∧
      failCovered none s = s ∧
      (∀ n, (n ≤ b.epoch → failCovered (some n) s = answer .incomplete s) ∧ (b.epoch < n → failCovered (some n) s = s)) ∧
      ∀ (id ala step : Nat) (data : LineData) (rest : List Flight) (e : Item) (t : State),
        findItem s (.entry id) = some e → (∀ r ∈ s.host.order, r.stage ≠ .waitEntry id) →
        (s.array.inFlight = inFlightNow (.write ala data) (.drainWrite (.entry id)) step :: rest → isMoving s e.hla = false →
          (∀ x ∈ s.buf.entries, x.id ≠ id → ∀ n, x.epoch = some n → b.epoch < n) →
          (∀ q ∈ s.reloc.slots, ∀ n, q.epoch = some n → b.epoch < n) →
          t = answer .done
                (((answerTaken rest s).setReloc
                  { s.reloc with pendingList := s.reloc.pendingList.filter (·.hla != e.hla) }).setBuf
                  { s.buf with entries := s.buf.entries.filter (·.id != id) }) →
          calm t = true → exec (.drainWriteAnswer .done) s = .next (evalLevels t)) ∧
        ∀ (n : Nat) (v : State), s.array.inFlight = inFlightNow (.write ala data) (.inPlace (.entry id)) step :: rest →
          e.epoch = some n → n ≤ b.epoch →
          v = queueReport e.hla .noSpare
                (writeFault .homeWriteFault (some e.hla) (some e.place) none (answerTaken rest s)) →
          t = answer .incomplete (v.setBuf { s.buf with entries := s.buf.entries.filter (·.id != id) }) →
          exec (.inPlaceWriteAnswer .fault) s = .next (settle t))

/-- A host link reset (R36, R37, R72): every tag is released; READs not yet issued, WRITEs waiting in their line's order or for room,
and waiting barriers are dropped, their requests at the arbiter withdrawn; issued READs and direct writes go on without response,
and a slot's waiting writes are marked released. The reports, the trace, the counts, the buffer, and every other module stay. -/
def Obligations.HostLinkResetReleasesTags : Prop :=
  ∀ (s t : State) (drops : HostReq → Bool),
    (∀ r, drops r = true ↔
      (r.stage = .queued ∨ r.stage = .waitRoom ∨ (∃ e, r.stage = .waitEntry e) ∨
        ∃ l, r.stage = .inArray l ∧ l.granted = false)) →
    t = (((nextEvent s).setHost
          { s.host with
            tags := [], roomWait := [], barriers := []
            order := (s.host.order.filter fun r => !drops r).map fun r => { r with live := false } }).setArray
          { s.array with
            waiting := s.array.waiting.filter fun q =>
              !(s.host.order.filter drops).any fun r => q.body == .hostRead r.id }).setReloc
          { s.reloc with
            slots := s.reloc.slots.map fun q =>
              { q with waiting := q.waiting.map fun w => { w with live := false } } } →
    exec .hrst s = .next (settle t)

/-! ### Array answers: start-up, reads -/

/-- The IDENT answer (R60): a power of two from 2^18 to 2^24 becomes C, and the read of line 0 of bank A, line C-4096, is placed; any
other count becomes C too, and with no command in progress start-up stops in HELD with reason NO_ARRAY. Start-up waits for it.
The first two journal line reads of start-up (R128, R129): when line 0 of bank A has been read, what was readable of it is kept
and line 0 of bank B, line C-2048, is read; when neither line 0 is readable and flagged IMAGE and no command is in progress,
start-up stops in HELD with reason NO_JOURNAL.
The choice of the bank to examine (R129), when line 0 of bank B has been read: of two line 0s flagged IMAGE the newer by R116,
with the other as the next candidate; of one, that one alone. Its line 0 is read again (log 19).
The examination of a candidate (R129, R130): a readable line flagged IMAGE whose sequence follows the line before goes on to the
next line, or, flagged COMMIT, makes its bank the active one, replayed from line 0; if line 0 of the other bank was not readable at
its first read (log 19), REPLAY_BANK is written and JOURNAL latches. Any other line, or no COMMIT by line 2047, leads to the next
candidate, or with none to HELD, NO_JOURNAL.
Replay of one record (R5, R7, R131): FENCE, POLICY, DEAD and BIND apply under their conditions, and a record that may not apply,
or is of no kind, is skipped with REPLAY_RECORD.
Replay (R130, R132, R133, R135): a readable line whose sequence follows has its records applied in order and the next line read;
an unreadable line writes REPLAY_TAIL and ends it, as does a line out of sequence or line 2047. At the end the next line and the
last sequence are set (none at line 0: a free value, log 16), the rest of the reserve is FREE, the part is RUNNING, and a format or
restart is answered OK; one that ends in HELD is answered STATE. -/
def Obligations.StartupReadsTaken : Prop :=
  (∀ (s : State) (count step : Nat) (rest : List Flight) (t : State),
      s.array.inFlight = inFlightNow .ident .ident step :: rest → s.start.phase = .ident →
      ((∃ k, 18 ≤ k ∧ k ≤ 24 ∧ count = 2 ^ k) →
        t = (placeRequest (.journalRead (count - 4096))
              ((answerTaken rest s).setArray { s.array with inFlight := rest, lineCount := count })).setStart
              { s.start with phase := .lineA } →
        exec (.identAnswer count) s = .next (settle t)) ∧
      ((∀ k, 18 ≤ k → k ≤ 24 → count ≠ 2 ^ k) → s.port.command = none →
        t = ((answerTaken rest s).setArray { s.array with inFlight := rest, lineCount := count }).setStart
              { s.start with op := .held .noArray, phase := .idle } →
        exec (.identAnswer count) s = .next (settle t))) ∧
  (∀ (s : State) (ala step : Nat) (line : ArrayLine) (rest : List Flight) (t : State),
      s.array.inFlight = inFlightNow (.read ala) .journalRead step :: rest →
      (s.start.phase = .lineA →
        t = (placeRequest (.journalRead (s.array.lineCount - 2048)) (answerTaken rest s)).setStart
              { s.start with phase := .lineB ((readableLine .a (classify ala line)).map lineZero) } →
        exec (.journalLineReadAnswer line) s = .next (settle t)) ∧
      ∀ a : Option LineZero, s.start.phase = .lineB a → (∀ z, a = some z → z.image = false) →
        (∀ h, readableLine .b (classify ala line) = some h → h.image = false) → s.port.command = none →
        t = (answerTaken rest s).setStart { s.start with op := .held .noJournal, phase := .idle } →
        exec (.journalLineReadAnswer line) s = .next (settle t)) ∧
  (∀ (s : State) (ala step : Nat) (line : ArrayLine) (rest : List Flight) (a b : Option LineZero) (bank : Bank)
      (next : Option Bank) (t : State),
      s.array.inFlight = inFlightNow (.read ala) .journalRead step :: rest → s.start.phase = .lineB a →
      b = (readableLine .b (classify ala line)).map lineZero →
      ((∃ x y, a = some x ∧ b = some y ∧ x.image = true ∧ y.image = true ∧
          ((1 ≤ (y.seq - x.seq).toNat ∧ (y.seq - x.seq).toNat ≤ 2147483647 ∧ bank = .b ∧ next = some .a) ∨
            (((y.seq - x.seq).toNat < 1 ∨ 2147483647 < (y.seq - x.seq).toNat) ∧ bank = .a ∧ next = some .b))) ∨
        (∃ x, a = some x ∧ x.image = true ∧ (∀ y, b = some y → y.image = false) ∧ bank = .a ∧ next = none) ∨
        (∃ y, b = some y ∧ y.image = true ∧ (∀ x, a = some x → x.image = false) ∧ bank = .b ∧ next = none)) →
      t = (placeRequest (.journalRead (s.array.lineCount - (if bank = .a then 4096 else 2048))) (answerTaken rest s)).setStart
            { s.start with phase := .examine bank 0 0 a b next } →
      exec (.journalLineReadAnswer line) s = .next (settle t)) ∧
  (∀ (s : State) (ala step : Nat) (line : ArrayLine) (rest : List Flight) (bank : Bank) (pos : Nat) (prev : Seq32)
      (a b : Option LineZero) (next : Option Bank) (t : State),
      s.array.inFlight = inFlightNow (.read ala) .journalRead step :: rest → s.start.phase = .examine bank pos prev a b next →
      (∀ h, readableLine bank (classify ala line) = some h → h.image = true → (pos = 0 ∨ h.seq = prev + 1) →
        (h.commit = false → pos + 1 < 2048 →
          t = (placeRequest (.journalRead (journalAla s bank (pos + 1))) (answerTaken rest s)).setStart
                { s.start with phase := .examine bank (pos + 1) h.seq a b next } →
          exec (.journalLineReadAnswer line) s = .next (settle t)) ∧
        ∀ u, h.commit = true →
          (((if bank = .a then b else a) ≠ none ∧ u = answerTaken rest s) ∨
            ((if bank = .a then b else a) = none ∧
              u = writeFault .replayBank none (some (journalAla s bank.other 0)) none
                    ((answerTaken rest s).setAlert
                      { s.alert with causes := s.alert.causes ||| AlertCause.journal.bit }))) →
          t = (placeRequest (.journalRead (journalAla s bank 0)) (u.setJour { s.jour with active := some bank })).setStart
                { s.start with phase := .replay bank 0 0 } →
          exec (.journalLineReadAnswer line) s = .next (settle t)) ∧
      ((∀ h, readableLine bank (classify ala line) = some h →
          h.image = false ∨ (pos ≠ 0 ∧ h.seq ≠ prev + 1) ∨ (h.commit = false ∧ 2048 ≤ pos + 1)) →
        (∀ n, next = some n →
          t = (placeRequest (.journalRead (journalAla s n 0)) (answerTaken rest s)).setStart
                { s.start with phase := .examine n 0 0 a b none } →
          exec (.journalLineReadAnswer line) s = .next (settle t)) ∧
        (next = none → s.port.command = none →
          t = (answerTaken rest s).setStart { s.start with op := .held .noJournal, phase := .idle } →
          exec (.journalLineReadAnswer line) s = .next (settle t)))) ∧
  (∀ (s : State) (ala : Nat) (reserve : Nat → Prop),
      (∀ x, reserve x ↔ ∃ f, s.map.fence = some f ∧ f ≤ x ∧ x < s.array.lineCount - 4096) →
      (∀ (f : Nat) (ok : Prop),
        (ok ↔ f + 64 ≤ s.array.lineCount - 4096 ∧ s.array.lineCount - 4096 ≤ f + 8192 ∧
          (∀ m ∈ s.map.marks, reserve m.ala → f ≤ m.ala) ∧
          ∀ e ∈ s.map.table, f ≤ e.home → e.home < s.array.lineCount - 4096 → reserve e.home) →
        (ok → replayRecord ala s (.known (.fence f)) = s.setMap { s.map with fence := some f }) ∧
        (¬ ok → replayRecord ala s (.known (.fence f)) = writeFault .replayRecord none (some ala) none s)) ∧
      (∀ p : PolicySet, replayRecord ala s (.known (.policy p)) = s.setPolicy { active := p, staged := p }) ∧
      (∀ x,
        (reserve x → markOf s.map.marks x ≠ some .bound →
          replayRecord ala s (.known (.dead x)) = s.setMap { s.map with marks := insertMark x .dead s.map.marks }) ∧
        ((¬ reserve x ∨ markOf s.map.marks x = some .bound) →
          replayRecord ala s (.known (.dead x)) = writeFault .replayRecord none (some ala) none s)) ∧
      (∀ (home x : Nat) (ok : Prop) (marks : List SpareMark),
        (ok ↔ home < s.map.fence.getD 0 ∧ reserve x ∧
          (markOf s.map.marks x = none ∨ ∃ e, entryOf s home = some e ∧ e.spare = some x)) →
        ((∃ e old, entryOf s home = some e ∧ e.spare = some old ∧ old ≠ x ∧ marks = insertMark old .dead s.map.marks) ∨
          ((∀ e old, entryOf s home = some e → e.spare = some old → old = x) ∧ marks = s.map.marks)) →
        (ok →
          replayRecord ala s (.known (.bind home x)) =
            s.setMap
              { s.map with
                table :=
                  insertEntry { home, spare := some x, target := none, cause := none, boundTick := some s.tick } s.map.table
                marks := insertMark x .bound marks }) ∧
        (¬ ok → replayRecord ala s (.known (.bind home x)) = writeFault .replayRecord (some home) (some ala) none s)) ∧
      replayRecord ala s .badPolicy = writeFault .replayRecord none (some ala) none s ∧
      replayRecord ala s .unknownKind = writeFault .replayRecord none (some ala) none s) ∧
  (∀ (s : State) (ala step : Nat) (line : ArrayLine) (rest : List Flight) (bank : Bank) (pos : Nat) (prev last : Seq32)
      (u t : State),
      (s.array.inFlight = inFlightNow (.read ala) .journalRead step :: rest → s.start.phase = .replay bank pos prev →
        last = (if pos = 0 then Config.noLineSequence else prev) →
        (∀ h, readableLine bank (classify ala line) = some h →
          ((pos = 0 ∨ h.seq = prev + 1) →
            u = (h.places.map decodeRecord).foldl (replayRecord (journalAla s bank pos)) (answerTaken rest s) →
            (pos + 1 < 2048 →
              t = (placeRequest (.journalRead (journalAla s bank (pos + 1))) u).setStart
                    { s.start with phase := .replay bank (pos + 1) h.seq } →
              exec (.journalLineReadAnswer line) s = .next (settle t)) ∧
            (2048 ≤ pos + 1 → exec (.journalLineReadAnswer line) s = .next (settle (endReplay (pos + 1) h.seq u)))) ∧
          (pos ≠ 0 → h.seq ≠ prev + 1 →
            exec (.journalLineReadAnswer line) s = .next (settle (endReplay pos last (answerTaken rest s))))) ∧
        (readableLine bank (classify ala line) = none →
          exec (.journalLineReadAnswer line) s =
            .next (settle (endReplay pos last
              (writeFault .replayTail none (some (journalAla s bank pos)) none (answerTaken rest s)))))) ∧
      (∀ n : Nat,
        t = ((s.setJour { s.jour with nextLine := n, lastSeq := last }).setStart
              { s.start with op := .running, phase := .idle }).setMap { s.map with poolBuilt := true } →
        (s.port.command = none → endReplay n last s = t) ∧
        ∀ seq, (s.port.command = some { seq, command := .journalFormat } →
            endReplay n last s =
              completeCommand seq .ok
                (enc24 (s.map.fence.getD 0) ++
                  enc24 (if s.map.fence = none then 0 else s.array.lineCount - 4096 - s.map.fence.getD 0)) t) ∧
          (s.port.command = some { seq, command := .bridgeRestart } →
            endReplay n last s = completeCommand seq .ok [2] t)) ∧
      ∀ (reason : HeldReason) (seq : Byte) (command : LongCommand),
        (command = .journalFormat ∨ command = .bridgeRestart) → s.port.command = some { seq, command } →
        enterHeld reason s =
          completeCommand seq .state [if reason = .noArray then 0 else 1]
            (s.setStart { s.start with op := .held reason, phase := .idle }))

/-- The dispatch of a read's final outcome (R67, R68, R69), by its classification and step. -/
def Obligations.ReadOutcomeDispatch : Prop :=
  ∀ (s : State) (hla ala step : Nat) (origin : PendingOrigin) (data : LineData),
    dispatchRead hla ala 0 origin (.clean data) s = s ∧
      (step ≠ 0 → dispatchRead hla ala step origin (.clean data) s = watchUpdate hla data s) ∧
      dispatchRead hla ala 0 origin (.corrected data) s = watchUpdate hla data s ∧
      (step ≠ 0 →
        dispatchRead hla ala step origin (.corrected data) s =
          writeFault .retryCorrected (some hla) (some ala) (some step)
            (offerRead .retry hla data
              (s.setReloc { s.reloc with watch := s.reloc.watch.filter (·.hla != hla) }))) ∧
      dispatchRead hla ala step origin .uncorrectable s =
        pendingAdd hla origin
          (writeFault .uncorrectableRead (some hla) (some ala) (some step)
            (s.setReloc { s.reloc with watch := s.reloc.watch.filter (·.hla != hla) }))

/-- A host read attempt's answer (R57, R64, R66, R67): UNCORRECTABLE below the sampled depth, the next step waits at the arbiter with
the age of step 0; otherwise the ladder ends, is dispatched, the READ leaves its line's order, and if its tag is outstanding it is
answered OK or CORRECTED with the data, or POISON. The origin of a Pending List add is HOST_READ at the home, SPARE_READ at a
spare. -/
def Obligations.HostReadAttemptAnswered : Prop :=
  ∀ (s : State) (id ala step : Nat) (line : ArrayLine) (rest : List Flight) (r : HostReq) (l : Ladder) (t : State),
    s.array.inFlight = inFlightNow (.read ala) (.hostRead id) step :: rest →
    findReq s id = some r → r.stage = .inArray l →
    (classify ala line = .uncorrectable → l.step < l.depth →
      t = ((answerTaken rest s).setHost
            { s.host with
              order := s.host.order.map fun q =>
                if q.id == id then { q with stage := .inArray { l with step := l.step + 1 } } else q }).setArray
            { s.array with inFlight := rest, waiting := s.array.waiting ++ [{ body := .hostRead id, age := l.age }] } →
      exec (.hostReadAttemptAnswer line) s = .next (settle t)) ∧
    ∀ (u : State) (status : HostStatus) (data : Option LineData),
      (classify ala line = .uncorrectable → l.depth ≤ l.step) →
      (classify ala line = .uncorrectable → status = .poison ∧ data = none) →
      (∀ d, classify ala line = .clean d → status = .ok ∧ data = some d) →
      (∀ d, classify ala line = .corrected d → status = .corrected ∧ data = some d) →
      u = dispatchRead r.hla l.ala l.step (if l.ala = r.hla then .hostRead else .spareRead) (classify ala line)
            (answerTaken rest s) →
      (r.live = true →
        t = responded (readAnswer r.tag status data)
              (u.setHost
                { u.host with
                  order := u.host.order.filter (·.id != r.id), tags := u.host.tags.filter (· != r.tag) }) →
        exec (.hostReadAttemptAnswer line) s = .next (settle t)) ∧
      (r.live = false →
        t = u.setHost { u.host with order := u.host.order.filter (·.id != r.id) } →
        exec (.hostReadAttemptAnswer line) s = .next (settle t))

/-- A read half's answer (R66, R68, R84): UNCORRECTABLE below the sampled depth, the next step waits with the age of step 0; CLEAN or
CORRECTED, after the dispatch with origin MERGE_READ the bytes the mask does not enable are taken from the data read, the entry becomes
ASSEMBLED with a full mask, and its write half is placed, aged in this event (log 36); UNCORRECTABLE at the depth, after the dispatch
the data is discarded with reason UNREADABLE_MERGE: the entry leaves, READs waiting on it are routed again, the report is queued and the
barriers covering it are answered.
A LINE_RETIRE read's answer (R66, R68, R112). While the command's reservation stands: CLEAN or CORRECTED, a line become pending
answers PENDING, no FREE spare latches SPARES_OUT and answers EXHAUSTED, each releasing the reservation; otherwise the lowest FREE spare
becomes HELD, a SERVICE relocation begins in the reserved slot, a request that waits for the home is merged in, and the command stays in
progress. UNCORRECTABLE below the depth retries; at the depth the line is added to the Pending List with origin SERVICE and the command
answered PENDING. With the reservation gone, a delivered line does nothing. -/
def Obligations.RmwAndRetireReadsDeliver : Prop :=
  (∀ (s : State) (id ala step : Nat) (line : ArrayLine) (rest : List Flight) (e : Item) (l : Ladder) (u t : State),
      s.array.inFlight = inFlightNow (.read ala) (.rmwRead (.entry id)) step :: rest →
      findItem s (.entry id) = some e → e.ladder = some l →
      u = dispatchRead e.hla l.ala l.step .mergeRead (classify ala line) (answerTaken rest s) →
      (∀ data, (classify ala line = .clean data ∨ classify ala line = .corrected data) →
        t = placeDrain (.entry id)
              (u.setBuf
                { u.buf with
                  entries := u.buf.entries.map fun x =>
                    if x.id == id then
                      { x with
                        data := mergeLine data x.data x.mask, mask := BitVec.allOnes 64, phase := .assembled, ladder := none }
                    else x }) →
        exec (.rmwReadAnswer line) s = .next (settle t)) ∧
      (classify ala line = .uncorrectable → l.step < l.depth →
        t = ((answerTaken rest s).setBuf
              { s.buf with
                entries := s.buf.entries.map fun x =>
                  if x.id == id then { x with ladder := some { l with step := l.step + 1 } } else x }).setArray
              { s.array with
                inFlight := rest, waiting := s.array.waiting ++ [{ body := .rmwRead (.entry id), age := l.age }] } →
        exec (.rmwReadAnswer line) s = .next (settle t)) ∧
      (classify ala line = .uncorrectable → l.depth ≤ l.step →
        ∀ v, v = queueReport e.hla .unreadableMerge u →
        t = failCovered e.epoch
              ((v.setBuf { v.buf with entries := v.buf.entries.filter (·.id != id) }).setHost
                { v.host with
                  order := v.host.order.map fun r => if r.stage = .waitEntry id then { r with stage := .queued } else r }) →
        exec (.rmwReadAnswer line) s = .next (settle t))) ∧
  (∀ (s : State) (id ala step : Nat) (line : ArrayLine) (rest : List Flight) (r : RetireRead) (c : InProgress)
      (released : State → State) (u t : State),
      s.array.inFlight = inFlightNow (.read ala) (.retireRead id) step :: rest →
      findRetireRead s id = some r → s.port.command = some c →
      (∀ x, released x = x.setReloc
        { x.reloc with
          reserved := none
          queue := x.reloc.queue.filter fun q => match q with
            | .reservation _ => false
            | .request _ _ _ => true
          retireReads := x.reloc.retireReads.map fun q => { q with live := false } }) →
      u = (answerTaken rest s).setReloc
            { s.reloc with retireReads := s.reloc.retireReads.filter (·.id != r.id) } →
      (∀ data, (classify ala line = .clean data ∨ classify ala line = .corrected data) → r.live = true →
        s.reloc.reserved = some r.home →
        (isPending s r.home = true → t = completeCommand c.seq .pending [] (released u) →
          exec (.lineRetireReadAnswer line) s = .next (settle t)) ∧
        (isPending s r.home = false → r.home < fenceValue s → isMoving s r.home = false → lowestFree s = none →
          t = completeCommand c.seq .exhausted []
                (released (u.setAlert { s.alert with causes := s.alert.causes ||| AlertCause.sparesOut.bit })) →
          exec (.lineRetireReadAnswer line) s = .next (settle t)) ∧
        ∀ (spare : Nat) (v : State), isPending s r.home = false → r.home < fenceValue s → isMoving s r.home = false →
          lowestFree s = some spare →
          v = (beginRelocation r.home spare .service data none [] (setMark spare .held u)).setPort
                { s.port with command := some { seq := c.seq, command := .lineRetire r.home true } } →
          ((∀ ref home cause, QueueItem.request ref home cause ∈ s.reloc.queue → home ≠ r.home) →
            exec (.lineRetireReadAnswer line) s = .next (settle v)) ∧
          ∀ (ref : ItemRef) (cause : RelocCause) (e : Item), s.reloc.queue = [.request ref r.home cause] →
            findItem s ref = some e → t = mergeItem ref e (v.setReloc { v.reloc with queue := [] }) →
            exec (.lineRetireReadAnswer line) s = .next (settle t)) ∧
      (∀ data, (classify ala line = .clean data ∨ classify ala line = .corrected data) →
        (r.live = false ∨ s.reloc.reserved ≠ some r.home) → exec (.lineRetireReadAnswer line) s = .next (settle u)) ∧
      (classify ala line = .uncorrectable → r.ladder.step < r.ladder.depth →
        t = ((answerTaken rest s).setReloc
              { s.reloc with
                retireReads := s.reloc.retireReads.map fun q =>
                  if q.id == id then { q with ladder := { q.ladder with step := q.ladder.step + 1 } } else q }).setArray
              { s.array with
                inFlight := rest, waiting := s.array.waiting ++ [{ body := .retireRead id, age := r.ladder.age }] } →
        exec (.lineRetireReadAnswer line) s = .next (settle t)) ∧
      ∀ v, classify ala line = .uncorrectable → r.ladder.depth ≤ r.ladder.step →
        v = pendingAdd r.home .service
              (writeFault .uncorrectableRead (some r.home) (some r.ladder.ala) (some r.ladder.step) u) →
        (r.live = true → s.reloc.reserved = some r.home → t = completeCommand c.seq .pending [] (released v) →
          exec (.lineRetireReadAnswer line) s = .next (settle t)) ∧
        ((r.live = false ∨ s.reloc.reserved ≠ some r.home) → exec (.lineRetireReadAnswer line) s = .next (settle v)))

/-- A SPAN survey read that ends CLEAN at step 0 with no end requested (R142, R144): the line is counted as read, the next line is the
one above, and with SURVEY_GAP other than 0 the gap of that many units begins.
The gap of a SPAN survey expires (R142, R143, R146): past the last line the survey ends with outcome DONE, its report replaces the
last and SURVEY_END latches; a line that is not pending, not MOVING and not held in the buffer or the direct path is read at the
place that serves it, at the Active depth.
The lines a survey visits (R141 to R143, R146): the next visit passes the excluded lines; a line of a SPAN survey that is
pending, MOVING or held in the buffer or the direct path is skipped and counted, and the next one examined. That a visit goes to the
next line of the worklist, and to its limit after the last, is the model's reading of R141 and R150 (log 31).
A SPAN survey read ends (R142, R144, R147 to R149): after the dispatch with origin SURVEY the line is counted by its class and
step, the first uncorrectable line is kept, and the survey goes on to the gap; or it ends: RESET or STOPPED when that was asked,
HALTED_FULL when the dispatch's Pending List add was dropped for fullness. UNCORRECTABLE below the depth retries.
A SPARES survey read ends (R11, R145), with no end asked and a gap set: counted by its class; a spare read CORRECTED or
UNCORRECTABLE that is still FREE becomes DEAD with its record offered, and is counted. That the next line is the next line of the
worklist, and C-J after the last, is the model's reading of R141 and R150 (log 31). The expiry of a SPARES gap, a SURVEY_GAP of 0
and a SPARES read with an end asked are not stated here. -/
def Obligations.SurveyReadsAndGaps : Prop :=
  (∀ (s : State) (ala step : Nat) (line : ArrayLine) (rest : List Flight) (l : LiveSurvey) (d : Ladder) (data : LineData)
      (t : State),
      s.array.inFlight = inFlightNow (.read ala) .surveyRead step :: rest →
      s.survey.live = some l → l.phase = .reading d → l.mode = .span → l.excluded = [] → l.next < l.limit → d.step = 0 →
      l.endRequested = none → s.policy.active.surveyGap ≠ 0 → classify ala line = .clean data →
      t = (answerTaken rest s).setSurvey
            { s.survey with
              live := some
                { l with
                  next := l.next + 1
                  counts := { l.counts with linesRead := l.counts.linesRead + 1 }
                  phase := .gap s.policy.active.surveyGap } } →
      exec (.surveyReadAnswer line) s = .next (settle t)) ∧
  (∀ (s : State) (l : LiveSurvey) (units : Nat) (t : State),
      s.survey.live = some l → l.phase = .gap units → l.mode = .span →
      (l.limit ≤ l.next →
        t = ((nextEvent s).setSurvey
              { live := none
                report := some
                  { mode := l.mode, first := l.first, count := l.count, startTick := l.startTick, endTick := s.tick,
                    outcome := .done, next := l.next, counts := l.counts, firstUncorrectable := l.firstUncorrectable } }).setAlert
              { s.alert with causes := s.alert.causes ||| AlertCause.surveyEnd.bit } →
        exec .surveyGapExpiry s = .next (settle t)) ∧
      (l.next < l.limit → isPending s l.next = false → isMoving s l.next = false →
        (∀ e ∈ s.buf.entries, e.hla ≠ l.next) → (∀ e ∈ s.buf.direct, e.hla ≠ l.next) →
        t = placeRequest .surveyRead
              ((nextEvent s).setSurvey
                { s.survey with
                  live := some
                    { l with
                      phase := .reading
                        { ala := servingPlace s l.next, depth := s.policy.active.retryDepth, step := 0,
                          age := { event := s.ids.event + 1, direct := false, order := s.ids.nextId },
                          granted := false } } }) →
        exec .surveyGapExpiry s = .next (settle t))) ∧
  (
    (∀ (excluded : List Nat) (limit line n : Nat), line ≤ n → n ≤ limit → (n = limit ∨ n ∉ excluded) →
      (∀ x, line ≤ x → x < n → x ∈ excluded) → nextVisit excluded limit line = n) ∧
    ∀ (s : State) (l : LiveSurvey), l.mode = .span → l.excluded = [] → l.next < l.limit →
      (isPending s l.next = true ∨ isMoving s l.next = true ∨ (∃ e ∈ s.buf.entries, e.hla = l.next) ∨
        ∃ e ∈ s.buf.direct, e.hla = l.next) →
      examine l s =
        examine { l with next := l.next + 1, counts := { l.counts with skipped := l.counts.skipped + 1 } } s) ∧
  (∀ (s : State) (ala step : Nat) (line : ArrayLine) (rest : List Flight) (l : LiveSurvey) (d : Ladder) (u t : State),
      s.array.inFlight = inFlightNow (.read ala) .surveyRead step :: rest →
      s.survey.live = some l → l.phase = .reading d → l.mode = .span → l.excluded = [] → l.next < l.limit →
      (classify ala line = .uncorrectable → d.step < d.depth →
        t = ((answerTaken rest s).setSurvey
              { s.survey with live := some { l with phase := .reading { d with step := d.step + 1 } } }).setArray
              { s.array with inFlight := rest, waiting := s.array.waiting ++ [{ body := .surveyRead, age := d.age }] } →
        exec (.surveyReadAnswer line) s = .next (settle t)) ∧
      ∀ (counts : SurveyCounts) (first : Option Nat) (dropped : Prop),
        (classify ala line = .uncorrectable → d.depth ≤ d.step) →
        (((∃ x, classify ala line = .clean x) ∧ first = l.firstUncorrectable ∧
            counts = { l.counts with
              linesRead := l.counts.linesRead + 1
              cleanAfterRetry := l.counts.cleanAfterRetry + (if d.step = 0 then 0 else 1) }) ∨
          ((∃ x, classify ala line = .corrected x) ∧ first = l.firstUncorrectable ∧
            counts = { l.counts with
              linesRead := l.counts.linesRead + 1
              corrected := l.counts.corrected + (if d.step = 0 then 1 else 0)
              retriedCorrected := l.counts.retriedCorrected + (if d.step = 0 then 0 else 1) }) ∨
          (classify ala line = .uncorrectable ∧ first = some (l.firstUncorrectable.getD l.next) ∧
            counts = { l.counts with
              linesRead := l.counts.linesRead + 1, uncorrectable := l.counts.uncorrectable + 1 })) →
        (dropped ↔ classify ala line = .uncorrectable ∧ isMoving s l.next = false ∧ isPending s l.next = false ∧
          32 ≤ s.reloc.pendingList.length) →
        u = dispatchRead l.next d.ala d.step .survey (classify ala line) (answerTaken rest s) →
        (l.endRequested = none → ¬ dropped → s.policy.active.surveyGap ≠ 0 →
          t = u.setSurvey
                { s.survey with
                  live := some
                    { l with
                      next := l.next + 1, counts, firstUncorrectable := first
                      phase := .gap s.policy.active.surveyGap } } →
          exec (.surveyReadAnswer line) s = .next (settle t)) ∧
        ∀ outcome : SurveyOutcome,
          ((l.endRequested = some .reset ∧ outcome = .reset) ∨
            (l.endRequested ≠ some .reset ∧ dropped ∧ outcome = .haltedFull) ∨
            (l.endRequested = some outcome ∧ outcome ≠ .reset ∧ ¬ dropped)) →
          t = (u.setSurvey
                { live := none
                  report := some
                    { mode := l.mode, first := l.first, count := l.count, startTick := l.startTick, endTick := s.tick,
                      outcome, next := l.next + 1, counts, firstUncorrectable := first } }).setAlert
                { u.alert with causes := u.alert.causes ||| AlertCause.surveyEnd.bit } →
          exec (.surveyReadAnswer line) s = .next (settle t)) ∧
  (∀ (s : State) (ala step : Nat) (line : ArrayLine) (rest : List Flight) (l : LiveSurvey) (d : Ladder)
      (counts : SurveyCounts) (first : Option Nat) (dead : Bool) (u t : State),
      s.array.inFlight = inFlightNow (.read ala) .surveyRead step :: rest →
      s.survey.live = some l → l.phase = .reading d → l.mode = .spares → d.depth ≤ d.step → l.endRequested = none →
      s.policy.active.surveyGap ≠ 0 →
      (dead = true ↔ (∀ x, classify ala line ≠ .clean x) ∧ spareStateOf s l.next = some .free) →
      u = (if dead then
            offerRecord (.dead l.next)
              ((answerTaken rest s).setMap { s.map with marks := insertMark l.next .dead s.map.marks })
           else answerTaken rest s) →
      (((∃ x, classify ala line = .clean x) ∧ first = l.firstUncorrectable ∧
          counts = { l.counts with linesRead := l.counts.linesRead + 1 }) ∨
        ((∃ x, classify ala line = .corrected x) ∧ first = l.firstUncorrectable ∧
          counts = { l.counts with
            linesRead := l.counts.linesRead + 1, corrected := l.counts.corrected + 1
            markedDead := l.counts.markedDead + (if dead then 1 else 0) }) ∨
        (classify ala line = .uncorrectable ∧ first = some (l.firstUncorrectable.getD l.next) ∧
          counts = { l.counts with
            linesRead := l.counts.linesRead + 1, uncorrectable := l.counts.uncorrectable + 1
            markedDead := l.counts.markedDead + (if dead then 1 else 0) })) →
      t = u.setSurvey
            { s.survey with
              live := some
                { l with
                  next := nextVisit l.excluded l.limit (l.next + 1), counts, firstUncorrectable := first
                  phase := .gap s.policy.active.surveyGap } } →
      exec (.surveyReadAnswer line) s = .next (settle t))

/-! ### Array answers: writes -/

/-- A drain write completes DONE, its line not MOVING (R85, R108): the entry leaves the buffer and a pending line leaves the Pending
List; a direct write leaves the direct path and its line's order, and if its tag is outstanding it is answered DONE with the oldest
deferred report (R29).
A drain write completes DONE on a line that became MOVING (R85, R100): the 64 bytes are copied over the slot data, the item
leaves, a direct write is answered DONE, and the BARRIERs whose last covered data this was are answered; then the ack epoch, or the
tag of the answered direct write, passes to the slot. That order is the model's reading (log 18).
A drain write of an entry faults, its line neither MOVING nor reserved by a LINE_RETIRE (R86, R91, R92): with a slot free and a
FREE spare, the lowest spare becomes HELD, a WRITE_FAULT relocation begins with the entry's data and ack epoch, and the entry
leaves.
The in-place write of a pending line completes DONE (R95, R108): the entry leaves the buffer and the line leaves the Pending
List.
Losses for want of a spare (R87, R95): a drain write's fault with a slot but no FREE spare latches SPARES_OUT, adds the line to
the Pending List with origin WRITE_FAULT, writes HOME_WRITE_FAULT and discards the data with reason NO_SPARE; an in-place write's
fault writes HOME_WRITE_FAULT and discards likewise. A discarded entry's READs are routed again, its report is queued and its
barriers are answered; a direct write outstanding is answered POISON_HIT, and one released queues the report (R30, R37).
A PENDING_WRITE or WRITE_FAULT request of an entry (R91 to R93, R95): the entry is RELOCATING; with no reservation for its home
and a slot free it is admitted at once, otherwise it joins the slot queue. Admitted with a FREE spare, the relocation begins and the
entry leaves; with none, SPARES_OUT latches, and a healing write is placed to the place that serves the line, with SPARE_SHORT. -/
def Obligations.DrainWritesAnswered : Prop :=
  (∀ (s : State) (id ala step : Nat) (data : LineData) (rest : List Flight) (e : Item) (u t : State),
      u = (answerTaken rest s).setReloc
            { s.reloc with pendingList := s.reloc.pendingList.filter (·.hla != e.hla) } →
      isMoving s e.hla = false →
      (s.array.inFlight = inFlightNow (.write ala data) (.drainWrite (.entry id)) step :: rest →
        findItem s (.entry id) = some e → (∀ r ∈ s.host.order, r.stage ≠ .waitEntry id) →
        t = u.setBuf { s.buf with entries := s.buf.entries.filter (·.id != id) } →
        exec (.drainWriteAnswer .done) s = .next (settle t)) ∧
      ∀ r : HostReq, s.array.inFlight = inFlightNow (.write ala data) (.drainWrite (.direct id)) step :: rest →
        findItem s (.direct id) = some e → findReq s id = some r → r.live = true →
        t = responded (reportingAnswer .write r.tag .done s)
              ((u.setBuf { s.buf with direct := s.buf.direct.filter (·.id != id) }).setHost
                { s.host with
                  order := s.host.order.filter (·.id != id), tags := s.host.tags.filter (· != r.tag)
                  reports := s.host.reports.drop 1 }) →
        exec (.drainWriteAnswer .done) s = .next (settle t)) ∧
  (∀ (s : State) (id ala step : Nat) (data : LineData) (rest : List Flight) (e : Item) (u v t : State),
      isMoving s e.hla = true →
      u = (answerTaken rest s).setReloc
            { s.reloc with
              slots := s.reloc.slots.map fun q =>
                if q.home == e.hla then
                  { q with
                    data := mergeLine q.data e.data (BitVec.allOnes 64)
                    dirty := q.dirty || slotWriteInFlight (answerTaken rest s) e.hla || q.state == .journaling }
                else q
              pendingList := s.reloc.pendingList.filter (·.hla != e.hla) } →
      (s.array.inFlight = inFlightNow (.write ala data) (.drainWrite (.entry id)) step :: rest →
        findItem s (.entry id) = some e → (∀ r ∈ s.host.order, r.stage ≠ .waitEntry id) →
        v = settleBarriers (u.setBuf { s.buf with entries := s.buf.entries.filter (·.id != id) }) →
        t = v.setReloc
              { v.reloc with
                slots := v.reloc.slots.map fun q =>
                  if q.home == e.hla then
                    { q with
                      epoch := match q.epoch, e.epoch with
                        | some a, some b => some (min a b)
                        | some a, none => some a
                        | none, b => b }
                  else q } →
        exec (.drainWriteAnswer .done) s = .next (settle t)) ∧
      ∀ r : HostReq, s.array.inFlight = inFlightNow (.write ala data) (.drainWrite (.direct id)) step :: rest →
        findItem s (.direct id) = some e → e.epoch = none → findReq s id = some r → r.live = true →
        v = settleBarriers
              (responded (reportingAnswer .write r.tag .done s)
                ((u.setBuf { s.buf with direct := s.buf.direct.filter (·.id != id) }).setHost
                  { s.host with
                    order := s.host.order.filter (·.id != id), tags := s.host.tags.filter (· != r.tag)
                    reports := s.host.reports.drop 1 })) →
        t = v.setReloc
              { v.reloc with
                slots := v.reloc.slots.map fun q =>
                  if q.home == e.hla then { q with waiting := q.waiting ++ [{ tag := r.tag, live := false }] } else q } →
        exec (.drainWriteAnswer .done) s = .next (settle t)) ∧
  (∀ (s : State) (id ala step spare : Nat) (data : LineData) (rest : List Flight) (e : Item) (t : State),
      s.array.inFlight = inFlightNow (.write ala data) (.drainWrite (.entry id)) step :: rest →
      findItem s (.entry id) = some e → e.hla < fenceValue s → isMoving s e.hla = false → reservationFor s e.hla = false →
      slotFree s = true → lowestFree s = some spare → (∀ r ∈ s.host.order, r.stage ≠ .waitEntry id) →
      t = (beginRelocation e.hla spare .writeFault e.data e.epoch [] (setMark spare .held (answerTaken rest s))).setBuf
            { s.buf with entries := s.buf.entries.filter (·.id != id) } →
      exec (.drainWriteAnswer .fault) s = .next (settle t)) ∧
  (∀ (s : State) (id ala step : Nat) (data : LineData) (rest : List Flight) (e : Item) (t : State),
      s.array.inFlight = inFlightNow (.write ala data) (.inPlace (.entry id)) step :: rest →
      findItem s (.entry id) = some e → (∀ r ∈ s.host.order, r.stage ≠ .waitEntry id) →
      t = ((answerTaken rest s).setReloc
            { s.reloc with pendingList := s.reloc.pendingList.filter (·.hla != e.hla) }).setBuf
            { s.buf with entries := s.buf.entries.filter (·.id != id) } →
      exec (.inPlaceWriteAnswer .done) s = .next (settle t)) ∧
  (
    (∀ (s : State) (id ala step : Nat) (data : LineData) (rest : List Flight) (e : Item) (left : State → State) (u t : State),
      findItem s (.entry id) = some e →
      (∀ x, left x =
        (x.setBuf { x.buf with entries := x.buf.entries.filter (·.id != id) }).setHost
          { x.host with
            order := x.host.order.map fun r => if r.stage = .waitEntry id then { r with stage := .queued } else r }) →
      (s.array.inFlight = inFlightNow (.write ala data) (.drainWrite (.entry id)) step :: rest →
        e.hla < fenceValue s → isMoving s e.hla = false → reservationFor s e.hla = false → slotFree s = true →
        lowestFree s = none →
        u = queueReport e.hla .noSpare
              (writeFault .homeWriteFault (some e.hla) (some e.place) none
                (pendingAdd e.hla .writeFault
                  ((answerTaken rest s).setAlert { s.alert with causes := s.alert.causes ||| AlertCause.sparesOut.bit }))) →
        t = failCovered e.epoch (left u) → exec (.drainWriteAnswer .fault) s = .next (settle t)) ∧
      (s.array.inFlight = inFlightNow (.write ala data) (.inPlace (.entry id)) step :: rest →
        u = queueReport e.hla .noSpare
              (writeFault .homeWriteFault (some e.hla) (some e.place) none (answerTaken rest s)) →
        t = failCovered e.epoch (left u) → exec (.inPlaceWriteAnswer .fault) s = .next (settle t))) ∧
    ∀ (s : State) (id : Nat) (e : Item) (reason : ReportReason) (r : HostReq) (u : State), findReq s id = some r →
      (r.live = true →
        discardItem (.direct id) e reason s =
          responded (reportingAnswer .write r.tag .poisonHit s)
            ((s.setBuf { s.buf with direct := s.buf.direct.filter (·.id != id) }).setHost
              { s.host with
                order := s.host.order.filter (·.id != id), tags := s.host.tags.filter (· != r.tag)
                reports := s.host.reports.drop 1 })) ∧
      (r.live = false → u = queueReport e.hla reason s →
        discardItem (.direct id) e reason s =
          (u.setBuf { u.buf with direct := u.buf.direct.filter (·.id != id) }).setHost
            { u.host with order := u.host.order.filter (·.id != id) })) ∧
  (∀ (s : State) (id : Nat) (e : Item) (cause : RelocCause) (u : State),
      u = s.setBuf
            { s.buf with entries := s.buf.entries.map fun x => if x.id == id then { x with phase := .relocating } else x } →
      (reservationFor s e.hla = false → slotFree s = true →
        offerItem (.entry id) e cause s = admitItem (.entry id) e cause u) ∧
      ((reservationFor s e.hla = true ∨ slotFree s = false) →
        offerItem (.entry id) e cause s =
          u.setReloc { s.reloc with queue := s.reloc.queue ++ [.request (.entry id) e.hla cause] }) ∧
      (e.hla < fenceValue s → isMoving s e.hla = false →
        (∀ (spare : Nat) (v : State), lowestFree s = some spare →
          v = beginRelocation e.hla spare cause e.data e.epoch [] (setMark spare .held s) →
          admitItem (.entry id) e cause s =
            (v.setBuf { s.buf with entries := s.buf.entries.filter (·.id != id) }).setHost
              { s.host with
                order := s.host.order.map fun r => if r.stage = .waitEntry id then { r with stage := .queued } else r }) ∧
        ∀ place : Nat, lowestFree s = none → cause = .pendingWrite →
          place = ((entryOf s e.hla).bind (·.spare)).getD e.hla →
          admitItem (.entry id) e cause s =
            writeFault .spareShort (some e.hla) (some place) none
              (placeRequest (.inPlace (.entry id))
                ((s.setAlert { s.alert with causes := s.alert.causes ||| AlertCause.sparesOut.bit }).setBuf
                  { s.buf with
                    entries := s.buf.entries.map fun x => if x.id == id then { x with place } else x }))))

/-- A target write completes DONE (R98): with dirty set a further write of the slot is placed; with dirty clear the slot enters
JOURNALING and a BIND record of the home and its target is offered to the journal.
A target write faults (R99, R10): SPARE_WRITE_FAULT is written. With one or two spares tried and a FREE spare, the faulted target
becomes DEAD with its record offered, the lowest FREE spare becomes HELD and the entry's target, spare attempts rise by one and a
write to it is placed. With three spares tried, or no FREE spare, which latches SPARES_OUT, RELOCATE_FAIL is written and the slot enters
RETURNING, its target still HELD. -/
def Obligations.TargetWriteAnswered : Prop :=
  (∀ (s : State) (home ala step : Nat) (data : LineData) (rest : List Flight) (q : Slot) (t : State),
      s.array.inFlight = inFlightNow (.write ala data) (.slotWrite home .target) step :: rest →
      findSlot s home = some q →
      t = (if q.dirty = true then placeRequest (.slotWrite home) (answerTaken rest s)
           else
            offerRecord (.bind home (targetOf s home))
              ((answerTaken rest s).setReloc
                { s.reloc with
                  slots := s.reloc.slots.map fun x => if x.home == home then { x with state := .journaling } else x })) →
      exec (.targetWriteAnswer .done) s = .next (settle t)) ∧
  (∀ (s : State) (home ala step : Nat) (data : LineData) (rest : List Flight) (q : Slot) (e : RemapEntry) (old : Nat)
      (u t : State),
      s.array.inFlight = inFlightNow (.write ala data) (.slotWrite home .target) step :: rest →
      findSlot s home = some q → entryOf s home = some e → e.target = some old →
      u = writeFault .spareWriteFault (some home) (some old) none (answerTaken rest s) →
      (∀ next : Nat, q.attempts < 3 → lowestFree s = some next →
        t = placeRequest (.slotWrite home)
              ((offerRecord (.dead old)
                (setEntry { e with target := some next } (setMark old .dead (setMark next .held u)))).setReloc
                { s.reloc with
                  slots := s.reloc.slots.map fun x => if x.home == home then { x with attempts := x.attempts + 1 } else x }) →
        exec (.targetWriteAnswer .fault) s = .next (settle t)) ∧
      ∀ v : State,
        ((3 ≤ q.attempts ∧ v = u) ∨
          (q.attempts < 3 ∧ lowestFree s = none ∧
            v = u.setAlert { u.alert with causes := u.alert.causes ||| AlertCause.sparesOut.bit })) →
        t = placeRequest (.slotWrite home)
              ((writeFault .relocateFail (some home) (some old) none v).setReloc
                { s.reloc with
                  slots := s.reloc.slots.map fun x => if x.home == home then { x with state := .returning } else x }) →
        exec (.targetWriteAnswer .fault) s = .next (settle t))

/-- A FINISHING write completes DONE with dirty clear, outside STALLED, for a slot with no waiting write and no LINE_RETIRE of its home
(R4, R102): the binding completes: the entry is BOUND to its target with the current tick, the target becomes BOUND, the old spare DEAD, and the
slot is free. With dirty set a further write is placed.
The end of a FINISHING slot (R102, R105): a fault writes SPARE_WRITE_FAULT, completes the binding and loses the data: a Pending
List add with origin RELOCATE, DATA_LOST at the target, a report, POISON_HIT to waiting writes, INCOMPLETE to covering barriers. A
LINE_RETIRE of the home is answered OK with the home and target. While the journal is STALLED no binding completes: the outcome is
held, a fault's two records being written in the fault event (R155), with PENDING_OVERFLOW between them when the Pending List is
full (R156), and once the journal is READY it is taken, a fault with the rest of its effects (that it is held, what of a fault is
held and when it is released is the model's reading of R105, log 39). -/
def Obligations.FinishingWriteDone : Prop :=
  (∀ (s : State) (home ala step : Nat) (data : LineData) (rest : List Flight) (q : Slot) (e : RemapEntry) (target : Nat)
      (t : State),
      s.array.inFlight = inFlightNow (.write ala data) (.slotWrite home .finishing) step :: rest →
      findSlot s home = some q → q.home = home → entryOf s home = some e → e.target = some target →
      (q.dirty = true → t = placeRequest (.slotWrite home) (answerTaken rest s) →
        exec (.finishingWriteAnswer .done) s = .next (settle t)) ∧
      (q.dirty = false → s.jour.state ≠ .stalled → q.waiting = [] → s.port.command = none →
        t = ((answerTaken rest s).setMap
              { s.map with
                table := insertEntry { e with spare := some target, target := none, boundTick := some s.tick } s.map.table
                marks :=
                  match e.spare with
                  | some old => insertMark old .dead (insertMark target .bound s.map.marks)
                  | none => insertMark target .bound s.map.marks }).setReloc
              { s.reloc with slots := s.reloc.slots.filter (·.home != home) } →
        exec (.finishingWriteAnswer .done) s = .next (settle t))) ∧
  (∀ (s : State) (home ala step : Nat) (data : LineData) (rest : List Flight) (q : Slot) (e : RemapEntry) (target : Nat)
      (bound : State → State) (t : State),
      findSlot s home = some q → q.home = home → entryOf s home = some e → e.target = some target →
      (∀ x, bound x =
        (x.setMap
          { s.map with
            table := insertEntry { e with spare := some target, target := none, boundTick := some s.tick } s.map.table
            marks :=
              match e.spare with
              | some old => insertMark old .dead (insertMark target .bound s.map.marks)
              | none => insertMark target .bound s.map.marks }).setReloc
          { x.reloc with slots := s.reloc.slots.filter (·.home != home) }) →
      (s.array.inFlight = inFlightNow (.write ala data) (.slotWrite home .finishing) step :: rest →
        (s.jour.state = .stalled → q.dirty = false →
          t = (answerTaken rest s).setReloc { s.reloc with held := s.reloc.held ++ [{ home, answer := .done, dropped := false }] } →
          exec (.finishingWriteAnswer .done) s = .next (settle t)) ∧
        (∀ (dropped : Bool) (u v : State), s.jour.state = .stalled →
          (dropped = true ↔ isPending s home = false ∧ 32 ≤ s.reloc.pendingList.length) →
          u = writeFault .spareWriteFault (some home) (some target) none (answerTaken rest s) →
          v = (if dropped then
                writeFault .pendingOverflow (some home) none none
                  (u.setAlert { u.alert with causes := u.alert.causes ||| AlertCause.pendingFull.bit })
               else u) →
          t = (writeFault .dataLost (some home) (some target) none v).setReloc
                { s.reloc with held := s.reloc.held ++ [{ home, answer := .fault, dropped }] } →
          exec (.finishingWriteAnswer .fault) s = .next (settle t)) ∧
        (s.jour.state ≠ .stalled → s.port.command = none →
          t = failCovered q.epoch
                (answerWaiting q .poisonHit
                  (queueReport home .dataLost
                    (writeFault .dataLost (some home) (some target) none
                      (pendingAdd home .relocate
                        (bound (writeFault .spareWriteFault (some home) (some target) none (answerTaken rest s))))))) →
          exec (.finishingWriteAnswer .fault) s = .next (settle t)) ∧
        ∀ seq, s.jour.state ≠ .stalled → q.dirty = false → q.waiting = [] →
          s.port.command = some { seq, command := .lineRetire home true } →
          t = completeCommand seq .ok (enc24 home ++ enc24 target) (bound (answerTaken rest s)) →
          exec (.finishingWriteAnswer .done) s = .next (settle t)) ∧
      (∀ w, w.live = true → q.waiting = [w] → ∀ status : HostStatus,
        answerWaiting q status s =
          responded (reportingAnswer .write w.tag status s)
            (s.setHost
              { s.host with tags := s.host.tags.filter (· != w.tag), reports := s.host.reports.drop 1 })) ∧
      (q.waiting = [] → ∀ status : HostStatus, answerWaiting q status s = s) ∧
      ((s.reloc.held = [] ∨ s.jour.state ≠ .ready) → heldNext s = none) ∧
      ∀ others, s.jour.state = .ready → s.port.command = none →
        (s.reloc.held = { home, answer := .done, dropped := false } :: others → q.dirty = false → q.waiting = [] →
          heldNext s = some (bound (s.setReloc { s.reloc with held := others }))) ∧
        ∀ (dropped : Bool) (u : State), s.reloc.held = { home, answer := .fault, dropped } :: others →
          u = bound (s.setReloc { s.reloc with held := others }) →
          heldNext s =
            some (failCovered q.epoch
              (answerWaiting q .poisonHit
                (queueReport home .dataLost (if dropped then u else pendingAdd home .relocate u)))))

/-- A fallback write completes DONE with dirty clear, for a slot with no waiting write and no LINE_RETIRE in progress (R4, R103): the
entry reverts to its spare, or is removed if it had none, the last target becomes DEAD with its record offered, and the slot is
free. That it is free in a STALLED journal too is the model's reading of R105 (log 41).
A fallback write faults, for a slot with no waiting write and no ack epoch and no LINE_RETIRE in progress (R10, R104): the entry
reverts or is removed and the last target becomes DEAD; then the line is added to the Pending List with origin RELOCATE, DATA_LOST is
written with the fallback place, and a report is queued. -/
def Obligations.FallbackWriteAnswered : Prop :=
  (∀ (s : State) (home ala step : Nat) (data : LineData) (rest : List Flight) (q : Slot) (e : RemapEntry) (target : Nat)
      (t : State),
      s.array.inFlight = inFlightNow (.write ala data) (.slotWrite home .fallback) step :: rest →
      findSlot s home = some q → q.home = home → entryOf s home = some e → e.target = some target → q.dirty = false →
      q.waiting = [] → s.port.command = none →
      t = (offerRecord (.dead target)
            ((answerTaken rest s).setMap
              { s.map with
                table := if e.spare.isSome then insertEntry { e with target := none } s.map.table
                  else s.map.table.filter (·.home != home)
                marks := insertMark target .dead s.map.marks })).setReloc
            { s.reloc with slots := s.reloc.slots.filter (·.home != home) } →
      exec (.fallbackWriteAnswer .done) s = .next (settle t)) ∧
  (∀ (s : State) (home ala step : Nat) (data : LineData) (rest : List Flight) (q : Slot) (e : RemapEntry) (target : Nat)
      (t : State),
      s.array.inFlight = inFlightNow (.write ala data) (.slotWrite home .fallback) step :: rest →
      findSlot s home = some q → q.home = home → entryOf s home = some e → e.target = some target →
      q.waiting = [] → q.epoch = none → s.port.command = none →
      t = queueReport home .dataLost
            (writeFault .dataLost (some home) (some (e.spare.getD home)) none
              (pendingAdd home .relocate
                ((offerRecord (.dead target)
                  ((answerTaken rest s).setMap
                    { s.map with
                      table := if e.spare.isSome then insertEntry { e with target := none } s.map.table
                        else s.map.table.filter (·.home != home)
                      marks := insertMark target .dead s.map.marks })).setReloc
                  { s.reloc with slots := s.reloc.slots.filter (·.home != home) }))) →
      exec (.fallbackWriteAnswer .fault) s = .next (settle t))

/-! ### Array answers: the journal -/

/-- A LOG line completes DONE (R121): the journal is READY, the next line rises by one, its sequence becomes the last, its records
leave the queue, and waiting records join while there is room (R119). A DEAD record has no further effect; one BIND record of a
JOURNALING slot whose dirty mark is set puts it in FINISHING with a write placed (R101).
A fence move and a policy exchange take effect when their records become durable (R53, R183): F is the new fence, its range is
gone, watched lines of a closing range leave the Watch Table, and the command is answered OK with F and S; Active and Staged are
exchanged and the command is answered OK with the new Active set. The checks of R50 to R52 have let the fence move (log 40).
A LOG line's records become durable in their order (R121), each with its own effect: a BIND of a home whose slot is not
JOURNALING has none, one of a JOURNALING slot with dirty set goes on to FINISHING, and with dirty clear completes the binding (R101,
R102); a DEAD record has none; a FENCE or POLICY record has none without its command. A LOG line's fault writes JOURNAL_WRITE_FAULT,
keeps the records in the queue, and begins a compaction (R121). -/
def Obligations.LogRecordsBecomeDurable : Prop :=
  (∀ (s : State) (ala step : Nat) (data : LineData) (rest : List Flight) (g : LogLine) (u t : State),
      s.array.inFlight = inFlightNow (.write ala data) (.journalWrite .log) step :: rest → s.jour.line = some g →
      u = (answerTaken rest s).setJour
            { s.jour with
              state := .ready, nextLine := s.jour.nextLine + 1, lastSeq := g.seq, line := none
              queue := s.jour.queue.drop g.count ++ s.jour.wait.take (16 - (s.jour.queue.drop g.count).length)
              wait := s.jour.wait.drop (16 - (s.jour.queue.drop g.count).length) } →
      ((∀ r ∈ s.jour.queue.take g.count, ∃ a, r = .dead a) → t = u →
        exec (.logLineWriteAnswer .done) s = .next (settle t)) ∧
      ∀ (home spare : Nat) (q : Slot), s.jour.queue.take g.count = [.bind home spare] → findSlot s home = some q →
        q.state = .journaling → q.dirty = true →
        t = placeRequest (.slotWrite home)
              (u.setReloc
                { s.reloc with
                  slots := s.reloc.slots.map fun x => if x.home == home then { x with state := .finishing } else x }) →
        exec (.logLineWriteAnswer .done) s = .next (settle t)) ∧
  (∀ (s : State) (seq : Byte) (new : Nat) (t : State),
      (s.port.command = some { seq, command := .fenceAdjust new } → fenceMoves s new = true →
        t = (s.setMap { s.map with fence := some new, range := none }).setReloc
              { s.reloc with
                watch := s.reloc.watch.filter fun w =>
                  !decide (∃ r, s.map.range = some r ∧ r.kind = .closing ∧ r.lo ≤ w.hla ∧ w.hla < r.hi) } →
        applyDurable s (.fence new) =
          completeCommand seq .ok (enc24 new ++ enc24 (s.array.lineCount - 4096 - new)) t) ∧
      ∀ p : PolicySet, s.port.command = some { seq, command := .policyExchange } →
        t = s.setPolicy { active := s.policy.staged, staged := s.policy.active } →
        applyDurable s (.policy p) = completeCommand seq .ok s.policy.staged.pack t) ∧
  (∀ (s : State) (ala step : Nat) (data : LineData) (rest : List Flight) (g : LogLine) (u t : State),
      (s.array.inFlight = inFlightNow (.write ala data) (.journalWrite .log) step :: rest → s.jour.line = some g →
        (u = (answerTaken rest s).setJour
              { s.jour with
                state := .ready, nextLine := s.jour.nextLine + 1, lastSeq := g.seq, line := none
                queue := s.jour.queue.drop g.count ++ s.jour.wait.take (16 - (s.jour.queue.drop g.count).length)
                wait := s.jour.wait.drop (16 - (s.jour.queue.drop g.count).length) } →
          exec (.logLineWriteAnswer .done) s = .next (settle ((s.jour.queue.take g.count).foldl applyDurable u))) ∧
        (u = writeFault .journalWriteFault none (some ala) none (answerTaken rest s) →
          t = beginCompaction 0 (u.setJour { s.jour with faulted := s.jour.queue.take g.count }) →
          exec (.logLineWriteAnswer .fault) s = .next (settle t))) ∧
      (∀ a, applyDurable s (.dead a) = s) ∧
      (∀ f, (∀ c, s.port.command = some c → c.command ≠ .fenceAdjust f) → applyDurable s (.fence f) = s) ∧
      (∀ p : PolicySet, (∀ c, s.port.command = some c → c.command ≠ .policyExchange) → applyDurable s (.policy p) = s) ∧
      ∀ home spare : Nat,
        ((∀ q, findSlot s home = some q → q.state ≠ .journaling) → applyDurable s (.bind home spare) = s) ∧
        ∀ q, findSlot s home = some q → q.home = home → q.state = .journaling →
          (q.dirty = true →
            applyDurable s (.bind home spare) =
              placeRequest (.slotWrite home)
                (s.setReloc
                  { s.reloc with
                    slots := s.reloc.slots.map fun x => if x.home == home then { x with state := .finishing } else x })) ∧
          ∀ (e : RemapEntry) (target : Nat) (marks : List SpareMark), q.dirty = false → q.waiting = [] →
            s.port.command = none → entryOf s home = some e → e.target = some target →
            ((∃ old, e.spare = some old ∧ marks = insertMark old .dead (insertMark target .bound s.map.marks)) ∨
              (e.spare = none ∧ marks = insertMark target .bound s.map.marks)) →
            applyDurable s (.bind home spare) =
              (s.setMap
                { s.map with
                  table :=
                    insertEntry { e with spare := some target, target := none, boundTick := some s.tick } s.map.table
                  marks }).setReloc { s.reloc with slots := s.reloc.slots.filter (·.home != home) })

/-- An image line completes DONE (R123): with lines left the next is placed one position and one sequence on; after the last, the
image's bank is active, its next line follows the image, the journal is READY and keeps no faulted records.
An image line faults a second time with no command in progress (R124, R125): JOURNAL_WRITE_FAULT is written, the journal is
STALLED, barriers are settled (R32) and JOURNAL latches; the records stay in the queue.
Compaction and the stall (R54, R112, R122 to R125, R126, R136, R184): a compaction begins with the snapshot of the moment at
line 0 of the other bank; the first image fault restarts it, the second stalls the journal and ends the command in progress:
JOURNAL_FAULT for each, a LINE_RETIRE's reservation released, a restart's part RUNNING again, an exchange's record removed, a fence
move's record removed and its range dissolved, or kept when a faulted LOG line carries the record. The COMMIT line dissolves a kept
range and answers JOURNAL_COMPACT. -/
def Obligations.ImageLineAnswered : Prop :=
  (∀ (s : State) (ala step : Nat) (data : LineData) (rest : List Flight) (c : Compaction) (t : State),
      s.array.inFlight = inFlightNow (.write ala data) (.journalWrite .image) step :: rest → s.jour.compaction = some c →
      (∀ (done next : List Record) (others : List (List Record)), c.lines = done :: next :: others →
        t = placeRequest
              (.journalWrite .image (journalAla s c.bank (c.pos + 1))
                (journalLine (c.seq + 1) c.bank true others.isEmpty next))
              ((answerTaken rest s).setJour
                { s.jour with
                  state := .compacting
                  compaction := some { c with pos := c.pos + 1, seq := c.seq + 1, lines := next :: others } }) →
        exec (.imageLineWriteAnswer .done) s = .next (settle t)) ∧
      ((∃ last, c.lines = [last]) → s.map.range = none → s.port.command = none →
        t = (answerTaken rest s).setJour
              { s.jour with
                state := .ready, active := some c.bank, nextLine := c.pos + 1, lastSeq := c.seq, compaction := none
                faulted := [] } →
        exec (.imageLineWriteAnswer .done) s = .next (settle t))) ∧
  (∀ (s : State) (ala step : Nat) (data : LineData) (rest : List Flight) (c : Compaction) (u t : State),
      s.array.inFlight = inFlightNow (.write ala data) (.journalWrite .image) step :: rest → s.jour.compaction = some c →
      c.faults ≠ 0 → s.port.command = none →
      u = settleBarriers
            ((writeFault .journalWriteFault none (some ala) none (answerTaken rest s)).setJour
              { s.jour with state := .stalled, compaction := none }) →
      t = u.setAlert { u.alert with causes := u.alert.causes ||| AlertCause.journal.bit } →
      exec (.imageLineWriteAnswer .fault) s = .next (settle t)) ∧
  (
    (∀ (s : State) (bank : Bank) (faults : Nat), s.jour.active = some bank →
      beginCompaction faults s =
        placeRequest
          (.journalWrite .image (journalAla s bank.other 0)
            (journalLine (s.jour.lastSeq + 1) bank.other true (decide ((snapshot s).length ≤ 6)) ((snapshot s).take 6)))
          (s.setJour
            { s.jour with
              state := .compacting, line := none
              compaction := some
                { bank := bank.other, pos := 0, seq := s.jour.lastSeq + 1, faults
                  lines := chunksOf 6 (snapshot s).length (snapshot s) } })) ∧
    (∀ (s : State) (ala step : Nat) (data : LineData) (rest : List Flight) (c : Compaction) (u v t : State),
      s.array.inFlight = inFlightNow (.write ala data) (.journalWrite .image) step :: rest → s.jour.compaction = some c →
      u = writeFault .journalWriteFault none (some ala) none (answerTaken rest s) →
      (c.faults = 0 → exec (.imageLineWriteAnswer .fault) s = .next (settle (beginCompaction 1 u))) ∧
      (c.faults ≠ 0 → v = settleBarriers (u.setJour { s.jour with state := .stalled, compaction := none }) →
        exec (.imageLineWriteAnswer .fault) s =
          .next (settle (stallCommand
            (v.setAlert { v.alert with causes := v.alert.causes ||| AlertCause.journal.bit })))) ∧
      ∀ (last : List Record) (range : Option FenceRange), c.lines = [last] →
        (((∃ r, s.map.range = some r ∧ r.kept = true) ∧ range = none) ∨
          ((∀ r, s.map.range = some r → r.kept = false) ∧ range = s.map.range)) →
        t = ((answerTaken rest s).setMap { s.map with range }).setJour
              { s.jour with
                state := .ready, active := some c.bank, nextLine := c.pos + 1, lastSeq := c.seq, compaction := none
                faulted := [] } →
        ((∀ p, s.port.command = some p → p.command ≠ .journalCompact) →
          exec (.imageLineWriteAnswer .done) s = .next (settle t)) ∧
        ∀ seq, s.port.command = some { seq, command := .journalCompact } →
          exec (.imageLineWriteAnswer .done) s =
            .next (settle (completeCommand seq .ok (enc8 c.bank.code ++ enc16 (c.pos + 1)) t))) ∧
    ∀ (s : State) (seq : Byte) (t : State),
      (s.port.command = none → stallCommand s = s) ∧
      (s.port.command = some { seq, command := .journalCompact } →
        stallCommand s = completeCommand seq .journalFault [] s) ∧
      (∀ home moving, s.port.command = some { seq, command := .lineRetire home moving } →
        t = s.setReloc
              { s.reloc with
                reserved := none
                queue := s.reloc.queue.filter fun q => match q with
                  | .reservation _ => false
                  | .request _ _ _ => true
                retireReads := s.reloc.retireReads.map fun q => { q with live := false } } →
        stallCommand s = completeCommand seq .journalFault [] t) ∧
      (s.port.command = some { seq, command := .bridgeRestart } →
        stallCommand s = completeCommand seq .journalFault [] (s.setStart { s.start with op := .running })) ∧
      (∀ kept : Record → Bool, (∀ r, kept r = false ↔ ∃ p, r = .policy p) →
        s.port.command = some { seq, command := .policyExchange } →
        stallCommand s =
          completeCommand seq .journalFault []
            (s.setJour { s.jour with queue := s.jour.queue.filter kept, wait := s.jour.wait.filter kept })) ∧
      ∀ (new : Nat) (kept : Record → Bool) (range : Option FenceRange),
        (∀ r, kept r = false ↔ ∃ f, r = .fence f) → s.port.command = some { seq, command := .fenceAdjust new } →
        ((range = none ∧ ∀ r ∈ s.jour.faulted, kept r = true) ∨
          ((∃ r ∈ s.jour.faulted, kept r = false) ∧ range = s.map.range.map fun x => { x with kept := true })) →
        stallCommand s =
          completeCommand seq .journalFault []
            ((s.setJour { s.jour with queue := s.jour.queue.filter kept, wait := s.jour.wait.filter kept }).setMap
              { s.map with range }))

/-- A format line completes (R133): before the last the next line is placed; a fault writes JOURNAL_WRITE_FAULT with its ala, the
format ends, and the command is answered JOURNAL_FAULT when its response is begun.
The last format line completes DONE (R133, R128): start-up begins after the array, with everything cleared, and reads line 0 of
bank A. The places go line 0 to 2047 of bank B, line 1 to 2047 of bank A, and last line 0 of bank A; each line but the last holds
the FENCE record with sequence 0 and no flag, the last the FENCE and the default POLICY with sequence 1, flagged IMAGE and COMMIT.
Bank A is the 2048 lines from C-4096, bank B those from C-2048 (R115). -/
def Obligations.FormatLineAnswered : Prop :=
  (∀ (s : State) (ala step : Nat) (data : LineData) (rest : List Flight) (j : FormatJob) (t : State),
      s.array.inFlight = inFlightNow (.write ala data) (.journalWrite .format) step :: rest → s.start.format = some j →
      (j.index + 1 < 4096 →
        t = (placeRequest
              (.journalWrite .format (journalAla s (formatPlace (j.index + 1)).1 (formatPlace (j.index + 1)).2)
                (formatLine j.fence (j.index + 1))) (answerTaken rest s)).setStart
              { s.start with format := some { j with index := j.index + 1 } } →
        exec (.formatLineWriteAnswer .done) s = .next (settle t)) ∧
      ∀ seq : Byte, s.port.command = some { seq, command := .journalFormat } →
        t = completeCommand seq .journalFault []
              (writeFault .journalWriteFault none (some ala) none
                ((answerTaken rest s).setStart { s.start with format := none })) →
        exec (.formatLineWriteAnswer .fault) s = .next (settle t)) ∧
  (
    (∀ (s : State) (ala step : Nat) (data : LineData) (rest : List Flight) (j : FormatJob) (t : State),
      s.array.inFlight = inFlightNow (.write ala data) (.journalWrite .format) step :: rest → s.start.format = some j →
      j.index + 1 = 4096 →
      t = placeRequest (.journalRead (s.array.lineCount - 4096))
            (((((answerTaken rest s).setMap
              { s.map with table := [], marks := [], poolBuilt := false, fence := none, range := none }).setJour
              { s.jour with
                state := .ready, active := none, nextLine := 0, queue := [], wait := [], line := none, compaction := none
                faulted := [] }).setPolicy { active := .default, staged := .default }).setStart
              { op := .starting, phase := .lineA, format := none }) →
      exec (.formatLineWriteAnswer .done) s = .next (settle t)) ∧
    (∀ i : Nat, i < 2048 → formatPlace i = (.b, i)) ∧ (∀ i : Nat, i < 2047 → formatPlace (2048 + i) = (.a, 1 + i)) ∧
    formatPlace 4095 = (.a, 0) ∧
    (∀ (f i : Nat) (bank : Bank), i < 4095 → ((i < 2048 ∧ bank = .b) ∨ (2048 ≤ i ∧ bank = .a)) →
      formatLine f i = journalLine 0 bank false false [.fence f]) ∧
    (∀ f, formatLine f 4095 = journalLine 1 .a true true [.fence f, .policy .default]) ∧
    ∀ (s : State) (n : Nat), journalAla s .a n = s.array.lineCount - 4096 + n ∧
      journalAla s .b n = s.array.lineCount - 2048 + n)

/-! ### Timeout, late answers, grants -/

/-- An operation times out (R58): the oldest one not timed out (log 5) keeps its place, marked, and a host read's attempt of it is taken as
UNCORRECTABLE: below the depth the next step waits with the age of step 0 (R66). -/
def Obligations.HostReadTimesOut : Prop :=
  ∀ (s : State) (id ala step : Nat) (late rest : List Flight) (r : HostReq) (l : Ladder) (t : State),
    (∀ f ∈ late, f.timedOut = true) →
    s.array.inFlight = late ++ inFlightNow (.read ala) (.hostRead id) step :: rest →
    findReq s id = some r → r.stage = .inArray l → l.step < l.depth →
    t = ((nextEvent s).setHost
          { s.host with
            order := s.host.order.map fun q =>
              if q.id == id then { q with stage := .inArray { l with step := l.step + 1 } } else q }).setArray
          { s.array with
            inFlight := late ++ { op := .read ala, owner := .hostRead id, step, timedOut := true } :: rest
            waiting := s.array.waiting ++ [{ body := .hostRead id, age := l.age }] } →
    exec .arrayOpTimeout s = .next (settle t)

/-- R59: a late answer is matched with the oldest operation, which is timed out: the operation leaves its place and the content is
discarded, so whatever is answered, nothing but the freed place follows in the event. While all 8 places are held, no operation is
issued. -/
def Obligations.LateAnswerFreesPlace : Prop :=
  ∀ (s : State) (answer : ArrayAnswer),
    (∀ (f : Flight) (rest : List Flight), s.array.inFlight = f :: rest → f.timedOut = true →
      exec (.lateAnswer answer) s = .next (settle (answerTaken rest s)) ∧
        (calm (answerTaken rest s) = true → exec (.lateAnswer answer) s = .next (evalLevels (answerTaken rest s)))) ∧
    (8 ≤ s.array.inFlight.length → exec .arbiterGrant s = .next s)

/-- The arbiter chooses a request whenever one waits (R62), of the lowest grant class of R61, which each kind of request has: journal
reads and writes 1, slot and in-place writes 2, a full item's drain write 3 while the buffer holds 8 entries and 5 otherwise, a masked
item's read half, host reads and LINE_RETIRE reads 4, survey reads 6; within the class of the oldest event; and of one requester's
requests of that event an entry's before a direct write's, then the first placed. The order of different requesters' requests of one
event is a free value (log 12). -/
def Obligations.ArbiterChoosesLowestClass : Prop :=
  ∀ s : State,
    (s.array.waiting ≠ [] → ∃ r, chooseRequest s = some r) ∧
    (∀ r : ArbReq, chooseRequest s = some r →
      r ∈ s.array.waiting ∧ ∀ q ∈ s.array.waiting,
        grantClass s r.body < grantClass s q.body ∨
          (grantClass s r.body = grantClass s q.body ∧
            (r.age.event < q.age.event ∨
              (r.age.event = q.age.event ∧
                (r.body.requester = q.body.requester →
                  (r.age.direct = false ∧ q.age.direct = true) ∨
                    (r.age.direct = q.age.direct ∧ r.age.order ≤ q.age.order)))))) ∧
    (∀ ala, grantClass s (.journalRead ala) = 1 ∧ (ReqBody.journalRead ala).requester = .journal) ∧
    (∀ kind ala data, grantClass s (.journalWrite kind ala data) = 1 ∧
      (ReqBody.journalWrite kind ala data).requester = .journal) ∧
    (∀ home, grantClass s (.slotWrite home) = 2 ∧ (ReqBody.slotWrite home).requester = .relocation) ∧
    (∀ ref, grantClass s (.inPlace ref) = 2 ∧ (ReqBody.inPlace ref).requester = .relocation ∧
      grantClass s (.rmwRead ref) = 4 ∧ (ReqBody.rmwRead ref).requester = .writeBuffer ∧
      (ReqBody.drain ref).requester = .writeBuffer) ∧
    (∀ ref e, findItem s ref = some e →
      (e.mask = BitVec.allOnes 64 → 8 ≤ s.buf.entries.length → grantClass s (.drain ref) = 3) ∧
        (e.mask ≠ BitVec.allOnes 64 → grantClass s (.drain ref) = 4) ∧
        (e.mask = BitVec.allOnes 64 → s.buf.entries.length < 8 → grantClass s (.drain ref) = 5)) ∧
    (∀ id, grantClass s (.hostRead id) = 4 ∧ (ReqBody.hostRead id).requester = .hostLink ∧
      grantClass s (.retireRead id) = 4 ∧ (ReqBody.retireRead id).requester = .relocation) ∧
    grantClass s .surveyRead = 6 ∧ ReqBody.surveyRead.requester = .survey

/-- The arbiter grants nothing while 8 operations are in flight or none waits (R57, R59, R62); a chosen host read is issued as a READ
of its ladder's line, a chosen journal read and journal write as they were placed.
An entry's drain request is chosen, its line neither MOVING nor pending (R80, R84, R85): a full entry is written whole, a masked
one has its read half issued at the Active depth (sampled here, log 17), both at the spare of the line's entry or its home.
The other grants (R62, R88, R95, R97, R112, R142): a slot's write is issued to the place its state gives, target or fallback
place, with the slot data as it stands now, and dirty is cleared; an in-place write with the item's data to its place; a
LINE_RETIRE, survey or later read-half attempt as a READ of its ladder's line at its step; a direct write's drain like an entry's.
Translations that take no place (R79 to R83, R100): an item of a MOVING line merges into its slot with its ack epoch and leaves;
a full one of a pending line becomes a PENDING_WRITE request; a masked one is discarded, UNREADABLE_MERGE. The place goes to the
next choice of the same event, which comes before the drain requests of the event are placed (log 42); with nothing more waiting,
nothing is issued. -/
def Obligations.GrantIssuesRequest : Prop :=
  (∀ (s : State) (q : ArbReq) (t : State),
      ((8 ≤ s.array.inFlight.length ∨ s.array.waiting = []) → exec .arbiterGrant s = .next s) ∧
      (s.array.inFlight.length < 8 → chooseRequest s = some q →
        (∀ (id : Nat) (r : HostReq) (l : Ladder), q.body = .hostRead id → findReq s id = some r → r.stage = .inArray l →
          t = (((nextEvent s).setArray
                { s.array with
                  waiting := s.array.waiting.erase q
                  inFlight := s.array.inFlight ++ [inFlightNow (.read l.ala) (.hostRead id) l.step] }).setHost
                { s.host with
                  order := s.host.order.map fun x =>
                    if x.id == id then { x with stage := .inArray { l with granted := true } } else x }).setOut
                { s.out with array := s.out.array ++ [.read l.ala] } →
          exec .arbiterGrant s = .next (settle t)) ∧
        (∀ ala : Nat, q.body = .journalRead ala →
          t = ((nextEvent s).setArray
                { s.array with
                  waiting := s.array.waiting.erase q
                  inFlight := s.array.inFlight ++ [inFlightNow (.read ala) .journalRead 0] }).setOut
                { s.out with array := s.out.array ++ [.read ala] } →
          exec .arbiterGrant s = .next (settle t)) ∧
        ∀ (kind : JournalWriteKind) (ala : Nat) (data : LineData), q.body = .journalWrite kind ala data →
          t = ((nextEvent s).setArray
                { s.array with
                  waiting := s.array.waiting.erase q
                  inFlight := s.array.inFlight ++ [inFlightNow (.write ala data) (.journalWrite kind) 0] }).setOut
                { s.out with array := s.out.array ++ [.write ala data (.code ala data)] } →
          exec .arbiterGrant s = .next (settle t))) ∧
  (∀ (s : State) (q : ArbReq) (id : Nat) (e : Item) (place : Nat) (t : State),
      s.array.inFlight.length < 8 → chooseRequest s = some q → q.body = .drain (.entry id) →
      findItem s (.entry id) = some e → isMoving s e.hla = false → isPending s e.hla = false →
      place = ((entryOf s e.hla).bind (·.spare)).getD e.hla →
      (e.mask = BitVec.allOnes 64 →
        t = (((nextEvent s).setArray
              { s.array with
                waiting := s.array.waiting.erase q
                inFlight := s.array.inFlight ++ [inFlightNow (.write place e.data) (.drainWrite (.entry id)) 0] }).setBuf
              { s.buf with
                entries := s.buf.entries.map fun x =>
                  if x.id == id then { x with phase := .writing, place } else x }).setOut
              { s.out with array := s.out.array ++ [.write place e.data (.code place e.data)] } →
        exec .arbiterGrant s = .next (settle t)) ∧
      (e.mask ≠ BitVec.allOnes 64 →
        t = (((nextEvent s).setArray
              { s.array with
                waiting := s.array.waiting.erase q
                inFlight := s.array.inFlight ++ [inFlightNow (.read place) (.rmwRead (.entry id)) 0] }).setBuf
              { s.buf with
                entries := s.buf.entries.map fun x =>
                  if x.id == id then
                    { x with
                      phase := .reading, place
                      ladder := some
                        { ala := place, depth := s.policy.active.retryDepth, step := 0, age := q.age, granted := true } }
                  else x }).setOut
              { s.out with array := s.out.array ++ [.read place] } →
        exec .arbiterGrant s = .next (settle t))) ∧
  (∀ (s : State) (q : ArbReq) (t : State) (sent : ArrayOp → Owner → Nat → State),
      s.array.inFlight.length < 8 → chooseRequest s = some q →
      (∀ op owner step, sent op owner step =
        ((nextEvent s).setArray
          { s.array with
            waiting := s.array.waiting.erase q, inFlight := s.array.inFlight ++ [inFlightNow op owner step] }).setOut
          { s.out with
            array := s.out.array ++
              [match op with
                | .ident => .ident
                | .read a => .read a
                | .write a d => .write a d (.code a d)] }) →
      (∀ (home place : Nat) (kind : SlotWriteKind) (x : Slot), q.body = .slotWrite home → findSlot s home = some x →
        (((x.state = .writing ∨ x.state = .journaling) ∧ kind = .target ∧
            place = ((entryOf s x.home).bind (·.target)).getD x.home) ∨
          (x.state = .finishing ∧ kind = .finishing ∧ place = ((entryOf s x.home).bind (·.target)).getD x.home) ∨
          (x.state = .returning ∧ kind = .fallback ∧ place = ((entryOf s x.home).bind (·.spare)).getD x.home)) →
        t = (sent (.write place x.data) (.slotWrite home kind) 0).setReloc
              { s.reloc with
                slots := s.reloc.slots.map fun y => if y.home == home then { y with dirty := false } else y } →
        exec .arbiterGrant s = .next (settle t)) ∧
      (∀ ref e, q.body = .inPlace ref → findItem s ref = some e → t = sent (.write e.place e.data) (.inPlace ref) 0 →
        exec .arbiterGrant s = .next (settle t)) ∧
      (∀ id r, q.body = .retireRead id → findRetireRead s id = some r →
        t = (sent (.read r.ladder.ala) (.retireRead id) r.ladder.step).setReloc
              { s.reloc with
                retireReads := s.reloc.retireReads.map fun y =>
                  if y.id == id then { y with ladder := { y.ladder with granted := true } } else y } →
        exec .arbiterGrant s = .next (settle t)) ∧
      (∀ l d, q.body = .surveyRead → s.survey.live = some l → l.phase = .reading d →
        t = (sent (.read d.ala) .surveyRead d.step).setSurvey
              { s.survey with live := some { l with phase := .reading { d with granted := true } } } →
        exec .arbiterGrant s = .next (settle t)) ∧
      (∀ ref e l, q.body = .rmwRead ref → findItem s ref = some e → e.ladder = some l →
        t = sent (.read l.ala) (.rmwRead ref) l.step → exec .arbiterGrant s = .next (settle t)) ∧
      ∀ (id : Nat) (e : Item) (place : Nat), q.body = .drain (.direct id) → findItem s (.direct id) = some e →
        isMoving s e.hla = false → isPending s e.hla = false →
        place = ((entryOf s e.hla).bind (·.spare)).getD e.hla →
        (e.mask = BitVec.allOnes 64 →
          t = (sent (.write place e.data) (.drainWrite (.direct id)) 0).setBuf
                { s.buf with
                  direct := s.buf.direct.map fun x => if x.id == id then { x with phase := .writing, place } else x } →
          exec .arbiterGrant s = .next (settle t)) ∧
        (e.mask ≠ BitVec.allOnes 64 →
          t = (sent (.read place) (.rmwRead (.direct id)) 0).setBuf
                { s.buf with
                  direct := s.buf.direct.map fun x =>
                    if x.id == id then
                      { x with
                        phase := .reading, place
                        ladder := some
                          { ala := place, depth := s.policy.active.retryDepth, step := 0, age := q.age, granted := true } }
                    else x } →
          exec .arbiterGrant s = .next (settle t))) ∧
  (∀ (s : State) (id : Nat) (e : Item) (age : Age) (u : State),
      (isMoving s e.hla = true →
        u = (s.setReloc
              { s.reloc with
                slots := s.reloc.slots.map fun q =>
                  if q.home == e.hla then
                    { q with
                      data := mergeLine q.data e.data e.mask
                      dirty := q.dirty || slotWriteInFlight s e.hla || q.state == .journaling
                      epoch := match q.epoch, e.epoch with
                        | some a, some b => some (min a b)
                        | some a, none => some a
                        | none, b => b }
                  else q }).setBuf { s.buf with entries := s.buf.entries.filter (·.id != id) } →
        (∀ r ∈ s.host.order, r.stage ≠ .waitEntry id) →
        mergeItem (.entry id) e s = u ∧ translate (.entry id) e age s = .free u) ∧
      (isMoving s e.hla = false → isPending s e.hla = true →
        (e.mask = BitVec.allOnes 64 →
          translate (.entry id) e age s = .free (offerItem (.entry id) e .pendingWrite s)) ∧
        (e.mask ≠ BitVec.allOnes 64 →
          translate (.entry id) e age s = .free (discardItem (.entry id) e .unreadableMerge s))) ∧
      (∀ (n : Nat) (q : ArbReq), s.array.inFlight.length < 8 → chooseRequest s = some q →
        grantRequest q (s.setArray { s.array with waiting := s.array.waiting.erase q }) = .free u → steady u = true →
        grantLoop (n + 1) s = grantLoop n u) ∧
      ∀ q : ArbReq, s.array.inFlight.length < 8 → s.array.waiting = [q] → q.body = .drain (.entry id) →
        findItem s (.entry id) = some e → isMoving s e.hla = false → isPending s e.hla = true →
        e.mask ≠ BitVec.allOnes 64 →
        u = discardItem (.entry id) e .unreadableMerge ((nextEvent s).setArray { s.array with waiting := [] }) →
        calm u = true → exec .arbiterGrant s = .next (evalLevels u))

/-! ### Service Port: bytes, frames, responses -/

/-- One byte of the Service Link (R167, R191): discarded while the port transmits; in HUNTING only the start marker 165 begins a
frame; in RECEIVING a length byte of 4 to 11 and then the bytes before the last are collected, and a length byte out of that range
abandons the frame.
The byte gap and the end of a transmission (R167, R171): 2 ms without a byte abandon the frame in RECEIVING, and the oldest
waiting response begins when the transmitter is idle; a response whose transmission ends has left, and the oldest waiting one
begins. That neither changes anything with no frame begun or no transmission going on is no rule: such a command is the model's
choice (log 4).
The last byte of a frame (R167, R168, R190): in RECEIVING, with the bytes of a frame collected but the last, its arrival is the
taking of the whole frame. -/
def Obligations.ServiceLinkBytes : Prop :=
  (∀ (s : State) (b : Byte),
      (s.port.sending.isSome = true → exec (.serviceLinkByteArrival b) s = .next s) ∧
      (s.port.sending = none →
        (s.port.receiver = .hunting → b = 165 →
          exec (.serviceLinkByteArrival b) s = .next (s.setPort { s.port with receiver := .receiving [] })) ∧
        (s.port.receiver = .hunting → b ≠ 165 → exec (.serviceLinkByteArrival b) s = .next s) ∧
        (s.port.receiver = .receiving [] → 4 ≤ b.toNat → b.toNat ≤ 11 →
          exec (.serviceLinkByteArrival b) s = .next (s.setPort { s.port with receiver := .receiving [b] })) ∧
        (s.port.receiver = .receiving [] → (b.toNat < 4 ∨ 11 < b.toNat) → s.port.waiting = [] →
          exec (.serviceLinkByteArrival b) s = .next (s.setPort { s.port with receiver := .hunting })) ∧
        ∀ (n : Byte) (got : List Byte), s.port.receiver = .receiving (n :: got) → got.length + 1 < n.toNat →
          exec (.serviceLinkByteArrival b) s = .next (s.setPort { s.port with receiver := .receiving (n :: got ++ [b]) }))) ∧
  (∀ s : State,
      (s.port.receiver = .hunting → exec .frameByteTimeout s = .next s) ∧
      (∀ bytes : List Byte, s.port.receiver = .receiving bytes → s.port.sending = none →
        exec .frameByteTimeout s =
          .next (s.setPort
            { s.port with
              receiver := .hunting, sending := s.port.waiting.head?, waiting := s.port.waiting.drop 1 })) ∧
      (s.port.sending = none → exec .responseTransmitEnd s = .next s) ∧
      ∀ r : Response, s.port.sending = some r → s.port.receiver = .hunting →
        exec .responseTransmitEnd s =
          .next ((s.setPort
            { s.port with sending := s.port.waiting.head?, waiting := s.port.waiting.drop 1 }).setOut
            { s.out with service := s.out.service ++ [r] })) ∧
  (∀ (s : State) (seq code b : Byte) (args got : List Byte) (check : BitVec 16),
      args.length ≤ 7 → s.port.sending = none → s.port.receiver = .receiving got →
      got ++ [b] = BitVec.ofNat 8 (args.length + 4) :: seq :: code :: args ++ enc16 check.toNat →
      exec (.serviceLinkByteArrival b) s =
        .next (receiveFrame seq code args check (s.setPort { s.port with receiver := .hunting })))

/-- Each command row is the arrival of its whole frame, with the code and the argument bytes of R192 (log 22).
A complete frame, by the checks of R168 in their order: not received while transmitting; discarded for its frame check or its
argument length; absorbed, or answered BUSY with the code in progress and nothing stored; the stored response resent; UNKNOWN for
a code outside the catalogue, and REFUSED_GUARD for a guarded code while the Guard is not OPEN (R172), both stored. -/
def Obligations.CommandFramesChecked : Prop :=
  (∀ (s : State) (seq a b : Byte) (u v : Addr24) (f : Option Addr24) (set : BitVec 16) (word : BitVec 32)
      (p q r t : Byte) (check : BitVec 16),
      exec (.identify seq check) s = .next (receiveFrame seq 1 [] check s) ∧
        exec (.status seq check) s = .next (receiveFrame seq 2 [] check s) ∧
        exec (.lookupLine seq u check) s = .next (receiveFrame seq 3 (arg24 u) check s) ∧
        exec (.mapSeek seq u check) s = .next (receiveFrame seq 4 (arg24 u) check s) ∧
        exec (.mapNext seq check) s = .next (receiveFrame seq 5 [] check s) ∧
        exec (.listRead seq a b check) s = .next (receiveFrame seq 6 [a, b] check s) ∧
        exec (.faultNext seq check) s = .next (receiveFrame seq 7 [] check s) ∧
        exec (.faultRewind seq check) s = .next (receiveFrame seq 8 [] check s) ∧
        exec (.surveyReport seq check) s = .next (receiveFrame seq 9 [] check s) ∧
        exec (.policyRead seq a check) s = .next (receiveFrame seq 10 [a] check s) ∧
        exec (.alertRead seq check) s = .next (receiveFrame seq 11 [] check s) ∧
        exec (.surveyStart seq a u v check) s = .next (receiveFrame seq 32 (a :: arg24 u ++ arg24 v) check s) ∧
        exec (.surveyStop seq check) s = .next (receiveFrame seq 33 [] check s) ∧
        exec (.alertAck seq set check) s = .next (receiveFrame seq 34 (enc16 set.toNat) check s) ∧
        exec (.alertMask seq set check) s = .next (receiveFrame seq 35 (enc16 set.toNat) check s) ∧
        exec (.policyStage seq a b set p q r check) s =
          .next (receiveFrame seq 36 ([a, b] ++ enc16 set.toNat ++ [p, q, r]) check s) ∧
        exec (.journalCompact seq check) s = .next (receiveFrame seq 37 [] check s) ∧
        exec (.fenceAdjust seq u v check) s = .next (receiveFrame seq 64 (arg24 u ++ arg24 v) check s) ∧
        exec (.lineRetire seq u check) s = .next (receiveFrame seq 65 (arg24 u) check s) ∧
        exec (.policyExchange seq check) s = .next (receiveFrame seq 66 [] check s) ∧
        exec (.faultClear seq check) s = .next (receiveFrame seq 67 [] check s) ∧
        exec (.journalFormat seq f check) s = .next (receiveFrame seq 68 ((f.map arg24).getD []) check s) ∧
        exec (.bridgeRestart seq check) s = .next (receiveFrame seq 69 [] check s) ∧
        exec (.guardLock seq word check) s = .next (receiveFrame seq 96 (enc32 word) check s) ∧
        exec (.guardUnlock seq word check) s = .next (receiveFrame seq 97 (enc32 word) check s) ∧
        exec (.guardFreeze seq check) s = .next (receiveFrame seq 98 [] check s) ∧
        exec (.unknownCommand seq t [a, b] check) s = .next (receiveFrame seq t [a, b] check s)) ∧
  (∀ (s : State) (seq code : Byte) (args : List Byte) (check : BitVec 16),
      args.length ≤ 7 →
      (s.port.sending.isSome = true → receiveFrame seq code args check s = s) ∧
      (s.port.sending = none → s.port.receiver = .hunting → s.port.waiting = [] →
        (check ≠ commandCheck seq code args → receiveFrame seq code args check s = s) ∧
        (∀ lengths, argLengths code = some lengths → args.length ∉ lengths → receiveFrame seq code args check s = s) ∧
        (check = commandCheck seq code args → (∀ lengths, argLengths code = some lengths → args.length ∈ lengths) →
          (∀ c, s.port.command = some c → c.seq = seq → receiveFrame seq code args check s = s) ∧
          (∀ c, s.port.command = some c → c.seq ≠ seq →
            receiveFrame seq code args check s =
              s.setPort { s.port with sending := some { seq, status := .busy, results := [c.command.code] } }) ∧
          (∀ r, s.port.command = none → s.port.stored = some r → r.seq = seq →
            receiveFrame seq code args check s = s.setPort { s.port with sending := some r }) ∧
          (portReady s seq = true →
            (argLengths code = none →
              exec (.unknownCommand seq code args check) s = replied seq .unknown [] (nextEvent s)) ∧
            (64 ≤ code.toNat → code.toNat ≤ 69 → s.guard.state ≠ .open →
              receiveFrame seq code args check s =
                answered { seq, status := .refusedGuard, results := [] } (nextEvent s))))))

/-! ### Guard, queries and operational commands -/

/-- The Guard commands (R173 to R176): each answers the Guard state and the attempts after it. LOCK stores the word and 5 attempts
in OPEN only; UNLOCK opens on the right word, costs an attempt on a wrong one, is answered ATTEMPTS at 0 and changes nothing in
OPEN and FROZEN; FREEZE makes the Guard FROZEN without a word and leaves the attempts. -/
def Obligations.GuardCommandsAct : Prop :=
  ∀ (s : State) (seq : Byte) (word : BitVec 32) (check : BitVec 16) (status : Status) (g : Guard),
    (portTakes s seq 96 (enc32 word) check = true →
      ((s.guard.state = .open ∧ status = .ok ∧ g = { state := .locked, attempts := 5, word := some word }) ∨
        (s.guard.state ≠ .open ∧ status = .refusedGuard ∧ g = s.guard)) →
      exec (.guardLock seq word check) s =
        replied seq status (enc8 g.state.code ++ enc8 g.attempts) ((nextEvent s).setGuard g)) ∧
    (portTakes s seq 97 (enc32 word) check = true →
      ((s.guard.state = .open ∧ status = .ok ∧ g = s.guard) ∨
        (s.guard.state = .frozen ∧ status = .refusedGuard ∧ g = s.guard) ∨
        (s.guard.state = .locked ∧ s.guard.attempts = 0 ∧ status = .attempts ∧ g = s.guard) ∨
        (s.guard.state = .locked ∧ s.guard.attempts ≠ 0 ∧ s.guard.word = some word ∧ status = .ok ∧
          g = { state := .open, attempts := 5, word := none }) ∨
        (s.guard.state = .locked ∧ s.guard.attempts ≠ 0 ∧ s.guard.word ≠ some word ∧ status = .mismatch ∧
          g = { s.guard with attempts := s.guard.attempts - 1 })) →
      exec (.guardUnlock seq word check) s =
        replied seq status (enc8 g.state.code ++ enc8 g.attempts) ((nextEvent s).setGuard g)) ∧
    (portTakes s seq 98 [] check = true → g = { state := .frozen, attempts := s.guard.attempts, word := none } →
      exec (.guardFreeze seq check) s =
        replied seq .ok (enc8 g.state.code ++ enc8 g.attempts) ((nextEvent s).setGuard g))

/-- IDENTIFY, STATUS and SURVEY_REPORT answer OK in every state and change nothing but the port (R151, R178, R179): IDENTIFY with the
codes, C, J, F, S and the fixed figures in their order (the silicon revision is a free value, log 11), STATUS with its results in
their order, SURVEY_REPORT with the survey state, the last report and the live survey, each in the order of R150 and R151 (the codes
of section 11.1; a field above 2^24-1 is a free value, log 14). -/
def Obligations.IdentifyStatusReport : Prop :=
  ∀ (s : State) (seq : Byte) (check : BitVec 16) (f spares : Nat) (held : Option HeldReason)
    (counted : SurveyCounts → List Byte),
    (∀ c, counted c =
      [c.linesRead, c.skipped, c.cleanAfterRetry, c.corrected, c.retriedCorrected, c.uncorrectable, c.markedDead].flatMap
        enc24) →
    f = s.map.fence.getD 0 → spares = (if s.map.fence = none then 0 else s.array.lineCount - 4096 - f) →
    (∀ r, held = some r ↔ s.start.op = .held r) →
    (portTakes s seq 1 [] check = true →
      exec (.identify seq check) s =
        replied seq .ok
          (enc16 3162 ++ enc16 1568 ++ [Config.siliconRevision] ++ enc24 s.array.lineCount ++ enc24 4096 ++ enc24 f ++
            enc24 spares ++ [8192, 4, 3, 32, 64, 8, 4, 16, 8, 16, 6, 2048, 16, 4, 5].flatMap enc16)
          (nextEvent s)) ∧
    (portTakes s seq 2 [] check = true →
      exec (.status seq check) s =
        replied seq .ok
          (enc8 s.start.op.code ++ encOpt (fun r => enc8 r.code) held ++ enc8 s.guard.state.code ++ enc8 s.guard.attempts ++
            enc24 f ++ enc24 spares ++
            [if s.map.poolBuilt then spares - s.map.marks.length else 0, countMarks s .held, countMarks s .bound,
              countMarks s .dead, s.map.table.length].flatMap enc16 ++
            [(s.map.table.filter (·.target.isSome)).length, s.reloc.pendingList.length, s.reloc.watch.length,
              s.buf.entries.length, s.jour.state.code].flatMap enc8 ++
            encOpt (fun k => enc8 k.code) s.jour.active ++ enc16 s.jour.nextLine ++ enc8 (surveyState s).code ++
            [s.log.count.toNat, s.host.protocolCount.toNat, s.reloc.deferred.toNat].flatMap enc16 ++ enc32 s.tick)
          (nextEvent s)) ∧
    (portTakes s seq 9 [] check = true →
      exec (.surveyReport seq check) s =
        replied seq .ok
          (enc8 (surveyState s).code ++
            encOpt
              (fun r => enc8 r.mode.code ++ enc24 r.first ++ enc24 r.count ++ enc32 r.startTick ++ enc32 r.endTick ++
                enc8 r.outcome.code ++ enc24 r.next ++ counted r.counts ++ encOpt enc24 r.firstUncorrectable)
              s.survey.report ++
            encOpt
              (fun l => enc8 l.mode.code ++ enc24 l.first ++ enc24 l.count ++ enc32 l.startTick ++ enc24 l.next ++
                enc8 l.phase.code ++ counted l.counts)
              s.survey.live)
          (nextEvent s))

/-- LOOKUP_LINE and LIST_READ (R15, R113): LIST_READ answers RANGE for a list that is neither; both answer STATE in STARTING and
HELD; LOOKUP_LINE answers RANGE from C-J on, else the line's entry, pending, watch count, buffered, beyond and spare state;
LIST_READ answers the index-th entry, or EMPTY past the end. Nothing but the port changes. -/
def Obligations.LineAndListQueries : Prop :=
  ∀ (s : State) (seq : Byte) (hla : Addr24) (list index : Byte) (check : BitVec 16) (shown : Prop),
    (shown ↔ s.start.op = .running ∨ s.start.op = .quiescing) →
    (portTakes s seq 3 (arg24 hla) check = true →
      (¬ shown → exec (.lookupLine seq hla check) s = replied seq .state [] (nextEvent s)) ∧
      (shown → s.array.lineCount - 4096 ≤ hla.toNat →
        exec (.lookupLine seq hla check) s = replied seq .range [] (nextEvent s)) ∧
      (shown → hla.toNat < s.array.lineCount - 4096 →
        exec (.lookupLine seq hla check) s =
          replied seq .ok
            (encOpt RemapEntry.bytes (entryOf s hla.toNat) ++ encBool (isPending s hla.toNat) ++
              encOpt (fun w => enc8 w.count) (s.reloc.watch.find? (·.hla == hla.toNat)) ++
              encBool (s.buf.entries.any (·.hla == hla.toNat)) ++ encBool (decide (s.map.fence.getD 0 ≤ hla.toNat)) ++
              encOpt (fun x => enc8 x.code) (spareStateOf s hla.toNat))
            (nextEvent s))) ∧
    (portTakes s seq 6 [list, index] check = true →
      (list ≠ 0 → list ≠ 1 → exec (.listRead seq list index check) s = replied seq .range [] (nextEvent s)) ∧
      ((list = 0 ∨ list = 1) → ¬ shown → exec (.listRead seq list index check) s = replied seq .state [] (nextEvent s)) ∧
      (shown → list = 0 → ∀ p, s.reloc.pendingList[index.toNat]? = some p →
        exec (.listRead seq list index check) s =
          replied seq .ok (enc24 p.hla ++ enc8 p.origin.code ++ enc32 p.entered ++ [p.hits]) (nextEvent s)) ∧
      (shown → list = 1 → ∀ w, s.reloc.watch[index.toNat]? = some w →
        exec (.listRead seq list index check) s =
          replied seq .ok (enc24 w.hla ++ enc8 w.count ++ enc32 w.last) (nextEvent s)) ∧
      (shown → ((list = 0 ∧ s.reloc.pendingList.length ≤ index.toNat) ∨ (list = 1 ∧ s.reloc.watch.length ≤ index.toNat)) →
        exec (.listRead seq list index check) s = replied seq .empty [] (nextEvent s)))

/-- MAP_SEEK sets the cursor to any home in every operating state (R16); MAP_NEXT answers the entry with the lowest home at or above
the cursor and sets the cursor past it, EMPTY with the cursor unchanged when there is none, and STATE in STARTING and HELD (R17). -/
def Obligations.MapCursorWalks : Prop :=
  ∀ (s : State) (seq : Byte) (hla : Addr24) (check : BitVec 16),
    (portTakes s seq 4 (arg24 hla) check = true →
      exec (.mapSeek seq hla check) s =
        replied seq .ok [] ((nextEvent s).setMap { s.map with cursor := hla.toNat })) ∧
    (portTakes s seq 5 [] check = true →
      (s.start.op ≠ .running → s.start.op ≠ .quiescing →
        exec (.mapNext seq check) s = replied seq .state [] (nextEvent s)) ∧
      ((s.start.op = .running ∨ s.start.op = .quiescing) → mapLaw s.map →
        ((∀ e ∈ s.map.table, e.home < s.map.cursor) →
          exec (.mapNext seq check) s = replied seq .empty [] (nextEvent s)) ∧
        ∀ e ∈ s.map.table, s.map.cursor ≤ e.home →
          (∀ x ∈ s.map.table, s.map.cursor ≤ x.home → e.home ≤ x.home) →
          exec (.mapNext seq check) s =
            replied seq .ok
              (enc24 e.home ++ encOpt enc24 e.spare ++ encOpt enc24 e.target ++
                [if e.target.isSome then 0 else 1] ++ encOpt (fun c => enc8 c.code) e.cause ++ encOpt enc32 e.boundTick)
              ((nextEvent s).setMap { s.map with cursor := e.home + 1 })))

/-- The Fault Log's commands (R159 to R161): FAULT_NEXT answers the record the cursor names, with its trace, and moves the cursor past
it, or EMPTY at the next sequence; FAULT_REWIND answers the count and the oldest sequence and moves the cursor there; FAULT_CLEAR,
the Guard OPEN, empties the log, moves the cursor to the next sequence and answers it, with the count and the causes unchanged. -/
def Obligations.FaultLogCommands : Prop :=
  ∀ (s : State) (seq : Byte) (check : BitVec 16),
    logLaw s.log = true →
    (portTakes s seq 7 [] check = true →
      (∀ r ∈ s.log.records, r.seq = s.log.cursor →
        exec (.faultNext seq check) s =
          replied seq .ok
            (enc32 r.seq ++ enc8 r.kind.code ++ enc32 r.tick ++ encOpt enc24 r.hla ++ encOpt enc24 r.ala ++
              encOpt enc8 r.step ++ enc8 r.trace.length ++
              r.trace.flatMap fun i => enc8 i.kind.code ++ enc8 i.tag.toNat ++ encOpt enc24 i.hla ++ enc32 i.tick)
            ((nextEvent s).setLog { s.log with cursor := s.log.cursor + 1 })) ∧
      (s.log.cursor = s.log.next → exec (.faultNext seq check) s = replied seq .empty [] (nextEvent s))) ∧
    (portTakes s seq 8 [] check = true →
      (s.log.records = [] →
        exec (.faultRewind seq check) s =
          replied seq .ok [0, 0] ((nextEvent s).setLog { s.log with cursor := s.log.next })) ∧
      ∀ (oldest : FaultRecord) (others : List FaultRecord), s.log.records = oldest :: others →
        exec (.faultRewind seq check) s =
          replied seq .ok (enc8 (others.length + 1) ++ 1 :: enc32 oldest.seq)
            ((nextEvent s).setLog { s.log with cursor := oldest.seq })) ∧
    (portTakes s seq 67 [] check = true → s.guard.state = .open →
      exec (.faultClear seq check) s =
        replied seq .ok (enc32 s.log.next) ((nextEvent s).setLog { s.log with records := [], cursor := s.log.next }))

/-- R165: ALERT_READ returns the set causes, the mask, and whether ALERT is asserted, which it is while at least one cause is set and
enabled; in every Guard state and operating state, and nothing but the port changes. -/
def Obligations.AlertReadReturns : Prop :=
  ∀ (s : State) (seq : Byte) (check : BitVec 16) (asserted : Bool),
    portTakes s seq 11 [] check = true →
    (asserted = true ↔ ∃ i, i < 10 ∧ s.alert.causes.getLsbD i = true ∧ s.alert.mask.getLsbD i = true) →
    exec (.alertRead seq check) s =
      replied seq .ok (enc16 s.alert.causes.toNat ++ enc16 s.alert.mask.toNat ++ [if asserted then 1 else 0]) (nextEvent s)

/-- ALERT_ACK clears the latched causes named and leaves the level causes SPARES_LOW and PENDING_HIGH, answering the causes after it
(R164); ALERT_MASK enables exactly the causes named, answering the mask (R163). Bits 10 to 15 name no cause (R192). -/
def Obligations.AlertAckAndMask : Prop :=
  ∀ (s : State) (seq : Byte) (set : BitVec 16) (check : BitVec 16) (after : BitVec 10),
    (portTakes s seq 34 (enc16 set.toNat) check = true →
      (∀ i, i < 10 → after.getLsbD i = (s.alert.causes.getLsbD i && !(set.getLsbD i && i != 0 && i != 2))) →
      exec (.alertAck seq set check) s =
        replied seq .ok (enc16 after.toNat) ((nextEvent s).setAlert { s.alert with causes := after })) ∧
    (portTakes s seq 35 (enc16 set.toNat) check = true → (∀ i, i < 10 → after.getLsbD i = set.getLsbD i) →
      exec (.alertMask seq set check) s =
        replied seq .ok (enc16 after.toNat) ((nextEvent s).setAlert { s.alert with mask := after }))

/-- R185: POLICY_READ answers the six fields of the Active set for 0 and of the Staged set for 1, packed, and RANGE for any other
value, in every operating state and Guard state; nothing but the port changes. -/
def Obligations.PolicyReadAnswers : Prop :=
  ∀ (s : State) (seq set : Byte) (check : BitVec 16) (p : PolicySet),
    portTakes s seq 10 [set] check = true →
    (((set = 0 ∧ p = s.policy.active) ∨ (set = 1 ∧ p = s.policy.staged)) →
      exec (.policyRead seq set check) s =
        replied seq .ok
          [byteOf p.retryDepth 0, byteOf p.watchLimit 0, byteOf p.spareLow 1, byteOf p.spareLow 0, byteOf p.pendingHigh 0,
            if p.posting then 1 else 0, byteOf p.surveyGap 0]
          (nextEvent s)) ∧
    (set ≠ 0 → set ≠ 1 → exec (.policyRead seq set check) s = replied seq .range [] (nextEvent s))

/-- POLICY_STAGE (R180, R181): STATE unless RUNNING; RANGE naming the first field out of range in the order of R180, with Staged
unchanged (the code that names a field is a free value, log 15); otherwise all six values are written and answered as sent. -/
def Obligations.PolicyStageWrites : Prop :=
  ∀ (s : State) (seq retryDepth watchLimit : Byte) (spareLow : BitVec 16) (pendingHigh posting surveyGap : Byte)
    (check : BitVec 16) (args : List Byte),
    args = [retryDepth, watchLimit] ++ enc16 spareLow.toNat ++ [pendingHigh, posting, surveyGap] →
    portTakes s seq 36 args check = true →
    (s.start.op ≠ .running →
      exec (.policyStage seq retryDepth watchLimit spareLow pendingHigh posting surveyGap check) s =
        replied seq .state [] (nextEvent s)) ∧
    (s.start.op = .running →
      (∀ field : PolicyField,
        ((4 < retryDepth.toNat ∧ field = .retryDepth) ∨
          (retryDepth.toNat ≤ 4 ∧ (watchLimit.toNat < 1 ∨ 15 < watchLimit.toNat) ∧ field = .watchLimit) ∨
          (retryDepth.toNat ≤ 4 ∧ 1 ≤ watchLimit.toNat ∧ watchLimit.toNat ≤ 15 ∧ 1024 < spareLow.toNat ∧
            field = .spareLow) ∨
          (retryDepth.toNat ≤ 4 ∧ 1 ≤ watchLimit.toNat ∧ watchLimit.toNat ≤ 15 ∧ spareLow.toNat ≤ 1024 ∧
            (pendingHigh.toNat < 1 ∨ 32 < pendingHigh.toNat) ∧ field = .pendingHigh) ∨
          (retryDepth.toNat ≤ 4 ∧ 1 ≤ watchLimit.toNat ∧ watchLimit.toNat ≤ 15 ∧ spareLow.toNat ≤ 1024 ∧
            1 ≤ pendingHigh.toNat ∧ pendingHigh.toNat ≤ 32 ∧ 1 < posting.toNat ∧ field = .posting)) →
        exec (.policyStage seq retryDepth watchLimit spareLow pendingHigh posting surveyGap check) s =
          replied seq .range [Config.fieldCode field] (nextEvent s)) ∧
      (retryDepth.toNat ≤ 4 → 1 ≤ watchLimit.toNat → watchLimit.toNat ≤ 15 → spareLow.toNat ≤ 1024 →
        1 ≤ pendingHigh.toNat → pendingHigh.toNat ≤ 32 → posting.toNat ≤ 1 →
        exec (.policyStage seq retryDepth watchLimit spareLow pendingHigh posting surveyGap check) s =
          replied seq .ok args
            ((nextEvent s).setPolicy
              { s.policy with
                staged :=
                  { retryDepth := retryDepth.toNat, watchLimit := watchLimit.toNat, spareLow := spareLow.toNat
                    pendingHigh := pendingHigh.toNat, posting := posting == 1, surveyGap := surveyGap.toNat } })))

/-! ### Survey and long commands -/

/-- SURVEY_START and SURVEY_STOP (R140 to R142, R148, R150): START's checks in order; an accepted SPAN clips its range at F and places
the read of its first line, an accepted SPARES of a reserve all FREE reads the first spare once, both answering the mode and the
range. STOP is answered STATE in IDLE; in a gap, or with a read not granted, it ends the survey STOPPED with its report and
SURVEY_END; with a read granted it waits for the ladder's end. -/
def Obligations.SurveyStartAndStop : Prop :=
  ∀ (s : State) (seq mode : Byte) (first count : Addr24) (check : BitVec 16) (f : Nat) (zero : SurveyCounts) (t : State),
    f = s.map.fence.getD 0 →
    zero = { linesRead := 0, skipped := 0, cleanAfterRetry := 0, corrected := 0, retriedCorrected := 0, uncorrectable := 0,
             markedDead := 0 } →
    (portTakes s seq 32 (mode :: arg24 first ++ arg24 count) check = true →
      (∀ status : Status,
        ((s.start.op ≠ .running ∧ status = .state) ∨
          (s.start.op = .running ∧ s.survey.live ≠ none ∧ status = .state) ∨
          (s.start.op = .running ∧ s.survey.live = none ∧ mode ≠ 0 ∧ mode ≠ 1 ∧ status = .range) ∨
          (s.start.op = .running ∧ s.survey.live = none ∧ mode = 0 ∧ f ≤ first.toNat ∧ status = .range)) →
        exec (.surveyStart seq mode first count check) s = replied seq status [] (nextEvent s)) ∧
      (∀ limit : Nat, s.start.op = .running → s.survey.live = none → mode = 0 → first.toNat < f →
        limit = (if count = 0 then f else min (first.toNat + count.toNat) f) →
        isPending s first.toNat = false → isMoving s first.toNat = false →
        (∀ e ∈ s.buf.entries, e.hla ≠ first.toNat) → (∀ e ∈ s.buf.direct, e.hla ≠ first.toNat) →
        t = answered { seq, status := .ok, results := 0 :: enc24 first.toNat ++ enc24 (limit - first.toNat) }
              (placeRequest .surveyRead
                ((nextEvent s).setSurvey
                  { s.survey with
                    live := some
                      { mode := .span, first := first.toNat, count := limit - first.toNat, start := first.toNat, limit
                        excluded := [], next := first.toNat
                        phase := .reading
                          { ala := servingPlace s first.toNat, depth := s.policy.active.retryDepth, step := 0
                            age := { event := s.ids.event + 1, direct := false, order := s.ids.nextId }, granted := false }
                        startTick := s.tick, counts := zero, firstUncorrectable := none, endRequested := none } })) →
        calm t = true → exec (.surveyStart seq mode first count check) s = .next (evalLevels t)) ∧
      (s.start.op = .running → s.survey.live = none → mode = 1 → s.map.fence = some f → s.map.range = none →
        s.map.marks = [] → s.map.poolBuilt = true → f < s.array.lineCount - 4096 →
        t = answered { seq, status := .ok, results := 1 :: enc24 f ++ enc24 (s.array.lineCount - 4096 - f) }
              (placeRequest .surveyRead
                ((nextEvent s).setSurvey
                  { s.survey with
                    live := some
                      { mode := .spares, first := f, count := s.array.lineCount - 4096 - f, start := f
                        limit := s.array.lineCount - 4096, excluded := [], next := f
                        phase := .reading
                          { ala := f, depth := 0, step := 0
                            age := { event := s.ids.event + 1, direct := false, order := s.ids.nextId }, granted := false }
                        startTick := s.tick, counts := zero, firstUncorrectable := none, endRequested := none } })) →
        calm t = true → exec (.surveyStart seq mode first count check) s = .next (evalLevels t))) ∧
    (portTakes s seq 33 [] check = true →
      (s.survey.live = none → exec (.surveyStop seq check) s = replied seq .state [] (nextEvent s)) ∧
      ∀ l : LiveSurvey, s.survey.live = some l →
        (∀ (waiting : List ArbReq), l.endRequested = none →
          ((∃ units, l.phase = .gap units ∧ waiting = s.array.waiting) ∨
            ∃ d, l.phase = .reading d ∧ d.granted = false ∧
              waiting = s.array.waiting.filter (·.body != .surveyRead)) →
          t = answered { seq, status := .ok, results := [0] }
                ((((nextEvent s).setArray { s.array with waiting }).setSurvey
                  { live := none
                    report := some
                      { mode := l.mode, first := l.first, count := l.count, startTick := l.startTick, endTick := s.tick
                        outcome := .stopped, next := l.next, counts := l.counts
                        firstUncorrectable := l.firstUncorrectable } }).setAlert
                  { s.alert with causes := s.alert.causes ||| AlertCause.surveyEnd.bit }) →
          calm t = true → exec (.surveyStop seq check) s = .next (evalLevels t)) ∧
        (∀ d, l.endRequested = none → l.phase = .reading d → d.granted = true →
          t = answered { seq, status := .ok, results := [2] }
                ((nextEvent s).setSurvey { s.survey with live := some { l with endRequested := some .stopped } }) →
          calm t = true → exec (.surveyStop seq check) s = .next (evalLevels t)) ∧
        (l.endRequested ≠ none → t = answered { seq, status := .ok, results := [2] } (nextEvent s) →
          calm t = true → exec (.surveyStop seq check) s = .next (evalLevels t)))

/-- FENCE_ADJUST, the Guard OPEN (R14, R50 to R52): its checks in order, each ending the command with nothing but the port changed,
BLOCKED naming the lowest blocking line and its kind; accepted, it stays in progress, its FENCE record queued and the withdrawal or
closing range formed. -/
def Obligations.FenceAdjustChecked : Prop :=
  ∀ (s : State) (seq : Byte) (expected new : Addr24) (check : BitVec 16) (f top : Nat) (t : State),
    f = s.map.fence.getD 0 → top = s.array.lineCount - 4096 →
    portTakes s seq 64 (arg24 expected ++ arg24 new) check = true → s.guard.state = .open →
    (∀ (status : Status) (results : List Byte),
      ((s.start.op ≠ .running ∧ status = .state ∧ results = []) ∨
        (s.start.op = .running ∧ s.jour.state = .stalled ∧ status = .journalFault ∧ results = []) ∨
        (s.start.op = .running ∧ s.jour.state ≠ .stalled ∧ expected.toNat ≠ f ∧ status = .stale ∧ results = enc24 f) ∨
        (s.start.op = .running ∧ s.jour.state ≠ .stalled ∧ expected.toNat = f ∧ new.toNat = f ∧ status = .ok ∧
          results = enc24 f ++ enc24 (if s.map.fence = none then 0 else top - f)) ∨
        (s.start.op = .running ∧ s.jour.state ≠ .stalled ∧ expected.toNat = f ∧ new.toNat ≠ f ∧
          (top < new.toNat + 64 ∨ new.toNat + 8192 < top) ∧ status = .range ∧ results = []) ∨
        (s.start.op = .running ∧ s.jour.state ≠ .stalled ∧ expected.toNat = f ∧ new.toNat ≠ f ∧
          new.toNat + 64 ≤ top ∧ top ≤ new.toNat + 8192 ∧ s.survey.live ≠ none ∧ status = .state ∧ results = [])) →
      exec (.fenceAdjust seq expected new check) s = replied seq status results (nextEvent s)) ∧
    (s.start.op = .running → s.jour.state ≠ .stalled → expected.toNat = f → new.toNat + 64 ≤ top →
      top ≤ new.toNat + 8192 → s.survey.live = none →
      (∀ (a : Nat) (kind : Byte), f < new.toNat → f ≤ a → a < new.toNat →
        (∀ b, f ≤ b → b < a → spareStateOf s b = some .free) →
        ((spareStateOf s a = some .held ∧ kind = 0) ∨ (spareStateOf s a = some .bound ∧ kind = 1) ∨
          (spareStateOf s a = some .dead ∧ kind = 2)) →
        exec (.fenceAdjust seq expected new check) s = replied seq .blocked (enc24 a ++ [kind]) (nextEvent s)) ∧
      (∀ (a : Nat) (kind : Byte), new.toNat ≤ a → a < f →
        (∀ b, new.toNat ≤ b → b < a → entryOf s b = none ∧ isPending s b = false ∧
          (∀ e ∈ s.buf.entries, e.hla ≠ b) ∧ ∀ r ∈ s.host.order, r.hla ≠ b) →
        ((entryOf s a ≠ none ∧ kind = 3) ∨ (entryOf s a = none ∧ isPending s a = true ∧ kind = 4) ∨
          (entryOf s a = none ∧ isPending s a = false ∧ (∃ e ∈ s.buf.entries, e.hla = a) ∧ kind = 5) ∨
          (entryOf s a = none ∧ isPending s a = false ∧ (∀ e ∈ s.buf.entries, e.hla ≠ a) ∧
            (∃ r ∈ s.host.order, r.hla = a) ∧ kind = 6)) →
        exec (.fenceAdjust seq expected new check) s = replied seq .blocked (enc24 a ++ [kind]) (nextEvent s)) ∧
      ∀ range : FenceRange,
        ((f < new.toNat ∧ (∀ a, f ≤ a → a < new.toNat → spareStateOf s a = some .free) ∧
            range = { kind := .withdrawal, lo := f, hi := new.toNat, kept := false }) ∨
          (new.toNat < f ∧
            (∀ a, new.toNat ≤ a → a < f → entryOf s a = none ∧ isPending s a = false ∧
              (∀ e ∈ s.buf.entries, e.hla ≠ a) ∧ ∀ r ∈ s.host.order, r.hla ≠ a) ∧
            range = { kind := .closing, lo := new.toNat, hi := f, kept := false })) →
        s.jour.queue.length < 16 →
        t = (((nextEvent s).setMap { s.map with range := some range }).setPort
              { s.port with command := some { seq, command := .fenceAdjust new.toNat } }).setJour
              { s.jour with queue := s.jour.queue ++ [.fence new.toNat] } →
        exec (.fenceAdjust seq expected new check) s = .next (beginTransmit (settle t)))

/-- LINE_RETIRE, the Guard OPEN (R112): its checks in order; accepted with a slot free and no request waiting for one, the slot is
reserved, the read of the line's place is placed with the Active depth, and the command stays in progress; accepted otherwise, its
reservation waits in the slot queue. -/
def Obligations.LineRetireChecked : Prop :=
  ∀ (s : State) (seq : Byte) (hla : Addr24) (check : BitVec 16) (t : State),
    portTakes s seq 65 (arg24 hla) check = true → s.guard.state = .open →
    (∀ status : Status,
      ((s.start.op ≠ .running ∧ status = .state) ∨
        (s.start.op = .running ∧ s.jour.state = .stalled ∧ status = .journalFault) ∨
        (s.start.op = .running ∧ s.jour.state ≠ .stalled ∧ s.map.fence.getD 0 ≤ hla.toNat ∧ status = .range) ∨
        (s.start.op = .running ∧ s.jour.state ≠ .stalled ∧ hla.toNat < s.map.fence.getD 0 ∧
          isPending s hla.toNat = true ∧ status = .pending) ∨
        (s.start.op = .running ∧ s.jour.state ≠ .stalled ∧ hla.toNat < s.map.fence.getD 0 ∧
          isPending s hla.toNat = false ∧ relocationInProgress s hla.toNat = true ∧ status = .alreadyMoving)) →
      exec (.lineRetire seq hla check) s = replied seq status [] (nextEvent s)) ∧
    (s.start.op = .running → s.jour.state ≠ .stalled → hla.toNat < s.map.fence.getD 0 →
      isPending s hla.toNat = false → relocationInProgress s hla.toNat = false →
      (slotFree s = true → s.reloc.queue = [] →
        t = placeRequest (.retireRead s.ids.nextId)
              ((takeId ((nextEvent s).setPort
                  { s.port with command := some { seq, command := .lineRetire hla.toNat false } })).setReloc
                { s.reloc with
                  reserved := some hla.toNat
                  retireReads := s.reloc.retireReads ++
                    [{ id := s.ids.nextId, home := hla.toNat, live := true
                       ladder :=
                         { ala := servingPlace s hla.toNat, depth := s.policy.active.retryDepth, step := 0
                           age := { event := s.ids.event + 1, direct := false, order := s.ids.nextId + 1 }
                           granted := false } }] }) →
        exec (.lineRetire seq hla check) s = .next (beginTransmit (settle t))) ∧
      ((slotFree s = false ∨ s.reloc.queue ≠ []) →
        t = ((nextEvent s).setPort
              { s.port with command := some { seq, command := .lineRetire hla.toNat false } }).setReloc
              { s.reloc with queue := s.reloc.queue ++ [.reservation hla.toNat] } →
        exec (.lineRetire seq hla check) s = .next (beginTransmit (settle t))))

/-- POLICY_EXCHANGE, JOURNAL_FORMAT and BRIDGE_RESTART with the Guard OPEN, and JOURNAL_COMPACT (R126, R133, R134, R182): each is
refused by its checks in order, or stays in progress: the exchange with a POLICY record of the Staged set queued; the format with
its first line, line 0 of bank B with a FENCE record of the given or the default F; the restart QUIESCING; the compaction, asked
while a LOG line is written, at the journal's next decision. -/
def Obligations.LongCommandsAccepted : Prop :=
  ∀ (s : State) (seq : Byte) (check : BitVec 16) (t : State),
    (portTakes s seq 66 [] check = true → s.guard.state = .open →
      (s.start.op ≠ .running → exec (.policyExchange seq check) s = replied seq .state [] (nextEvent s)) ∧
      (s.start.op = .running → s.jour.state = .stalled →
        exec (.policyExchange seq check) s = replied seq .journalFault [] (nextEvent s)) ∧
      (s.start.op = .running → s.jour.state ≠ .stalled → s.jour.queue.length < 16 →
        t = ((nextEvent s).setPort { s.port with command := some { seq, command := .policyExchange } }).setJour
              { s.jour with queue := s.jour.queue ++ [.policy s.policy.staged] } →
        exec (.policyExchange seq check) s = .next (beginTransmit (settle t)))) ∧
    (∀ (fence : Option Addr24) (f : Nat), portTakes s seq 68 ((fence.map arg24).getD []) check = true →
      s.guard.state = .open →
      (s.start.op ≠ .held .noJournal → exec (.journalFormat seq fence check) s = replied seq .state [] (nextEvent s)) ∧
      (s.start.op = .held .noJournal →
        (∀ new, fence = some new →
          (s.array.lineCount - 4096 < new.toNat + 64 ∨ new.toNat + 8192 < s.array.lineCount - 4096) →
          exec (.journalFormat seq fence check) s = replied seq .range [] (nextEvent s)) ∧
        (((fence = none ∧ f = s.array.lineCount - 4096 - 1024) ∨
            ∃ new, fence = some new ∧ f = new.toNat ∧ f + 64 ≤ s.array.lineCount - 4096 ∧
              s.array.lineCount - 4096 ≤ f + 8192) →
          t = placeRequest (.journalWrite .format (s.array.lineCount - 2048) (journalLine 0 .b false false [.fence f]))
                (((nextEvent s).setPort { s.port with command := some { seq, command := .journalFormat } }).setStart
                  { s.start with format := some { fence := f, index := 0 } }) →
          exec (.journalFormat seq fence check) s = .next (beginTransmit (settle t))))) ∧
    (portTakes s seq 69 [] check = true → s.guard.state = .open →
      (s.start.op ≠ .running → exec (.bridgeRestart seq check) s = replied seq .state [] (nextEvent s)) ∧
      (s.start.op = .running → s.jour.state = .stalled →
        exec (.bridgeRestart seq check) s = replied seq .journalFault [] (nextEvent s)) ∧
      (s.start.op = .running → s.jour.state ≠ .stalled → s.survey.live = none →
        t = ((nextEvent s).setPort { s.port with command := some { seq, command := .bridgeRestart } }).setStart
              { s.start with op := .quiescing } →
        exec (.bridgeRestart seq check) s = .next (beginTransmit (settle t)))) ∧
    (portTakes s seq 37 [] check = true →
      (s.start.op ≠ .running ∨ s.jour.state = .compacting →
        exec (.journalCompact seq check) s = replied seq .state [] (nextEvent s)) ∧
      (s.start.op = .running →
        t = (nextEvent s).setPort { s.port with command := some { seq, command := .journalCompact } } →
        (s.jour.state = .ready ∨ s.jour.state = .appending →
          exec (.journalCompact seq check) s = .next (beginTransmit (settle t))) ∧
        (s.jour.state = .stalled →
          exec (.journalCompact seq check) s = .next (beginTransmit (settle (beginCompaction 0 t))))))

/-! ### The part's own steps -/

/-- The internal rows (R40, R77, R93, R119, R135), each on a state in which it is due: a queued READ of a pending line is presented
and answered POISON; the write waiting for room enters the buffer as a new entry and is acknowledged; the request waiting for a
slot begins its relocation with the lowest FREE spare; the record waiting outside the queue joins it; a complete quiesce ends, with
the volatile lists, the latches, the report and the cursor cleared and start-up begun. -/
def Obligations.InternalRowsAct : Prop :=
  ∀ (s t : State),
    (∀ (r : HostReq) (others : List HostReq), s.host.order = r :: others → r.stage = .queued → r.write = none →
      r.live = true → (∀ e ∈ s.buf.entries, e.hla ≠ r.hla) → isMoving s r.hla = false → isPending s r.hla = true →
      t = responded (readAnswer r.tag .poison none)
            (((nextEvent s).setReloc
              { s.reloc with
                pendingList := s.reloc.pendingList.map fun p =>
                  if p.hla = r.hla then { p with hits := if p.hits = 255 then 255 else p.hits + 1 } else p }).setHost
              { s.host with
                order := s.host.order.filter (·.id != r.id), tags := s.host.tags.filter (· != r.tag) }) →
      exec .requestPresentation s = .next (settle t)) ∧
    (∀ (id : Nat) (r : HostReq) (data : LineData) (mask : Mask), s.host.roomWait = [id] → findReq s id = some r →
      r.write = some (data, mask) → r.live = true → s.buf.entries.length < 8 → (∀ e ∈ s.buf.entries, e.hla ≠ r.hla) →
      t = responded (reportingAnswer .write r.tag .done s)
            (((takeId (nextEvent s)).setHost
              { s.host with
                roomWait := [], order := s.host.order.filter (·.id != r.id), tags := s.host.tags.filter (· != r.tag)
                reports := s.host.reports.drop 1, epochCount := s.host.epochCount + 1 }).setBuf
              { s.buf with
                entries := s.buf.entries ++
                  [{ id := s.ids.nextId, hla := r.hla, data, mask, phase := .waiting, epoch := some (s.host.epochCount + 1)
                     place := r.hla, ladder := none }] }) →
      exec .bufferRoomEntry s = .next (settle t)) ∧
    (∀ (id home spare : Nat) (cause : RelocCause) (e : Item), s.reloc.queue = [.request (.entry id) home cause] →
      slotFree s = true → reservationFor s home = false → findItem s (.entry id) = some e → e.hla < fenceValue s →
      isMoving s e.hla = false → lowestFree s = some spare →
      (∀ r ∈ s.host.order, r.stage ≠ .waitEntry id) →
      t = (beginRelocation e.hla spare cause e.data e.epoch []
            (setMark spare .held ((nextEvent s).setReloc { s.reloc with queue := [] }))).setBuf
            { s.buf with entries := s.buf.entries.filter (·.id != id) } →
      exec .slotHandoff s = .next (settle t)) ∧
    (∀ r : Record, s.jour.wait = [r] → s.jour.queue.length < 16 →
      t = (nextEvent s).setJour { s.jour with queue := s.jour.queue ++ [r], wait := [] } →
      exec .journalRecordJoin s = .next (settle t)) ∧
    (s.start.op = .quiescing → s.host.tags = [] → s.host.order = [] → s.host.roomWait = [] → s.buf.entries = [] →
      s.buf.direct = [] → s.reloc.slots = [] → s.reloc.reserved = none → s.reloc.queue = [] → s.survey.live = none →
      s.jour.state = .ready → s.jour.queue = [] → s.jour.wait = [] →
      t = { nextEvent s with
            host := { s.host with reports := [], barriers := [] }
            map := { table := [], marks := [], poolBuilt := false, cursor := 0, fence := none, range := none }
            array :=
              { lineCount := 0, inFlight := [{ op := .ident, owner := .ident, step := 0, timedOut := false }], waiting := [] }
            reloc := { s.reloc with pendingList := [], watch := [], held := [], retireReads := [] }
            jour :=
              { s.jour with
                state := .ready, active := none, nextLine := 0, queue := [], wait := [], line := none, compaction := none
                faulted := [] }
            start := { op := .starting, phase := .ident, format := none }
            survey := { s.survey with report := none }
            alert := { s.alert with causes := s.alert.causes &&& levelCauses }
            policy := { active := .default, staged := .default }
            out := { s.out with array := s.out.array ++ [.linkReset, .ident] } } →
      exec .quiesceEnd s = .next (evalLevels t))

/-! ### Shared operations -/

/-- How an event ends, once its own effect has been taken (R79, R120, R13, R109): with no internal step due, the drain requests
of drain-ready items are placed and the level causes evaluated, and nothing else; with the journal's decision alone due and nothing
after it, that decision is taken before. That the internal steps come in this order at the end of the event, and the level causes are
evaluated once there, is the model's choice (log 2, log 26, log 32). Evaluating the level causes sets SPARES_LOW (cause 0) exactly while RUNNING or QUIESCING with
the free count at or below the Active SPARE_LOW, and PENDING_HIGH (cause 2) exactly while the Pending List count is at or above the
Active PENDING_HIGH; the latched causes, the mask and everything else stay. -/
def Obligations.EventEnds : Prop :=
  ∀ s : State,
    (calm s = true → settle s = evalLevels s) ∧ (steady s = true → settle s = evalLevels (placeDrains s)) ∧
    (∀ t : State, s.reloc.queue = [] → s.reloc.held = [] → s.host.roomWait = [] → (∀ r ∈ s.host.order, r.stage ≠ .queued) →
      s.jour.wait = [] → decideNext s = some t → steady t = true → settle s = evalLevels (placeDrains t)) ∧
    (∃ causes, evalLevels s = s.setAlert { s.alert with causes }) ∧
    ((evalLevels s).alert.causes.getLsbD 0 = true ↔
      (s.start.op = .running ∨ s.start.op = .quiescing) ∧ freeCount s ≤ s.policy.active.spareLow) ∧
    ((evalLevels s).alert.causes.getLsbD 2 = true ↔ s.policy.active.pendingHigh ≤ s.reloc.pendingList.length) ∧
    ∀ i, i ≠ 0 → i ≠ 2 → (evalLevels s).alert.causes.getLsbD i = s.alert.causes.getLsbD i

/-- Allocation (R8, R9, R14): the FREE spare with the lowest ala outside a withdrawal range becomes HELD and nothing else changes;
with none, SPARES_OUT latches and nothing else changes.
Spare states (R6), the start of a relocation (R96) and the slots (R93, R97): a line outside [F, C-J) has no spare state; one
inside has the state of its mark, or is FREE once start-up has built the pool. A relocation makes the entry MOVING to the spare with
the cause, keeping the old spare and bound tick; takes a slot in WRITING with one spare tried; ends a reservation of the home;
removes the line from the Watch Table, and for host write data from the Pending List; and places the slot's write. A slot counts as
having a write in flight also while its outcome is held (log 39). Allocation for a home is refused at F or above, or MOVING (log
40). Setting an entry or a mark changes that one alone. -/
def Obligations.AllocationTakesLowest : Prop :=
  (∀ s : State,
      (∀ (a : Nat) (t : State), allocate s = (some a, t) →
        t = s.setMap { s.map with marks := insertMark a .held s.map.marks } ∧ spareStateOf s a = some .free ∧
          inRange s .withdrawal a = false ∧
          ∀ b, b < a → spareStateOf s b = some .free → inRange s .withdrawal b = true) ∧
      ∀ t : State, allocate s = (none, t) →
        t = s.setAlert { s.alert with causes := s.alert.causes ||| AlertCause.sparesOut.bit } ∧
          ∀ b, spareStateOf s b = some .free → inRange s .withdrawal b = true) ∧
  (∀ s : State,
      (∀ a, (∀ f, s.map.fence = some f → f ≤ a → s.array.lineCount - 4096 ≤ a) → spareStateOf s a = none) ∧
      (∀ f a, s.map.fence = some f → f ≤ a → a < s.array.lineCount - 4096 →
        (mapLaw s.map → ∀ m ∈ s.map.marks, m.ala = a → spareStateOf s a = some m.state) ∧
        ((∀ m ∈ s.map.marks, m.ala ≠ a) → spareStateOf s a = if s.map.poolBuilt then some .free else none)) ∧
      (∀ (home spare : Nat) (cause : RelocCause) (data : LineData) (epoch : Option Nat) (writes : List WaitingWrite)
        (entry : RemapEntry),
        ((∃ e, entryOf s home = some e ∧ entry = { e with target := some spare, cause := some cause }) ∨
          (entryOf s home = none ∧
            entry = { home, spare := none, target := some spare, cause := some cause, boundTick := none })) →
        beginRelocation home spare cause data epoch writes s =
          placeRequest (.slotWrite home)
            ((s.setMap { s.map with table := insertEntry entry s.map.table }).setReloc
              { s.reloc with
                slots := s.reloc.slots ++
                  [{ home, data, state := .writing, dirty := false, attempts := 1, epoch, waiting := writes }]
                reserved := if s.reloc.reserved = some home then none else s.reloc.reserved
                watch := s.reloc.watch.filter (·.hla != home)
                pendingList :=
                  if cause = .pendingWrite ∨ cause = .writeFault then s.reloc.pendingList.filter (·.hla != home)
                  else s.reloc.pendingList })) ∧
      (∀ home, slotWriteInFlight s home = true ↔
        (∃ f ∈ s.array.inFlight, f.timedOut = false ∧ ∃ kind, f.owner = .slotWrite home kind) ∨
          ∃ h ∈ s.reloc.held, h.home = home) ∧
      (slotFree s = true ↔ s.reloc.slots.length + (if s.reloc.reserved = none then 0 else 1) < 4) ∧
      (∀ home, reservationFor s home = true ↔ s.reloc.reserved = some home ∨ .reservation home ∈ s.reloc.queue) ∧
      (∀ home, (home < fenceValue s → isMoving s home = false → allocateFor home s = allocate s) ∧
        ((fenceValue s ≤ home ∨ isMoving s home = true) → allocateFor home s = (none, s))) ∧
      (∀ (e : RemapEntry) (home : Nat), entryOf (setEntry e s) home = if home = e.home then some e else entryOf s home) ∧
      ∀ (marks : List SpareMark) (a b : Nat) (state : SpareState),
        markOf (insertMark a state marks) b = if b = a then some state else markOf marks b)

/-- Pending List adds, by the rows of R106 and R107, and watch updates (R110, R111): ignored for a pending or MOVING line; else the
line goes to the front with one more, to at most 15, or 1, the least recent of 64 leaving; at WATCH_LIMIT it leaves the table and
its WATCH relocation is offered.
WATCH and RETRY requests (R91 to R94) and deferred reports (R34): discarded for a pending line or one with a relocation in
progress; with a slot and a FREE spare the relocation begins; with no spare, latching SPARES_OUT, or no slot the line is watched
again at WATCH_LIMIT at the front of the table and counted as deferred. A fifth report is lost, which latches DEFERRED_LOST. -/
def Obligations.PendingAndWatchRows : Prop :=
  (∀ (s : State) (hla : Nat) (origin : PendingOrigin) (data : LineData) (counts : Bool),
      (counts = true ↔ origin = .hostRead ∨ origin = .spareRead) →
      (isMoving s hla = true → pendingAdd hla origin s = s) ∧
      (isMoving s hla = false → isPending s hla = true →
        pendingAdd hla origin s =
          if counts then
            s.setReloc
              { s.reloc with
                pendingList := s.reloc.pendingList.map fun p =>
                  if p.hla = hla then { p with hits := if p.hits = 255 then 255 else p.hits + 1 } else p }
          else s) ∧
      (isMoving s hla = false → isPending s hla = false → 32 ≤ s.reloc.pendingList.length →
        pendingAdd hla origin s =
          writeFault .pendingOverflow (some hla) none none
            (s.setAlert { s.alert with causes := s.alert.causes ||| AlertCause.pendingFull.bit })) ∧
      (isMoving s hla = false → isPending s hla = false → s.reloc.pendingList.length < 32 →
        pendingAdd hla origin s =
          s.setReloc
            { s.reloc with
              pendingList := s.reloc.pendingList ++
                [{ hla, origin, entered := s.tick, hits := if counts then 1 else 0 }]
              watch := s.reloc.watch.filter (·.hla != hla) }) ∧
      ((isPending s hla = true ∨ isMoving s hla = true) → watchUpdate hla data s = s) ∧
      (isPending s hla = false → isMoving s hla = false →
        ∀ count : Nat,
          ((∃ w, s.reloc.watch.find? (·.hla == hla) = some w ∧ count = min (w.count + 1) 15) ∨
            ((∀ w ∈ s.reloc.watch, w.hla ≠ hla) ∧ count = 1)) →
          (count < s.policy.active.watchLimit →
            watchUpdate hla data s =
              s.setReloc
                { s.reloc with
                  watch := { hla, count, last := s.tick } :: (s.reloc.watch.filter (·.hla != hla)).take 63 }) ∧
          (s.policy.active.watchLimit ≤ count →
            watchUpdate hla data s =
              offerRead .watch hla data
                (s.setReloc { s.reloc with watch := (s.reloc.watch.filter (·.hla != hla)).take 63 })))) ∧
  (∀ (s : State) (home : Nat) (cause : RelocCause) (data : LineData) (again : State → State),
      (∀ x, again x = x.setReloc
        { s.reloc with
          watch := { hla := home, count := s.policy.active.watchLimit, last := s.tick } ::
            (s.reloc.watch.filter (·.hla != home)).take 63
          deferred := if s.reloc.deferred = 65535 then 65535 else s.reloc.deferred + 1 }) →
      ((isPending s home = true ∨ isMoving s home = true ∨ reservationFor s home = true ∨
          ∃ ref c, QueueItem.request ref home c ∈ s.reloc.queue) →
        offerRead cause home data s = s) ∧
      (isPending s home = false → isMoving s home = false → reservationFor s home = false →
        (∀ ref c, QueueItem.request ref home c ∉ s.reloc.queue) →
        (∀ spare, slotFree s = true → home < fenceValue s → lowestFree s = some spare →
          offerRead cause home data s = beginRelocation home spare cause data none [] (setMark spare .held s)) ∧
        (slotFree s = true → home < fenceValue s → lowestFree s = none →
          offerRead cause home data s =
            again (s.setAlert { s.alert with causes := s.alert.causes ||| AlertCause.sparesOut.bit })) ∧
        (slotFree s = false → offerRead cause home data s = again s)) ∧
      ∀ reason : ReportReason,
        (s.host.reports.length < 4 →
          queueReport home reason s =
            (s.setHost { s.host with reports := s.host.reports ++ [{ hla := home, reason }] }).setAlert
              { s.alert with causes := s.alert.causes ||| AlertCause.deferred.bit }) ∧
        (4 ≤ s.host.reports.length →
          queueReport home reason s =
            s.setAlert { s.alert with causes := s.alert.causes ||| AlertCause.deferredLost.bit }))

/-- A fault record (R154, R155, R158): it takes the next sequence, the tick and the trace; the oldest of 16 leaves, which latches
LOG_WRAP and moves the cursor to the oldest left when it was unread; the next sequence and, to 65535, the count rise by one. -/
def Obligations.FaultRecordWritten : Prop :=
  ∀ (s : State) (kind : FaultKind) (hla ala step : Option Nat) (r : FaultRecord),
    r = { seq := s.log.next, kind, tick := s.tick, hla, ala, step, trace := s.log.trace } →
    (s.log.records.length < 16 →
      writeFault kind hla ala step s =
        s.setLog
          { s.log with
            records := s.log.records ++ [r], next := s.log.next + 1
            count := if s.log.count = 65535 then 65535 else s.log.count + 1 }) ∧
    ∀ (oldest second : FaultRecord) (others : List FaultRecord), s.log.records = oldest :: second :: others →
      16 ≤ s.log.records.length →
      (s.log.cursor ≠ oldest.seq →
        writeFault kind hla ala step s =
          s.setLog
            { s.log with
              records := second :: others ++ [r], next := s.log.next + 1
              count := if s.log.count = 65535 then 65535 else s.log.count + 1 }) ∧
      (s.log.cursor = oldest.seq →
        writeFault kind hla ala step s =
          (s.setAlert { s.alert with causes := s.alert.causes ||| AlertCause.logWrap.bit }).setLog
            { s.log with
              records := second :: others ++ [r], next := s.log.next + 1, cursor := second.seq
              count := if s.log.count = 65535 then 65535 else s.log.count + 1 })

/-- The line checker (R64, R65): a line the bridge wrote at this ala is CLEAN without defect, CORRECTED to the data written when one
byte differs and UNCORRECTABLE when two do; one it wrote for another ala is UNCORRECTABLE, whatever its data; and of any line what is
handed on is nothing, the data as read, or the data as read with at most one byte repaired. A defective check byte counts as a defect:
with one defective data byte or another check byte the line is UNCORRECTABLE, and alone it is CORRECTED with the data as read or
UNCORRECTABLE, which the spec leaves open (log 10). With three or more defective bytes, whose classification the spec leaves open
(log 9), the data written is never what is handed on. The check bytes are symbolic (log 8). -/
def Obligations.LineCheckerClasses : Prop :=
  ∀ (ala place : Nat) (written : LineData),
    (∀ data : LineData, place ≠ ala → classify ala { data, check := .code place written } = .uncorrectable) ∧
    classify ala (writtenLine ala written) = .clean written ∧
    (∀ line : ArrayLine,
      classify ala line = .uncorrectable ∨ classify ala line = .clean line.data ∨
        ∃ d, classify ala line = .corrected d ∧ differingBytes d line.data ≤ 1) ∧
    (∀ (data : LineData) (flips : BitVec 64) (check : CheckBytes),
      3 ≤ differingBytes written data + defectiveCheckBytes flips →
      (check = .damaged ala written flips ∨ (flips = 0 ∧ check = .code ala written)) →
      classify ala { data, check } ≠ .clean written ∧ classify ala { data, check } ≠ .corrected written) ∧
    ∀ (i j : Nat) (x y : Byte), i < j → j < 64 → x ≠ 0 → y ≠ 0 →
      classify ala { data := written ^^^ (x.setWidth 512 <<< (8 * i)), check := .code ala written } = .corrected written ∧
      classify ala { data := written ^^^ (y.setWidth 512 <<< (8 * j)), check := .code ala written } = .corrected written ∧
      classify ala
        { data := written ^^^ (x.setWidth 512 <<< (8 * i)) ^^^ (y.setWidth 512 <<< (8 * j))
          check := .code ala written } = .uncorrectable ∧
      ∀ (flips : BitVec 64) (m : Nat) (a : Byte), m < 8 → a ≠ 0 →
        (flips = a.setWidth 64 <<< (8 * m) →
          (∀ data : LineData, place ≠ ala → classify ala { data, check := .damaged place written flips } = .uncorrectable) ∧
          (classify ala { data := written, check := .damaged ala written flips } = .corrected written ∨
            classify ala { data := written, check := .damaged ala written flips } = .uncorrectable) ∧
          ∀ k : Nat, k < 64 →
            classify ala { data := written ^^^ (x.setWidth 512 <<< (8 * k)), check := .damaged ala written flips } =
              .uncorrectable) ∧
        ∀ (n : Nat) (b : Byte), m < n → n < 8 → b ≠ 0 →
          flips = (a.setWidth 64 <<< (8 * m)) ^^^ (b.setWidth 64 <<< (8 * n)) →
          classify ala { data := written, check := .damaged ala written flips } = .uncorrectable

/-- Journal lines written in the layout of section 11.7 read back as written (R116, R193): for any sequence, bank and flags and 1 to 6
records that fit it, the line decodes for its own bank to that sequence and those flags with one place for each record, and each
place decodes to its record; for the other bank it is unreadable. -/
def Obligations.JournalLineRoundTrip : Prop :=
  ∀ (seq : Seq32) (bank : Bank) (image commit : Bool) (records : List Record),
    1 ≤ records.length → records.length ≤ 6 → (∀ r ∈ records, recordFits r = true) →
    (∃ places, decodeJournalLine bank (journalLine seq bank image commit records) = some { seq, image, commit, places } ∧
      places.map decodeRecord = records.map DecodedRecord.known) ∧
    decodeJournalLine bank.other (journalLine seq bank image commit records) = none

/-- The journal's decision in READY (R118, R120, R122), RUNNING or QUIESCING with a bank active: with fewer than 64 lines left, or a
JOURNAL_COMPACT in progress, an image of the FENCE, the Active POLICY, the DEAD spares, the old spares of FINISHING homes and the
bindings is begun in the other bank at line 0 (that the old spares of FINISHING homes follow the DEAD spares, and that a FINISHING
entry without a spare is imaged by its target, is log 20's reading of R122); `snapshot` is that list of records; otherwise up to 6
head records form a LOG line at the next line; with an empty queue nothing is done. -/
def Obligations.JournalDecides : Prop :=
  ∀ (s : State) (bank : Bank),
    s.jour.state = .ready → (s.start.op = .running ∨ s.start.op = .quiescing) → s.jour.active = some bank →
    (s.jour.nextLine ≤ 1984 → (∀ c, s.port.command = some c → c.command ≠ .journalCompact) →
      (s.jour.queue = [] → decideNext s = none) ∧
      (s.jour.queue ≠ [] →
        decideNext s =
          some (placeRequest
            (.journalWrite .log (journalAla s bank s.jour.nextLine)
              (journalLine (s.jour.lastSeq + 1) bank false false (s.jour.queue.take 6)))
            (s.setJour
              { s.jour with
                state := .appending
                line := some { count := (s.jour.queue.take 6).length, seq := s.jour.lastSeq + 1 } })))) ∧
    ∀ records : List Record,
      records =
        [.fence (s.map.fence.getD 0), .policy s.policy.active] ++
          ((s.map.marks.filter (·.state == .dead)).map fun m => Record.dead m.ala) ++
          ((s.map.table.filter fun e => isFinishing s e.home).filterMap fun e => e.spare.map Record.dead) ++
          (s.map.table.filterMap fun e =>
            (if isFinishing s e.home then e.target else e.spare).map (Record.bind e.home)) →
      snapshot s = records ∧
      ((1984 < s.jour.nextLine ∨ ∃ c, s.port.command = some c ∧ c.command = .journalCompact) →
      decideNext s =
        some (placeRequest
          (.journalWrite .image (journalAla s bank.other 0)
            (journalLine (s.jour.lastSeq + 1) bank.other true (decide (records.length ≤ 6)) (records.take 6)))
          (s.setJour
            { s.jour with
              state := .compacting, line := none
              compaction := some
                { bank := bank.other, pos := 0, seq := s.jour.lastSeq + 1, faults := 0
                  lines := chunksOf 6 records.length records } })))
end

