-- ==== Sys2Proof/Laws/State.lean ====
section
/-! SUPPORT. One lemma per field per module update, true by rfl. -/

namespace Sys2Proof.Machine

@[simp] theorem State.setHost_host (s : State) (v : HostLink) : (s.setHost v).host = v := rfl
@[simp] theorem State.setHost_map (s : State) (v : HostLink) : (s.setHost v).map = s.map := rfl
@[simp] theorem State.setHost_array (s : State) (v : HostLink) : (s.setHost v).array = s.array := rfl
@[simp] theorem State.setHost_buf (s : State) (v : HostLink) : (s.setHost v).buf = s.buf := rfl
@[simp] theorem State.setHost_reloc (s : State) (v : HostLink) : (s.setHost v).reloc = s.reloc := rfl
@[simp] theorem State.setHost_jour (s : State) (v : HostLink) : (s.setHost v).jour = s.jour := rfl
@[simp] theorem State.setHost_start (s : State) (v : HostLink) : (s.setHost v).start = s.start := rfl
@[simp] theorem State.setHost_survey (s : State) (v : HostLink) : (s.setHost v).survey = s.survey := rfl
@[simp] theorem State.setHost_log (s : State) (v : HostLink) : (s.setHost v).log = s.log := rfl
@[simp] theorem State.setHost_alert (s : State) (v : HostLink) : (s.setHost v).alert = s.alert := rfl
@[simp] theorem State.setHost_port (s : State) (v : HostLink) : (s.setHost v).port = s.port := rfl
@[simp] theorem State.setHost_guard (s : State) (v : HostLink) : (s.setHost v).guard = s.guard := rfl
@[simp] theorem State.setHost_policy (s : State) (v : HostLink) : (s.setHost v).policy = s.policy := rfl
@[simp] theorem State.setHost_tick (s : State) (v : HostLink) : (s.setHost v).tick = s.tick := rfl
@[simp] theorem State.setHost_out (s : State) (v : HostLink) : (s.setHost v).out = s.out := rfl
@[simp] theorem State.setHost_ids (s : State) (v : HostLink) : (s.setHost v).ids = s.ids := rfl
@[simp] theorem State.setHost_pending (s : State) (v : HostLink) : (s.setHost v).pending = s.pending := rfl

@[simp] theorem State.setMap_host (s : State) (v : MapState) : (s.setMap v).host = s.host := rfl
@[simp] theorem State.setMap_map (s : State) (v : MapState) : (s.setMap v).map = v := rfl
@[simp] theorem State.setMap_array (s : State) (v : MapState) : (s.setMap v).array = s.array := rfl
@[simp] theorem State.setMap_buf (s : State) (v : MapState) : (s.setMap v).buf = s.buf := rfl
@[simp] theorem State.setMap_reloc (s : State) (v : MapState) : (s.setMap v).reloc = s.reloc := rfl
@[simp] theorem State.setMap_jour (s : State) (v : MapState) : (s.setMap v).jour = s.jour := rfl
@[simp] theorem State.setMap_start (s : State) (v : MapState) : (s.setMap v).start = s.start := rfl
@[simp] theorem State.setMap_survey (s : State) (v : MapState) : (s.setMap v).survey = s.survey := rfl
@[simp] theorem State.setMap_log (s : State) (v : MapState) : (s.setMap v).log = s.log := rfl
@[simp] theorem State.setMap_alert (s : State) (v : MapState) : (s.setMap v).alert = s.alert := rfl
@[simp] theorem State.setMap_port (s : State) (v : MapState) : (s.setMap v).port = s.port := rfl
@[simp] theorem State.setMap_guard (s : State) (v : MapState) : (s.setMap v).guard = s.guard := rfl
@[simp] theorem State.setMap_policy (s : State) (v : MapState) : (s.setMap v).policy = s.policy := rfl
@[simp] theorem State.setMap_tick (s : State) (v : MapState) : (s.setMap v).tick = s.tick := rfl
@[simp] theorem State.setMap_out (s : State) (v : MapState) : (s.setMap v).out = s.out := rfl
@[simp] theorem State.setMap_ids (s : State) (v : MapState) : (s.setMap v).ids = s.ids := rfl
@[simp] theorem State.setMap_pending (s : State) (v : MapState) : (s.setMap v).pending = s.pending := rfl

@[simp] theorem State.setArray_host (s : State) (v : ArrayLink) : (s.setArray v).host = s.host := rfl
@[simp] theorem State.setArray_map (s : State) (v : ArrayLink) : (s.setArray v).map = s.map := rfl
@[simp] theorem State.setArray_array (s : State) (v : ArrayLink) : (s.setArray v).array = v := rfl
@[simp] theorem State.setArray_buf (s : State) (v : ArrayLink) : (s.setArray v).buf = s.buf := rfl
@[simp] theorem State.setArray_reloc (s : State) (v : ArrayLink) : (s.setArray v).reloc = s.reloc := rfl
@[simp] theorem State.setArray_jour (s : State) (v : ArrayLink) : (s.setArray v).jour = s.jour := rfl
@[simp] theorem State.setArray_start (s : State) (v : ArrayLink) : (s.setArray v).start = s.start := rfl
@[simp] theorem State.setArray_survey (s : State) (v : ArrayLink) : (s.setArray v).survey = s.survey := rfl
@[simp] theorem State.setArray_log (s : State) (v : ArrayLink) : (s.setArray v).log = s.log := rfl
@[simp] theorem State.setArray_alert (s : State) (v : ArrayLink) : (s.setArray v).alert = s.alert := rfl
@[simp] theorem State.setArray_port (s : State) (v : ArrayLink) : (s.setArray v).port = s.port := rfl
@[simp] theorem State.setArray_guard (s : State) (v : ArrayLink) : (s.setArray v).guard = s.guard := rfl
@[simp] theorem State.setArray_policy (s : State) (v : ArrayLink) : (s.setArray v).policy = s.policy := rfl
@[simp] theorem State.setArray_tick (s : State) (v : ArrayLink) : (s.setArray v).tick = s.tick := rfl
@[simp] theorem State.setArray_out (s : State) (v : ArrayLink) : (s.setArray v).out = s.out := rfl
@[simp] theorem State.setArray_ids (s : State) (v : ArrayLink) : (s.setArray v).ids = s.ids := rfl
@[simp] theorem State.setArray_pending (s : State) (v : ArrayLink) : (s.setArray v).pending = s.pending := rfl

@[simp] theorem State.setBuf_host (s : State) (v : WriteBuffer) : (s.setBuf v).host = s.host := rfl
@[simp] theorem State.setBuf_map (s : State) (v : WriteBuffer) : (s.setBuf v).map = s.map := rfl
@[simp] theorem State.setBuf_array (s : State) (v : WriteBuffer) : (s.setBuf v).array = s.array := rfl
@[simp] theorem State.setBuf_buf (s : State) (v : WriteBuffer) : (s.setBuf v).buf = v := rfl
@[simp] theorem State.setBuf_reloc (s : State) (v : WriteBuffer) : (s.setBuf v).reloc = s.reloc := rfl
@[simp] theorem State.setBuf_jour (s : State) (v : WriteBuffer) : (s.setBuf v).jour = s.jour := rfl
@[simp] theorem State.setBuf_start (s : State) (v : WriteBuffer) : (s.setBuf v).start = s.start := rfl
@[simp] theorem State.setBuf_survey (s : State) (v : WriteBuffer) : (s.setBuf v).survey = s.survey := rfl
@[simp] theorem State.setBuf_log (s : State) (v : WriteBuffer) : (s.setBuf v).log = s.log := rfl
@[simp] theorem State.setBuf_alert (s : State) (v : WriteBuffer) : (s.setBuf v).alert = s.alert := rfl
@[simp] theorem State.setBuf_port (s : State) (v : WriteBuffer) : (s.setBuf v).port = s.port := rfl
@[simp] theorem State.setBuf_guard (s : State) (v : WriteBuffer) : (s.setBuf v).guard = s.guard := rfl
@[simp] theorem State.setBuf_policy (s : State) (v : WriteBuffer) : (s.setBuf v).policy = s.policy := rfl
@[simp] theorem State.setBuf_tick (s : State) (v : WriteBuffer) : (s.setBuf v).tick = s.tick := rfl
@[simp] theorem State.setBuf_out (s : State) (v : WriteBuffer) : (s.setBuf v).out = s.out := rfl
@[simp] theorem State.setBuf_ids (s : State) (v : WriteBuffer) : (s.setBuf v).ids = s.ids := rfl
@[simp] theorem State.setBuf_pending (s : State) (v : WriteBuffer) : (s.setBuf v).pending = s.pending := rfl

@[simp] theorem State.setReloc_host (s : State) (v : Retirement) : (s.setReloc v).host = s.host := rfl
@[simp] theorem State.setReloc_map (s : State) (v : Retirement) : (s.setReloc v).map = s.map := rfl
@[simp] theorem State.setReloc_array (s : State) (v : Retirement) : (s.setReloc v).array = s.array := rfl
@[simp] theorem State.setReloc_buf (s : State) (v : Retirement) : (s.setReloc v).buf = s.buf := rfl
@[simp] theorem State.setReloc_reloc (s : State) (v : Retirement) : (s.setReloc v).reloc = v := rfl
@[simp] theorem State.setReloc_jour (s : State) (v : Retirement) : (s.setReloc v).jour = s.jour := rfl
@[simp] theorem State.setReloc_start (s : State) (v : Retirement) : (s.setReloc v).start = s.start := rfl
@[simp] theorem State.setReloc_survey (s : State) (v : Retirement) : (s.setReloc v).survey = s.survey := rfl
@[simp] theorem State.setReloc_log (s : State) (v : Retirement) : (s.setReloc v).log = s.log := rfl
@[simp] theorem State.setReloc_alert (s : State) (v : Retirement) : (s.setReloc v).alert = s.alert := rfl
@[simp] theorem State.setReloc_port (s : State) (v : Retirement) : (s.setReloc v).port = s.port := rfl
@[simp] theorem State.setReloc_guard (s : State) (v : Retirement) : (s.setReloc v).guard = s.guard := rfl
@[simp] theorem State.setReloc_policy (s : State) (v : Retirement) : (s.setReloc v).policy = s.policy := rfl
@[simp] theorem State.setReloc_tick (s : State) (v : Retirement) : (s.setReloc v).tick = s.tick := rfl
@[simp] theorem State.setReloc_out (s : State) (v : Retirement) : (s.setReloc v).out = s.out := rfl
@[simp] theorem State.setReloc_ids (s : State) (v : Retirement) : (s.setReloc v).ids = s.ids := rfl
@[simp] theorem State.setReloc_pending (s : State) (v : Retirement) : (s.setReloc v).pending = s.pending := rfl

@[simp] theorem State.setJour_host (s : State) (v : Journal) : (s.setJour v).host = s.host := rfl
@[simp] theorem State.setJour_map (s : State) (v : Journal) : (s.setJour v).map = s.map := rfl
@[simp] theorem State.setJour_array (s : State) (v : Journal) : (s.setJour v).array = s.array := rfl
@[simp] theorem State.setJour_buf (s : State) (v : Journal) : (s.setJour v).buf = s.buf := rfl
@[simp] theorem State.setJour_reloc (s : State) (v : Journal) : (s.setJour v).reloc = s.reloc := rfl
@[simp] theorem State.setJour_jour (s : State) (v : Journal) : (s.setJour v).jour = v := rfl
@[simp] theorem State.setJour_start (s : State) (v : Journal) : (s.setJour v).start = s.start := rfl
@[simp] theorem State.setJour_survey (s : State) (v : Journal) : (s.setJour v).survey = s.survey := rfl
@[simp] theorem State.setJour_log (s : State) (v : Journal) : (s.setJour v).log = s.log := rfl
@[simp] theorem State.setJour_alert (s : State) (v : Journal) : (s.setJour v).alert = s.alert := rfl
@[simp] theorem State.setJour_port (s : State) (v : Journal) : (s.setJour v).port = s.port := rfl
@[simp] theorem State.setJour_guard (s : State) (v : Journal) : (s.setJour v).guard = s.guard := rfl
@[simp] theorem State.setJour_policy (s : State) (v : Journal) : (s.setJour v).policy = s.policy := rfl
@[simp] theorem State.setJour_tick (s : State) (v : Journal) : (s.setJour v).tick = s.tick := rfl
@[simp] theorem State.setJour_out (s : State) (v : Journal) : (s.setJour v).out = s.out := rfl
@[simp] theorem State.setJour_ids (s : State) (v : Journal) : (s.setJour v).ids = s.ids := rfl
@[simp] theorem State.setJour_pending (s : State) (v : Journal) : (s.setJour v).pending = s.pending := rfl

@[simp] theorem State.setStart_host (s : State) (v : StartUp) : (s.setStart v).host = s.host := rfl
@[simp] theorem State.setStart_map (s : State) (v : StartUp) : (s.setStart v).map = s.map := rfl
@[simp] theorem State.setStart_array (s : State) (v : StartUp) : (s.setStart v).array = s.array := rfl
@[simp] theorem State.setStart_buf (s : State) (v : StartUp) : (s.setStart v).buf = s.buf := rfl
@[simp] theorem State.setStart_reloc (s : State) (v : StartUp) : (s.setStart v).reloc = s.reloc := rfl
@[simp] theorem State.setStart_jour (s : State) (v : StartUp) : (s.setStart v).jour = s.jour := rfl
@[simp] theorem State.setStart_start (s : State) (v : StartUp) : (s.setStart v).start = v := rfl
@[simp] theorem State.setStart_survey (s : State) (v : StartUp) : (s.setStart v).survey = s.survey := rfl
@[simp] theorem State.setStart_log (s : State) (v : StartUp) : (s.setStart v).log = s.log := rfl
@[simp] theorem State.setStart_alert (s : State) (v : StartUp) : (s.setStart v).alert = s.alert := rfl
@[simp] theorem State.setStart_port (s : State) (v : StartUp) : (s.setStart v).port = s.port := rfl
@[simp] theorem State.setStart_guard (s : State) (v : StartUp) : (s.setStart v).guard = s.guard := rfl
@[simp] theorem State.setStart_policy (s : State) (v : StartUp) : (s.setStart v).policy = s.policy := rfl
@[simp] theorem State.setStart_tick (s : State) (v : StartUp) : (s.setStart v).tick = s.tick := rfl
@[simp] theorem State.setStart_out (s : State) (v : StartUp) : (s.setStart v).out = s.out := rfl
@[simp] theorem State.setStart_ids (s : State) (v : StartUp) : (s.setStart v).ids = s.ids := rfl
@[simp] theorem State.setStart_pending (s : State) (v : StartUp) : (s.setStart v).pending = s.pending := rfl

@[simp] theorem State.setSurvey_host (s : State) (v : Survey) : (s.setSurvey v).host = s.host := rfl
@[simp] theorem State.setSurvey_map (s : State) (v : Survey) : (s.setSurvey v).map = s.map := rfl
@[simp] theorem State.setSurvey_array (s : State) (v : Survey) : (s.setSurvey v).array = s.array := rfl
@[simp] theorem State.setSurvey_buf (s : State) (v : Survey) : (s.setSurvey v).buf = s.buf := rfl
@[simp] theorem State.setSurvey_reloc (s : State) (v : Survey) : (s.setSurvey v).reloc = s.reloc := rfl
@[simp] theorem State.setSurvey_jour (s : State) (v : Survey) : (s.setSurvey v).jour = s.jour := rfl
@[simp] theorem State.setSurvey_start (s : State) (v : Survey) : (s.setSurvey v).start = s.start := rfl
@[simp] theorem State.setSurvey_survey (s : State) (v : Survey) : (s.setSurvey v).survey = v := rfl
@[simp] theorem State.setSurvey_log (s : State) (v : Survey) : (s.setSurvey v).log = s.log := rfl
@[simp] theorem State.setSurvey_alert (s : State) (v : Survey) : (s.setSurvey v).alert = s.alert := rfl
@[simp] theorem State.setSurvey_port (s : State) (v : Survey) : (s.setSurvey v).port = s.port := rfl
@[simp] theorem State.setSurvey_guard (s : State) (v : Survey) : (s.setSurvey v).guard = s.guard := rfl
@[simp] theorem State.setSurvey_policy (s : State) (v : Survey) : (s.setSurvey v).policy = s.policy := rfl
@[simp] theorem State.setSurvey_tick (s : State) (v : Survey) : (s.setSurvey v).tick = s.tick := rfl
@[simp] theorem State.setSurvey_out (s : State) (v : Survey) : (s.setSurvey v).out = s.out := rfl
@[simp] theorem State.setSurvey_ids (s : State) (v : Survey) : (s.setSurvey v).ids = s.ids := rfl
@[simp] theorem State.setSurvey_pending (s : State) (v : Survey) : (s.setSurvey v).pending = s.pending := rfl

@[simp] theorem State.setLog_host (s : State) (v : FaultLog) : (s.setLog v).host = s.host := rfl
@[simp] theorem State.setLog_map (s : State) (v : FaultLog) : (s.setLog v).map = s.map := rfl
@[simp] theorem State.setLog_array (s : State) (v : FaultLog) : (s.setLog v).array = s.array := rfl
@[simp] theorem State.setLog_buf (s : State) (v : FaultLog) : (s.setLog v).buf = s.buf := rfl
@[simp] theorem State.setLog_reloc (s : State) (v : FaultLog) : (s.setLog v).reloc = s.reloc := rfl
@[simp] theorem State.setLog_jour (s : State) (v : FaultLog) : (s.setLog v).jour = s.jour := rfl
@[simp] theorem State.setLog_start (s : State) (v : FaultLog) : (s.setLog v).start = s.start := rfl
@[simp] theorem State.setLog_survey (s : State) (v : FaultLog) : (s.setLog v).survey = s.survey := rfl
@[simp] theorem State.setLog_log (s : State) (v : FaultLog) : (s.setLog v).log = v := rfl
@[simp] theorem State.setLog_alert (s : State) (v : FaultLog) : (s.setLog v).alert = s.alert := rfl
@[simp] theorem State.setLog_port (s : State) (v : FaultLog) : (s.setLog v).port = s.port := rfl
@[simp] theorem State.setLog_guard (s : State) (v : FaultLog) : (s.setLog v).guard = s.guard := rfl
@[simp] theorem State.setLog_policy (s : State) (v : FaultLog) : (s.setLog v).policy = s.policy := rfl
@[simp] theorem State.setLog_tick (s : State) (v : FaultLog) : (s.setLog v).tick = s.tick := rfl
@[simp] theorem State.setLog_out (s : State) (v : FaultLog) : (s.setLog v).out = s.out := rfl
@[simp] theorem State.setLog_ids (s : State) (v : FaultLog) : (s.setLog v).ids = s.ids := rfl
@[simp] theorem State.setLog_pending (s : State) (v : FaultLog) : (s.setLog v).pending = s.pending := rfl

@[simp] theorem State.setAlert_host (s : State) (v : Alert) : (s.setAlert v).host = s.host := rfl
@[simp] theorem State.setAlert_map (s : State) (v : Alert) : (s.setAlert v).map = s.map := rfl
@[simp] theorem State.setAlert_array (s : State) (v : Alert) : (s.setAlert v).array = s.array := rfl
@[simp] theorem State.setAlert_buf (s : State) (v : Alert) : (s.setAlert v).buf = s.buf := rfl
@[simp] theorem State.setAlert_reloc (s : State) (v : Alert) : (s.setAlert v).reloc = s.reloc := rfl
@[simp] theorem State.setAlert_jour (s : State) (v : Alert) : (s.setAlert v).jour = s.jour := rfl
@[simp] theorem State.setAlert_start (s : State) (v : Alert) : (s.setAlert v).start = s.start := rfl
@[simp] theorem State.setAlert_survey (s : State) (v : Alert) : (s.setAlert v).survey = s.survey := rfl
@[simp] theorem State.setAlert_log (s : State) (v : Alert) : (s.setAlert v).log = s.log := rfl
@[simp] theorem State.setAlert_alert (s : State) (v : Alert) : (s.setAlert v).alert = v := rfl
@[simp] theorem State.setAlert_port (s : State) (v : Alert) : (s.setAlert v).port = s.port := rfl
@[simp] theorem State.setAlert_guard (s : State) (v : Alert) : (s.setAlert v).guard = s.guard := rfl
@[simp] theorem State.setAlert_policy (s : State) (v : Alert) : (s.setAlert v).policy = s.policy := rfl
@[simp] theorem State.setAlert_tick (s : State) (v : Alert) : (s.setAlert v).tick = s.tick := rfl
@[simp] theorem State.setAlert_out (s : State) (v : Alert) : (s.setAlert v).out = s.out := rfl
@[simp] theorem State.setAlert_ids (s : State) (v : Alert) : (s.setAlert v).ids = s.ids := rfl
@[simp] theorem State.setAlert_pending (s : State) (v : Alert) : (s.setAlert v).pending = s.pending := rfl

@[simp] theorem State.setPort_host (s : State) (v : ServicePort) : (s.setPort v).host = s.host := rfl
@[simp] theorem State.setPort_map (s : State) (v : ServicePort) : (s.setPort v).map = s.map := rfl
@[simp] theorem State.setPort_array (s : State) (v : ServicePort) : (s.setPort v).array = s.array := rfl
@[simp] theorem State.setPort_buf (s : State) (v : ServicePort) : (s.setPort v).buf = s.buf := rfl
@[simp] theorem State.setPort_reloc (s : State) (v : ServicePort) : (s.setPort v).reloc = s.reloc := rfl
@[simp] theorem State.setPort_jour (s : State) (v : ServicePort) : (s.setPort v).jour = s.jour := rfl
@[simp] theorem State.setPort_start (s : State) (v : ServicePort) : (s.setPort v).start = s.start := rfl
@[simp] theorem State.setPort_survey (s : State) (v : ServicePort) : (s.setPort v).survey = s.survey := rfl
@[simp] theorem State.setPort_log (s : State) (v : ServicePort) : (s.setPort v).log = s.log := rfl
@[simp] theorem State.setPort_alert (s : State) (v : ServicePort) : (s.setPort v).alert = s.alert := rfl
@[simp] theorem State.setPort_port (s : State) (v : ServicePort) : (s.setPort v).port = v := rfl
@[simp] theorem State.setPort_guard (s : State) (v : ServicePort) : (s.setPort v).guard = s.guard := rfl
@[simp] theorem State.setPort_policy (s : State) (v : ServicePort) : (s.setPort v).policy = s.policy := rfl
@[simp] theorem State.setPort_tick (s : State) (v : ServicePort) : (s.setPort v).tick = s.tick := rfl
@[simp] theorem State.setPort_out (s : State) (v : ServicePort) : (s.setPort v).out = s.out := rfl
@[simp] theorem State.setPort_ids (s : State) (v : ServicePort) : (s.setPort v).ids = s.ids := rfl
@[simp] theorem State.setPort_pending (s : State) (v : ServicePort) : (s.setPort v).pending = s.pending := rfl

@[simp] theorem State.setGuard_host (s : State) (v : Guard) : (s.setGuard v).host = s.host := rfl
@[simp] theorem State.setGuard_map (s : State) (v : Guard) : (s.setGuard v).map = s.map := rfl
@[simp] theorem State.setGuard_array (s : State) (v : Guard) : (s.setGuard v).array = s.array := rfl
@[simp] theorem State.setGuard_buf (s : State) (v : Guard) : (s.setGuard v).buf = s.buf := rfl
@[simp] theorem State.setGuard_reloc (s : State) (v : Guard) : (s.setGuard v).reloc = s.reloc := rfl
@[simp] theorem State.setGuard_jour (s : State) (v : Guard) : (s.setGuard v).jour = s.jour := rfl
@[simp] theorem State.setGuard_start (s : State) (v : Guard) : (s.setGuard v).start = s.start := rfl
@[simp] theorem State.setGuard_survey (s : State) (v : Guard) : (s.setGuard v).survey = s.survey := rfl
@[simp] theorem State.setGuard_log (s : State) (v : Guard) : (s.setGuard v).log = s.log := rfl
@[simp] theorem State.setGuard_alert (s : State) (v : Guard) : (s.setGuard v).alert = s.alert := rfl
@[simp] theorem State.setGuard_port (s : State) (v : Guard) : (s.setGuard v).port = s.port := rfl
@[simp] theorem State.setGuard_guard (s : State) (v : Guard) : (s.setGuard v).guard = v := rfl
@[simp] theorem State.setGuard_policy (s : State) (v : Guard) : (s.setGuard v).policy = s.policy := rfl
@[simp] theorem State.setGuard_tick (s : State) (v : Guard) : (s.setGuard v).tick = s.tick := rfl
@[simp] theorem State.setGuard_out (s : State) (v : Guard) : (s.setGuard v).out = s.out := rfl
@[simp] theorem State.setGuard_ids (s : State) (v : Guard) : (s.setGuard v).ids = s.ids := rfl
@[simp] theorem State.setGuard_pending (s : State) (v : Guard) : (s.setGuard v).pending = s.pending := rfl

@[simp] theorem State.setPolicy_host (s : State) (v : PolicySets) : (s.setPolicy v).host = s.host := rfl
@[simp] theorem State.setPolicy_map (s : State) (v : PolicySets) : (s.setPolicy v).map = s.map := rfl
@[simp] theorem State.setPolicy_array (s : State) (v : PolicySets) : (s.setPolicy v).array = s.array := rfl
@[simp] theorem State.setPolicy_buf (s : State) (v : PolicySets) : (s.setPolicy v).buf = s.buf := rfl
@[simp] theorem State.setPolicy_reloc (s : State) (v : PolicySets) : (s.setPolicy v).reloc = s.reloc := rfl
@[simp] theorem State.setPolicy_jour (s : State) (v : PolicySets) : (s.setPolicy v).jour = s.jour := rfl
@[simp] theorem State.setPolicy_start (s : State) (v : PolicySets) : (s.setPolicy v).start = s.start := rfl
@[simp] theorem State.setPolicy_survey (s : State) (v : PolicySets) : (s.setPolicy v).survey = s.survey := rfl
@[simp] theorem State.setPolicy_log (s : State) (v : PolicySets) : (s.setPolicy v).log = s.log := rfl
@[simp] theorem State.setPolicy_alert (s : State) (v : PolicySets) : (s.setPolicy v).alert = s.alert := rfl
@[simp] theorem State.setPolicy_port (s : State) (v : PolicySets) : (s.setPolicy v).port = s.port := rfl
@[simp] theorem State.setPolicy_guard (s : State) (v : PolicySets) : (s.setPolicy v).guard = s.guard := rfl
@[simp] theorem State.setPolicy_policy (s : State) (v : PolicySets) : (s.setPolicy v).policy = v := rfl
@[simp] theorem State.setPolicy_tick (s : State) (v : PolicySets) : (s.setPolicy v).tick = s.tick := rfl
@[simp] theorem State.setPolicy_out (s : State) (v : PolicySets) : (s.setPolicy v).out = s.out := rfl
@[simp] theorem State.setPolicy_ids (s : State) (v : PolicySets) : (s.setPolicy v).ids = s.ids := rfl
@[simp] theorem State.setPolicy_pending (s : State) (v : PolicySets) : (s.setPolicy v).pending = s.pending := rfl

@[simp] theorem State.setTick_host (s : State) (v : Tick) : (s.setTick v).host = s.host := rfl
@[simp] theorem State.setTick_map (s : State) (v : Tick) : (s.setTick v).map = s.map := rfl
@[simp] theorem State.setTick_array (s : State) (v : Tick) : (s.setTick v).array = s.array := rfl
@[simp] theorem State.setTick_buf (s : State) (v : Tick) : (s.setTick v).buf = s.buf := rfl
@[simp] theorem State.setTick_reloc (s : State) (v : Tick) : (s.setTick v).reloc = s.reloc := rfl
@[simp] theorem State.setTick_jour (s : State) (v : Tick) : (s.setTick v).jour = s.jour := rfl
@[simp] theorem State.setTick_start (s : State) (v : Tick) : (s.setTick v).start = s.start := rfl
@[simp] theorem State.setTick_survey (s : State) (v : Tick) : (s.setTick v).survey = s.survey := rfl
@[simp] theorem State.setTick_log (s : State) (v : Tick) : (s.setTick v).log = s.log := rfl
@[simp] theorem State.setTick_alert (s : State) (v : Tick) : (s.setTick v).alert = s.alert := rfl
@[simp] theorem State.setTick_port (s : State) (v : Tick) : (s.setTick v).port = s.port := rfl
@[simp] theorem State.setTick_guard (s : State) (v : Tick) : (s.setTick v).guard = s.guard := rfl
@[simp] theorem State.setTick_policy (s : State) (v : Tick) : (s.setTick v).policy = s.policy := rfl
@[simp] theorem State.setTick_tick (s : State) (v : Tick) : (s.setTick v).tick = v := rfl
@[simp] theorem State.setTick_out (s : State) (v : Tick) : (s.setTick v).out = s.out := rfl
@[simp] theorem State.setTick_ids (s : State) (v : Tick) : (s.setTick v).ids = s.ids := rfl
@[simp] theorem State.setTick_pending (s : State) (v : Tick) : (s.setTick v).pending = s.pending := rfl

@[simp] theorem State.setOut_host (s : State) (v : Outputs) : (s.setOut v).host = s.host := rfl
@[simp] theorem State.setOut_map (s : State) (v : Outputs) : (s.setOut v).map = s.map := rfl
@[simp] theorem State.setOut_array (s : State) (v : Outputs) : (s.setOut v).array = s.array := rfl
@[simp] theorem State.setOut_buf (s : State) (v : Outputs) : (s.setOut v).buf = s.buf := rfl
@[simp] theorem State.setOut_reloc (s : State) (v : Outputs) : (s.setOut v).reloc = s.reloc := rfl
@[simp] theorem State.setOut_jour (s : State) (v : Outputs) : (s.setOut v).jour = s.jour := rfl
@[simp] theorem State.setOut_start (s : State) (v : Outputs) : (s.setOut v).start = s.start := rfl
@[simp] theorem State.setOut_survey (s : State) (v : Outputs) : (s.setOut v).survey = s.survey := rfl
@[simp] theorem State.setOut_log (s : State) (v : Outputs) : (s.setOut v).log = s.log := rfl
@[simp] theorem State.setOut_alert (s : State) (v : Outputs) : (s.setOut v).alert = s.alert := rfl
@[simp] theorem State.setOut_port (s : State) (v : Outputs) : (s.setOut v).port = s.port := rfl
@[simp] theorem State.setOut_guard (s : State) (v : Outputs) : (s.setOut v).guard = s.guard := rfl
@[simp] theorem State.setOut_policy (s : State) (v : Outputs) : (s.setOut v).policy = s.policy := rfl
@[simp] theorem State.setOut_tick (s : State) (v : Outputs) : (s.setOut v).tick = s.tick := rfl
@[simp] theorem State.setOut_out (s : State) (v : Outputs) : (s.setOut v).out = v := rfl
@[simp] theorem State.setOut_ids (s : State) (v : Outputs) : (s.setOut v).ids = s.ids := rfl
@[simp] theorem State.setOut_pending (s : State) (v : Outputs) : (s.setOut v).pending = s.pending := rfl

@[simp] theorem State.setIds_host (s : State) (v : Counters) : (s.setIds v).host = s.host := rfl
@[simp] theorem State.setIds_map (s : State) (v : Counters) : (s.setIds v).map = s.map := rfl
@[simp] theorem State.setIds_array (s : State) (v : Counters) : (s.setIds v).array = s.array := rfl
@[simp] theorem State.setIds_buf (s : State) (v : Counters) : (s.setIds v).buf = s.buf := rfl
@[simp] theorem State.setIds_reloc (s : State) (v : Counters) : (s.setIds v).reloc = s.reloc := rfl
@[simp] theorem State.setIds_jour (s : State) (v : Counters) : (s.setIds v).jour = s.jour := rfl
@[simp] theorem State.setIds_start (s : State) (v : Counters) : (s.setIds v).start = s.start := rfl
@[simp] theorem State.setIds_survey (s : State) (v : Counters) : (s.setIds v).survey = s.survey := rfl
@[simp] theorem State.setIds_log (s : State) (v : Counters) : (s.setIds v).log = s.log := rfl
@[simp] theorem State.setIds_alert (s : State) (v : Counters) : (s.setIds v).alert = s.alert := rfl
@[simp] theorem State.setIds_port (s : State) (v : Counters) : (s.setIds v).port = s.port := rfl
@[simp] theorem State.setIds_guard (s : State) (v : Counters) : (s.setIds v).guard = s.guard := rfl
@[simp] theorem State.setIds_policy (s : State) (v : Counters) : (s.setIds v).policy = s.policy := rfl
@[simp] theorem State.setIds_tick (s : State) (v : Counters) : (s.setIds v).tick = s.tick := rfl
@[simp] theorem State.setIds_out (s : State) (v : Counters) : (s.setIds v).out = s.out := rfl
@[simp] theorem State.setIds_ids (s : State) (v : Counters) : (s.setIds v).ids = v := rfl
@[simp] theorem State.setIds_pending (s : State) (v : Counters) : (s.setIds v).pending = s.pending := rfl

@[simp] theorem State.setPending_host (s : State) (v : List Instr) : (s.setPending v).host = s.host := rfl
@[simp] theorem State.setPending_map (s : State) (v : List Instr) : (s.setPending v).map = s.map := rfl
@[simp] theorem State.setPending_array (s : State) (v : List Instr) : (s.setPending v).array = s.array := rfl
@[simp] theorem State.setPending_buf (s : State) (v : List Instr) : (s.setPending v).buf = s.buf := rfl
@[simp] theorem State.setPending_reloc (s : State) (v : List Instr) : (s.setPending v).reloc = s.reloc := rfl
@[simp] theorem State.setPending_jour (s : State) (v : List Instr) : (s.setPending v).jour = s.jour := rfl
@[simp] theorem State.setPending_start (s : State) (v : List Instr) : (s.setPending v).start = s.start := rfl
@[simp] theorem State.setPending_survey (s : State) (v : List Instr) : (s.setPending v).survey = s.survey := rfl
@[simp] theorem State.setPending_log (s : State) (v : List Instr) : (s.setPending v).log = s.log := rfl
@[simp] theorem State.setPending_alert (s : State) (v : List Instr) : (s.setPending v).alert = s.alert := rfl
@[simp] theorem State.setPending_port (s : State) (v : List Instr) : (s.setPending v).port = s.port := rfl
@[simp] theorem State.setPending_guard (s : State) (v : List Instr) : (s.setPending v).guard = s.guard := rfl
@[simp] theorem State.setPending_policy (s : State) (v : List Instr) : (s.setPending v).policy = s.policy := rfl
@[simp] theorem State.setPending_tick (s : State) (v : List Instr) : (s.setPending v).tick = s.tick := rfl
@[simp] theorem State.setPending_out (s : State) (v : List Instr) : (s.setPending v).out = s.out := rfl
@[simp] theorem State.setPending_ids (s : State) (v : List Instr) : (s.setPending v).ids = s.ids := rfl
@[simp] theorem State.setPending_pending (s : State) (v : List Instr) : (s.setPending v).pending = v := rfl

end Sys2Proof.Machine
end

