-- ==== Sys2Proof/Laws/Settle.lean ====
section
/-! SUPPORT. What the rest of an event does when nothing internal is due. -/

namespace Sys2Proof.Machine

theorem firstReady_none (order : List HostReq) : ∀ seen, (∀ r ∈ order, r.stage ≠ .queued) → firstReady seen order = none := by
  induction order with
  | nil => intro _ _; rfl
  | cons r rest ih =>
    intro seen h
    have hr : r.stage ≠ .queued := h r (by simp)
    rw [firstReady, if_neg (fun hc => hr hc.1)]
    exact ih _ fun q hq => h q (by simp [hq])

theorem settleBarriers_none {s : State} (h : s.host.barriers = []) : settleBarriers s = s := by
  unfold settleBarriers answerBarriers
  simp only [h, List.filter_nil, List.length_nil, freeOrder, List.foldl_nil]
  rw [← h]
  rfl

theorem foldl_fixed {α : Type} (f : State → α → State) (s : State) (l : List α) (h : ∀ a ∈ l, f s a = s) : l.foldl f s = s := by
  induction l with
  | nil => rfl
  | cons a rest ih =>
    rw [List.foldl_cons, h a (by simp)]
    exact ih fun b hb => h b (by simp [hb])

/-- When the journal decides nothing (R120). -/
theorem decideNext_none_iff (s : State) :
    decideNext s = none ↔ ¬ (s.jour.state = .ready ∧ (s.start.op = .running ∨ s.start.op = .quiescing)) ∨ s.jour.active = none ∨
      (¬ (currentCommand s = some .journalCompact ∨ Config.bankLines < s.jour.nextLine + Config.lowMark) ∧ s.jour.queue = []) := by
  unfold decideNext
  by_cases h : s.jour.state = .ready ∧ (s.start.op = .running ∨ s.start.op = .quiescing)
  · rw [if_pos h]
    cases ha : s.jour.active with
    | none => simp
    | some bank =>
      by_cases hc : currentCommand s = some .journalCompact ∨ Config.bankLines < s.jour.nextLine + Config.lowMark
      · simp [h, hc]
      · simp only [if_neg hc, List.isEmpty_iff]
        by_cases hq : s.jour.queue = []
        · simp [hq, hc]
        · simp [hq, h]
  · rw [if_neg h]
    simp [h]

/-- Only a QUIESCING part ends a quiesce. -/
theorem quiesceNext_none {s : State} (h : s.start.op ≠ .quiescing) : quiesceNext s = none := by
  unfold quiesceNext
  exact if_neg fun hc => h hc.1

/-- No held outcome is due exactly when none is held or the journal is not READY (R105). -/
theorem heldNext_none_iff (s : State) : heldNext s = none ↔ s.reloc.held = [] ∨ s.jour.state ≠ .ready := by
  unfold heldNext
  cases s.reloc.held with
  | nil => simp
  | cons h rest =>
    by_cases hr : s.jour.state = .ready
    · simp only [if_pos hr]
      split <;> simp [hr]
    · simp [hr]

/-- What `steady` says. -/
theorem steady_iff (s : State) :
    steady s = true ↔ s.reloc.queue = [] ∧ heldNext s = none ∧ s.host.roomWait = [] ∧ s.jour.wait = [] ∧ s.host.barriers = [] ∧
      (∀ r ∈ s.host.order, r.stage ≠ .queued) ∧ decideNext s = none ∧ quiesceNext s = none := by
  simp [steady, and_assoc]

theorem microStep_steady {s : State} (h : steady s = true) : microStep s = none := by
  rw [steady_iff] at h
  obtain ⟨hq, hh, hw, hj, _, ho, hd, _⟩ := h
  unfold microStep
  have h1 : handoffNext s = none := by unfold handoffNext; rw [hq]; split <;> rfl
  have h2 : roomEntryNext s = none := by unfold roomEntryNext; rw [hw]
  have h3 : presentNext s = none := by unfold presentNext; rw [firstReady_none _ _ ho]; rfl
  have h4 : joinNext s = none := by unfold joinNext; rw [hj]
  rw [hh, h1, h2, h3, h4, hd]
  rfl

/-- Placing drain requests changes the arbiter's waiting list and the identities alone. -/
theorem placeDrains_frame (s : State) :
    ∃ w n, placeDrains s = (s.setArray { s.array with waiting := w }).setIds { s.ids with nextId := n } := by
  unfold placeDrains
  generalize readyEntries [] s.buf.entries ++ readyDirect s = refs
  induction refs generalizing s with
  | nil => exact ⟨s.array.waiting, s.ids.nextId, rfl⟩
  | cons ref rest ih =>
    rw [List.foldl_cons]
    split
    · exact ih s
    · obtain ⟨w, n, e⟩ := ih (placeDrain ref s)
      exact ⟨w, n, e⟩

/-- When nothing internal is due, what is left of an event is the drain requests and the level causes. -/
theorem settle_steady {s : State} (h : steady s = true) : settle s = evalLevels (placeDrains s) := by
  have hm := microStep_steady h
  rw [steady_iff] at h
  obtain ⟨hq, _, hw, hj, hb, ho, hd, hz⟩ := h
  have h1 : settleLoop (settleFuel s) s = s := by
    unfold settleFuel
    rw [settleLoop, hm]
  obtain ⟨w, n, e⟩ := placeDrains_frame s
  have hb' : (placeDrains s).host.barriers = [] := by rw [e]; exact hb
  have hz' : quiesceNext (placeDrains s) = none := by
    rw [e]
    unfold quiesceNext at hz ⊢
    split at hz
    · cases hz
    · rename_i hc
      exact if_neg hc
  unfold settle
  rw [h1, settleBarriers_none hb']
  unfold settleQuiesce
  rw [hz']
  rfl

theorem placeDrains_drained {s : State} (h : drained s = true) : placeDrains s = s := by
  rw [drained, List.all_eq_true] at h
  exact foldl_fixed _ _ _ fun ref href => by rw [if_pos (h ref href)]

theorem calm_iff (s : State) : calm s = true ↔ steady s = true ∧ drained s = true := by simp [calm]

/-- When nothing internal is due and no drain request is to be placed, the rest of an event is the level causes. -/
theorem settle_calm {s : State} (h : calm s = true) : settle s = evalLevels s := by
  rw [calm_iff] at h
  rw [settle_steady h.1, placeDrains_drained h.2]

/-- An event whose effect leaves nothing internal due. -/
theorem event_steady {effect : State → State} {s : State} (h : steady (effect (nextEvent s)) = true) :
    event effect s = evalLevels (placeDrains (effect (nextEvent s))) := settle_steady h

/-- One internal step that leaves nothing internal due. -/
theorem settle_one {s t : State} (h : microStep s = some t) (ht : steady t = true) : settle s = evalLevels (placeDrains t) := by
  have h1 : settleLoop (settleFuel s) s = t := by
    have : settleFuel s = (settleFuel s - 2) + 1 + 1 := by unfold settleFuel; omega
    rw [this, settleLoop, h]
    simp only [settleLoop, microStep_steady ht]
  have h2 := settle_steady ht
  unfold settle at h2 ⊢
  rw [h1]
  have h3 : settleLoop (settleFuel t) t = t := by
    have : settleFuel t = (settleFuel t - 1) + 1 := by unfold settleFuel; omega
    rw [this, settleLoop, microStep_steady ht]
  rw [h3] at h2
  exact h2

/-- Two internal steps that leave nothing internal due. -/
theorem settle_two {s t u : State} (h : microStep s = some t) (h' : microStep t = some u) (hu : steady u = true) :
    settle s = evalLevels (placeDrains u) := by
  have h1 : settleLoop (settleFuel s) s = u := by
    have : settleFuel s = (settleFuel s - 3) + 1 + 1 + 1 := by unfold settleFuel; omega
    rw [this, settleLoop, h]
    simp only [settleLoop, h', microStep_steady hu]
  have h2 := settle_steady hu
  unfold settle at h2 ⊢
  rw [h1]
  have h3 : settleLoop (settleFuel u) u = u := by
    have : settleFuel u = (settleFuel u - 1) + 1 := by unfold settleFuel; omega
    rw [this, settleLoop, microStep_steady hu]
  rw [h3] at h2
  exact h2

/-- An event whose effect leaves nothing internal due ends with that effect and the level causes. -/
theorem event_calm {effect : State → State} {s : State} (h : calm (effect (nextEvent s)) = true) :
    event effect s = evalLevels (effect (nextEvent s)) := settle_calm h

/-- An internal event that its state requires, and that leaves nothing internal due. -/
theorem internalEvent_calm {next : State → Option State} {s t : State} (hn : next (nextEvent s) = some t)
    (h : calm t = true) : internalEvent next s = evalLevels t := by
  unfold internalEvent
  rw [hn]
  exact settle_calm h

/-- An internal event that its state does not require changes nothing. -/
theorem internalEvent_none {next : State → Option State} {s : State} (hn : next (nextEvent s) = none) :
    internalEvent next s = s := by
  unfold internalEvent
  rw [hn]

end Sys2Proof.Machine
end

