-- ==== Sys2Proof/Laws/Array.lean ====
section
/-! SUPPORT. What taking an array answer and granting come to. -/

namespace Sys2Proof.Machine

/-- The answer of the oldest operation, taken by its requester (R57): the event's effect, then the rest of the event. -/
theorem answerEvent_taken {accepts : Owner → Bool} {effect : Flight → State → State} {s : State} {f : Flight}
    {rest : List Flight} (h : s.array.inFlight = f :: rest) (ht : f.timedOut = false) (ho : accepts f.owner = true) :
    answerEvent accepts effect s = settle (effect f (answerTaken rest s)) := by
  unfold answerEvent
  rw [h]
  simp only [ht, ho, Bool.not_false, Bool.and_self, if_true]
  rfl

/-- An answer whose kind the oldest operation's requester does not take, or of a timed-out operation, changes nothing (log 4). -/
theorem answerEvent_other {accepts : Owner → Bool} {effect : Flight → State → State} {s : State} {f : Flight}
    {rest : List Flight} (h : s.array.inFlight = f :: rest) (ho : (!f.timedOut && accepts f.owner) = false) :
    answerEvent accepts effect s = s := by
  unfold answerEvent
  rw [h]
  simp only [ho]
  rfl

/-- With no command in progress the end of start-up answers none. -/
theorem answerStartUp_idle {s : State} (h : s.port.command = none) : answerStartUp s = s := by
  unfold answerStartUp currentCommand
  rw [h]
  rfl

/-- With no command in progress nothing is completed. -/
theorem completeCurrent_idle {s : State} (h : s.port.command = none) (status : Status) (results : List Byte) :
    completeCurrent status results s = s := by
  unfold completeCurrent
  rw [h]

/-- With every operation before it timed out, the next is the one that times out (R58). -/
theorem markOldest_append (late : List Flight) (hl : ∀ f ∈ late, f.timedOut = true) (f : Flight) (hf : f.timedOut = false)
    (rest : List Flight) : markOldest (late ++ f :: rest) = some (f, late ++ { f with timedOut := true } :: rest) := by
  induction late with
  | nil => simp [markOldest, hf]
  | cons a l ih =>
    rw [List.cons_append, markOldest, if_pos (hl a (by simp)), ih fun g hg => hl g (by simp [hg])]
    rfl

/-- One grant that issues an operation at the first choice (R62). -/
theorem grantNext_issued {s u : State} {q : ArbReq} (hn : s.array.inFlight.length < Config.flightLimit)
    (hq : chooseRequest s = some q)
    (hu : grantRequest q (s.setArray { s.array with waiting := s.array.waiting.erase q }) = .issued u) :
    grantNext s = some u := by
  have hw : s.array.waiting ≠ [] := by
    intro h0
    unfold chooseRequest at hq
    rw [h0] at hq
    cases hq
  have hp : grantPossible s = true := by
    unfold grantPossible
    simp [hn, hw]
  unfold grantNext
  rw [if_pos hp]
  have hf : grantFuel s = (grantFuel s - 1) + 1 := by unfold grantFuel; omega
  rw [hf, grantLoop, if_pos hp, hq]
  simp only [hu]

/-! ### Steps of proofs about commands -/

/-- An event whose effect leaves nothing to follow. -/
theorem next_settle_calm {u t : State} (key : u = t) (hc : calm t = true) : (Host.Outcome.next (settle u) : Result) = Host.Outcome.next (evalLevels t) := by
  rw [key, settle_calm hc]

/-- An event whose effect leaves drain requests to follow. -/
theorem next_settle_steady {u t : State} (key : u = t) (hc : steady t = true) : (Host.Outcome.next (settle u) : Result) = Host.Outcome.next (evalLevels (placeDrains t)) := by
  rw [key, settle_steady hc]

/-- An internal step that leaves drain requests to follow. -/
theorem next_internal_steady {u t : State} {next : State → Option State} {s : State} (hn : next (nextEvent s) = some u) (key : u = t) (hc : steady t = true) :
    (Host.Outcome.next (internalEvent next s) : Result) = .next (evalLevels (placeDrains t)) := by
  unfold internalEvent
  rw [hn, key]
  exact congrArg Host.Outcome.next (settle_steady hc)

/-- An internal step that leaves nothing to follow. -/
theorem next_internal_calm {u t : State} {next : State → Option State} {s : State} (hn : next (nextEvent s) = some u) (key : u = t) (hc : calm t = true) :
    (Host.Outcome.next (internalEvent next s) : Result) = .next (evalLevels t) := by
  unfold internalEvent
  rw [hn, key]
  exact congrArg Host.Outcome.next (settle_calm hc)

/-- No READ waits on an entry: the order is as before. -/
theorem requeue_none {s : State} {id : Nat} (h : ∀ r ∈ s.host.order, r.stage ≠ .waitEntry id) :
    s.host.order.map (fun r => if r.stage = .waitEntry id then { r with stage := .queued } else r) = s.host.order := by
  conv => rhs; rw [← List.map_id s.host.order]
  apply List.map_congr_left
  intro r hr
  rw [if_neg (h r hr)]; rfl

/-- The line counts R60 accepts are the powers of two from 2^18 to 2^24. -/
theorem acceptableCount_iff (count : Nat) : acceptableCount count = true ↔ ∃ k, 18 ≤ k ∧ k ≤ 24 ∧ count = 2 ^ k := by
  simp only [acceptableCount, List.any_eq_true, List.mem_range'_1, beq_iff_eq]
  exact ⟨fun ⟨k, hk, h⟩ => ⟨k, by omega, by omega, h⟩, fun ⟨k, h1, h2, h⟩ => ⟨k, by omega, h⟩⟩

theorem answerRetire_idle {x : State} (h : x.port.command = none) (home : Nat) (st rs) : answerRetire home st rs x = x := by
  unfold answerRetire retiring currentCommand
  rw [h]; rfl

/-- A return ends: the entry reverts, its target is DEAD and the slot is free (R4). -/
theorem revertEntry_eq {s : State} {rest} {home : Nat} {e : RemapEntry} {target : Nat} (he : entryOf s home = some e) (ht : e.target = some target) :
    freeSlot home (revertEntry home (answerTaken rest s)) = (offerRecord (.dead target)
          ((answerTaken rest s).setMap
            { s.map with
              table := if e.spare.isSome then insertEntry { e with target := none } s.map.table
                else s.map.table.filter (·.home != home)
              marks := insertMark target .dead s.map.marks })).setReloc
          { s.reloc with slots := s.reloc.slots.filter (·.home != home) } := by
  unfold freeSlot revertEntry
  rw [show entryOf (answerTaken rest s) home = some e from he]
  simp only [ht]
  have hr : ∀ x : State, x.reloc = s.reloc → x.setReloc { x.reloc with slots := x.reloc.slots.filter (·.home != home) } = x.setReloc { s.reloc with slots := s.reloc.slots.filter (·.home != home) } := by
    intro x hx; rw [hx]
  rw [hr]
  · unfold killSpare dropTarget
    cases hs : e.spare <;> rfl
  · unfold killSpare offerRecord dropTarget
    cases hs : e.spare <;> (dsimp only; split <;> rfl)

/-- A grant that issues the chosen request (R62). -/
theorem arbiterGrant_issued {s u : State} {q} (hn : s.array.inFlight.length < 8) (hq : chooseRequest s = some q)
    (hu : grantRequest q ((nextEvent s).setArray { s.array with waiting := s.array.waiting.erase q }) = .issued u) :
    exec .arbiterGrant s = .next (settle u) := by
  show Host.Outcome.next (internalEvent grantNext s) = _
  unfold internalEvent
  rw [grantNext_issued (s := nextEvent s) hn hq hu]

end Sys2Proof.Machine
end

