-- ==== Sys2Proof/Laws/Closed.lean ====
section
/-! SUPPORT. What every shared operation keeps: a predicate closed under the part's basic updates is kept by every operation built
from them, and so by every command. One lemma per operation. -/

namespace Sys2Proof.Machine

-- One theorem after another: all at once they ask for more threads than the check's memory holds.
set_option Elab.async false

/-- A predicate closed under the basic updates of the state that commands outside the Service Link can lead to, each with what is
true where the part makes it. -/
structure Quiet (P : State → Prop) : Prop where
  host : ∀ {s v}, v.tags.Sublist s.host.tags → v.reports.length ≤ max Config.reportLimit s.host.reports.length →
    (v.order.map (·.id)).Sublist (s.host.order.map (·.id)) → P s → P (s.setHost v)
  join : ∀ {s tag hla write}, P s → P (joinOrder tag hla write s)
  accept : ∀ {s t}, t ∉ s.host.tags → P s → P (s.setHost { s.host with tags := s.host.tags ++ [t] })
  mapSame : ∀ {s v}, v.table = s.map.table → v.marks = s.map.marks → v.fence = s.map.fence →
    v.poolBuilt = s.map.poolBuilt → P s → P (s.setMap v)
  begin : ∀ {s home spare cause}, home < fenceValue s → isMoving s home = false → spareStateOf s spare = some .free →
    P s → P (setEntry (beginEntry s home spare cause) (setMark spare .held s))
  retarget : ∀ {s home next}, spareStateOf s next = some .free → P s → P (retarget home next s)
  bind : ∀ {s home}, P s → P (bindTarget home s)
  revert : ∀ {s home e t}, entryOf s home = some e → e.target = some t → P s → P (setMark t .dead (dropTarget home e s))
  drop : ∀ {s home e}, entryOf s home = some e → e.target = none → P s → P (dropTarget home e s)
  kill : ∀ {s a}, spareStateOf s a = some .free → P s → P (setMark a .dead s)
  replayBind : ∀ {s home spare}, s.start.phase ≠ .idle → bindApplies s home spare = true → P s → P (replayBind home spare s)
  replayDead : ∀ {s a}, s.start.phase ≠ .idle → inReserve s a = true → markOf s.map.marks a ≠ some .bound → P s →
    P (setMark a .dead s)
  fence : ∀ {s f}, (s.map.poolBuilt = true ∨ s.start.phase ≠ .ident) → fenceApplies s f = true → P s → P (s.setMap { s.map with fence := some f })
  built : ∀ {s}, s.start.phase = .idle → P s → P (s.setMap { s.map with poolBuilt := true })
  rebuild : ∀ {s v}, P s →
    P ((s.setMap { s.map with table := [], marks := [], poolBuilt := false, fence := none, range := none }).setStart v)
  array : ∀ {s v}, v.lineCount = s.array.lineCount →
    v.inFlight.length ≤ max Config.flightLimit s.array.inFlight.length → P s → P (s.setArray v)
  ident : ∀ {s v}, s.start.phase = .ident → v.inFlight.length ≤ max Config.flightLimit s.array.inFlight.length → P s →
    P (s.setArray v)
  buf : ∀ {s v}, v.entries.length ≤ max Config.bufferEntries s.buf.entries.length → P s → P (s.setBuf v)
  reloc : ∀ {s v}, v.pendingList.length ≤ max Config.pendingLimit s.reloc.pendingList.length →
    v.watch.length ≤ max Config.watchEntries s.reloc.watch.length → v.busy ≤ max Config.slotCount s.reloc.busy → P s →
    P (s.setReloc v)
  jour : ∀ {s v}, v.queue.length ≤ max Config.queueLimit s.jour.queue.length → P s → P (s.setJour v)
  start : ∀ {s v}, (v.phase = s.start.phase ∨ v.phase = .idle ∨ (s.start.phase ≠ .idle ∧ v.phase ≠ .ident)) → P s →
    P (s.setStart v)
  survey : ∀ {s v}, P s → P (s.setSurvey v)
  alert : ∀ {s v}, P s → P (s.setAlert v)
  port : ∀ {s v}, P s → P (s.setPort v)
  out : ∀ {s v}, P s → P (s.setOut v)
  ids : ∀ {s v}, s.ids.nextId ≤ v.nextId → P s → P (s.setIds v)
  trace : ∀ {s kind tag hla}, P s → P (addTrace kind tag hla s)
  fault : ∀ {s kind hla ala step}, P s → P (writeFault kind hla ala step s)
  policyDefault : ∀ {s}, P s → P (s.setPolicy { active := .default, staged := .default })
  policySwap : ∀ {s}, P s → P (s.setPolicy { active := s.policy.staged, staged := s.policy.active })
  policyReplay : ∀ {s p}, inRanges p → P s → P (s.setPolicy { active := p, staged := p })

/-- A predicate closed under those updates and under the updates that service commands alone make. -/
structure Closed (P : State → Prop) : Prop extends Quiet P where
  cursorNext : ∀ {s r}, recordAtCursor s = some r → P s → P (s.setLog { s.log with cursor := r.seq + 1 })
  cursorOldest : ∀ {s}, P s → P (s.setLog { s.log with cursor := (oldestSeq s).getD s.log.next })
  logClear : ∀ {s}, P s → P (s.setLog { s.log with records := [], cursor := s.log.next })
  policyStage : ∀ {s p}, inRanges p → P s → P (s.setPolicy { s.policy with staged := p })
  lock : ∀ {s word}, s.guard.state = .open → P s →
    P (s.setGuard { state := .locked, attempts := Config.unlockAttempts, word := some word })
  unlock : ∀ {s word}, P s → P (s.setGuard (unlock word s.guard).2)
  freeze : ∀ {s}, P s → P (s.setGuard { s.guard with state := .frozen, word := none })

variable {P : State → Prop} {s t : State}

/-! ### Updates that leave the lists in question alone -/

theorem Quiet.hostKeep (h : Quiet P) {v : HostLink} (hs : P s) (ht : v.tags = s.host.tags := by rfl)
    (hr : v.reports = s.host.reports := by rfl)
    (ho : (v.order.map (·.id)).Sublist (s.host.order.map (·.id)) := by exact List.Sublist.refl _) : P (s.setHost v) :=
  h.host (ht ▸ List.Sublist.refl _) (by simp [hr]) ho hs

theorem Quiet.mapKeep (h : Quiet P) {v : MapState} (hs : P s) (ht : v.table = s.map.table := by rfl)
    (hm : v.marks = s.map.marks := by rfl) (hf : v.fence = s.map.fence := by rfl)
    (hb : v.poolBuilt = s.map.poolBuilt := by rfl) : P (s.setMap v) := h.mapSame ht hm hf hb hs

/-- An update of requests that leaves their identities alone. -/
theorem map_ids (f : HostReq → HostReq) (hf : ∀ r, (f r).id = r.id) (l : List HostReq) :
    (l.map f).map (·.id) = l.map (·.id) := by
  simp [List.map_map, Function.comp_def, hf]

theorem Quiet.bufKeep (h : Quiet P) {v : WriteBuffer} (hs : P s)
    (he : v.entries.length ≤ s.buf.entries.length := by simp) : P (s.setBuf v) := h.buf (by omega) hs

theorem Quiet.relocKeep (h : Quiet P) {v : Retirement} (hs : P s)
    (hp : v.pendingList.length ≤ s.reloc.pendingList.length := by simp)
    (hw : v.watch.length ≤ s.reloc.watch.length := by simp)
    (hb : v.busy ≤ s.reloc.busy := by first | exact Nat.le_refl _ | simp [Retirement.busy]) : P (s.setReloc v) :=
  h.reloc (by omega) (by omega) (by omega) hs

theorem Quiet.arrayKeep (h : Quiet P) {v : ArrayLink} (hs : P s) (hc : v.lineCount = s.array.lineCount := by rfl)
    (hf : v.inFlight.length ≤ s.array.inFlight.length := by first | exact Nat.le_refl _ | simp) : P (s.setArray v) :=
  h.array hc (by omega) hs

theorem Quiet.jourKeep (h : Quiet P) {v : Journal} (hs : P s)
    (hq : v.queue.length ≤ s.jour.queue.length := by simp) : P (s.setJour v) := h.jour (by omega) hs

/-- A fold of steps that each keep a predicate keeps it. -/
theorem foldl_keeps {α : Type} {f : State → α → State} (hf : ∀ s a, P s → P (f s a)) :
    ∀ (l : List α) (s : State), P s → P (l.foldl f s)
  | [], _, hs => hs
  | a :: l, s, hs => foldl_keeps hf l (f s a) (hf s a hs)

/-! ### Ops -/

theorem latch_keeps (h : Quiet P) {c} (hs : P s) : P (latch c s) := h.alert hs
theorem nextEvent_keeps (h : Quiet P) (hs : P s) : P (nextEvent s) := h.ids (Nat.le_refl _) hs
theorem takeId_keeps (h : Quiet P) (hs : P s) : P (takeId s) := h.ids (Nat.le_succ _) hs

theorem queueReport_keeps (h : Quiet P) {hla reason} (hs : P s) : P (queueReport hla reason s) := by
  unfold queueReport
  split
  · exact latch_keeps h (h.host (List.Sublist.refl _) (by simp; omega) (List.Sublist.refl _) hs)
  · exact latch_keeps h hs

theorem sendResponse_keeps (h : Quiet P) {kind tag status reason data} (hs : P s) :
    P (sendResponse kind tag status reason data s) := by
  unfold sendResponse
  refine h.out (h.host List.filter_sublist ?_ (List.Sublist.refl _) hs)
  dsimp only
  split <;> simp

theorem answerBarriers_keeps (h : Quiet P) {verdict} (hs : P s) : P (answerBarriers verdict s) := by
  unfold answerBarriers
  refine foldl_keeps ?_ _ _ (h.hostKeep hs)
  intro s b hs
  split
  · exact sendResponse_keeps h hs
  · exact hs

theorem settleBarriers_keeps (h : Quiet P) (hs : P s) : P (settleBarriers s) := answerBarriers_keeps h hs
theorem failCovered_keeps (h : Quiet P) {epoch} (hs : P s) : P (failCovered epoch s) := answerBarriers_keeps h hs
theorem dropReq_keeps (h : Quiet P) {id} (hs : P s) : P (dropReq id s) :=
  h.hostKeep hs rfl rfl (List.filter_sublist.map _)
theorem setStage_keeps (h : Quiet P) {id stage} (hs : P s) : P (setStage id stage s) :=
  h.hostKeep hs rfl rfl (by dsimp only; rw [map_ids _ (fun r => by split <;> rfl)])

theorem answerReq_keeps (h : Quiet P) {r kind status data} (hs : P s) : P (answerReq r kind status data s) := by
  unfold answerReq
  dsimp only
  split
  · exact sendResponse_keeps h (dropReq_keeps h hs)
  · exact dropReq_keeps h hs

theorem evalLevels_keeps (h : Quiet P) (hs : P s) : P (evalLevels s) := h.alert hs

theorem updateItem_keeps (h : Quiet P) {ref f} (hs : P s) : P (updateItem ref f s) := by
  unfold updateItem
  split <;> exact h.bufKeep hs

theorem requeueWaiters_keeps (h : Quiet P) {entry} (hs : P s) : P (requeueWaiters entry s) :=
  h.hostKeep hs rfl rfl (by dsimp only; rw [map_ids _ (fun r => by split <;> rfl)])

theorem leaveItem_keeps (h : Quiet P) {ref} (hs : P s) : P (leaveItem ref s) := by
  unfold leaveItem
  split
  · exact requeueWaiters_keeps h (h.bufKeep hs (List.length_filter_le _ _))
  · exact dropReq_keeps h (h.bufKeep hs)

theorem completeItem_keeps (h : Quiet P) {ref} (hs : P s) : P (completeItem ref s) := by
  unfold completeItem
  split
  · exact leaveItem_keeps h hs
  · dsimp only
    split
    · split
      · exact sendResponse_keeps h (leaveItem_keeps h hs)
      · exact leaveItem_keeps h hs
    · exact leaveItem_keeps h hs

theorem discardItem_keeps (h : Quiet P) {ref item reason} (hs : P s) : P (discardItem ref item reason s) := by
  unfold discardItem
  split
  · exact failCovered_keeps h (leaveItem_keeps h (queueReport_keeps h hs))
  · split
    · split
      · exact sendResponse_keeps h (leaveItem_keeps h hs)
      · exact leaveItem_keeps h (queueReport_keeps h hs)
    · exact leaveItem_keeps h (queueReport_keeps h hs)

theorem placeAged_keeps (h : Quiet P) {body age} (hs : P s) : P (placeAged body age s) := h.arrayKeep hs
theorem placeRequest_keeps (h : Quiet P) {body} (hs : P s) : P (placeRequest body s) :=
  takeId_keeps h (h.arrayKeep hs)
theorem withdraw_keeps (h : Quiet P) {body} (hs : P s) : P (withdraw body s) := h.arrayKeep hs

theorem offerRecord_keeps (h : Quiet P) {r} (hs : P s) : P (offerRecord r s) := by
  unfold offerRecord
  split
  · exact h.jour (by simp; omega) hs
  · exact h.jourKeep hs

theorem killSpare_keeps (h : Quiet P) {ala} (hf : spareStateOf s ala = some .free) (hs : P s) : P (killSpare ala s) :=
  offerRecord_keeps h (h.kill hf hs)

theorem beginTransmit_keeps (h : Quiet P) (hs : P s) : P (beginTransmit s) := by
  unfold beginTransmit
  split
  · exact h.port hs
  · exact hs

theorem readyResponse_keeps (h : Quiet P) {r} (hs : P s) : P (readyResponse r s) := beginTransmit_keeps h (h.port hs)

theorem completeCommand_keeps (h : Quiet P) {seq status results} (hs : P s) :
    P (completeCommand seq status results s) := readyResponse_keeps h (h.port hs)

theorem completeCurrent_keeps (h : Quiet P) {status results} (hs : P s) : P (completeCurrent status results s) := by
  unfold completeCurrent
  split
  · exact completeCommand_keeps h hs
  · exact hs

/-! ### Retirement -/

theorem updateSlot_keeps (h : Quiet P) {home f} (hs : P s) : P (updateSlot home f s) := h.relocKeep hs
theorem mergeSlot_keeps (h : Quiet P) {home data mask epoch writes} (hs : P s) :
    P (mergeSlot home data mask epoch writes s) := updateSlot_keeps h hs
theorem mergeItem_keeps (h : Quiet P) {ref item} (hs : P s) : P (mergeItem ref item s) :=
  leaveItem_keeps h (mergeSlot_keeps h hs)
theorem unwatch_keeps (h : Quiet P) {hla} (hs : P s) : P (unwatch hla s) :=
  h.relocKeep hs (Nat.le_refl _) (List.length_filter_le _ _)
theorem unpend_keeps (h : Quiet P) {hla} (hs : P s) : P (unpend hla s) := h.relocKeep hs (List.length_filter_le _ _)
theorem hitPending_keeps (h : Quiet P) {hla} (hs : P s) : P (hitPending hla s) := h.relocKeep hs

theorem dropAdd_keeps (h : Quiet P) {hla} (hs : P s) : P (dropAdd hla s) := h.fault (latch_keeps h hs)
theorem pendingAdd_keeps (h : Quiet P) {hla origin} (hs : P s) : P (pendingAdd hla origin s) := by
  unfold pendingAdd
  split
  · exact hs
  split
  · split
    · exact hitPending_keeps h hs
    · exact hs
  split
  · exact dropAdd_keeps h hs
  · refine unwatch_keeps h (h.reloc ?_ ?_ (Nat.le_max_right _ _) hs)
    · simp; omega
    · simp

/-- The lowest FREE spare is FREE (R8). -/
theorem lowestFree_free {a : Nat} (h : lowestFree s = some a) : spareStateOf s a = some .free := by
  have := List.find?_some h
  simp only [Bool.and_eq_true, beq_iff_eq] at this
  exact this.1

theorem allocate_some {a : Nat} (h : allocate s = (some a, t)) : spareStateOf s a = some .free ∧ t = setMark a .held s := by
  unfold allocate at h
  split at h
  · rename_i heq
    simp only [Prod.mk.injEq, Option.some.injEq] at h
    obtain ⟨rfl, rfl⟩ := h
    exact ⟨lowestFree_free heq, rfl⟩
  · cases h

theorem allocate_none_keeps (h : Quiet P) (ha : allocate s = (none, t)) (hs : P s) : P t := by
  unfold allocate at ha
  split at ha
  · cases ha
  · cases ha
    exact latch_keeps h hs

theorem allocateFor_some {home a : Nat} (h : allocateFor home s = (some a, t)) :
    home < fenceValue s ∧ isMoving s home = false ∧ spareStateOf s a = some .free ∧ t = setMark a .held s := by
  unfold allocateFor at h
  split at h
  · rename_i hc
    simp only [Bool.and_eq_true, decide_eq_true_eq, Bool.not_eq_true'] at hc
    exact ⟨hc.1, hc.2, allocate_some h⟩
  · cases h

theorem allocateFor_none_keeps (h : Quiet P) {home : Nat} (ha : allocateFor home s = (none, t)) (hs : P s) : P t := by
  unfold allocateFor at ha
  split at ha
  · exact allocate_none_keeps h ha hs
  · cases ha
    exact hs

theorem beginRelocation_keeps (h : Quiet P) {home spare cause data epoch writes} (hh : home < fenceValue s)
    (hm : isMoving s home = false) (hf : spareStateOf s spare = some .free)
    (hb : slotFree s = true ∨ s.reloc.reserved = some home) (hs : P s) :
    P (beginRelocation home spare cause data epoch writes (setMark spare .held s)) := by
  have h1 := h.begin (cause := cause) hh hm hf hs
  have hbusy : ∀ slot : Slot,
      ({ s.reloc with
        slots := s.reloc.slots ++ [slot]
        reserved := if s.reloc.reserved = some home then none else s.reloc.reserved } : Retirement).busy ≤
        max Config.slotCount s.reloc.busy := by
    intro slot
    rcases hb with hb | hb
    · simp only [slotFree, decide_eq_true_eq] at hb
      simp only [Retirement.busy, List.length_append, List.length_singleton] at hb ⊢
      split
      · simp_all
      · split at hb <;> simp_all
    · simp only [Retirement.busy, hb, List.length_append, List.length_singleton]
      simp
  unfold beginRelocation
  dsimp only
  refine placeRequest_keeps h ?_
  split
  · exact unpend_keeps h (unwatch_keeps h (h.reloc (Nat.le_max_right _ _) (Nat.le_max_right _ _) (hbusy _) h1))
  · exact unwatch_keeps h (h.reloc (Nat.le_max_right _ _) (Nat.le_max_right _ _) (hbusy _) h1)

theorem healInPlace_keeps (h : Quiet P) {ref item} (hs : P s) : P (healInPlace ref item s) :=
  h.fault (placeRequest_keeps h (updateItem_keeps h hs))
theorem loseItem_keeps (h : Quiet P) {ref item} (hs : P s) : P (loseItem ref item s) :=
  discardItem_keeps h (h.fault (pendingAdd_keeps h hs))

theorem admitItem_keeps (h : Quiet P) {ref item cause} (hb : slotFree s = true) (hs : P s) :
    P (admitItem ref item cause s) := by
  unfold admitItem
  split
  · rename_i heq
    obtain ⟨h1, h2, h3, rfl⟩ := allocateFor_some heq
    exact leaveItem_keeps h (beginRelocation_keeps h h1 h2 h3 (.inl hb) hs)
  · rename_i heq
    have ha := allocateFor_none_keeps h heq hs
    split
    · exact healInPlace_keeps h ha
    · exact loseItem_keeps h ha

theorem slotFree_updateItem {ref f} : slotFree (updateItem ref f s) = slotFree s := by cases ref <;> rfl

theorem offerItem_keeps (h : Quiet P) {ref item cause} (hs : P s) : P (offerItem ref item cause s) := by
  unfold offerItem
  dsimp only
  split
  · rename_i hc
    simp only [Bool.and_eq_true] at hc
    exact admitItem_keeps h (slotFree_updateItem.trans hc.2) (updateItem_keeps h hs)
  · exact h.relocKeep (updateItem_keeps h hs)

/-- A Watch Table update that puts one entry before at most 63 others stays within 64. -/
theorem watch_cons_length (w : WatchEntry) (others : List WatchEntry) :
    (w :: others.take (Config.watchEntries - 1)).length ≤ Config.watchEntries := by
  simp [Config.watchEntries]

theorem rewatch_keeps (h : Quiet P) {hla} (hs : P s) : P (rewatch hla s) := by
  unfold rewatch
  exact h.reloc (by simp) (Nat.le_trans (watch_cons_length _ _) (Nat.le_max_left _ _)) (Nat.le_max_right _ _) hs

theorem offerRead_keeps (h : Quiet P) {cause home data} (hs : P s) : P (offerRead cause home data s) := by
  unfold offerRead
  split
  · exact hs
  split
  · rename_i hb
    split
    · rename_i heq
      obtain ⟨h1, h2, h3, rfl⟩ := allocateFor_some heq
      exact beginRelocation_keeps h h1 h2 h3 (.inl hb) hs
    · rename_i heq
      exact rewatch_keeps h (allocateFor_none_keeps h heq hs)
  · exact rewatch_keeps h hs

theorem watchUpdate_keeps (h : Quiet P) {hla data} (hs : P s) : P (watchUpdate hla data s) := by
  unfold watchUpdate
  split
  · exact hs
  dsimp only
  split
  · refine offerRead_keeps h (h.reloc (by simp) ?_ (Nat.le_max_right _ _) hs)
    simp [Config.watchEntries]
  · exact h.reloc (by simp) (Nat.le_trans (watch_cons_length _ _) (Nat.le_max_left _ _)) (Nat.le_max_right _ _) hs

theorem dispatchRead_keeps (h : Quiet P) {hla ala step origin outcome} (hs : P s) :
    P (dispatchRead hla ala step origin outcome s) := by
  unfold dispatchRead
  split
  · split
    · exact hs
    · exact watchUpdate_keeps h hs
  · split
    · exact watchUpdate_keeps h hs
    · exact h.fault (offerRead_keeps h (unwatch_keeps h hs))
  · exact pendingAdd_keeps h (h.fault (unwatch_keeps h hs))

theorem takeReservation_keeps (h : Quiet P) {home} (hb : slotFree s = true) (hs : P s) : P (takeReservation home s) := by
  refine placeRequest_keeps h (h.reloc (Nat.le_max_right _ _) (Nat.le_max_right _ _) ?_ (takeId_keeps h hs))
  simp only [slotFree, decide_eq_true_eq] at hb
  show s.reloc.slots.length + 1 ≤ max Config.slotCount s.reloc.busy
  unfold Retirement.busy at hb ⊢
  omega

theorem releaseReservation_keeps (h : Quiet P) (hs : P s) : P (releaseReservation s) := h.relocKeep hs

theorem beginService_keeps (h : Quiet P) {home spare data}
    (hb : P (beginRelocation home spare .service data none [] s)) : P (beginService home spare data s) := by
  unfold beginService
  dsimp only
  split
  · exact hb
  · split
    · exact mergeItem_keeps h (h.relocKeep hb)
    · exact h.relocKeep hb

theorem handoffNext_keeps (h : Quiet P) (hs : P s) : ∀ t, handoffNext s = some t → P t := by
  intro t ht
  unfold handoffNext at ht
  split at ht
  · rename_i hb
    split at ht
    · cases ht
    · rename_i q _
      have h1 : P (s.setReloc { s.reloc with queue := s.reloc.queue.erase q }) := h.relocKeep hs
      dsimp only at ht
      split at ht
      · cases ht
        exact takeReservation_keeps h hb h1
      · split at ht
        · cases ht
          exact admitItem_keeps h hb h1
        · cases ht
          exact h1
  · cases ht

theorem answerWaiting_keeps (h : Quiet P) {slot status} (hs : P s) : P (answerWaiting slot status s) := by
  unfold answerWaiting
  exact foldl_keeps (fun _ _ hs => sendResponse_keeps h hs) _ _ hs

theorem freeSlot_keeps (h : Quiet P) {home} (hs : P s) : P (freeSlot home s) := by
  refine h.relocKeep hs (Nat.le_refl _) (Nat.le_refl _) ?_
  have := List.length_filter_le (·.home != home) s.reloc.slots
  simp only [Retirement.busy]
  omega

theorem answerRetire_keeps (h : Quiet P) {home status results} (hs : P s) : P (answerRetire home status results s) := by
  unfold answerRetire
  split
  · exact completeCurrent_keeps h hs
  · exact hs

theorem completeBinding_keeps (h : Quiet P) {slot} (hs : P s) : P (completeBinding slot s) :=
  answerRetire_keeps h (answerWaiting_keeps h (freeSlot_keeps h (h.bind hs)))
theorem tellLost_keeps (h : Quiet P) {slot} (hs : P s) : P (tellLost slot s) :=
  answerRetire_keeps h (failCovered_keeps h (answerWaiting_keeps h (queueReport_keeps h hs)))
theorem loseSlot_keeps (h : Quiet P) {slot place} (hs : P s) : P (loseSlot slot place s) :=
  tellLost_keeps h (h.fault (pendingAdd_keeps h hs))
theorem finishHeldFault_keeps (h : Quiet P) {slot dropped} (hs : P s) : P (finishHeldFault slot dropped s) := by
  have hb : P (freeSlot slot.home (bindTarget slot.home s)) := freeSlot_keeps h (h.bind hs)
  unfold finishHeldFault
  dsimp only
  refine tellLost_keeps h ?_
  split
  · exact hb
  · exact pendingAdd_keeps h hb
theorem recordHeldFault_keeps (h : Quiet P) {slot} (hs : P s) : P (recordHeldFault slot s) := by
  unfold recordHeldFault
  dsimp only
  refine h.fault ?_
  split
  · exact dropAdd_keeps h (h.fault hs)
  · exact h.fault hs
theorem holdOutcome_keeps (h : Quiet P) {slot answer} (hs : P s) : P (holdOutcome slot answer s) := by
  cases answer with
  | done => exact h.relocKeep hs
  | fault => exact h.relocKeep (recordHeldFault_keeps h hs)
theorem finishLost_keeps (h : Quiet P) {slot} (hs : P s) : P (finishLost slot s) :=
  loseSlot_keeps h (freeSlot_keeps h (h.bind (h.fault hs)))

theorem revertEntry_keeps (h : Quiet P) {home} (hs : P s) : P (revertEntry home s) := by
  unfold revertEntry
  split
  · rename_i he
    split
    · rename_i ht
      exact offerRecord_keeps h (h.revert he ht hs)
    · rename_i ht
      exact h.drop he ht hs
  · exact hs

theorem endReturn_keeps (h : Quiet P) {slot} (hs : P s) : P (endReturn slot s) :=
  answerRetire_keeps h (answerWaiting_keeps h (freeSlot_keeps h (revertEntry_keeps h hs)))
theorem returnLost_keeps (h : Quiet P) {slot} (hs : P s) : P (returnLost slot s) :=
  loseSlot_keeps h (freeSlot_keeps h (revertEntry_keeps h hs))
theorem enterReturning_keeps (h : Quiet P) {home} (hs : P s) : P (enterReturning home s) :=
  placeRequest_keeps h (updateSlot_keeps h (h.fault hs))

theorem targetFault_keeps (h : Quiet P) {slot} (hs : P s) : P (targetFault slot s) := by
  unfold targetFault
  have h1 : P (writeFault .spareWriteFault (some slot.home) (some (targetOf s slot.home)) none s) := h.fault hs
  dsimp only
  split
  · split
    · rename_i heq
      exact placeRequest_keeps h (updateSlot_keeps h (offerRecord_keeps h (h.retarget (allocate_some heq).1 h1)))
    · rename_i heq
      exact enterReturning_keeps h (allocate_none_keeps h heq h1)
  · exact enterReturning_keeps h h1

theorem targetOutcome_keeps (h : Quiet P) {slot answer} (hs : P s) : P (targetOutcome slot answer s) := by
  unfold targetOutcome
  split
  · exact targetFault_keeps h hs
  · split
    · exact placeRequest_keeps h hs
    · exact offerRecord_keeps h (updateSlot_keeps h hs)

theorem finishingOutcome_keeps (h : Quiet P) {slot answer} (hs : P s) : P (finishingOutcome slot answer s) := by
  unfold finishingOutcome
  split
  · exact placeRequest_keeps h hs
  · split
    · exact holdOutcome_keeps h hs
    · unfold endFinishing
      split
      · exact finishLost_keeps h hs
      · exact completeBinding_keeps h hs

theorem takeHeld_keeps (h : Quiet P) {slot held} (hs : P s) : P (takeHeld slot held s) := by
  unfold takeHeld
  split
  · exact finishingOutcome_keeps h hs
  · exact finishHeldFault_keeps h hs

theorem heldNext_keeps (h : Quiet P) (hs : P s) : ∀ t, heldNext s = some t → P t := by
  intro t ht
  unfold heldNext at ht
  split at ht
  · cases ht
  · rename_i rest _
    split at ht
    · have h1 : P (s.setReloc { s.reloc with held := rest }) := h.relocKeep hs
      dsimp only at ht
      split at ht
      · cases ht
        exact takeHeld_keeps h h1
      · cases ht
        exact h1
    · cases ht

theorem fallbackOutcome_keeps (h : Quiet P) {slot answer} (hs : P s) : P (fallbackOutcome slot answer s) := by
  unfold fallbackOutcome
  split
  · exact returnLost_keeps h hs
  · split
    · exact placeRequest_keeps h hs
    · exact endReturn_keeps h hs

theorem bindDurable_keeps (h : Quiet P) {home} (hs : P s) : P (bindDurable home s) := by
  unfold bindDurable
  split
  · split
    · split
      · exact placeRequest_keeps h (updateSlot_keeps h hs)
      · exact completeBinding_keeps h hs
    · exact hs
  · exact hs

end Sys2Proof.Machine
end

