-- ==== Sys2Proof/Laws/ClosedPaths.lean ====
section
/-! SUPPORT. What the journal, the host path, the internal steps, the survey, the array path and the Service Port keep; and so what
every command and every step keeps. -/

namespace Sys2Proof.Machine

-- One theorem after another: all at once they ask for more threads than the check's memory holds.
set_option Elab.async false

variable {P : State → Prop} {s t : State}

/-! ### The journal -/

theorem placeImageLine_keeps (h : Quiet P) {c} (hs : P s) : P (placeImageLine c s) :=
  placeRequest_keeps h (h.jourKeep hs)

theorem beginCompaction_keeps (h : Quiet P) {n} (hs : P s) : P (beginCompaction n s) := by
  unfold beginCompaction
  split
  · exact hs
  · exact placeImageLine_keeps h (h.jourKeep hs)

theorem formLogLine_keeps (h : Quiet P) {bank} (hs : P s) : P (formLogLine bank s) :=
  placeRequest_keeps h (h.jourKeep hs)

theorem decideNext_keeps (h : Quiet P) (hs : P s) : ∀ t, decideNext s = some t → P t := by
  intro t ht
  unfold decideNext at ht
  split at ht
  · split at ht
    · cases ht
    · split at ht
      · cases ht
        exact beginCompaction_keeps h hs
      · split at ht
        · cases ht
        · cases ht
          exact formLogLine_keeps h hs
  · cases ht

theorem joinNext_keeps (h : Quiet P) (hs : P s) : ∀ t, joinNext s = some t → P t := by
  intro t ht
  unfold joinNext at ht
  split at ht
  · cases ht
  · split at ht
    · cases ht
      exact h.jour (by simp; omega) hs
    · cases ht

theorem joinAll_keeps (h : Quiet P) (hs : P s) : P (joinAll s) := by
  unfold joinAll
  exact h.jour (by simp; omega) hs

theorem fenceTakesEffect_keeps (h : Quiet P) {f} (hf : fenceMoves s f = true) (hs : P s) : P (fenceTakesEffect f s) := by
  simp only [fenceMoves, Bool.and_eq_true] at hf
  have h1 := h.fence (.inl hf.1) hf.2 hs
  have h2 := h.mapKeep (v := { s.map with fence := some f, range := none }) h1
  have h3 := h.relocKeep
    (v := { s.reloc with watch := s.reloc.watch.filter fun w => !inRange s .closing w.hla }) h2 (Nat.le_refl _)
    (List.length_filter_le _ _)
  exact completeCurrent_keeps h h3
theorem exchangePolicies_keeps (h : Quiet P) (hs : P s) : P (exchangePolicies s) :=
  completeCurrent_keeps h (h.policySwap hs)

theorem applyDurable_keeps (h : Quiet P) {r} (hs : P s) : P (applyDurable s r) := by
  unfold applyDurable
  split
  · exact bindDurable_keeps h hs
  · exact hs
  · split
    · rename_i hc
      exact fenceTakesEffect_keeps h hc.2 hs
    · exact hs
  · split
    · exact exchangePolicies_keeps h hs
    · exact hs

theorem logLineDone_keeps (h : Quiet P) {line} (hs : P s) : P (logLineDone line s) := by
  unfold logLineDone
  exact foldl_keeps (fun _ _ hs => applyDurable_keeps h hs) _ _ (joinAll_keeps h (h.jourKeep hs))

theorem logLineFault_keeps (h : Quiet P) {line ala} (hs : P s) : P (logLineFault line ala s) :=
  beginCompaction_keeps h (h.jourKeep (h.fault hs))

theorem dissolveKept_keeps (h : Quiet P) (hs : P s) : P (dissolveKept s) := by
  unfold dissolveKept
  split
  · split
    · exact h.mapKeep hs
    · exact hs
  · exact hs

theorem commitImage_keeps (h : Quiet P) {c} (hs : P s) : P (commitImage c s) := by
  unfold commitImage
  dsimp only
  split
  · exact completeCurrent_keeps h (h.jourKeep (dissolveKept_keeps h hs))
  · exact h.jourKeep (dissolveKept_keeps h hs)

theorem imageLineDone_keeps (h : Quiet P) {c} (hs : P s) : P (imageLineDone c s) := by
  unfold imageLineDone
  split
  · exact commitImage_keeps h hs
  · exact placeImageLine_keeps h hs

theorem removeRecords_keeps (h : Quiet P) {which} (hs : P s) : P (removeRecords which s) :=
  h.jourKeep hs (List.length_filter_le _ _)

theorem endRange_keeps (h : Quiet P) (hs : P s) : P (endRange s) := by
  unfold endRange
  split
  · split <;> exact h.mapKeep hs
  · exact hs

theorem stallCommand_keeps (h : Quiet P) (hs : P s) : P (stallCommand s) := by
  unfold stallCommand
  split
  · exact completeCurrent_keeps h (endRange_keeps h (removeRecords_keeps h hs))
  · exact completeCurrent_keeps h (removeRecords_keeps h hs)
  · exact completeCurrent_keeps h (releaseReservation_keeps h hs)
  · exact completeCurrent_keeps h hs
  · exact completeCurrent_keeps h (h.start (.inl rfl) hs)
  · exact hs
  · exact hs

theorem stall_keeps (h : Quiet P) (hs : P s) : P (stall s) := 
  stallCommand_keeps h (latch_keeps h (settleBarriers_keeps h (h.jourKeep hs)))

theorem imageLineFault_keeps (h : Quiet P) {c ala} (hs : P s) : P (imageLineFault c ala s) := by
  unfold imageLineFault
  dsimp only
  split
  · exact beginCompaction_keeps h (h.fault hs)
  · exact stall_keeps h (h.fault hs)

/-! ### Start-up, format, quiesce -/

/-- What every start-up clears, with start-up at any phase, is kept. -/
theorem clearForStartUp_keeps (h : Quiet P) {v : StartUp} (hs : P s) : P ((clearForStartUp s).setStart v) :=
  h.policyDefault (h.jourKeep
    (v := { s.jour with
      state := .ready, active := none, nextLine := 0, queue := [], wait := [], line := none, compaction := none,
      faulted := [] }) (h.rebuild (v := v) hs))

theorem placeJournalRead_keeps (h : Quiet P) {bank n phase} (ho : s.start.phase ≠ .idle) (hi : phase ≠ .ident) (hs : P s) :
    P (placeJournalRead bank n phase s) := placeRequest_keeps h (h.start (.inr (.inr ⟨ho, hi⟩)) hs)

theorem startAtArray_keeps (h : Quiet P) (hs : P s) : P (startAtArray s) := by
  have h1 := clearForStartUp_keeps h (v := { op := .starting, phase := .ident, format := none }) hs
  have h2 := h.ident
    (v := { lineCount := 0, inFlight := [{ op := .ident, owner := .ident, step := 0, timedOut := false }], waiting := [] })
    rfl (by simp [Config.flightLimit]) h1
  have h3 := h.relocKeep (v := { s.reloc with retireReads := [] }) h2 (Nat.le_refl _) (Nat.le_refl _)
  exact h.out (v := { s.out with array := s.out.array ++ [.linkReset, .ident] }) h3

theorem startAfterFormat_keeps (h : Quiet P) (hs : P s) : P (startAfterFormat s) :=
  placeJournalRead_keeps h (by simp) (by simp)
    (clearForStartUp_keeps h (v := { op := .starting, phase := .lineA, format := none }) hs)

theorem answerStartUp_keeps (h : Quiet P) (hs : P s) : P (answerStartUp s) := by
  unfold answerStartUp
  split <;> first | exact completeCurrent_keeps h hs | exact hs

theorem enterHeld_keeps (h : Quiet P) {r} (hs : P s) : P (enterHeld r s) := answerStartUp_keeps h (h.start (.inr (.inl rfl)) hs)

theorem identOutcome_keeps (h : Quiet P) {n} (hs : P s) : P (identOutcome n s) := by
  unfold identOutcome
  dsimp only
  split
  · exact hs
  · rename_i hp
    have hp : s.start.phase = .ident := by simpa using hp
    have h1 : P (s.setArray { s.array with lineCount := n }) := h.ident hp (Nat.le_max_right _ _) hs
    split
    · exact placeJournalRead_keeps h (by simp [hp]) (by simp) h1
    · exact enterHeld_keeps h h1

theorem candidateFails_keeps (h : Quiet P) {a b next} (ho : s.start.phase ≠ .idle) (hs : P s) :
    P (candidateFails a b next s) := by
  unfold candidateFails
  split
  · exact placeJournalRead_keeps h ho (by simp) hs
  · exact enterHeld_keeps h hs

/-- Writing a fault record leaves start-up where it is. -/
theorem writeFault_start {kind hla ala step} : (writeFault kind hla ala step s).start = s.start := by
  unfold writeFault
  dsimp only
  split <;> rfl

theorem chooseBank_keeps (h : Quiet P) {bank a b} (ho : s.start.phase ≠ .idle) (hs : P s) : P (chooseBank bank a b s) := by
  unfold chooseBank
  refine placeJournalRead_keeps h ?_ (by simp) (h.jourKeep ?_)
  · cases bank <;> dsimp only <;> split <;> first | exact ho | (simp only [State.setJour_start, writeFault_start]; exact ho)
  · cases bank <;> dsimp only <;> split <;> first | exact h.fault (latch_keeps h hs) | exact hs

/-- A policy set that the packing yields is in range (R180, R181). -/
theorem policyOf_inRanges {a b c d e f : Nat} {p : PolicySet} (hp : policyOf a b c d e f = .ok p) : inRanges p := by
  unfold policyOf at hp
  split at hp
  · cases hp
  split at hp
  · cases hp
  split at hp
  · cases hp
  split at hp
  · cases hp
  split at hp
  · cases hp
  split at hp
  · cases hp
  cases hp
  simp_all [inRanges]
  omega

theorem unpackPolicy_inRanges {bytes : List Byte} {p : PolicySet} (hp : unpackPolicy bytes = .ok p) : inRanges p :=
  policyOf_inRanges hp

theorem decodeRecord_inRanges {place : List Byte} {p : PolicySet} (hp : decodeRecord place = .known (.policy p)) :
    inRanges p := by
  unfold decodeRecord at hp
  split at hp
  · simp at hp
  · simp at hp
  · simp at hp
  · split at hp
    · rename_i heq
      simp only [DecodedRecord.known.injEq, Record.policy.injEq] at hp
      exact unpackPolicy_inRanges (hp ▸ heq)
    · cases hp
  · cases hp

theorem replayRecord_keeps (h : Quiet P) {ala place} (ho : s.start.phase ≠ .idle) (hi : s.start.phase ≠ .ident) (hs : P s) :
    P (replayRecord ala s (decodeRecord place)) := by
  unfold replayRecord
  split
  · split
    · rename_i hf
      exact h.fence (.inr hi) hf hs
    · exact h.fault hs
  · rename_i heq
    exact h.policyReplay (decodeRecord_inRanges heq) hs
  · split
    · rename_i hc
      simp only [Bool.and_eq_true, bne_iff_ne] at hc
      exact h.replayDead ho hc.1 hc.2 hs
    · exact h.fault hs
  · split
    · rename_i hb
      exact h.replayBind ho hb hs
    · exact h.fault hs
  · exact h.fault hs
  · exact h.fault hs

/-- Replaying a record leaves start-up where it is. -/
theorem replayRecord_start {ala r} : (replayRecord ala s r).start = s.start := by
  unfold replayRecord skipRecord
  split <;> (try split) <;> first
    | rfl
    | exact writeFault_start
    | (unfold replayBind
       dsimp only
       split
       · split <;> rfl
       · rfl)

theorem replayLine_keeps (h : Quiet P) {ala} : ∀ (places : List (List Byte)) (s : State), s.start.phase ≠ .idle →
    s.start.phase ≠ .ident → P s → P ((places.map decodeRecord).foldl (replayRecord ala) s)
  | [], _, _, _, hs => hs
  | _ :: places, _, ho, hi, hs =>
    replayLine_keeps h places _ (by rw [replayRecord_start]; exact ho) (by rw [replayRecord_start]; exact hi)
      (replayRecord_keeps h ho hi hs)

theorem replayLine_start {ala} : ∀ (rs : List DecodedRecord) (s : State), (rs.foldl (replayRecord ala) s).start = s.start
  | [], _ => rfl
  | _ :: rs, _ => (replayLine_start rs _).trans replayRecord_start

theorem endReplay_keeps (h : Quiet P) {next last} (hs : P s) : P (endReplay next last s) :=
  answerStartUp_keeps h (h.built rfl (h.start (.inr (.inl rfl)) (h.jourKeep hs)))

theorem examineOutcome_keeps (h : Quiet P) {bank pos prev a b next line} (ho : s.start.phase ≠ .idle) (hs : P s) :
    P (examineOutcome bank pos prev a b next line s) := by
  unfold examineOutcome
  split
  · split
    · split
      · exact chooseBank_keeps h ho hs
      · split
        · exact placeJournalRead_keeps h ho (by simp) hs
        · exact candidateFails_keeps h ho hs
    · exact candidateFails_keeps h ho hs
  · exact candidateFails_keeps h ho hs

theorem replayOutcome_keeps (h : Quiet P) {bank pos prev line} (ho : s.start.phase ≠ .idle)
    (hi : s.start.phase ≠ .ident) (hs : P s) : P (replayOutcome bank pos prev line s) := by
  unfold replayOutcome
  split
  · exact endReplay_keeps h (h.fault hs)
  · split
    · dsimp only
      split
      · exact placeJournalRead_keeps h (by rw [replayLine_start]; exact ho) (by simp) (replayLine_keeps h _ _ ho hi hs)
      · exact endReplay_keeps h (replayLine_keeps h _ _ ho hi hs)
    · exact endReplay_keeps h hs

theorem journalReadOutcome_keeps (h : Quiet P) {c} (hs : P s) : P (journalReadOutcome c s) := by
  unfold journalReadOutcome
  split
  · rename_i hp
    exact placeJournalRead_keeps h (by simp [hp]) (by simp) hs
  · rename_i hp
    dsimp only
    split
    · exact placeJournalRead_keeps h (by simp [hp]) (by simp) hs
    · exact enterHeld_keeps h hs
  · rename_i hp
    exact examineOutcome_keeps h (by simp [hp]) hs
  · rename_i hp
    exact replayOutcome_keeps h (by simp [hp]) (by simp [hp]) hs
  · exact hs
  · exact hs

theorem placeFormatLine_keeps (h : Quiet P) {job} (hs : P s) : P (placeFormatLine job s) :=
  placeRequest_keeps h (h.start (.inl rfl) hs)

theorem formatLineOutcome_keeps (h : Quiet P) {job ala answer} (hs : P s) : P (formatLineOutcome job ala answer s) := by
  unfold formatLineOutcome
  split
  · split
    · exact placeFormatLine_keeps h hs
    · exact startAfterFormat_keeps h hs
  · exact completeCurrent_keeps h (h.fault (h.start (.inl rfl) hs))

theorem endQuiesce_keeps (h : Quiet P) (hs : P s) : P (endQuiesce s) := by
  refine startAtArray_keeps h (h.mapKeep (h.survey (h.alert (h.host (List.Sublist.refl _) ?_ (List.Sublist.refl _) (h.relocKeep hs)))))
  simp

theorem quiesceNext_keeps (h : Quiet P) (hs : P s) : ∀ t, quiesceNext s = some t → P t := by
  intro t ht
  unfold quiesceNext at ht
  split at ht
  · cases ht
    exact endQuiesce_keeps h hs
  · cases ht

/-! ### The host path -/

theorem arrive_keeps (h : Quiet P) {kind tag hla} {accepted : State → State} (ha : ∀ s, P s → P (accepted s)) (hs : P s) :
    P (arrive kind tag hla accepted s) := by
  unfold arrive
  have h1 : P (addTrace kind tag hla s) := h.trace hs
  dsimp only
  split
  · exact h.fault (latch_keeps h (h.hostKeep h1))
  · rename_i hn
    have h2 := h.accept (t := tag) (by simpa using hn) h1
    split
    · exact sendResponse_keeps h h2
    · exact ha _ h2

theorem acceptWrite_keeps (h : Quiet P) {tag hla mask data} (hs : P s) : P (acceptWrite tag hla mask data s) := by
  unfold acceptWrite
  split
  · exact sendResponse_keeps h hs
  · exact h.join hs

theorem acceptBarrier_keeps (h : Quiet P) {tag} (hs : P s) : P (acceptBarrier tag s) := h.hostKeep hs

theorem presentRead_keeps (h : Quiet P) {r} (hs : P s) : P (presentRead r s) := by
  unfold presentRead
  split
  · exact answerReq_keeps h hs
  · exact setStage_keeps h hs
  · exact answerReq_keeps h hs
  · exact answerReq_keeps h (hitPending_keeps h hs)
  · exact placeRequest_keeps h (setStage_keeps h hs)

theorem riseEpoch_keeps (h : Quiet P) (hs : P s) : P (riseEpoch s) := h.hostKeep hs
theorem mergeEntry_keeps (h : Quiet P) {id data mask} (hs : P s) : P (mergeEntry id data mask s) := updateItem_keeps h hs

theorem enterBuffer_keeps (h : Quiet P) {r data mask} (hs : P s) : ∀ t, enterBuffer r data mask s = some t → P t := by
  intro t ht
  have fresh : s.buf.entries.length < Config.bufferEntries →
      P (answerReq r .write .done none (newEntry r.hla data mask (riseEpoch s))) := fun hl =>
    answerReq_keeps h (takeId_keeps h (h.buf (by simp [riseEpoch]; omega) (riseEpoch_keeps h hs)))
  unfold enterBuffer at ht
  dsimp only at ht
  split at ht
  · split at ht
    · cases ht
      exact answerReq_keeps h (mergeEntry_keeps h (riseEpoch_keeps h hs))
    · split at ht
      · cases ht
        exact fresh (by assumption)
      · cases ht
  · split at ht
    · cases ht
      exact fresh (by assumption)
    · cases ht

theorem presentWrite_keeps (h : Quiet P) {r data mask} (hs : P s) : P (presentWrite r data mask s) := by
  unfold presentWrite
  dsimp only
  split
  · exact answerReq_keeps h hs
  · unfold toBuffer
    split
    · rename_i heq
      exact enterBuffer_keeps h hs _ heq
    · exact setStage_keeps h (h.hostKeep hs)
  · exact setStage_keeps h (h.bufKeep hs)
  · unfold toSlot
    split
    · exact answerReq_keeps h (mergeSlot_keeps h (riseEpoch_keeps h hs))
    · exact dropReq_keeps h (mergeSlot_keeps h hs)

theorem present_keeps (h : Quiet P) {r} (hs : P s) : P (present r s) := by
  unfold present
  split
  · exact presentRead_keeps h hs
  · exact presentWrite_keeps h hs

theorem presentNext_keeps (h : Quiet P) (hs : P s) : ∀ t, presentNext s = some t → P t := by
  intro t ht
  unfold presentNext at ht
  rw [Option.map_eq_some_iff] at ht
  obtain ⟨r, _, rfl⟩ := ht
  exact present_keeps h hs

theorem roomEntryNext_keeps (h : Quiet P) (hs : P s) : ∀ t, roomEntryNext s = some t → P t := by
  intro t ht
  unfold roomEntryNext at ht
  split at ht
  · cases ht
  · rename_i rest _
    have h1 : P (s.setHost { s.host with roomWait := rest }) := h.hostKeep hs
    dsimp only at ht
    split at ht
    · cases ht
      exact h1
    · split at ht
      · cases ht
        exact h1
      · exact enterBuffer_keeps h h1 t ht

theorem hostLinkReset_keeps (h : Quiet P) (hs : P s) : P (hostLinkReset s) :=
  h.relocKeep (h.arrayKeep (h.host (List.nil_sublist _) (by simp)
    (by dsimp only; rw [map_ids (fun r : HostReq => { r with live := false }) (fun _ => rfl)]; exact List.filter_sublist.map _) hs))

/-! ### The internal steps of an event -/

theorem placeDrain_keeps (h : Quiet P) {ref} (hs : P s) : P (placeDrain ref s) := takeId_keeps h (placeAged_keeps h hs)

theorem placeDrains_keeps (h : Quiet P) (hs : P s) : P (placeDrains s) := by
  unfold placeDrains
  refine foldl_keeps ?_ _ _ hs
  intro s ref hs
  split
  · exact hs
  · exact placeDrain_keeps h hs

theorem microStep_keeps (h : Quiet P) (hs : P s) : ∀ t, microStep s = some t → P t := by
  intro t ht
  unfold microStep at ht
  simp only [Option.or_eq_some_iff] at ht
  rcases ht with ht | ⟨_, ht | ⟨_, ht | ⟨_, ht | ⟨_, ht | ⟨_, ht⟩⟩⟩⟩⟩
  · exact heldNext_keeps h hs t ht
  · exact handoffNext_keeps h hs t ht
  · exact roomEntryNext_keeps h hs t ht
  · exact presentNext_keeps h hs t ht
  · exact joinNext_keeps h hs t ht
  · exact decideNext_keeps h hs t ht

theorem settleLoop_keeps (h : Quiet P) : ∀ (n : Nat) (s : State), P s → P (settleLoop n s)
  | 0, _, hs => hs
  | n + 1, s, hs => by
    unfold settleLoop
    split
    · rename_i heq
      exact settleLoop_keeps h n _ (microStep_keeps h hs _ heq)
    · exact hs

theorem settleQuiesce_keeps (h : Quiet P) (hs : P s) : P (settleQuiesce s) := by
  unfold settleQuiesce
  cases hq : quiesceNext s with
  | none => exact hs
  | some t => exact quiesceNext_keeps h hs t hq

theorem settle_keeps (h : Quiet P) (hs : P s) : P (settle s) :=
  evalLevels_keeps h (settleQuiesce_keeps h (settleBarriers_keeps h (placeDrains_keeps h (settleLoop_keeps h _ _ hs))))

theorem event_keeps (h : Quiet P) {effect : State → State} (he : ∀ s, P s → P (effect s)) (hs : P s) :
    P (event effect s) := settle_keeps h (he _ (nextEvent_keeps h hs))

theorem internalEvent_keeps (h : Quiet P) {next : State → Option State} (hn : ∀ s, P s → ∀ t, next s = some t → P t)
    (hs : P s) : P (internalEvent next s) := by
  unfold internalEvent
  split
  · rename_i heq
    exact settle_keeps h (hn _ (nextEvent_keeps h hs) _ heq)
  · exact hs

/-! ### The survey -/

theorem endSurvey_keeps (h : Quiet P) {outcome l} (hs : P s) : P (endSurvey outcome l s) := latch_keeps h (h.survey hs)
theorem placeSurveyRead_keeps (h : Quiet P) {l} (hs : P s) : P (placeSurveyRead l s) :=
  placeRequest_keeps h (h.survey hs)

theorem examineLines_keeps (h : Quiet P) : ∀ (n : Nat) (l : LiveSurvey) (s : State), P s → P (examineLines n l s)
  | 0, _, _, hs => endSurvey_keeps h hs
  | n + 1, l, s, hs => by
    unfold examineLines
    split
    · exact endSurvey_keeps h hs
    · split
      · exact examineLines_keeps h n _ s hs
      · exact placeSurveyRead_keeps h hs

theorem examine_keeps (h : Quiet P) {l} (hs : P s) : P (examine l s) := examineLines_keeps h _ _ _ hs

theorem sparesDispatch_keeps (h : Quiet P) {c l} (hs : P s) : P (sparesDispatch c l s).2 := by
  unfold sparesDispatch
  dsimp only
  split
  · exact hs
  all_goals
    split
    · rename_i hf
      exact killSpare_keeps h hf hs
    · exact hs

theorem surveyGoesOn_keeps (h : Quiet P) {dropped l} (hs : P s) : P (surveyGoesOn dropped l s) := by
  unfold surveyGoesOn
  split
  · exact endSurvey_keeps h hs
  · exact endSurvey_keeps h hs
  · split
    · exact endSurvey_keeps h hs
    · split
      · exact examine_keeps h hs
      · exact h.survey hs

theorem surveyReadEnd_keeps (h : Quiet P) {ladder c l} (hs : P s) : P (surveyReadEnd ladder c l s) := by
  unfold surveyReadEnd
  refine surveyGoesOn_keeps h ?_
  split
  · exact dispatchRead_keeps h hs
  · exact sparesDispatch_keeps h hs

theorem surveyReadOutcome_keeps (h : Quiet P) {c} (hs : P s) : P (surveyReadOutcome c s) := by
  unfold surveyReadOutcome
  split
  · exact hs
  · split
    · exact hs
    · split
      · exact placeAged_keeps h (h.survey hs)
      · exact surveyReadEnd_keeps h hs

theorem gapExpires_keeps (h : Quiet P) (hs : P s) : ∀ t, gapExpires s = some t → P t := by
  intro t ht
  unfold gapExpires at ht
  split at ht
  · cases ht
  · split at ht
    · cases ht
      exact examine_keeps h hs
    · cases ht

theorem stopSurvey_keeps (h : Quiet P) {outcome l} (hs : P s) : P (stopSurvey outcome l s) := by
  unfold stopSurvey
  split
  · exact endSurvey_keeps h hs
  · split
    · exact h.survey hs
    · exact endSurvey_keeps h (withdraw_keeps h hs)

theorem resetSurvey_keeps (h : Quiet P) (hs : P s) : P (resetSurvey s) := by
  unfold resetSurvey
  split
  · exact hs
  · exact stopSurvey_keeps h hs

/-! ### The array path -/

/-- What a grant decision comes to satisfies a predicate. -/
def Granted.All (P : State → Prop) : Granted → Prop
  | .issued s => P s
  | .free s => P s

theorem issue_keeps (h : Quiet P) {op owner step} (hn : s.array.inFlight.length < Config.flightLimit) (hs : P s) :
    P (issue op owner step s) := h.out (h.array rfl (by simp; omega) hs)

theorem updateItem_array {ref f} : (updateItem ref f s).array = s.array := by cases ref <;> rfl

theorem translate_keeps (h : Quiet P) {ref item age} (hn : s.array.inFlight.length < Config.flightLimit) (hs : P s) :
    (translate ref item age s).All P := by
  unfold translate
  split
  · exact mergeItem_keeps h hs
  split
  · exact offerItem_keeps h hs
  split
  · exact discardItem_keeps h hs
  split
  · exact issue_keeps h (by rw [updateItem_array]; exact hn) (updateItem_keeps h hs)
  · exact issue_keeps h (by rw [updateItem_array]; exact hn) (updateItem_keeps h hs)

theorem grantRequest_keeps (h : Quiet P) {r} (hn : s.array.inFlight.length < Config.flightLimit) (hs : P s) :
    (grantRequest r s).All P := by
  unfold grantRequest
  split
  · exact issue_keeps h hn hs
  · exact issue_keeps h hn hs
  · unfold grantSlotWrite
    split
    · exact hs
    · exact issue_keeps h hn (updateSlot_keeps h hs)
  · unfold grantInPlace
    split
    · exact hs
    · exact issue_keeps h hn hs
  · unfold grantDrain
    split
    · exact hs
    · exact translate_keeps h hn hs
  · unfold grantReadHalf
    split
    · exact hs
    · exact issue_keeps h hn hs
  · unfold grantHostRead
    split
    · exact hs
    · split
      · exact issue_keeps h hn (setStage_keeps h hs)
      · exact hs
  · unfold grantRetireRead
    split
    · exact hs
    · exact issue_keeps h hn (h.relocKeep hs)
  · unfold grantSurveyRead
    split
    · exact hs
    · split
      · exact hs
      · exact issue_keeps h hn (h.survey hs)

theorem grantLoop_keeps (h : Quiet P) : ∀ (n : Nat) (s : State), P s → P (grantLoop n s)
  | 0, _, hs => hs
  | n + 1, s, hs => by
    unfold grantLoop
    split
    · rename_i hp
      simp only [grantPossible, Bool.and_eq_true, decide_eq_true_eq] at hp
      split
      · exact hs
      · rename_i r _
        have hg : (grantRequest r (s.setArray { s.array with waiting := s.array.waiting.erase r })).All P :=
          grantRequest_keeps h hp.1 (h.arrayKeep hs)
        split
        · rename_i heq
          rw [heq] at hg
          exact hg
        · rename_i heq
          rw [heq] at hg
          exact grantLoop_keeps h n _ (settleLoop_keeps h _ _ hg)
    · exact hs

theorem grantNext_keeps (h : Quiet P) (hs : P s) : ∀ t, grantNext s = some t → P t := by
  intro t ht
  unfold grantNext at ht
  split at ht
  · cases ht
    exact grantLoop_keeps h _ _ hs
  · cases ht

theorem hostReadOutcome_keeps (h : Quiet P) {id c} (hs : P s) : P (hostReadOutcome id c s) := by
  unfold hostReadOutcome
  split
  · exact hs
  · split
    · split
      · exact placeAged_keeps h (setStage_keeps h hs)
      · unfold hostReadEnd
        dsimp only
        split <;> exact answerReq_keeps h (dispatchRead_keeps h hs)
    · exact hs

theorem readHalfOutcome_keeps (h : Quiet P) {ref c} (hs : P s) : P (readHalfOutcome ref c s) := by
  unfold readHalfOutcome
  split
  · exact hs
  · split
    · exact hs
    · split
      · exact placeAged_keeps h (updateItem_keeps h hs)
      · unfold readHalfEnd
        dsimp only
        split
        · exact placeDrain_keeps h (updateItem_keeps h (dispatchRead_keeps h hs))
        · exact placeDrain_keeps h (updateItem_keeps h (dispatchRead_keeps h hs))
        · exact discardItem_keeps h (dispatchRead_keeps h hs)

theorem endRetire_keeps (h : Quiet P) {status} (hs : P s) : P (endRetire status s) :=
  completeCurrent_keeps h (releaseReservation_keeps h hs)

theorem retireMoves_keeps (h : Quiet P) {home} (hs : P s) : P (retireMoves home s) := by
  unfold retireMoves
  split
  · exact h.port hs
  · exact hs

theorem retireData_keeps (h : Quiet P) {home data} (hr : s.reloc.reserved = some home) (hs : P s) :
    P (retireData home data s) := by
  unfold retireData
  split
  · exact endRetire_keeps h hs
  · split
    · rename_i heq
      obtain ⟨h1, h2, h3, rfl⟩ := allocateFor_some heq
      exact retireMoves_keeps h (beginService_keeps h (beginRelocation_keeps h h1 h2 h3 (.inr hr) hs))
    · rename_i heq
      exact endRetire_keeps h (allocateFor_none_keeps h heq hs)

theorem reservationStands_iff {r} : reservationStands r s = true ↔ r.live = true ∧ s.reloc.reserved = some r.home := by
  simp [reservationStands]

theorem retireReadOutcome_keeps (h : Quiet P) {id c} (hs : P s) : P (retireReadOutcome id c s) := by
  unfold retireReadOutcome
  split
  · exact hs
  · split
    · exact placeAged_keeps h (h.relocKeep hs)
    · unfold retireReadEnd
      dsimp only
      split
      · split
        · rename_i hr
          exact retireData_keeps h (reservationStands_iff.mp hr).2 (h.relocKeep hs)
        · exact h.relocKeep hs
      · split
        · rename_i hr
          exact retireData_keeps h (reservationStands_iff.mp hr).2 (h.relocKeep hs)
        · exact h.relocKeep hs
      · split
        · exact endRetire_keeps h (pendingAdd_keeps h (h.fault (h.relocKeep hs)))
        · exact pendingAdd_keeps h (h.fault (h.relocKeep hs))

theorem drainDone_keeps (h : Quiet P) {ref item} (hs : P s) : P (drainDone ref item s) := by
  unfold drainDone
  split
  · exact updateSlot_keeps h
      (settleBarriers_keeps h (completeItem_keeps h (unpend_keeps h (mergeSlot_keeps h hs))))
  · exact completeItem_keeps h (unpend_keeps h hs)

theorem drainOutcome_keeps (h : Quiet P) {ref answer} (hs : P s) : P (drainOutcome ref answer s) := by
  unfold drainOutcome
  split
  · exact hs
  · split
    · exact drainDone_keeps h hs
    · unfold drainFault
      split
      · exact mergeItem_keeps h hs
      · exact offerItem_keeps h hs

theorem inPlaceOutcome_keeps (h : Quiet P) {ref answer} (hs : P s) : P (inPlaceOutcome ref answer s) := by
  unfold inPlaceOutcome
  split
  · exact hs
  · split
    · exact completeItem_keeps h (unpend_keeps h hs)
    · exact discardItem_keeps h (h.fault hs)

theorem slotWriteOutcome_keeps (h : Quiet P) {home kind answer} (hs : P s) : P (slotWriteOutcome home kind answer s) := by
  unfold slotWriteOutcome
  split
  · exact hs
  · split
    · exact targetOutcome_keeps h hs
    · exact finishingOutcome_keeps h hs
    · exact fallbackOutcome_keeps h hs

theorem logOutcome_keeps (h : Quiet P) {ala answer} (hs : P s) : P (logOutcome ala answer s) := by
  unfold logOutcome
  split
  · exact hs
  · split
    · exact logLineDone_keeps h hs
    · exact logLineFault_keeps h hs

theorem imageOutcome_keeps (h : Quiet P) {ala answer} (hs : P s) : P (imageOutcome ala answer s) := by
  unfold imageOutcome
  split
  · exact hs
  · split
    · exact imageLineDone_keeps h hs
    · exact imageLineFault_keeps h hs

theorem formatOutcome_keeps (h : Quiet P) {ala answer} (hs : P s) : P (formatOutcome ala answer s) := by
  unfold formatOutcome
  split
  · exact hs
  · exact formatLineOutcome_keeps h hs

theorem readOutcome_keeps (h : Quiet P) {owner c} (hs : P s) : P (readOutcome owner c s) := by
  unfold readOutcome
  split
  · exact journalReadOutcome_keeps h hs
  · exact hostReadOutcome_keeps h hs
  · exact readHalfOutcome_keeps h hs
  · exact retireReadOutcome_keeps h hs
  · exact surveyReadOutcome_keeps h hs
  all_goals exact hs

theorem writeOutcome_keeps (h : Quiet P) {owner ala answer} (hs : P s) : P (writeOutcome owner ala answer s) := by
  unfold writeOutcome
  split
  · exact logOutcome_keeps h hs
  · exact imageOutcome_keeps h hs
  · exact formatOutcome_keeps h hs
  · exact slotWriteOutcome_keeps h hs
  · exact inPlaceOutcome_keeps h hs
  · exact drainOutcome_keeps h hs
  all_goals exact hs

theorem answerEvent_keeps (h : Quiet P) {accepts} {effect : Flight → State → State}
    (he : ∀ f s, P s → P (effect f s)) (hs : P s) : P (answerEvent accepts effect s) := by
  unfold answerEvent
  split
  · exact hs
  · rename_i heq
    split
    · exact settle_keeps h (he _ _ (h.arrayKeep (nextEvent_keeps h hs) rfl (by show _ ≤ s.array.inFlight.length; simp [heq])))
    · exact hs

/-- Marking the oldest operation timed out leaves the number in flight (R58). -/
theorem markOldest_length : ∀ {l : List Flight} {r : Flight × List Flight}, markOldest l = some r → r.2.length = l.length
  | [], _, hm => by cases hm
  | f :: rest, r, hm => by
    unfold markOldest at hm
    split at hm
    · rw [Option.map_eq_some_iff] at hm
      obtain ⟨q, hq, rfl⟩ := hm
      simp [markOldest_length hq]
    · cases hm
      rfl

theorem timeoutEvent_keeps (h : Quiet P) (hs : P s) : P (timeoutEvent s) := by
  unfold timeoutEvent
  split
  · exact hs
  · rename_i flights hm
    have h1 : P ((nextEvent s).setArray { (nextEvent s).array with inFlight := flights }) :=
      h.arrayKeep (nextEvent_keeps h hs) rfl (Nat.le_of_eq (markOldest_length hm))
    refine settle_keeps h ?_
    unfold timeoutOutcome
    split
    · exact identOutcome_keeps h h1
    · exact readOutcome_keeps h h1
    · exact writeOutcome_keeps h h1

theorem lateEvent_keeps (h : Quiet P) (hs : P s) : P (lateEvent s) := by
  unfold lateEvent
  split
  · exact hs
  · rename_i heq
    split
    · exact settle_keeps h (h.arrayKeep (nextEvent_keeps h hs) rfl (by show _ ≤ s.array.inFlight.length; simp [heq]))
    · exact hs

/-! ### The Service Port -/

theorem runSurveyStart_keeps (h : Closed P) {seq mode first count} (hs : P s) :
    P (runSurveyStart seq mode first count s) := by
  unfold runSurveyStart
  split
  · exact completeCommand_keeps h.toQuiet hs
  · exact settle_keeps h.toQuiet (completeCommand_keeps h.toQuiet (examine_keeps h.toQuiet hs))

theorem runSurveyStop_keeps (h : Closed P) {seq} (hs : P s) : P (runSurveyStop seq s) := by
  unfold runSurveyStop
  split
  · exact completeCommand_keeps h.toQuiet hs
  · refine settle_keeps h.toQuiet (completeCommand_keeps h.toQuiet ?_)
    split
    · exact stopSurvey_keeps h.toQuiet hs
    · exact hs

theorem runPolicyStage_keeps (h : Closed P) {seq packed} (hs : P s) : P (runPolicyStage seq packed s) := by
  unfold runPolicyStage
  split
  · exact completeCommand_keeps h.toQuiet hs
  · split
    · exact completeCommand_keeps h.toQuiet hs
    · rename_i heq
      exact completeCommand_keeps h.toQuiet (h.policyStage (unpackPolicy_inRanges heq) hs)

theorem beginCommand_keeps (h : Closed P) {seq command} (hs : P s) : P (beginCommand seq command s) := h.port hs

theorem runJournalCompact_keeps (h : Closed P) {seq} (hs : P s) : P (runJournalCompact seq s) := by
  unfold runJournalCompact
  split
  · exact completeCommand_keeps h.toQuiet hs
  · split
    · exact completeCommand_keeps h.toQuiet hs
    · exact settle_keeps h.toQuiet (beginCompaction_keeps h.toQuiet (beginCommand_keeps h hs))
    · exact settle_keeps h.toQuiet (beginCommand_keeps h hs)
    · exact settle_keeps h.toQuiet (beginCommand_keeps h hs)

theorem runFenceAdjust_keeps (h : Closed P) {seq expected new} (hs : P s) : P (runFenceAdjust seq expected new s) := by
  unfold runFenceAdjust
  split
  · exact completeCommand_keeps h.toQuiet hs
  · exact settle_keeps h.toQuiet (offerRecord_keeps h.toQuiet (beginCommand_keeps h (h.mapKeep hs)))

theorem reserveSlot_keeps (h : Closed P) {hla} (hs : P s) : P (reserveSlot hla s) := by
  unfold reserveSlot
  split
  · rename_i hb
    simp only [Bool.and_eq_true] at hb
    exact takeReservation_keeps h.toQuiet hb.1 hs
  · exact h.relocKeep hs

theorem runLineRetire_keeps (h : Closed P) {seq hla} (hs : P s) : P (runLineRetire seq hla s) := by
  unfold runLineRetire
  split
  · exact completeCommand_keeps h.toQuiet hs
  · exact settle_keeps h.toQuiet (reserveSlot_keeps h (beginCommand_keeps h hs))

theorem runPolicyExchange_keeps (h : Closed P) {seq} (hs : P s) : P (runPolicyExchange seq s) := by
  unfold runPolicyExchange
  split
  · exact completeCommand_keeps h.toQuiet hs
  · split
    · exact completeCommand_keeps h.toQuiet hs
    · exact settle_keeps h.toQuiet (offerRecord_keeps h.toQuiet (beginCommand_keeps h hs))

theorem runJournalFormat_keeps (h : Closed P) {seq fence} (hs : P s) : P (runJournalFormat seq fence s) := by
  unfold runJournalFormat
  split
  · exact completeCommand_keeps h.toQuiet hs
  · split
    · exact completeCommand_keeps h.toQuiet hs
    · exact settle_keeps h.toQuiet (placeFormatLine_keeps h.toQuiet (beginCommand_keeps h hs))

theorem runBridgeRestart_keeps (h : Closed P) {seq} (hs : P s) : P (runBridgeRestart seq s) := by
  unfold runBridgeRestart
  split
  · exact completeCommand_keeps h.toQuiet hs
  · split
    · exact completeCommand_keeps h.toQuiet hs
    · exact settle_keeps h.toQuiet (resetSurvey_keeps h.toQuiet (beginCommand_keeps h (h.start (.inl rfl) hs)))

theorem runGuardLock_keeps (h : Closed P) {seq word} (hs : P s) : P (runGuardLock seq word s) := by
  unfold runGuardLock
  split
  · rename_i heq
    exact completeCommand_keeps h.toQuiet (h.lock heq hs)
  · exact completeCommand_keeps h.toQuiet hs
  · exact completeCommand_keeps h.toQuiet hs

theorem runByCode_keeps (h : Closed P) {seq code args} (hs : P s) : P (runByCode seq code args s) := by
  unfold runByCode
  dsimp only
  split
  · exact completeCommand_keeps h.toQuiet hs
  · exact completeCommand_keeps h.toQuiet hs
  · unfold runLookup
    repeat' split
    all_goals exact completeCommand_keeps h.toQuiet hs
  · exact completeCommand_keeps h.toQuiet (h.mapKeep hs)
  · unfold runMapNext
    split
    · exact completeCommand_keeps h.toQuiet hs
    · split
      · exact completeCommand_keeps h.toQuiet (h.mapKeep hs)
      · exact completeCommand_keeps h.toQuiet hs
  · unfold runListRead
    repeat' split
    all_goals exact completeCommand_keeps h.toQuiet hs
  · unfold runFaultNext
    split
    · rename_i heq
      exact completeCommand_keeps h.toQuiet (h.cursorNext heq hs)
    · exact completeCommand_keeps h.toQuiet hs
  · exact completeCommand_keeps h.toQuiet (h.cursorOldest hs)
  · exact completeCommand_keeps h.toQuiet hs
  · unfold runPolicyRead
    repeat' split
    all_goals exact completeCommand_keeps h.toQuiet hs
  · exact completeCommand_keeps h.toQuiet hs
  · exact runSurveyStart_keeps h hs
  · exact runSurveyStop_keeps h hs
  · exact completeCommand_keeps h.toQuiet (h.alert hs)
  · exact completeCommand_keeps h.toQuiet (h.alert hs)
  · exact runPolicyStage_keeps h hs
  · exact runJournalCompact_keeps h hs
  · exact runFenceAdjust_keeps h hs
  · exact runLineRetire_keeps h hs
  · exact runPolicyExchange_keeps h hs
  · exact completeCommand_keeps h.toQuiet (h.logClear hs)
  · exact runJournalFormat_keeps h hs
  · exact runBridgeRestart_keeps h hs
  · exact runGuardLock_keeps h hs
  · exact completeCommand_keeps h.toQuiet (h.unlock hs)
  · exact completeCommand_keeps h.toQuiet (h.freeze hs)
  · exact completeCommand_keeps h.toQuiet hs

theorem runCommand_keeps (h : Closed P) {seq code args} (hs : P s) : P (runCommand seq code args s) := by
  unfold runCommand
  split
  · exact completeCommand_keeps h.toQuiet hs
  · exact runByCode_keeps h hs

theorem takeCommand_keeps (h : Closed P) {seq code args} (hs : P s) : P (takeCommand seq code args s) := by
  unfold takeCommand
  split
  · split
    · exact hs
    · exact readyResponse_keeps h.toQuiet hs
  · split
    · split
      · exact readyResponse_keeps h.toQuiet hs
      · exact runCommand_keeps h (nextEvent_keeps h.toQuiet hs)
    · exact runCommand_keeps h (nextEvent_keeps h.toQuiet hs)

theorem takeFrame_keeps (h : Closed P) {frame} (hs : P s) : P (takeFrame frame s) := by
  unfold takeFrame
  dsimp only
  split
  · split
    · exact hs
    · split
      · exact hs
      · exact takeCommand_keeps h hs
  · exact hs

theorem collect_keeps (h : Closed P) {bytes b} (hs : P s) : P (collect bytes b s) := by
  unfold collect
  split
  · split
    · exact h.port hs
    · exact beginTransmit_keeps h.toQuiet (h.port hs)
  · dsimp only
    split
    · exact h.port hs
    · exact beginTransmit_keeps h.toQuiet (takeFrame_keeps h (h.port hs))

theorem byteArrival_keeps (h : Closed P) {b} (hs : P s) : P (byteArrival b s) := by
  unfold byteArrival
  split
  · exact hs
  · split
    · split
      · exact h.port hs
      · exact hs
    · exact collect_keeps h hs

theorem receiveFrame_keeps (h : Closed P) {seq code args check} (hs : P s) : P (receiveFrame seq code args check s) := by
  unfold receiveFrame
  exact foldl_keeps (fun _ _ hs => byteArrival_keeps h hs) _ _ hs

theorem frameTimeout_keeps (h : Closed P) (hs : P s) : P (frameTimeout s) := by
  unfold frameTimeout
  split
  · exact hs
  · exact beginTransmit_keeps h.toQuiet (h.port hs)

theorem transmitEnd_keeps (h : Closed P) (hs : P s) : P (transmitEnd s) := by
  unfold transmitEnd
  split
  · exact hs
  · exact beginTransmit_keeps h.toQuiet (h.out (h.port hs))

/-! ### Commands and steps -/

/-- What a command answers satisfies a predicate, when the state it is known to answer does. -/
theorem next_keeps {c : Instr} {u : State} (hu : exec c s = .next u) (ht : exec c s = .next t) (h : P u) : P t := by
  rw [hu] at ht
  exact Host.Outcome.next.inj ht ▸ h

/-- A command that is neither a reset nor the tick nor of the Service Link keeps a predicate closed under the updates it can
lead to. -/
theorem exec_keeps_quiet (h : Quiet P) (c : Instr) (hc : c.ofServiceLink = false)
    (hr : c = .powerOnReset ∨ c = .resetInput → P s → P (resetPart s)) (hk : c = .uptimeTick → P s → P (s.setTick (s.tick + 1)))
    (hs : P s) (ht : exec c s = .next t) : P t := by
  cases c with
  | powerOnReset => exact next_keeps rfl ht (hr (.inl rfl) hs)
  | resetInput => exact next_keeps rfl ht (hr (.inr rfl) hs)
  | hostRead => exact next_keeps rfl ht (event_keeps h (fun _ hs => arrive_keeps h (fun _ hs => h.join hs) hs) hs)
  | hostWrite => exact next_keeps rfl ht (event_keeps h (fun _ hs => arrive_keeps h (fun _ hs => acceptWrite_keeps h hs) hs) hs)
  | barrier => exact next_keeps rfl ht (event_keeps h (fun _ hs => arrive_keeps h (fun _ hs => acceptBarrier_keeps h hs) hs) hs)
  | hrst => exact next_keeps rfl ht (event_keeps h (fun _ hs => hostLinkReset_keeps h hs) hs)
  | nonRequestTransfer => exact next_keeps rfl ht (hs)
  | requestPresentation => exact next_keeps rfl ht (internalEvent_keeps h (fun _ hs => presentNext_keeps h hs) hs)
  | bufferRoomEntry => exact next_keeps rfl ht (internalEvent_keeps h (fun _ hs => roomEntryNext_keeps h hs) hs)
  | arbiterGrant => exact next_keeps rfl ht (internalEvent_keeps h (fun _ hs => grantNext_keeps h hs) hs)
  | identAnswer => exact next_keeps rfl ht (answerEvent_keeps h (fun _ _ hs => identOutcome_keeps h hs) hs)
  | journalLineReadAnswer => exact next_keeps rfl ht (answerEvent_keeps h (fun _ _ hs => readOutcome_keeps h hs) hs)
  | hostReadAttemptAnswer => exact next_keeps rfl ht (answerEvent_keeps h (fun _ _ hs => readOutcome_keeps h hs) hs)
  | rmwReadAnswer => exact next_keeps rfl ht (answerEvent_keeps h (fun _ _ hs => readOutcome_keeps h hs) hs)
  | lineRetireReadAnswer => exact next_keeps rfl ht (answerEvent_keeps h (fun _ _ hs => readOutcome_keeps h hs) hs)
  | surveyReadAnswer => exact next_keeps rfl ht (answerEvent_keeps h (fun _ _ hs => readOutcome_keeps h hs) hs)
  | surveyGapExpiry => exact next_keeps rfl ht (internalEvent_keeps h (fun _ hs => gapExpires_keeps h hs) hs)
  | drainWriteAnswer => exact next_keeps rfl ht (answerEvent_keeps h (fun _ _ hs => writeOutcome_keeps h hs) hs)
  | inPlaceWriteAnswer => exact next_keeps rfl ht (answerEvent_keeps h (fun _ _ hs => writeOutcome_keeps h hs) hs)
  | targetWriteAnswer => exact next_keeps rfl ht (answerEvent_keeps h (fun _ _ hs => writeOutcome_keeps h hs) hs)
  | finishingWriteAnswer => exact next_keeps rfl ht (answerEvent_keeps h (fun _ _ hs => writeOutcome_keeps h hs) hs)
  | fallbackWriteAnswer => exact next_keeps rfl ht (answerEvent_keeps h (fun _ _ hs => writeOutcome_keeps h hs) hs)
  | slotHandoff => exact next_keeps rfl ht (internalEvent_keeps h (fun _ hs => handoffNext_keeps h hs) hs)
  | logLineWriteAnswer => exact next_keeps rfl ht (answerEvent_keeps h (fun _ _ hs => writeOutcome_keeps h hs) hs)
  | journalRecordJoin => exact next_keeps rfl ht (internalEvent_keeps h (fun _ hs => joinNext_keeps h hs) hs)
  | imageLineWriteAnswer => exact next_keeps rfl ht (answerEvent_keeps h (fun _ _ hs => writeOutcome_keeps h hs) hs)
  | formatLineWriteAnswer => exact next_keeps rfl ht (answerEvent_keeps h (fun _ _ hs => writeOutcome_keeps h hs) hs)
  | arrayOpTimeout => exact next_keeps rfl ht (timeoutEvent_keeps h hs)
  | lateAnswer => exact next_keeps rfl ht (lateEvent_keeps h hs)
  | quiesceEnd => exact next_keeps rfl ht (internalEvent_keeps h (fun _ hs => quiesceNext_keeps h hs) hs)
  | uptimeTick => exact next_keeps rfl ht (hk rfl hs)
  | frameByteTimeout => exact absurd hc (by simp [Instr.ofServiceLink])
  | responseTransmitEnd => exact absurd hc (by simp [Instr.ofServiceLink])
  | unknownCommand => exact absurd hc (by simp [Instr.ofServiceLink])
  | identify => exact absurd hc (by simp [Instr.ofServiceLink])
  | status => exact absurd hc (by simp [Instr.ofServiceLink])
  | lookupLine => exact absurd hc (by simp [Instr.ofServiceLink])
  | mapSeek => exact absurd hc (by simp [Instr.ofServiceLink])
  | mapNext => exact absurd hc (by simp [Instr.ofServiceLink])
  | listRead => exact absurd hc (by simp [Instr.ofServiceLink])
  | faultNext => exact absurd hc (by simp [Instr.ofServiceLink])
  | faultRewind => exact absurd hc (by simp [Instr.ofServiceLink])
  | surveyReport => exact absurd hc (by simp [Instr.ofServiceLink])
  | policyRead => exact absurd hc (by simp [Instr.ofServiceLink])
  | alertRead => exact absurd hc (by simp [Instr.ofServiceLink])
  | surveyStart => exact absurd hc (by simp [Instr.ofServiceLink])
  | surveyStop => exact absurd hc (by simp [Instr.ofServiceLink])
  | alertAck => exact absurd hc (by simp [Instr.ofServiceLink])
  | alertMask => exact absurd hc (by simp [Instr.ofServiceLink])
  | policyStage => exact absurd hc (by simp [Instr.ofServiceLink])
  | journalCompact => exact absurd hc (by simp [Instr.ofServiceLink])
  | fenceAdjust => exact absurd hc (by simp [Instr.ofServiceLink])
  | lineRetire => exact absurd hc (by simp [Instr.ofServiceLink])
  | policyExchange => exact absurd hc (by simp [Instr.ofServiceLink])
  | faultClear => exact absurd hc (by simp [Instr.ofServiceLink])
  | journalFormat => exact absurd hc (by simp [Instr.ofServiceLink])
  | bridgeRestart => exact absurd hc (by simp [Instr.ofServiceLink])
  | guardLock => exact absurd hc (by simp [Instr.ofServiceLink])
  | guardUnlock => exact absurd hc (by simp [Instr.ofServiceLink])
  | guardFreeze => exact absurd hc (by simp [Instr.ofServiceLink])
  | serviceLinkByteArrival => exact absurd hc (by simp [Instr.ofServiceLink])

/-- Every command keeps a predicate closed under the part's updates, that a reset and the tick keep. -/
theorem exec_keeps (h : Closed P) (c : Instr) (hr : c = .powerOnReset ∨ c = .resetInput → P s → P (resetPart s))
    (hk : c = .uptimeTick → P s → P (s.setTick (s.tick + 1))) (hs : P s) (ht : exec c s = .next t) : P t := by
  cases hc : c.ofServiceLink with
  | false => exact exec_keeps_quiet h.toQuiet c hc hr hk hs ht
  | true =>
    cases c with
    | frameByteTimeout => exact next_keeps rfl ht (frameTimeout_keeps h hs)
    | responseTransmitEnd => exact next_keeps rfl ht (transmitEnd_keeps h hs)
    | unknownCommand => exact next_keeps rfl ht (receiveFrame_keeps h hs)
    | identify => exact next_keeps rfl ht (receiveFrame_keeps h hs)
    | status => exact next_keeps rfl ht (receiveFrame_keeps h hs)
    | lookupLine => exact next_keeps rfl ht (receiveFrame_keeps h hs)
    | mapSeek => exact next_keeps rfl ht (receiveFrame_keeps h hs)
    | mapNext => exact next_keeps rfl ht (receiveFrame_keeps h hs)
    | listRead => exact next_keeps rfl ht (receiveFrame_keeps h hs)
    | faultNext => exact next_keeps rfl ht (receiveFrame_keeps h hs)
    | faultRewind => exact next_keeps rfl ht (receiveFrame_keeps h hs)
    | surveyReport => exact next_keeps rfl ht (receiveFrame_keeps h hs)
    | policyRead => exact next_keeps rfl ht (receiveFrame_keeps h hs)
    | alertRead => exact next_keeps rfl ht (receiveFrame_keeps h hs)
    | surveyStart => exact next_keeps rfl ht (receiveFrame_keeps h hs)
    | surveyStop => exact next_keeps rfl ht (receiveFrame_keeps h hs)
    | alertAck => exact next_keeps rfl ht (receiveFrame_keeps h hs)
    | alertMask => exact next_keeps rfl ht (receiveFrame_keeps h hs)
    | policyStage => exact next_keeps rfl ht (receiveFrame_keeps h hs)
    | journalCompact => exact next_keeps rfl ht (receiveFrame_keeps h hs)
    | fenceAdjust => exact next_keeps rfl ht (receiveFrame_keeps h hs)
    | lineRetire => exact next_keeps rfl ht (receiveFrame_keeps h hs)
    | policyExchange => exact next_keeps rfl ht (receiveFrame_keeps h hs)
    | faultClear => exact next_keeps rfl ht (receiveFrame_keeps h hs)
    | journalFormat => exact next_keeps rfl ht (receiveFrame_keeps h hs)
    | bridgeRestart => exact next_keeps rfl ht (receiveFrame_keeps h hs)
    | guardLock => exact next_keeps rfl ht (receiveFrame_keeps h hs)
    | guardUnlock => exact next_keeps rfl ht (receiveFrame_keeps h hs)
    | guardFreeze => exact next_keeps rfl ht (receiveFrame_keeps h hs)
    | serviceLinkByteArrival => exact next_keeps rfl ht (byteArrival_keeps h hs)
    | powerOnReset => simp [Instr.ofServiceLink] at hc
    | resetInput => simp [Instr.ofServiceLink] at hc
    | hostRead => simp [Instr.ofServiceLink] at hc
    | hostWrite => simp [Instr.ofServiceLink] at hc
    | barrier => simp [Instr.ofServiceLink] at hc
    | hrst => simp [Instr.ofServiceLink] at hc
    | nonRequestTransfer => simp [Instr.ofServiceLink] at hc
    | requestPresentation => simp [Instr.ofServiceLink] at hc
    | bufferRoomEntry => simp [Instr.ofServiceLink] at hc
    | arbiterGrant => simp [Instr.ofServiceLink] at hc
    | identAnswer => simp [Instr.ofServiceLink] at hc
    | journalLineReadAnswer => simp [Instr.ofServiceLink] at hc
    | hostReadAttemptAnswer => simp [Instr.ofServiceLink] at hc
    | rmwReadAnswer => simp [Instr.ofServiceLink] at hc
    | lineRetireReadAnswer => simp [Instr.ofServiceLink] at hc
    | surveyReadAnswer => simp [Instr.ofServiceLink] at hc
    | surveyGapExpiry => simp [Instr.ofServiceLink] at hc
    | drainWriteAnswer => simp [Instr.ofServiceLink] at hc
    | inPlaceWriteAnswer => simp [Instr.ofServiceLink] at hc
    | targetWriteAnswer => simp [Instr.ofServiceLink] at hc
    | finishingWriteAnswer => simp [Instr.ofServiceLink] at hc
    | fallbackWriteAnswer => simp [Instr.ofServiceLink] at hc
    | slotHandoff => simp [Instr.ofServiceLink] at hc
    | logLineWriteAnswer => simp [Instr.ofServiceLink] at hc
    | journalRecordJoin => simp [Instr.ofServiceLink] at hc
    | imageLineWriteAnswer => simp [Instr.ofServiceLink] at hc
    | formatLineWriteAnswer => simp [Instr.ofServiceLink] at hc
    | arrayOpTimeout => simp [Instr.ofServiceLink] at hc
    | lateAnswer => simp [Instr.ofServiceLink] at hc
    | quiesceEnd => simp [Instr.ofServiceLink] at hc
    | uptimeTick => simp [Instr.ofServiceLink] at hc

/-- The same of a step, for a predicate blind to the queue of waiting commands. -/
theorem step_keeps (h : Closed P) (hr : ∀ s, P s → P (resetPart s)) (hk : ∀ s, P s → P (s.setTick (s.tick + 1)))
    (hq : ∀ s v, P s → P (s.setPending v)) (hs : P s) (ht : step s = .next t) : P t := by
  unfold step at ht
  split at ht
  · cases ht
    exact hs
  · exact exec_keeps h _ (fun _ => hr _) (fun _ => hk _) (hq _ _ hs) ht

end Sys2Proof.Machine
end

