-- ==== Sys2Proof/Laws/Host.lean ====
section
/-! SUPPORT. A host request that is presented in its arrival event. -/

namespace Sys2Proof.Machine

/-- With no request of its line before it and none queued, a request put at the end of the order is presented next. -/
theorem firstReady_append (r : HostReq) (hr : r.stage = .queued) (order : List HostReq) :
    ∀ seen, (∀ q ∈ order, q.hla ≠ r.hla ∧ q.stage ≠ .queued) → r.hla ∉ seen → firstReady seen (order ++ [r]) = some r := by
  induction order with
  | nil => intro seen _ hs; rw [List.nil_append, firstReady, if_pos ⟨hr, hs⟩]
  | cons q rest ih =>
    intro seen h hs
    have hq := h q (by simp)
    rw [List.cons_append, firstReady, if_neg (fun hc => hq.2 hc.1)]
    refine ih _ (fun p hp => h p (by simp [hp])) ?_
    simp only [List.mem_cons, not_or]
    exact ⟨fun e => hq.1 e.symm, hs⟩

/-- What `presentedAtOnce` says. -/
theorem presentedAtOnce_iff (s : State) (tag : Tag) (hla : Nat) :
    presentedAtOnce s tag hla = true ↔ s.start.op = .running ∧ tag ∉ s.host.tags ∧ hla < fenceValue s ∧
      inRange s .closing hla = false ∧
      (∀ r ∈ s.host.order, (r.hla ≠ hla ∧ r.stage ≠ .queued) ∧ r.id ≠ s.ids.nextId) ∧ s.host.roomWait = [] ∧
      s.reloc.queue = [] ∧ heldNext s = none := by
  simp [presentedAtOnce, and_assoc]

/-- The request as it joins the order of its line. -/
def newRequest (tag : Tag) (hla : Nat) (write : Option (LineData × Mask)) (s : State) : HostReq :=
  { id := s.ids.nextId, tag, live := true, hla, write, stage := .queued }

/-- The state in which the request has been accepted and has joined its line's order. -/
def joined (kind : ReqKind) (tag : Tag) (hla : Nat) (write : Option (LineData × Mask)) (s : State) : State :=
  joinOrder tag hla write
    ((arrived kind tag (some hla) s).setHost { s.host with tags := s.host.tags ++ [tag] })

/-- A request that is presented in its arrival event: the event comes to its presentation. -/
theorem arrival_presented {kind : ReqKind} {tag : Tag} {hla : Nat} {write : Option (LineData × Mask)} {s : State}
    (h : presentedAtOnce s tag hla = true)
    (hc : steady (present (newRequest tag hla write s) (joined kind tag hla write s)) = true) :
    event (arrive kind tag (some hla) (joinOrder tag hla write)) s =
      evalLevels (placeDrains (present (newRequest tag hla write s) (joined kind tag hla write s))) := by
  rw [presentedAtOnce_iff] at h
  obtain ⟨hrun, htag, hf, hcl, hord, hroom, hqueue, hheld⟩ := h
  have harr : arrive kind tag (some hla) (joinOrder tag hla write) (nextEvent s) = joined kind tag hla write s := by
    unfold arrive joined arrived
    have h1 : (addTrace kind tag (some hla) (nextEvent s)).host = s.host := rfl
    simp only [h1]
    rw [if_neg (by simpa using htag)]
    have h2 : refusal ((addTrace kind tag (some hla) (nextEvent s)).setHost { s.host with tags := s.host.tags ++ [tag] })
        (some hla) = none := by
      have h3 : refusal s (some hla) = none := by
        unfold refusal
        simp [hrun, hcl, hf]
      exact h3
    rw [h2]
  unfold event
  rw [harr]
  refine settle_one ?_ hc
  unfold microStep
  have q1 : (joined kind tag hla write s).reloc.queue = [] := hqueue
  have q2 : (joined kind tag hla write s).host.roomWait = [] := hroom
  have a1 : handoffNext (joined kind tag hla write s) = none := by unfold handoffNext; rw [q1]; split <;> rfl
  have a2 : roomEntryNext (joined kind tag hla write s) = none := by unfold roomEntryNext; rw [q2]
  have a3 : presentNext (joined kind tag hla write s) =
      some (present (newRequest tag hla write s) (joined kind tag hla write s)) := by
    unfold presentNext
    have : (joined kind tag hla write s).host.order = s.host.order ++ [newRequest tag hla write s] := rfl
    rw [this, firstReady_append _ rfl _ _ (fun q hq => (hord q hq).1) (by simp)]
    rfl
  have a0 : heldNext (joined kind tag hla write s) = none := (heldNext_none_iff _).mpr ((heldNext_none_iff s).mp hheld)
  rw [a0, a1, a2, a3]
  rfl

/-- The new request leaves its line's order again: the order is as before. -/
theorem drop_new {s : State} {tag : Tag} {hla : Nat} (h : presentedAtOnce s tag hla = true)
    (write : Option (LineData × Mask)) :
    (s.host.order ++ [newRequest tag hla write s]).filter (fun r => r.id != s.ids.nextId) = s.host.order := by
  rw [presentedAtOnce_iff] at h
  rw [List.filter_append, List.filter_eq_self.mpr (fun r hr => by simpa using (h.2.2.2.2.1 r hr).2)]
  simp [newRequest]

/-- The tag is released again: the outstanding tags are as before. -/
theorem release_new {s : State} {tag : Tag} (h : tag ∉ s.host.tags) :
    (s.host.tags ++ [tag]).filter (· != tag) = s.host.tags := by
  rw [List.filter_append, List.filter_eq_self.mpr (fun r hr => by
    simp only [bne_iff_ne]; rintro rfl; exact h hr)]
  simp

/-! ### Steps of proofs about commands -/

/-- A line with no buffer entry has no newest one. -/
theorem newestEntry_none {s : State} {h : Nat} (he : ∀ e ∈ s.buf.entries, e.hla ≠ h) : newestEntry s h = none := by
  unfold newestEntry
  rw [List.filter_eq_nil_iff.mpr (fun e hm => by simpa using he e hm)]; rfl

/-- The event of a request presented at arrival, when nothing follows its presentation. -/
theorem event_presented_calm {kind : ReqKind} {tag : Tag} {hla : Nat} {write : Option (LineData × Mask)} {s t : State}
    (h : presentedAtOnce s tag hla = true) (key : present (newRequest tag hla write s) (joined kind tag hla write s) = t)
    (hc : calm t = true) : event (arrive kind tag (some hla) (joinOrder tag hla write)) s = evalLevels t := by
  rw [calm_iff] at hc
  rw [arrival_presented h (by rw [key]; exact hc.1), key, placeDrains_drained hc.2]

/-- The same, when only drain requests follow. -/
theorem event_presented_steady {kind : ReqKind} {tag : Tag} {hla : Nat} {write : Option (LineData × Mask)} {s t : State}
    (h : presentedAtOnce s tag hla = true) (key : present (newRequest tag hla write s) (joined kind tag hla write s) = t)
    (hc : steady t = true) : event (arrive kind tag (some hla) (joinOrder tag hla write)) s = evalLevels (placeDrains t) := by
  rw [arrival_presented h (by rw [key]; exact hc), key]

/-- Answering the new request leaves the tags and the order as before. -/
theorem answerReq_new {tag : Tag} {hla : Nat} {write : Option (LineData × Mask)} {s u : State} {kind : ReqKind} {status data}
    (h : presentedAtOnce s tag hla = true)
    (ht : u.host.tags = s.host.tags ++ [tag]) (ho : u.host.order = s.host.order ++ [newRequest tag hla write s]) :
    answerReq (newRequest tag hla write s) kind status data u =
      (u.setHost { u.host with tags := s.host.tags, order := s.host.order, reports := if kind = .read then u.host.reports else u.host.reports.drop 1 }).setOut
      { u.out with host := u.out.host ++ [{ kind, tag, status, reason := none, report := if kind = .read then none else u.host.reports.head?, data }] } := by
  have hh := (presentedAtOnce_iff _ _ _).mp h
  unfold answerReq
  have e : (newRequest tag hla write s).live = true := rfl
  rw [e, if_pos rfl]
  unfold sendResponse dropReq
  have e1 : (newRequest tag hla write s).id = s.ids.nextId := rfl
  have e2 : (newRequest tag hla write s).tag = tag := rfl
  simp only [e1, e2, State.setHost, State.setOut, ht, ho, release_new hh.2.1, drop_new h]

/-- The new request takes another stage. -/
theorem setStage_new {tag : Tag} {hla : Nat} {write : Option (LineData × Mask)} {s u : State} {st}
    (h : presentedAtOnce s tag hla = true) (ho : u.host.order = s.host.order ++ [newRequest tag hla write s]) :
    setStage s.ids.nextId st u = u.setHost { u.host with order := s.host.order ++ [{ newRequest tag hla write s with stage := st }] } := by
  have hh := (presentedAtOnce_iff _ _ _).mp h
  unfold setStage
  rw [ho, List.map_append]
  congr 2
  rw [show s.host.order.map (fun r => if (r.id == s.ids.nextId) = true then { r with stage := st } else r) = s.host.order from ?_]
  · simp [newRequest]
  · conv => rhs; rw [← List.map_id s.host.order]
    apply List.map_congr_left
    intro r hr
    rw [if_neg (by simpa using (hh.2.2.2.2.1 r hr).2)]; rfl

theorem hitPending_eq (h : Nat) (s : State) : hitPending h s = s.setReloc { s.reloc with pendingList := s.reloc.pendingList.map fun p => if p.hla = h then { p with hits := if p.hits = 255 then 255 else p.hits + 1 } else p } := by
  unfold hitPending
  refine congrArg (fun l => s.setReloc { s.reloc with pendingList := l }) ?_
  refine List.map_congr_left ?_
  intro p _
  simp only [saturate8, beq_iff_eq]
  split
  · by_cases h255 : p.hits = 255#8 <;> simp [h255]
  · rfl

/-- A request whose tag is outstanding is a tag clash (R24). -/
theorem arrive_clash {kind tag hla acc} {s : State} (h : s.host.tags.contains tag = true) :
    arrive kind tag hla acc (nextEvent s) = protocolFault hla (arrived kind tag hla s) := by
  unfold arrive
  exact if_pos h

/-- A refused request is answered in its arrival event (R39). -/
theorem arrive_refused {kind tag hla acc reason} {s : State} (h : tag ∉ s.host.tags) (hr : refusal s hla = some reason) :
    arrive kind tag hla acc (nextEvent s) = responded
          { kind, tag, status := .refused, reason := some reason,
            report := if kind = .read then none else s.host.reports.head?, data := none }
          ((arrived kind tag hla s).setHost
            { s.host with reports := if kind = .read then s.host.reports else s.host.reports.drop 1 }) := by
  unfold arrive
  dsimp only
  have e : (addTrace kind tag hla (nextEvent s)).host = s.host := rfl
  rw [e, if_neg (by simpa using h)]
  have e2 : refusal ((addTrace kind tag hla (nextEvent s)).setHost { s.host with tags := s.host.tags ++ [tag] }) hla = some reason := hr
  rw [e2]
  simp only [sendResponse, State.setHost, State.setOut, responded, arrived, addTrace, nextEvent, State.setLog, State.setIds, release_new h]

end Sys2Proof.Machine
end

