-- ==== Sys2Proof/Laws/Invariants.lean ====
section
/-! SUPPORT. What the laws of Sys2Proof/Safety.lean say, and how the ordered lists and the sequences they speak of behave. -/

namespace Sys2Proof.Machine

theorem guardLaw_iff (g : Guard) :
    guardLaw g = true ↔ g.attempts ≤ 5 ∧ (g.state = .open → g.attempts = 5) ∧ (g.word.isSome = true ↔ g.state = .locked) := by
  simp only [guardLaw, Bool.and_eq_true, Bool.or_eq_true, decide_eq_true_eq, bne_iff_ne, beq_iff_eq, and_assoc]
  rw [show Config.unlockAttempts = 5 from rfl]
  refine and_congr_right fun _ => and_congr (by rw [imp_iff_not_or]) ?_
  rw [Bool.eq_iff_iff, beq_iff_eq]

theorem logLaw_iff (l : FaultLog) :
    logLaw l = true ↔ l.records.length ≤ 16 ∧ l.records.map (·.seq) = sequencesBefore l.next l.records.length ∧
      (l.cursor ∈ l.records.map (·.seq) ∨ l.cursor = l.next) ∧ l.trace.length ≤ 4 := by
  simp only [logLaw, Bool.and_eq_true, Bool.or_eq_true, beq_iff_eq, decide_eq_true_eq, and_assoc, List.contains_iff_mem]
  rfl

theorem capacityLaw_iff (s : State) :
    capacityLaw s = true ↔ s.host.reports.length ≤ 4 ∧ s.buf.entries.length ≤ 8 ∧ s.reloc.pendingList.length ≤ 32 ∧
      s.reloc.watch.length ≤ 64 ∧ s.jour.queue.length ≤ 16 ∧ s.array.inFlight.length ≤ 8 ∧ s.reloc.busy ≤ 4 := by
  simp only [capacityLaw, Bool.and_eq_true, decide_eq_true_eq, and_assoc]
  rfl

/-! ### Sequences -/

theorem seqBefore_length (n : Seq32) : ∀ k, (sequencesBefore n k).length = k
  | 0 => rfl
  | k + 1 => by simp [sequencesBefore, seqBefore_length n k]
theorem seqBefore_drop (n : Seq32) (k : Nat) : (sequencesBefore n (k+1)).drop 1 = sequencesBefore n k := rfl
theorem seqBefore_snoc (n : Seq32) : ∀ k, sequencesBefore n k ++ [n] = sequencesBefore (n + 1) (k + 1)
  | 0 => by simp [sequencesBefore]
  | k + 1 => by
    show (n - BitVec.ofNat 32 (k+1)) :: (sequencesBefore n k ++ [n]) = _
    rw [seqBefore_snoc n k]
    show _ = (n + 1 - BitVec.ofNat 32 (k+2)) :: sequencesBefore (n+1) (k+1)
    congr 1
    rw [show BitVec.ofNat 32 (k+2) = BitVec.ofNat 32 (k+1) + 1 by rw [show k + 2 = (k+1)+1 from rfl, BitVec.ofNat_add]; rfl]
    ring
theorem seqBefore_next (n : Seq32) : ∀ k, ∀ x ∈ sequencesBefore n k, x + 1 ∈ sequencesBefore n k ∨ x + 1 = n := by
  intro k
  induction k with
  | zero => intro x hx; cases hx
  | succ k ih =>
    intro x hx
    rcases List.mem_cons.mp hx with rfl | hx
    · cases k with
      | zero => right; simp
      | succ k =>
        left
        show _ ∈ _ :: (n - BitVec.ofNat 32 (k+1)) :: sequencesBefore n k
        simp only [List.mem_cons]
        right; left
        rw [show BitVec.ofNat 32 (k+1+1) = BitVec.ofNat 32 (k+1) + 1 by rw [BitVec.ofNat_add]; rfl]
        ring
    · rcases ih x hx with h | h
      · left; exact List.mem_cons_of_mem _ h
      · exact .inr h

/-! ### Lists ordered by home and by ala -/

theorem insertEntry_homes (e : RemapEntry) : ∀ l : List RemapEntry, ∀ x ∈ insertEntry e l, x = e ∨ x ∈ l := by
  intro l
  induction l with
  | nil => intro x hx; simp [insertEntry] at hx; exact .inl hx
  | cons a l ih =>
    intro x hx
    unfold insertEntry at hx
    split at hx
    · simp at hx ⊢; tauto
    · split at hx
      · simp at hx ⊢; tauto
      · simp at hx
        rcases hx with rfl | hx
        · simp
        · rcases ih x hx with rfl | h
          · simp
          · simp [h]

theorem insertEntry_sorted (e : RemapEntry) : ∀ l : List RemapEntry, (l.map (·.home)).Pairwise (· < ·) →
    ((insertEntry e l).map (·.home)).Pairwise (· < ·) := by
  intro l
  induction l with
  | nil => intro _; simp [insertEntry]
  | cons a l ih =>
    intro h
    rw [List.map_cons, List.pairwise_cons] at h
    unfold insertEntry
    split
    · rename_i hlt
      rw [List.map_cons, List.pairwise_cons, List.map_cons, List.pairwise_cons]
      refine ⟨?_, h⟩
      intro b hb
      rcases List.mem_cons.mp hb with rfl | hb
      · exact hlt
      · exact Nat.lt_trans hlt (h.1 b hb)
    · split
      · rename_i heq
        rw [List.map_cons, List.pairwise_cons, heq]; exact h
      · rename_i h1 h2
        rw [List.map_cons, List.pairwise_cons]
        refine ⟨?_, ih h.2⟩
        intro b hb
        obtain ⟨x, hx, rfl⟩ := List.mem_map.mp hb
        rcases insertEntry_homes e l x hx with rfl | hx
        · omega
        · exact h.1 _ (List.mem_map_of_mem hx)

theorem insertMark_mem (ala : Nat) (st : SpareState) : ∀ l : List SpareMark, ∀ x ∈ insertMark ala st l, x.ala = ala ∨ x ∈ l := by
  intro l
  induction l with
  | nil => intro x hx; simp [insertMark] at hx; exact .inl (by rw [hx])
  | cons a l ih =>
    intro x hx
    unfold insertMark at hx
    split at hx
    · simp at hx ⊢; rcases hx with rfl | hx
      · exact .inl rfl
      · exact .inr hx
    · split at hx
      · simp at hx ⊢; rcases hx with rfl | hx
        · exact .inl rfl
        · exact .inr (.inr hx)
      · simp at hx
        rcases hx with rfl | hx
        · simp
        · rcases ih x hx with h | h
          · exact .inl h
          · simp [h]

theorem insertMark_sorted (ala : Nat) (st : SpareState) : ∀ l : List SpareMark, (l.map (·.ala)).Pairwise (· < ·) →
    ((insertMark ala st l).map (·.ala)).Pairwise (· < ·) := by
  intro l
  induction l with
  | nil => intro _; simp [insertMark]
  | cons a l ih =>
    intro h
    rw [List.map_cons, List.pairwise_cons] at h
    unfold insertMark
    split
    · rename_i hlt
      rw [List.map_cons, List.pairwise_cons, List.map_cons, List.pairwise_cons]
      refine ⟨?_, h⟩
      intro b hb
      rcases List.mem_cons.mp hb with rfl | hb
      · exact hlt
      · exact Nat.lt_trans hlt (h.1 b hb)
    · split
      · rename_i heq
        rw [List.map_cons, List.pairwise_cons]; simp only; rw [heq]; exact h
      · rename_i h1 h2
        rw [List.map_cons, List.pairwise_cons]
        refine ⟨?_, ih h.2⟩
        intro b hb
        obtain ⟨x, hx, rfl⟩ := List.mem_map.mp hb
        rcases insertMark_mem ala st l x hx with hx | hx
        · rw [hx]; omega
        · exact h.1 _ (List.mem_map_of_mem hx)

/-! ### Steps of proofs about commands -/

/-- The sequences of at most 16 records are distinct and none is the next one. -/
theorem sequencesBefore_nodup : ∀ (n : Nat) (next : Seq32), n ≤ 16 → (sequencesBefore next n).Nodup ∧ next ∉ sequencesBefore next n := by
  have hmem : ∀ (n : Nat) (next x : Seq32), x ∈ sequencesBefore next n → ∃ k, 1 ≤ k ∧ k ≤ n ∧ x = next - BitVec.ofNat 32 k := by
    intro n next x
    induction n with
    | zero => intro h; cases h
    | succ n ih =>
      intro h
      rcases List.mem_cons.mp h with rfl | h
      · exact ⟨n + 1, by omega, by omega, rfl⟩
      · obtain ⟨k, h1, h2, h3⟩ := ih h; exact ⟨k, h1, by omega, h3⟩
  have hne : ∀ (next : Seq32) (a b : Nat), a ≤ 16 → b ≤ 16 → next - BitVec.ofNat 32 a = next - BitVec.ofNat 32 b → a = b := by
    intro next a b ha hb h
    have : (BitVec.ofNat 32 a) = BitVec.ofNat 32 b := by
      bv_omega
    have := congrArg BitVec.toNat this
    simp at this; omega
  intro n
  induction n with
  | zero => intro next _; simp [sequencesBefore]
  | succ n ih =>
    intro next hn
    refine ⟨List.nodup_cons.mpr ⟨?_, (ih next (by omega)).1⟩, ?_⟩
    · intro h
      obtain ⟨k, h1, h2, h3⟩ := hmem _ _ _ h
      have := hne next (n+1) k (by omega) (by omega) h3
      omega
    · intro h
      obtain ⟨k, h1, h2, h3⟩ := hmem _ _ _ h
      have := hne next 0 k (by omega) (by omega) (by simpa using h3)
      omega

/-- A search by sequence finds the record of that sequence. -/
theorem find_record {l : List FaultRecord} (hn : (l.map (·.seq)).Nodup) {r : FaultRecord} (hr : r ∈ l) {c : Seq32} (hc : r.seq = c) :
    l.find? (·.seq == c) = some r := by
  induction l with
  | nil => cases hr
  | cons a l ih =>
    rw [List.find?_cons]
    rw [List.map_cons, List.nodup_cons] at hn
    rcases List.mem_cons.mp hr with rfl | hr'
    · simp [hc]
    · have : a.seq ≠ c := by
        intro h; apply hn.1; rw [h, ← hc]; exact List.mem_map_of_mem hr'
      simp only [beq_eq_false_iff_ne.mpr this]
      exact ih hn.2 hr'

end Sys2Proof.Machine
end

