-- ==== Sys2Proof/Laws/Service.lean ====
section
/-! SUPPORT. What the Service Port does with the bytes of one command frame, and with the answer of a command. -/

namespace Sys2Proof.Machine

/-! ### Numbers in bytes (R188) -/

theorem bigEndian16_enc16 (v : BitVec 16) : bigEndian 16 (enc16 v.toNat) = v := by
  apply BitVec.eq_of_getLsbD_eq
  intro i hi
  simp only [bigEndian, enc16, byteOf, List.foldl_cons, List.foldl_nil, BitVec.getLsbD_or, BitVec.getLsbD_shiftLeft,
    BitVec.getLsbD_setWidth, BitVec.getLsbD_ofNat, Nat.testBit_shiftRight, Nat.mul_one, Nat.mul_zero]
  by_cases h8 : i < 8
  · simp [h8, hi, BitVec.testBit_toNat]
  · have h2 : i - 8 < 8 := by omega
    simp [h8, hi, h2, BitVec.testBit_toNat, show 8 + (i - 8) = i by omega]
    omega

theorem bigEndian24_arg24 (v : Addr24) : bigEndian 24 (arg24 v) = v := by
  apply BitVec.eq_of_getLsbD_eq
  intro i hi
  simp only [bigEndian, arg24, byteOf, List.foldl_cons, List.foldl_nil, BitVec.getLsbD_or, BitVec.getLsbD_shiftLeft,
    BitVec.getLsbD_setWidth, BitVec.getLsbD_ofNat, Nat.testBit_shiftRight, Nat.mul_one, Nat.mul_zero]
  by_cases h8 : i < 8
  · simp [h8, hi, BitVec.testBit_toNat]
  · by_cases h16 : i < 16
    · have h2 : i - 8 < 8 := by omega
      simp [h8, hi, h2, BitVec.testBit_toNat, show 8 + (i - 8) = i by omega]
      omega
    · have h2 : i - 16 < 8 := by omega
      have h3 : ¬ i - 8 < 8 := by omega
      simp [h8, hi, h3, BitVec.testBit_toNat, show i - 8 - 8 = i - 16 by omega, h2, show 16 + (i - 16) = i by omega]
      rw [decide_eq_true (by omega), decide_eq_true (by omega)]; rfl

theorem bigEndian32_enc32 (v : BitVec 32) : bigEndian 32 (enc32 v) = v := by
  apply BitVec.eq_of_getLsbD_eq
  intro i hi
  simp only [bigEndian, enc32, byteOf, List.foldl_cons, List.foldl_nil, BitVec.getLsbD_or, BitVec.getLsbD_shiftLeft,
    BitVec.getLsbD_setWidth, BitVec.getLsbD_ofNat, Nat.testBit_shiftRight, Nat.mul_one, Nat.mul_zero]
  by_cases h8 : i < 8
  · simp [h8, hi, BitVec.testBit_toNat]
  · by_cases h16 : i < 16
    · have h2 : i - 8 < 8 := by omega
      simp [h8, hi, h2, BitVec.testBit_toNat, show 8 + (i - 8) = i by omega]
      omega
    · have h3 : ¬ i - 8 < 8 := by omega
      by_cases h24 : i < 24
      · have h2 : i - 16 < 8 := by omega
        simp [h8, hi, h3, BitVec.testBit_toNat, show i - 8 - 8 = i - 16 by omega, h2, show 16 + (i - 16) = i by omega]
        rw [decide_eq_true (by omega), decide_eq_true (by omega)]; rfl
      · have h2 : i - 24 < 8 := by omega
        have h4 : ¬ i - 16 < 8 := by omega
        simp [h8, hi, h3, h4, BitVec.testBit_toNat, show i - 8 - 8 = i - 16 by omega, show i - 16 - 8 = i - 24 by omega, h2,
          show 24 + (i - 24) = i by omega]
        rw [decide_eq_true (by omega), decide_eq_true (by omega), decide_eq_true (by omega)]; rfl

/-- The line number that three argument bytes name (R188). -/
theorem argLine_arg24 (v : Addr24) (rest : List Byte) : argLine (arg24 v ++ rest) 0 = v.toNat := by
  rw [← congrArg BitVec.toNat (bigEndian24_arg24 v)]
  rfl

theorem argLine_second (u v : Addr24) : argLine (arg24 u ++ arg24 v) 3 = v.toNat := by
  rw [← congrArg BitVec.toNat (bigEndian24_arg24 v)]
  rfl

theorem enc16_length (n : Nat) : (enc16 n).length = 2 := rfl

/-! ### The receiver takes a whole frame (R167, R190, R191) -/

theorem setReceiver_port (r : Receiver) (s : State) : (setReceiver r s).port = { s.port with receiver := r } := rfl

theorem setReceiver_twice (a b : Receiver) (s : State) : setReceiver a (setReceiver b s) = setReceiver a s := rfl

theorem setReceiver_same {r : Receiver} {s : State} (h : s.port.receiver = r) : setReceiver r s = s := by
  subst h; rfl

/-- Bytes that do not complete the frame are collected. -/
theorem collect_bytes {s : State} (hs : s.port.sending = none) (n : Byte) (rest : List Byte) :
    ∀ pre : List Byte, pre.length + 1 + rest.length ≤ n.toNat →
      rest.foldl (fun t b => byteArrival b t) (setReceiver (.receiving (n :: pre)) s) =
        setReceiver (.receiving (n :: pre ++ rest)) s := by
  induction rest with
  | nil => intro pre _; simp
  | cons b bs ih =>
    intro pre h
    have hb : byteArrival b (setReceiver (.receiving (n :: pre)) s) = setReceiver (.receiving (n :: (pre ++ [b]))) s := by
      unfold byteArrival
      simp only [setReceiver_port, hs, Option.isSome_none, Bool.false_eq_true, if_false]
      unfold collect
      simp only [List.cons_append, List.length_cons, List.length_append, List.length_nil] at h ⊢
      rw [if_pos (by omega)]
      rfl
    rw [List.foldl_cons, hb, ih (pre ++ [b]) (by simp only [List.length_append, List.length_cons, List.length_nil] at h ⊢; omega)]
    simp

/-- The bytes of a whole frame, when the port can receive, come to the taking of that frame (R167). -/
theorem receive_whole {s : State} (hs : s.port.sending = none) (hr : s.port.receiver = .hunting) {n : Byte}
    {rest : List Byte} (hn : lengthAllowed n = true) (hl : rest.length = n.toNat) :
    (Config.startMarker :: n :: rest).foldl (fun t b => byteArrival b t) s = beginTransmit (takeFrame (n :: rest) s) := by
  have h1 : byteArrival Config.startMarker s = setReceiver (.receiving []) s := by
    unfold byteArrival; simp [hs, hr]
  have h2 : byteArrival n (setReceiver (.receiving []) s) = setReceiver (.receiving [n]) s := by
    unfold byteArrival collect; simp [setReceiver_port, hs, hn]; rfl
  have hpos : 4 ≤ n.toNat := by
    unfold lengthAllowed at hn; simp at hn; exact hn.1
  obtain ⟨init, b, rfl⟩ : ∃ init b, rest = init ++ [b] := by
    have hne : rest ≠ [] := by intro h0; rw [h0] at hl; simp at hl; omega
    exact ⟨rest.dropLast, rest.getLast hne, (List.dropLast_append_getLast hne).symm⟩
  rw [List.length_append, List.length_singleton] at hl
  rw [List.foldl_cons, List.foldl_cons, h1, h2, List.foldl_append,
    collect_bytes hs n init [] (by simp; omega), List.foldl_cons, List.foldl_nil]
  unfold byteArrival
  simp only [setReceiver_port, hs, Option.isSome_none, Bool.false_eq_true, if_false]
  unfold collect
  simp only [List.cons_append, List.nil_append, List.length_cons, List.length_append, List.length_nil]
  rw [if_neg (by omega), setReceiver_twice, setReceiver_same hr]

/-- The length byte of a command frame with at most 7 argument bytes. -/
theorem frame_length {args : List Byte} (ha : args.length ≤ 7) :
    (BitVec.ofNat 8 (args.length + 4) : Byte).toNat = args.length + 4 := by
  rw [BitVec.toNat_ofNat, Nat.mod_eq_of_lt (by omega)]

/-- A command frame of up to 7 argument bytes, received whole while the port can receive, is taken by R168: dropped for its
check or its argument length, else handed to the port's checks. -/
theorem receiveFrame_whole {s : State} (hs : s.port.sending = none) (hr : s.port.receiver = .hunting) (seq code : Byte)
    {args : List Byte} (check : BitVec 16) (ha : args.length ≤ 7) :
    receiveFrame seq code args check s = beginTransmit
      (if commandCheck seq code args ≠ check then s
        else if !argLengthAllowed code args.length then s
        else takeCommand seq code args s) := by
  have hlen := frame_length ha
  have hf : commandFrame seq code args check =
      Config.startMarker :: BitVec.ofNat 8 (args.length + 4) :: (seq :: code :: (args ++ enc16 check.toNat)) := by
    simp [commandFrame, frameBytes]
  unfold receiveFrame
  rw [hf, receive_whole hs hr (by unfold lengthAllowed; rw [hlen]; simp; omega) (by rw [hlen]; simp [enc16_length])]
  congr 1
  unfold takeFrame
  have hcov : (BitVec.ofNat 8 (args.length + 4) :: seq :: code :: (args ++ enc16 check.toNat)).take
      ((BitVec.ofNat 8 (args.length + 4) :: seq :: code :: (args ++ enc16 check.toNat)).length - 2) =
      BitVec.ofNat 8 (args.length + 4) :: seq :: code :: args := by
    have : (BitVec.ofNat 8 (args.length + 4) :: seq :: code :: (args ++ enc16 check.toNat)) =
        (BitVec.ofNat 8 (args.length + 4) :: seq :: code :: args) ++ enc16 check.toNat := by simp
    rw [this, List.take_left' (by simp [enc16_length])]
  have hdrop : (BitVec.ofNat 8 (args.length + 4) :: seq :: code :: (args ++ enc16 check.toNat)).drop
      ((BitVec.ofNat 8 (args.length + 4) :: seq :: code :: (args ++ enc16 check.toNat)).length - 2) =
      enc16 check.toNat := by
    have : (BitVec.ofNat 8 (args.length + 4) :: seq :: code :: (args ++ enc16 check.toNat)) =
        (BitVec.ofNat 8 (args.length + 4) :: seq :: code :: args) ++ enc16 check.toNat := by simp
    rw [this, List.drop_left' (by simp [enc16_length])]
  rw [hcov, hdrop, bigEndian16_enc16]
  rfl

/-- While a response is being transmitted, the bytes of a frame are not received (R167). -/
theorem receiveFrame_sending {s : State} (hs : s.port.sending.isSome = true) (seq code : Byte) (args : List Byte)
    (check : BitVec 16) : receiveFrame seq code args check s = s := by
  unfold receiveFrame
  generalize commandFrame seq code args check = bytes
  induction bytes with
  | nil => rfl
  | cons b bs ih =>
    have hb : byteArrival b s = s := by unfold byteArrival; rw [if_pos hs]
    rw [List.foldl_cons, hb]
    exact ih

/-! ### The command a code names (R172, R192) -/

/-- A command that is not guarded, or that runs while the Guard is OPEN, is run by its code (R172). -/
theorem runCommand_byCode {seq code : Byte} {args : List Byte} {s : State} (h : isGuarded code = false ∨ s.guard.state = .open) :
    runCommand seq code args s = runByCode seq code args s := by
  unfold runCommand
  rw [if_neg]
  rintro ⟨hg, ho⟩
  rcases h with h | h
  · rw [h] at hg; cases hg
  · exact ho h

theorem runCommand_identify (seq : Byte) (args : List Byte) (s : State) :
    runCommand seq 1 args s = runIdentify seq s := by
  rw [runCommand_byCode (.inl rfl)]
  unfold runByCode
  dsimp only
  generalize runIdentify seq s = z
  rfl

theorem runCommand_status (seq : Byte) (args : List Byte) (s : State) :
    runCommand seq 2 args s = runStatus seq s := by
  rw [runCommand_byCode (.inl rfl)]
  unfold runByCode
  dsimp only
  generalize runStatus seq s = z
  rfl

theorem runCommand_lookup (seq : Byte) (args : List Byte) (s : State) :
    runCommand seq 3 args s = runLookup seq (argLine args 0) s := by
  rw [runCommand_byCode (.inl rfl)]
  unfold runByCode
  dsimp only
  generalize runLookup seq (argLine args 0) s = z
  rfl

theorem runCommand_mapSeek (seq : Byte) (args : List Byte) (s : State) :
    runCommand seq 4 args s = runMapSeek seq (argLine args 0) s := by
  rw [runCommand_byCode (.inl rfl)]
  unfold runByCode
  dsimp only
  generalize runMapSeek seq (argLine args 0) s = z
  rfl

theorem runCommand_mapNext (seq : Byte) (args : List Byte) (s : State) :
    runCommand seq 5 args s = runMapNext seq s := by
  rw [runCommand_byCode (.inl rfl)]
  unfold runByCode
  dsimp only
  generalize runMapNext seq s = z
  rfl

theorem runCommand_listRead (seq : Byte) (args : List Byte) (s : State) :
    runCommand seq 6 args s = runListRead seq (args.getD 0 0) (args.getD 1 0) s := by
  rw [runCommand_byCode (.inl rfl)]
  unfold runByCode
  dsimp only
  generalize runListRead seq (args.getD 0 0) (args.getD 1 0) s = z
  rfl

theorem runCommand_faultNext (seq : Byte) (args : List Byte) (s : State) :
    runCommand seq 7 args s = runFaultNext seq s := by
  rw [runCommand_byCode (.inl rfl)]
  unfold runByCode
  dsimp only
  generalize runFaultNext seq s = z
  rfl

theorem runCommand_faultRewind (seq : Byte) (args : List Byte) (s : State) :
    runCommand seq 8 args s = runFaultRewind seq s := by
  rw [runCommand_byCode (.inl rfl)]
  unfold runByCode
  dsimp only
  generalize runFaultRewind seq s = z
  rfl

theorem runCommand_surveyReport (seq : Byte) (args : List Byte) (s : State) :
    runCommand seq 9 args s = runSurveyReport seq s := by
  rw [runCommand_byCode (.inl rfl)]
  unfold runByCode
  dsimp only
  generalize runSurveyReport seq s = z
  rfl

theorem runCommand_policyRead (seq : Byte) (args : List Byte) (s : State) :
    runCommand seq 10 args s = runPolicyRead seq (args.getD 0 0) s := by
  rw [runCommand_byCode (.inl rfl)]
  unfold runByCode
  dsimp only
  generalize runPolicyRead seq (args.getD 0 0) s = z
  rfl

theorem runCommand_alertRead (seq : Byte) (args : List Byte) (s : State) :
    runCommand seq 11 args s = runAlertRead seq s := by
  rw [runCommand_byCode (.inl rfl)]
  unfold runByCode
  dsimp only
  generalize runAlertRead seq s = z
  rfl

theorem runCommand_surveyStart (seq : Byte) (args : List Byte) (s : State) :
    runCommand seq 32 args s = runSurveyStart seq (args.getD 0 0) (argLine args 1) (argLine args 4) s := by
  rw [runCommand_byCode (.inl rfl)]
  unfold runByCode
  dsimp only
  generalize runSurveyStart seq (args.getD 0 0) (argLine args 1) (argLine args 4) s = z
  rfl

theorem runCommand_surveyStop (seq : Byte) (args : List Byte) (s : State) :
    runCommand seq 33 args s = runSurveyStop seq s := by
  rw [runCommand_byCode (.inl rfl)]
  unfold runByCode
  dsimp only
  generalize runSurveyStop seq s = z
  rfl

theorem runCommand_alertAck (seq : Byte) (args : List Byte) (s : State) :
    runCommand seq 34 args s = runAlertAck seq (bigEndian 16 (args.take 2)) s := by
  rw [runCommand_byCode (.inl rfl)]
  unfold runByCode
  dsimp only
  generalize runAlertAck seq (bigEndian 16 (args.take 2)) s = z
  rfl

theorem runCommand_alertMask (seq : Byte) (args : List Byte) (s : State) :
    runCommand seq 35 args s = runAlertMask seq (bigEndian 16 (args.take 2)) s := by
  rw [runCommand_byCode (.inl rfl)]
  unfold runByCode
  dsimp only
  generalize runAlertMask seq (bigEndian 16 (args.take 2)) s = z
  rfl

theorem runCommand_policyStage (seq : Byte) (args : List Byte) (s : State) :
    runCommand seq 36 args s = runPolicyStage seq args s := by
  rw [runCommand_byCode (.inl rfl)]
  unfold runByCode
  dsimp only
  generalize runPolicyStage seq args s = z
  rfl

theorem runCommand_journalCompact (seq : Byte) (args : List Byte) (s : State) :
    runCommand seq 37 args s = runJournalCompact seq s := by
  rw [runCommand_byCode (.inl rfl)]
  unfold runByCode
  dsimp only
  generalize runJournalCompact seq s = z
  rfl

theorem runCommand_fenceAdjust (seq : Byte) (args : List Byte) (s : State) (h : s.guard.state = .open) :
    runCommand seq 64 args s = runFenceAdjust seq (argLine args 0) (argLine args 3) s := by
  rw [runCommand_byCode (.inr h)]
  unfold runByCode
  dsimp only
  generalize runFenceAdjust seq (argLine args 0) (argLine args 3) s = z
  rfl

theorem runCommand_lineRetire (seq : Byte) (args : List Byte) (s : State) (h : s.guard.state = .open) :
    runCommand seq 65 args s = runLineRetire seq (argLine args 0) s := by
  rw [runCommand_byCode (.inr h)]
  unfold runByCode
  dsimp only
  generalize runLineRetire seq (argLine args 0) s = z
  rfl

theorem runCommand_policyExchange (seq : Byte) (args : List Byte) (s : State) (h : s.guard.state = .open) :
    runCommand seq 66 args s = runPolicyExchange seq s := by
  rw [runCommand_byCode (.inr h)]
  unfold runByCode
  dsimp only
  generalize runPolicyExchange seq s = z
  rfl

theorem runCommand_faultClear (seq : Byte) (args : List Byte) (s : State) (h : s.guard.state = .open) :
    runCommand seq 67 args s = runFaultClear seq s := by
  rw [runCommand_byCode (.inr h)]
  unfold runByCode
  dsimp only
  generalize runFaultClear seq s = z
  rfl

theorem runCommand_journalFormat (seq : Byte) (args : List Byte) (s : State) (h : s.guard.state = .open) :
    runCommand seq 68 args s = runJournalFormat seq (if args.isEmpty then none else some (argLine args 0)) s := by
  rw [runCommand_byCode (.inr h)]
  unfold runByCode
  dsimp only
  generalize runJournalFormat seq (if args.isEmpty then none else some (argLine args 0)) s = z
  rfl

theorem runCommand_bridgeRestart (seq : Byte) (args : List Byte) (s : State) (h : s.guard.state = .open) :
    runCommand seq 69 args s = runBridgeRestart seq s := by
  rw [runCommand_byCode (.inr h)]
  unfold runByCode
  dsimp only
  generalize runBridgeRestart seq s = z
  rfl

theorem runCommand_guardLock (seq : Byte) (args : List Byte) (s : State) :
    runCommand seq 96 args s = runGuardLock seq (bigEndian 32 (args.take 4)) s := by
  rw [runCommand_byCode (.inl rfl)]
  unfold runByCode
  dsimp only
  generalize runGuardLock seq (bigEndian 32 (args.take 4)) s = z
  rfl

theorem runCommand_guardUnlock (seq : Byte) (args : List Byte) (s : State) :
    runCommand seq 97 args s = runGuardUnlock seq (bigEndian 32 (args.take 4)) s := by
  rw [runCommand_byCode (.inl rfl)]
  unfold runByCode
  dsimp only
  generalize runGuardUnlock seq (bigEndian 32 (args.take 4)) s = z
  rfl

theorem runCommand_guardFreeze (seq : Byte) (args : List Byte) (s : State) :
    runCommand seq 98 args s = runGuardFreeze seq s := by
  rw [runCommand_byCode (.inl rfl)]
  unfold runByCode
  dsimp only
  generalize runGuardFreeze seq s = z
  rfl

/-! ### Answers (R170, R171) -/

theorem beginTransmit_sending {s : State} (h : s.port.sending.isSome = true) : beginTransmit s = s := by
  unfold beginTransmit
  obtain ⟨r, hr⟩ := Option.isSome_iff_exists.mp h
  rw [hr]

theorem beginTransmit_empty {s : State} (h : s.port.waiting = []) : beginTransmit s = s := by
  unfold beginTransmit
  rw [h]
  split
  · simp_all
  · rfl

/-- A command that completes while the port is idle: its response is stored and its transmission begins. -/
theorem completeCommand_idle {s : State} (hs : s.port.sending = none) (hr : s.port.receiver = .hunting)
    (hw : s.port.waiting = []) (hc : s.port.command = none) (seq : Byte) (status : Status) (results : List Byte) :
    completeCommand seq status results s = answered { seq, status, results } s := by
  obtain ⟨host, map, array, buf, reloc, jour, start, survey, log, alert, port, guard, policy, tick, out, ids, pending⟩ := s
  obtain ⟨receiver, sending, waiting, command, stored⟩ := port
  simp only at hs hr hw hc
  subst hs hr hw hc
  rfl

theorem answered_sending (r : Response) (s : State) : (answered r s).port.sending.isSome = true := rfl

/-- What `portReady` says. -/
theorem portReady_iff (s : State) (seq : Byte) :
    portReady s seq = true ↔ s.port.sending = none ∧ s.port.receiver = .hunting ∧ s.port.waiting = [] ∧
      s.port.command = none ∧ ∀ r, s.port.stored = some r → r.seq ≠ seq := by
  simp only [portReady, Bool.and_eq_true, Option.isNone_iff_eq_none, beq_iff_eq, List.isEmpty_iff, bne_iff_ne, and_assoc]
  refine and_congr_right fun _ => and_congr_right fun _ => and_congr_right fun _ => and_congr_right fun _ => ?_
  cases s.port.stored with
  | none => simp
  | some r => simp

/-- A frame with the right check and an allowed number of arguments, taken by a ready port, runs its command (R168). -/
theorem receiveFrame_runs {s : State} {seq code : Byte} {args : List Byte} {check : BitVec 16}
    (h : portTakes s seq code args check = true) (ha : args.length ≤ 7) (hl : argLengthAllowed code args.length = true) :
    receiveFrame seq code args check s = beginTransmit (runCommand seq code args (nextEvent s)) := by
  simp only [portTakes, Bool.and_eq_true, beq_iff_eq, portReady_iff] at h
  obtain ⟨⟨hs, hr, _, hc, hq⟩, rfl⟩ := h
  rw [receiveFrame_whole hs hr seq code _ ha, if_neg (by simp), hl]
  congr 1
  simp only [Bool.not_true, Bool.false_eq_true, if_false]
  unfold takeCommand
  rw [hc]
  cases hst : s.port.stored with
  | none => rfl
  | some r => simp only [if_neg (hq r hst)]

/-- A command that is answered in the event it runs: the response is the one being transmitted, and the stored one. -/
theorem receiveFrame_answers {s t : State} {seq code : Byte} {args : List Byte} {check : BitVec 16} {status : Status}
    {results : List Byte} (h : portTakes s seq code args check = true) (ha : args.length ≤ 7)
    (hl : argLengthAllowed code args.length = true)
    (hrun : runCommand seq code args (nextEvent s) = completeCommand seq status results t) (ht : t.port = s.port) :
    receiveFrame seq code args check s = answered { seq, status, results } t := by
  have h' := h
  simp only [portTakes, Bool.and_eq_true, beq_iff_eq, portReady_iff] at h'
  obtain ⟨⟨hs, hr, hw, hc, _⟩, _⟩ := h'
  rw [receiveFrame_runs h ha hl, hrun, completeCommand_idle (by rw [ht, hs]) (by rw [ht, hr]) (by rw [ht, hw]) (by rw [ht, hc])]
  exact beginTransmit_sending rfl

/-! ### Steps of proofs about commands -/

theorem readyResponse_idle {s : State} (hs : s.port.sending = none) (hr : s.port.receiver = .hunting) (hw : s.port.waiting = []) (r : Response) :
    readyResponse r s = s.setPort { s.port with sending := some r } := by
  unfold readyResponse beginTransmit
  simp only [State.setPort, hs, hr, hw, List.nil_append]

/-- A port that takes a command is portTakes_idle. -/
theorem portTakes_idle {s : State} {seq code : Byte} {args : List Byte} {check : BitVec 16} (h : portTakes s seq code args check = true) :
    s.port.sending = none ∧ s.port.receiver = .hunting ∧ s.port.waiting = [] ∧ s.port.command = none := by
  simp only [portTakes, Bool.and_eq_true, beq_iff_eq, portReady_iff] at h
  exact ⟨h.1.1, h.1.2.1, h.1.2.2.1, h.1.2.2.2.1⟩

/-- A command that completes in its event. -/
theorem next_replied {s t : State} {seq code : Byte} {args : List Byte} {check : BitVec 16} {status : Status}
    {results : List Byte} (h : portTakes s seq code args check = true) (ha : args.length ≤ 7)
    (hl : argLengthAllowed code args.length = true)
    (hrun : runCommand seq code args (nextEvent s) = completeCommand seq status results t) (ht : t.port = s.port) :
    (Host.Outcome.next (receiveFrame seq code args check s) : Result) = replied seq status results t :=
  congrArg Host.Outcome.next (receiveFrame_answers h ha hl hrun ht)

/-- A command whose run is an event that leaves nothing to follow. -/
theorem next_runs_calm {s t : State} {seq code : Byte} {args : List Byte} {check : BitVec 16}
    (h : portTakes s seq code args check = true) (ha : args.length ≤ 7) (hl : argLengthAllowed code args.length = true)
    (hrun : runCommand seq code args (nextEvent s) = settle t) (hc : calm t = true) (hw : t.port.waiting = []) :
    (Host.Outcome.next (receiveFrame seq code args check s) : Result) = .next (evalLevels t) := by
  rw [receiveFrame_runs h ha hl, hrun, settle_calm hc]
  refine congrArg Host.Outcome.next (beginTransmit_empty ?_)
  exact hw

theorem completeCommand_portTakes {s t : State} {seq code : Byte} {args : List Byte} {check : BitVec 16} (h : portTakes s seq code args check = true)
   (q : Byte) (st : Status) (rs : List Byte) (ht : t.port = s.port) : completeCommand q st rs t = answered { seq := q, status := st, results := rs } t := by
  obtain ⟨h1, h2, h3, h4⟩ := portTakes_idle h
  exact completeCommand_idle (by rw [ht, h1]) (by rw [ht, h2]) (by rw [ht, h3]) (by rw [ht, h4]) q st rs

theorem argLine_at1 (m : Byte) (u v : Addr24) : argLine (m :: arg24 u ++ arg24 v) 1 = u.toNat := by
  rw [← congrArg BitVec.toNat (bigEndian24_arg24 u)]; rfl

theorem argLine_at4 (m : Byte) (u v : Addr24) : argLine (m :: arg24 u ++ arg24 v) 4 = v.toNat := by
  rw [← congrArg BitVec.toNat (bigEndian24_arg24 v)]; rfl

theorem bytes16_toNat (v : BitVec 16) : (byteOf v.toNat 1).toNat * 256 + (byteOf v.toNat 0).toNat = v.toNat := by
  have := v.isLt
  simp [byteOf, Nat.shiftRight_eq_div_pow]
  omega

end Sys2Proof.Machine
end

