-- ==== Sys2Proof/Laws/Journal.lean ====
section
/-! SUPPORT. Bytes of lines and of journal records, written and read back (R188, R193), and bytes that differ (R64). -/

namespace Sys2Proof.Machine

theorem byteOf_toNat (n k : Nat) : (byteOf n k).toNat = n / 2 ^ (8 * k) % 256 := by
  simp [byteOf, Nat.shiftRight_eq_div_pow]

theorem enc24_of_lt {n : Nat} (h : n < 2 ^ 24) : enc24 n = arg24 (BitVec.ofNat 24 n) := by
  unfold enc24 arg24
  rw [if_pos h, BitVec.toNat_ofNat, Nat.mod_eq_of_lt h]

theorem bigEndian24_enc24 {n : Nat} (h : n < 2 ^ 24) : (bigEndian 24 (enc24 n)).toNat = n := by
  rw [enc24_of_lt h, bigEndian24_arg24, BitVec.toNat_ofNat, Nat.mod_eq_of_lt h]

/-- A bit of a line made of bytes is the bit of its byte. -/
theorem lineOfBytes_bit (bytes : List Byte) : ∀ i, i < 512 → (lineOfBytes bytes).getLsbD i = (bytes.getD (i / 8) 0).getLsbD (i % 8) := by
  induction bytes with
  | nil => intro i _; simp [lineOfBytes]
  | cons b bs ih =>
    intro i hi
    unfold lineOfBytes
    rw [BitVec.getLsbD_or, BitVec.getLsbD_shiftLeft, BitVec.getLsbD_setWidth]
    by_cases h : i < 8
    · rw [show i / 8 = 0 by omega, show i % 8 = i by omega]
      simp [h, hi]
    · have h1 : b.getLsbD i = false := BitVec.getLsbD_of_ge _ _ (by omega)
      rw [ih (i - 8) (by omega), show i / 8 = (i - 8) / 8 + 1 by omega, show (i - 8) % 8 = i % 8 by omega]
      simp [h, hi, h1]

theorem lineOfBytes_byte (bytes : List Byte) (i : Nat) (hi : i < 64) : BitVec.ofNat 8 ((lineOfBytes bytes).toNat >>> (8 * i)) = bytes.getD i 0 := by
  apply BitVec.eq_of_getLsbD_eq
  intro k hk
  rw [BitVec.getLsbD_ofNat, Nat.testBit_shiftRight, BitVec.testBit_toNat, lineOfBytes_bit _ _ (by omega)]
  rw [show (8 * i + k) / 8 = i by omega, show (8 * i + k) % 8 = k by omega]
  simp [hk]

/-- The bytes of a line made of bytes are those bytes, then zeros. -/
theorem bytesOfLine_lineOfBytes (bytes : List Byte) (h : bytes.length ≤ 64) : bytesOfLine (lineOfBytes bytes) = bytes ++ List.replicate (64 - bytes.length) 0 := by
  apply List.ext_getElem
  · simp [bytesOfLine]; omega
  · intro i h1 h2
    simp only [bytesOfLine, List.getElem_map, List.getElem_range]
    rw [lineOfBytes_byte _ _ (by simpa [bytesOfLine] using h1)]
    by_cases hl : i < bytes.length
    · rw [List.getElem_append_left hl]; simp [hl]
    · rw [List.getElem_append_right (by omega)]
      rw [List.getD_eq_default _ _ (Nat.not_lt.mp hl)]; simp

/-- A record takes 9 bytes (section 11.7). -/
theorem record_bytes_length (r : Record) : r.bytes.length = 9 := by
  cases r <;> simp [Record.bytes, enc24, PolicySet.pack, enc8, enc16, encBool]

theorem records_bytes_length (rs : List Record) : (rs.flatMap Record.bytes).length = 9 * rs.length := by
  induction rs with
  | nil => rfl
  | cons r rs ih => simp [List.flatMap_cons, record_bytes_length, ih]; omega

theorem recordPlace_at (rs : List Record) (pre post : List Byte) (hp : pre.length = 10) : ∀ k, (hk : k < rs.length) → ((pre ++ rs.flatMap Record.bytes ++ post).drop (10 + 9 * k)).take 9 = (rs[k]).bytes := by
  have main : ∀ (rs : List Record) (k : Nat) (hk : k < rs.length) (post : List Byte), ((rs.flatMap Record.bytes ++ post).drop (9 * k)).take 9 = (rs[k]).bytes := by
    intro rs
    induction rs with
    | nil => intro k hk; simp at hk
    | cons r rs ih =>
      intro k hk post
      cases k with
      | zero =>
        simp only [Nat.mul_zero, List.drop_zero, List.flatMap_cons, List.append_assoc, List.getElem_cons_zero]
        rw [List.take_left' (record_bytes_length r)]
      | succ k =>
        simp only [List.flatMap_cons, List.append_assoc, List.getElem_cons_succ]
        rw [show 9 * (k + 1) = r.bytes.length + 9 * k by rw [record_bytes_length]; omega]
        rw [List.drop_append, List.drop_of_length_le (by omega)]
        simp only [List.nil_append, Nat.add_sub_cancel_left]
        exact ih k (by simpa using hk) post
  intro k hk
  rw [List.append_assoc, show 10 + 9 * k = pre.length + 9 * k by omega, List.drop_append, List.drop_of_length_le (by omega)]
  simp only [List.nil_append, Nat.add_sub_cancel_left]
  exact main rs k hk post

/-- The places of a line written with records hold their bytes. -/
theorem recordPlaces_eq (rs : List Record) (pre post : List Byte) (hp : pre.length = 10) : ∀ n, n ≤ rs.length → recordPlaces (pre ++ rs.flatMap Record.bytes ++ post) n = (rs.take n).map Record.bytes := by
  intro n
  induction n with
  | zero => intro _; rfl
  | succ n ih =>
    intro h
    rw [recordPlaces, ih (by omega), recordPlace_at rs pre post hp n (by omega), List.take_succ_eq_append_getElem (by omega), List.map_append]
    rfl

/-- A policy set in range is read back from its packed bytes (section 11.6). -/
theorem unpackPolicy_pack (p : PolicySet) (h : inRanges p = true) (rest : List Byte) : unpackPolicy (p.pack ++ rest) = .ok p := by
  obtain ⟨rd, wl, sl, ph, po, sg⟩ := p
  simp only [inRanges, Bool.and_eq_true, decide_eq_true_eq] at h
  obtain ⟨⟨⟨⟨⟨⟨h1, h2⟩, h3⟩, h4⟩, h5⟩, h6⟩, h7⟩ := h
  unfold unpackPolicy PolicySet.pack
  have hb : ∀ n, n < 256 → (byteOf n 0).toNat = n := by intro n hn; rw [byteOf_toNat]; simp; omega
  have hpo : ((if po then (1 : Byte) else 0) : Byte).toNat = if po then 1 else 0 := by cases po <;> rfl
  simp only [enc8, enc16, encBool, List.cons_append, List.nil_append, List.getD_cons_zero, List.getD_cons_succ]
  rw [hb rd (by omega), hb wl (by omega), hb ph (by omega), hb sg (by omega), hpo]
  have hsl : (byteOf sl 1).toNat * 256 + (byteOf sl 0).toNat = sl := by
    rw [byteOf_toNat, byteOf_toNat]; omega
  rw [hsl]
  unfold policyOf
  simp only [Bool.or_eq_true, decide_eq_true_eq]
  rw [if_neg (by omega), if_neg (by omega), if_neg (by omega), if_neg (by omega), if_neg (by cases po <;> simp), if_neg (by omega)]
  cases po <;> rfl

theorem lineByte_bit (d : LineData) (i : Nat) (hi : i < 64) (k : Nat) : (lineByte d i).getLsbD k = (decide (k < 8) && d.getLsbD (8 * i + k)) := by
  unfold lineByte
  rw [BitVec.getLsbD_ofNat, Nat.testBit_shiftRight, BitVec.testBit_toNat]

/-- Changing one byte of a line changes that byte alone. -/
theorem lineByte_xor (w : LineData) (x : Byte) (i j : Nat) (hi : i < 64) (hj : j < 64) : lineByte (w ^^^ (x.setWidth 512 <<< (8 * i))) j = if j = i then lineByte w j ^^^ x else lineByte w j := by
  apply BitVec.eq_of_getLsbD_eq
  intro k hk
  rw [lineByte_bit _ _ hj]
  by_cases h : j = i
  · subst h
    rw [if_pos rfl, BitVec.getLsbD_xor (x := lineByte w j) (y := x), lineByte_bit _ _ hj]
    simp only [BitVec.getLsbD_xor, BitVec.getLsbD_shiftLeft, BitVec.getLsbD_setWidth, hk, decide_true, Bool.true_and]
    rw [decide_eq_true (by omega : 8 * j + k < 512), decide_eq_false (by omega : ¬ 8 * j + k < 8 * j)]
    rw [show 8 * j + k - 8 * j = k by omega, decide_eq_true (by omega : k < 512)]
    simp
  · rw [if_neg h, lineByte_bit _ _ hj]
    simp only [BitVec.getLsbD_xor, BitVec.getLsbD_shiftLeft, BitVec.getLsbD_setWidth, hk, decide_true, Bool.true_and]
    by_cases hlt : 8 * j + k < 8 * i
    · simp [hlt]
    · have : x.getLsbD (8 * j + k - 8 * i) = false := BitVec.getLsbD_of_ge _ _ (by omega)
      simp [this]

/-- The number of bytes in which two lines differ. -/
theorem differingBytes_eq (a b : LineData) (l : List Nat) (hl : ∀ i, i < 64 → (lineByte a i ≠ lineByte b i ↔ i ∈ l)) (hn : l.Nodup) (hb : ∀ i ∈ l, i < 64) : differingBytes a b = l.length := by
  unfold differingBytes
  have hp : ((List.range 64).filter fun i => lineByte a i != lineByte b i).Perm l := by
    rw [List.perm_ext_iff_of_nodup (List.Nodup.filter _ List.nodup_range) hn]
    intro i
    simp only [List.mem_filter, List.mem_range, bne_iff_ne]
    constructor
    · rintro ⟨h1, h2⟩; exact (hl i h1).mp h2
    · intro h; exact ⟨hb i h, (hl i (hb i h)).mpr h⟩
  exact hp.length_eq

theorem xor_ne_self (a x : Byte) (h : x ≠ 0) : a ≠ a ^^^ x := by
  intro hh
  apply h
  have := congrArg (a ^^^ ·) hh
  simp only [BitVec.xor_self, ← BitVec.xor_assoc, BitVec.zero_xor] at this
  exact this.symm

end Sys2Proof.Machine
end

