-- ==== Sys2Proof/Laws/Levels.lean ====
section
/-! SUPPORT. The level causes after an event and after a command of the Service Link (R13, R109). -/

namespace Sys2Proof.Machine

/-- A level cause follows its condition and no other bit changes. -/
theorem followLevel_bit (c : AlertCause) (b : Bool) (x : BitVec 10) (i : Nat) : (followLevel c b x).getLsbD i = if i = c.index then b else x.getLsbD i := by
  unfold followLevel AlertCause.bit
  have hc : c.index < 10 := by cases c <;> decide
  by_cases hi : i < 10
  · have hb : (1#10 <<< c.index).getLsbD i = decide (i = c.index) := by
      simp only [BitVec.getLsbD_shiftLeft, hi, decide_true, Bool.true_and, BitVec.getLsbD_one]
      by_cases h : i = c.index
      · subst h; simp
      · simp [h]; omega
    cases b <;> simp only [if_true, if_false, Bool.false_eq_true, BitVec.getLsbD_or, BitVec.getLsbD_and, BitVec.getLsbD_not, hb, hi] <;> by_cases h : i = c.index <;> simp [h]
  · have h1 : i ≠ c.index := by omega
    rw [if_neg h1, BitVec.getLsbD_of_ge _ _ (by omega), BitVec.getLsbD_of_ge _ _ (by omega)]

theorem evalLevels_levelLaw (s : State) : levelLaw (evalLevels s) := by
  refine ⟨?_, ?_⟩
  · show _ ↔ (s.start.op = .running ∨ s.start.op = .quiescing) ∧ freeCount s ≤ s.policy.active.spareLow
    unfold evalLevels
    simp only [State.setAlert, followLevel_bit, AlertCause.index]
    simp
  · show _ ↔ s.policy.active.pendingHigh ≤ s.reloc.pendingList.length
    unfold evalLevels
    simp only [State.setAlert, followLevel_bit, AlertCause.index]
    simp

theorem settle_levelLaw (s : State) : levelLaw (settle s) := evalLevels_levelLaw _

theorem beginTransmit_levelLaw {s : State} (h : levelLaw s) : levelLaw (beginTransmit s) := by
  unfold beginTransmit; split <;> exact h

theorem readyResponse_levelLaw {s : State} (r : Response) (h : levelLaw s) : levelLaw (readyResponse r s) := beginTransmit_levelLaw h

theorem completeCommand_levelLaw {s : State} {seq st res} (h : levelLaw s) : levelLaw (completeCommand seq st res s) := readyResponse_levelLaw _ h

end Sys2Proof.Machine
end

