-- ==== Sys2Proof/Laws/Places.lean ====
section
/-! SUPPORT. The law of the Remap Table and the Spare Pool (PlacesLaw): what entries and marks an update leaves, and one lemma per
operation on the two, saying that the operation keeps the law. -/

open Sys2Proof
namespace Sys2Proof.Machine

/-- A next target changes the map alone. -/
theorem retarget_map {s : State} {home next} : ∃ v, retarget home next s = s.setMap v := by
  unfold retarget; split
  · split
    · exact ⟨_, rfl⟩
    · exact ⟨s.map, rfl⟩
  · exact ⟨s.map, rfl⟩

/-- A completed binding changes the map alone. -/
theorem bindTarget_map {s : State} {home} : ∃ v, bindTarget home s = s.setMap v := by
  unfold bindTarget; split
  · split
    · dsimp only; split <;> exact ⟨_, rfl⟩
    · exact ⟨s.map, rfl⟩
  · exact ⟨s.map, rfl⟩

/-- The end of a return changes the map alone. -/
theorem dropTarget_map {s : State} {home e} : ∃ v, dropTarget home e s = s.setMap v := by
  unfold dropTarget; split <;> exact ⟨_, rfl⟩

/-- A replayed BIND record changes the map alone. -/
theorem replayBind_map {s : State} {home spare} : ∃ v, replayBind home spare s = s.setMap v := by
  unfold replayBind; dsimp only; split
  · split <;> exact ⟨_, rfl⟩
  · exact ⟨_, rfl⟩

/-- Marking a line changes that line's mark alone. -/
theorem markOf_insertMark (a b : Nat) (st : SpareState) : ∀ l : List SpareMark,
    markOf (insertMark a st l) b = if b = a then some st else markOf l b
  | [] => by
    by_cases h : b = a
    · simp [insertMark, markOf, h]
    · simp [insertMark, markOf, h, Ne.symm h]
  | x :: l => by
    have ih := markOf_insertMark a b st l
    unfold insertMark
    split
    · by_cases h : b = a
      · simp [markOf, h]
      · simp [markOf, h, Ne.symm h]
    · split
      · rename_i h1 h2
        by_cases h : b = a
        · simp [markOf, h]
        · simp [markOf, h, Ne.symm h, h2 ▸ Ne.symm h]
      · rename_i h1 h2
        by_cases hx : x.ala = b
        · have : b ≠ a := by omega
          simp [markOf, hx, this]
        · have e1 : ∀ l' : List SpareMark, markOf (x :: l') b = markOf l' b := by
            intro l'; simp [markOf, hx]
          rw [e1, e1, ih]

/-- In an ordered table, setting an entry replaces the entry of its home. -/
theorem mem_insertEntry {e : RemapEntry} : ∀ {l : List RemapEntry}, (l.map (·.home)).Pairwise (· < ·) → ∀ x,
    x ∈ insertEntry e l ↔ x = e ∨ (x ∈ l ∧ x.home ≠ e.home)
  | [], _, x => by simp [insertEntry]
  | a :: l, h, x => by
    rw [List.map_cons, List.pairwise_cons] at h
    have hl : ∀ y ∈ l, a.home < y.home := fun y hy => h.1 _ (List.mem_map_of_mem hy)
    have ih := mem_insertEntry (e := e) h.2 x
    unfold insertEntry
    split
    · rename_i hlt
      simp only [List.mem_cons]
      constructor
      · rintro (rfl | rfl | hx)
        · exact .inl rfl
        · exact .inr ⟨.inl rfl, by omega⟩
        · exact .inr ⟨.inr hx, by have := hl x hx; omega⟩
      · rintro (rfl | ⟨hx, _⟩)
        · exact .inl rfl
        · exact .inr hx
    · split
      · rename_i heq
        simp only [List.mem_cons]
        constructor
        · rintro (rfl | hx)
          · exact .inl rfl
          · exact .inr ⟨.inr hx, by have := hl x hx; omega⟩
        · rintro (rfl | ⟨rfl | hx, hne⟩)
          · exact .inl rfl
          · exact absurd heq.symm hne
          · exact .inr hx
      · rename_i h1 h2
        simp only [List.mem_cons, ih]
        constructor
        · rintro (rfl | rfl | ⟨hx, hne⟩)
          · exact .inr ⟨.inl rfl, fun e => h2 e.symm⟩
          · exact .inl rfl
          · exact .inr ⟨.inr hx, hne⟩
        · rintro (rfl | ⟨rfl | hx, hne⟩)
          · exact .inr (.inl rfl)
          · exact .inl rfl
          · exact .inr (.inr ⟨hx, hne⟩)

/-- A home has one entry in an ordered table. -/
theorem entry_unique {l : List RemapEntry} (h : (l.map (·.home)).Pairwise (· < ·)) {d e : RemapEntry} (hd : d ∈ l) (he : e ∈ l)
    (hh : d.home = e.home) : d = e := by
  induction l with
  | nil => cases hd
  | cons a l ih =>
    rw [List.map_cons, List.pairwise_cons] at h
    have hl : ∀ y ∈ l, a.home < y.home := fun y hy => h.1 _ (List.mem_map_of_mem hy)
    rcases List.mem_cons.mp hd with rfl | hd' <;> rcases List.mem_cons.mp he with rfl | he'
    · rfl
    · have := hl _ he'; omega
    · have := hl _ hd'; omega
    · exact ih h.2 hd' he'

/-- The entry found for a home is in the table and is of that home. -/
theorem entryOf_mem {s : State} {home : Nat} {e : RemapEntry} (h : entryOf s home = some e) : e ∈ s.map.table ∧ e.home = home :=
  ⟨List.mem_of_find?_eq_some h, by simpa using List.find?_some h⟩

/-- With no entry found, no entry of the table is of that home. -/
theorem entryOf_none {s : State} {home : Nat} (h : entryOf s home = none) : ∀ e ∈ s.map.table, e.home ≠ home := by
  intro e he
  simpa using List.find?_eq_none.mp h e he

/-- A FREE line lies in the reserve and bears no mark, and the pool is built. -/
theorem spareStateOf_free {s : State} {a : Nat} (h : spareStateOf s a = some .free) (hm : ∀ b st, markOf s.map.marks b =
    some st → st ≠ .free) :
    inReserve s a = true ∧ markOf s.map.marks a = none ∧ s.map.poolBuilt = true := by
  unfold spareStateOf at h
  split at h
  · rename_i hr
    refine ⟨hr, ?_⟩
    split at h
    · rename_i st heq
      cases h
      exact absurd rfl (hm _ _ heq)
    · rename_i heq
      refine ⟨heq, ?_⟩
      split at h
      · assumption
      · cases h
  · cases h

section
variable {s : State}

/-- A change of table and marks alone, in terms of what is in them. -/
theorem PlacesLaw.remap (h : PlacesLaw s) {m : MapState} (hf : m.fence = s.map.fence) (hb : m.poolBuilt = s.map.poolBuilt)
    (ho : mapLaw m) (hne : s.start.phase ≠ .ident)
    (h1 : ∀ e ∈ m.table, e.home < fenceValue s)
    (h2 : ∀ d ∈ m.table, ∀ e ∈ m.table, ∀ a, d.namesLine a → e.namesLine a → d = e)
    (h3 : ∀ e ∈ m.table, ∀ a, e.spare = some a → markOf m.marks a = some .bound)
    (h4 : ∀ e ∈ m.table, ∀ a, e.target = some a → markOf m.marks a = some .held)
    (h5 : ∀ a, markOf m.marks a = some .bound → ∃ e ∈ m.table, e.spare = some a)
    (h6 : ∀ a, markOf m.marks a = some .held → ∃ e ∈ m.table, e.target = some a)
    (h7 : ∀ a st, markOf m.marks a = some st → inReserve s a = true ∧ st ≠ .free)
    (h8 : m.poolBuilt = false → ∀ e ∈ m.table, e.target = none) : PlacesLaw (s.setMap m) where
  ordered := ho
  homesBelow := by
    show ∀ e ∈ m.table, e.home < m.fence.getD 0
    rw [hf]; exact h1
  namedOnce := h2
  spareBound := h3
  targetHeld := h4
  boundNamed := h5
  heldNamed := h6
  marked := by
    intro a st hm
    have := h7 a st hm
    refine ⟨?_, this.2⟩
    rw [← this.1]
    unfold inReserve reserveEnd
    simp only [State.setMap_map, State.setMap_array, hf]
    rfl
  bounds := by intro f hm; exact h.bounds f (hf ▸ hm)
  building := h8
  starting := by intro hp; exact hb.trans (h.starting hp)
  counting := fun hp => absurd hp hne

/-- No mark is FREE. -/
theorem PlacesLaw.notFree (h : PlacesLaw s) : ∀ b st, markOf s.map.marks b = some st → st ≠ .free :=
    fun b st hb => (h.marked b st hb).2

/-- A table with an entry is not that of a part waiting for IDENT. -/
theorem PlacesLaw.not_ident (h : PlacesLaw s) {e} (he : e ∈ s.map.table) : s.start.phase ≠ .ident := by
  intro hp; rw [(h.counting hp).1] at he; cases he

/-- With the pool built, start-up has ended. -/
theorem PlacesLaw.idle (h : PlacesLaw s) (hb : s.map.poolBuilt = true) : s.start.phase = .idle := by
  by_contra hp; rw [h.starting hp] at hb; cases hb

theorem mapLaw_insert {m : MapState} (h : mapLaw m) (e a st) :
    mapLaw { m with table := insertEntry e m.table, marks := insertMark a st m.marks } :=
  ⟨insertEntry_sorted e _ h.1, insertMark_sorted a st _ h.2⟩
theorem mapLaw_entry {m : MapState} (h : mapLaw m) (e) : mapLaw { m with table := insertEntry e m.table } :=
  ⟨insertEntry_sorted e _ h.1, h.2⟩
theorem mapLaw_mark {m : MapState} (h : mapLaw m) (a st) : mapLaw { m with marks := insertMark a st m.marks } :=
  ⟨h.1, insertMark_sorted a st _ h.2⟩

/-- Replacing (or creating) one home's entry and changing marks. -/
theorem PlacesLaw.put (h : PlacesLaw s) {m : MapState} {e : RemapEntry} (hf : m.fence = s.map.fence)
    (hb : m.poolBuilt = s.map.poolBuilt) (ho : mapLaw m) (hne : s.start.phase ≠ .ident)
    (hT : ∀ x, x ∈ m.table ↔ x = e ∨ (x ∈ s.map.table ∧ x.home ≠ e.home))
    (h1 : e.home < fenceValue s)
    (hn : ∀ a, e.namesLine a → ∀ x ∈ s.map.table, x.home ≠ e.home → ¬ x.namesLine a)
    (hkeep : ∀ x ∈ s.map.table, x.home ≠ e.home → ∀ a, x.namesLine a → markOf m.marks a = markOf s.map.marks a)
    (h3 : ∀ a, e.spare = some a → markOf m.marks a = some .bound)
    (h4 : ∀ a, e.target = some a → markOf m.marks a = some .held)
    (h5 : ∀ a, markOf m.marks a = some .bound → e.spare = some a ∨ (markOf s.map.marks a = some .bound ∧ ∀ x ∈ s.map.table,
        x.home = e.home → x.spare ≠ some a))
    (h6 : ∀ a, markOf m.marks a = some .held → e.target = some a ∨ (markOf s.map.marks a = some .held ∧ ∀ x ∈ s.map.table,
        x.home = e.home → x.target ≠ some a))
    (h7 : ∀ a st, markOf m.marks a = some st → inReserve s a = true ∧ st ≠ .free)
    (h8 : m.poolBuilt = false → e.target = none) : PlacesLaw (s.setMap m) := by
  refine h.remap hf hb ho hne ?_ ?_ ?_ ?_ ?_ ?_ h7 ?_
  · intro x hx
    rcases (hT x).mp hx with rfl | ⟨hx, _⟩
    · exact h1
    · exact h.homesBelow x hx
  · intro d hd x hx a ha hxa
    rcases (hT d).mp hd with rfl | ⟨hd, hd'⟩ <;> rcases (hT x).mp hx with rfl | ⟨hx, hx'⟩
    · rfl
    · exact absurd hxa (hn a ha x hx hx')
    · exact absurd ha (hn a hxa d hd hd')
    · exact h.namedOnce d hd x hx a ha hxa
  · intro x hx a ha
    rcases (hT x).mp hx with rfl | ⟨hx, hx'⟩
    · exact h3 a ha
    · rw [hkeep x hx hx' a (.inl ha)]; exact h.spareBound x hx a ha
  · intro x hx a ha
    rcases (hT x).mp hx with rfl | ⟨hx, hx'⟩
    · exact h4 a ha
    · rw [hkeep x hx hx' a (.inr ha)]; exact h.targetHeld x hx a ha
  · intro a ha
    rcases h5 a ha with h5 | ⟨h5, h5'⟩
    · exact ⟨e, (hT e).mpr (.inl rfl), h5⟩
    · obtain ⟨x, hx, hxa⟩ := h.boundNamed a h5
      exact ⟨x, (hT x).mpr (.inr ⟨hx, fun hh => h5' x hx hh hxa⟩), hxa⟩
  · intro a ha
    rcases h6 a ha with h6 | ⟨h6, h6'⟩
    · exact ⟨e, (hT e).mpr (.inl rfl), h6⟩
    · obtain ⟨x, hx, hxa⟩ := h.heldNamed a h6
      exact ⟨x, (hT x).mpr (.inr ⟨hx, fun hh => h6' x hx hh hxa⟩), hxa⟩
  · intro hp x hx
    rcases (hT x).mp hx with rfl | ⟨hx, hx'⟩
    · exact h8 hp
    · exact h.building (hb ▸ hp) x hx

/-- A line that an entry names is BOUND or HELD. -/
theorem PlacesLaw.marked_of_names (h : PlacesLaw s) {e a} (he : e ∈ s.map.table) (ha : e.namesLine a) :
    markOf s.map.marks a = some .bound ∨ markOf s.map.marks a = some .held := by
  rcases ha with ha | ha
  · exact .inl (h.spareBound e he a ha)
  · exact .inr (h.targetHeld e he a ha)

/-- The begin of a relocation to a FREE spare keeps the law (R4, R96). -/
theorem PlacesLaw.begin (h : PlacesLaw s) {home spare cause} (hh : home < fenceValue s) (hm : isMoving s home = false)
    (hf : spareStateOf s spare = some .free) : PlacesLaw (setEntry (beginEntry s home spare cause) (setMark spare .held s)) := by
  obtain ⟨hr, hun, hb⟩ := spareStateOf_free hf h.notFree
  have hnn : ∀ x ∈ s.map.table, ¬ x.namesLine spare := by
    intro x hx hn
    rcases h.marked_of_names hx hn with h1 | h1 <;> rw [hun] at h1 <;> cases h1
  have hph : s.start.phase ≠ .ident := by rw [h.idle hb]; simp
  have hs := h.ordered
  have hM : ∀ b, markOf (insertMark spare .held s.map.marks) b = if b = spare then some .held else markOf s.map.marks b :=
    fun b => markOf_insertMark _ _ _ _
  have hmark : ∀ a st, markOf (insertMark spare .held s.map.marks) a = some st → inReserve s a = true ∧ st ≠ .free := by
    intro a st ha
    rw [hM] at ha
    split at ha
    · rename_i heq; cases ha; exact ⟨heq ▸ hr, by simp⟩
    · exact h.marked a st ha
  have hehome : (beginEntry s home spare cause).home = home := by
    unfold beginEntry
    split
    · rename_i e he; exact (entryOf_mem he).2
    · rfl
  have htgt : (beginEntry s home spare cause).target = some spare := by
    unfold beginEntry; split <;> rfl
  have hsp : ∀ a, (beginEntry s home spare cause).spare = some a → ∃ x ∈ s.map.table, x.home = home ∧ x.spare = some a := by
    intro a ha
    unfold beginEntry at ha
    split at ha
    · rename_i e he; exact ⟨e, (entryOf_mem he).1, (entryOf_mem he).2, ha⟩
    · cases ha
  have hold : ∀ x ∈ s.map.table, x.home = home → x.target = none ∧ (beginEntry s home spare cause).spare = x.spare := by
    intro x hx hxh
    unfold beginEntry
    cases he : entryOf s home with
    | none => exact absurd hxh (entryOf_none he x hx)
    | some e =>
      have := entry_unique hs.1 hx (entryOf_mem he).1 (hxh.trans (entryOf_mem he).2.symm)
      subst this
      unfold isMoving at hm
      rw [he] at hm
      refine ⟨?_, rfl⟩
      simpa using hm
  refine h.put (e := beginEntry s home spare cause) rfl rfl (mapLaw_insert hs _ _ _) hph ?_ (by rw [hehome]; exact hh)
      ?_ ?_ ?_ ?_ ?_ ?_ hmark ?_
  · exact fun x => mem_insertEntry hs.1 x
  · rw [hehome]
    rintro a (ha | ha) x hx hxh hn
    · obtain ⟨y, hy, hyh, hys⟩ := hsp a ha
      have := h.namedOnce y hy x hx a (.inl hys) hn
      subst this; exact hxh hyh
    · rw [htgt] at ha; cases ha; exact hnn x hx hn
  · intro x hx hxh a ha
    show markOf (insertMark _ _ _) a = _
    rw [hM, if_neg]
    rintro rfl; exact hnn x hx ha
  · intro a ha
    obtain ⟨y, hy, hyh, hys⟩ := hsp a ha
    show markOf (insertMark _ _ _) a = _
    rw [hM, if_neg]
    · exact h.spareBound y hy a hys
    · rintro rfl; exact hnn y hy (.inl hys)
  · intro a ha
    rw [htgt] at ha; cases ha
    show markOf (insertMark _ _ _) _ = _
    rw [hM, if_pos rfl]
  · intro a ha
    have ha : markOf (insertMark spare .held s.map.marks) a = _ := ha
    rw [hM] at ha
    split at ha
    · cases ha
    · by_cases hc : ∃ x ∈ s.map.table, x.home = home ∧ x.spare = some a
      · obtain ⟨x, hx, hxh, hxa⟩ := hc
        left; rw [(hold x hx hxh).2]; exact hxa
      · right
        refine ⟨ha, fun x hx hxh hxa => hc ⟨x, hx, hxh.trans hehome, hxa⟩⟩
  · intro a ha
    have ha : markOf (insertMark spare .held s.map.marks) a = _ := ha
    rw [hM] at ha
    split at ha
    · rename_i heq; left; rw [htgt, heq]
    · right
      refine ⟨ha, fun x hx hxh hxa => ?_⟩
      rw [(hold x hx (hxh.trans hehome)).1] at hxa; cases hxa
  · intro hp
    have hp : s.map.poolBuilt = false := hp
    rw [hb] at hp; cases hp

/-- A line that no entry names may become DEAD. -/
theorem PlacesLaw.kill (h : PlacesLaw s) {a} (hr : inReserve s a = true) (hph : s.start.phase ≠ .ident)
    (hnn : ∀ x ∈ s.map.table, ¬ x.namesLine a) : PlacesLaw (setMark a .dead s) := by
  have hM : ∀ b, markOf (insertMark a .dead s.map.marks) b = if b = a then some .dead else markOf s.map.marks b :=
    fun b => markOf_insertMark _ _ _ _
  refine h.remap (m := { s.map with marks := insertMark a .dead s.map.marks }) rfl rfl (mapLaw_mark h.ordered _ _)
      hph h.homesBelow h.namedOnce ?_ ?_ ?_ ?_ ?_ h.building
  · intro e he x hx
    show markOf (insertMark _ _ _) _ = _
    rw [hM, if_neg]
    · exact h.spareBound e he x hx
    · rintro rfl; exact hnn e he (.inl hx)
  · intro e he x hx
    show markOf (insertMark _ _ _) _ = _
    rw [hM, if_neg]
    · exact h.targetHeld e he x hx
    · rintro rfl; exact hnn e he (.inr hx)
  · intro b hb
    rw [hM] at hb
    split at hb
    · cases hb
    · exact h.boundNamed b hb
  · intro b hb
    rw [hM] at hb
    split at hb
    · cases hb
    · exact h.heldNamed b hb
  · intro b st hb
    rw [hM] at hb
    split at hb
    · rename_i heq; cases hb; exact ⟨heq ▸ hr, by simp⟩
    · exact h.marked b st hb

/-- A FREE line may become DEAD (R11). -/
theorem PlacesLaw.killFree (h : PlacesLaw s) {a} (hf : spareStateOf s a = some .free) : PlacesLaw (setMark a .dead s) := by
  obtain ⟨hr, hun, hb⟩ := spareStateOf_free hf h.notFree
  refine h.kill hr (by rw [h.idle hb]; simp) ?_
  intro x hx hn
  rcases h.marked_of_names hx hn with h1 | h1 <;> rw [hun] at h1 <;> cases h1

/-- A next target keeps the law (R99). -/
theorem PlacesLaw.retarget (h : PlacesLaw s) {home next} (hf : spareStateOf s next = some .free) :
    PlacesLaw (Machine.retarget home next s) := by
  obtain ⟨hr, hun, hb⟩ := spareStateOf_free hf h.notFree
  have hs := h.ordered
  unfold Machine.retarget
  split
  · rename_i e he
    obtain ⟨hem, heh⟩ := entryOf_mem he
    split
    · rename_i old ht
      have hnn : ∀ x ∈ s.map.table, ¬ x.namesLine next := by
        intro x hx hn
        rcases h.marked_of_names hx hn with h1 | h1 <;> rw [hun] at h1 <;> cases h1
      have hold := h.targetHeld e hem old ht
      have hno : old ≠ next := by rintro rfl; rw [hun] at hold; cases hold
      have hM : ∀ b, markOf (insertMark old .dead (setMark next .held s).map.marks) b =
          if b = old then some .dead else if b = next then some .held else markOf s.map.marks b :=
        fun b => by rw [markOf_insertMark]; show (if b = old then _ else markOf (insertMark next .held s.map.marks) b) = _; rw [markOf_insertMark]
      have honly : ∀ x ∈ s.map.table, x.home = e.home → x = e := fun x hx hh => entry_unique hs.1 hx hem hh
      refine h.put (e := { e with target := some next }) rfl rfl (mapLaw_entry (m :=
          { s.map with marks := insertMark old .dead (insertMark next .held s.map.marks) })
              ⟨hs.1, insertMark_sorted _ _ _ (insertMark_sorted _ _ _ hs.2)⟩ _)
        (by rw [h.idle hb]; simp) (fun x => mem_insertEntry hs.1 x) (h.homesBelow e hem) ?_ ?_ ?_ ?_ ?_ ?_ ?_ ?_
      · rintro a (ha | ha) x hx hxh hn
        · have := h.namedOnce e hem x hx a (.inl ha) hn
          subst this; exact hxh rfl
        · cases ha; exact hnn x hx hn
      · intro x hx hxh a ha
        show markOf (insertMark _ _ _) a = _
        rw [hM, if_neg, if_neg]
        · rintro rfl; exact hnn x hx ha
        · rintro rfl
          have := h.namedOnce e hem x hx _ (.inr ht) ha
          subst this; exact hxh rfl
      · intro a ha
        have hsb := h.spareBound e hem a ha
        show markOf (insertMark _ _ _) a = _
        rw [hM, if_neg, if_neg, hsb]
        · rintro rfl; rw [hun] at hsb; cases hsb
        · rintro rfl; rw [hold] at hsb; cases hsb
      · intro a ha
        cases ha
        show markOf (insertMark _ _ _) _ = _
        rw [hM, if_neg (Ne.symm hno), if_pos rfl]
      · intro a ha
        have ha : markOf (insertMark _ _ _) a = _ := ha
        rw [hM] at ha
        split at ha
        · cases ha
        split at ha
        · cases ha
        by_cases hc : e.spare = some a
        · exact .inl hc
        · exact .inr ⟨ha, fun x hx hxh hxa => hc (honly x hx hxh ▸ hxa)⟩
      · intro a ha
        have ha : markOf (insertMark _ _ _) a = _ := ha
        rw [hM] at ha
        split at ha
        · cases ha
        split at ha
        · rename_i heq; exact .inl (by rw [heq])
        · rename_i h1 h2
          exact .inr ⟨ha, fun x hx hxh hxa => by
            rw [honly x hx hxh, ht] at hxa; cases hxa; exact h1 rfl⟩
      · intro a st ha
        have ha : markOf (insertMark _ _ _) a = _ := ha
        rw [hM] at ha
        split at ha
        · rename_i heq; cases ha; exact ⟨heq ▸ (h.marked _ _ hold).1, by simp⟩
        split at ha
        · rename_i heq; cases ha; exact ⟨heq ▸ hr, by simp⟩
        · exact h.marked a st ha
      · intro hp
        have hp : s.map.poolBuilt = false := hp
        rw [hb] at hp; cases hp
    · exact h
  · exact h

/-- A completed binding keeps the law (R4). -/
theorem PlacesLaw.bind (h : PlacesLaw s) {home} : PlacesLaw (bindTarget home s) := by
  have hs := h.ordered
  unfold bindTarget
  split
  · rename_i e he
    obtain ⟨hem, heh⟩ := entryOf_mem he
    split
    · rename_i t ht
      have hheld := h.targetHeld e hem t ht
      have honly : ∀ x ∈ s.map.table, x.home = e.home → x = e := fun x hx hh => entry_unique hs.1 hx hem hh
      have hb : s.map.poolBuilt = true := by
        cases hp : s.map.poolBuilt
        · have := h.building hp e hem; rw [ht] at this; cases this
        · rfl
      have key : ∀ marks : List SpareMark, (marks.map (·.ala)).Pairwise (· < ·) →
          (∀ b, markOf marks b = if e.spare = some b then some .dead else if b = t then some .bound else markOf s.map.marks b) →
          PlacesLaw (s.setMap { s.map with table := insertEntry { e with spare := some t, target := none, boundTick := some s.tick } s.map.table, marks }) := by
        intro marks hsm hM
        have hno : e.spare ≠ some t := by
          intro hc; have := h.spareBound e hem t hc; rw [hheld] at this; cases this
        refine h.put (e := { e with spare := some t, target := none, boundTick := some s.tick }) rfl rfl
          ⟨insertEntry_sorted _ _ hs.1, hsm⟩ (h.not_ident hem) (fun x => mem_insertEntry hs.1 x) (h.homesBelow e hem)
              ?_ ?_ ?_ ?_ ?_ ?_ ?_ ?_
        · rintro a (ha | ha) x hx hxh hn
          · cases ha
            have := h.namedOnce e hem x hx _ (.inr ht) hn
            subst this; exact hxh rfl
          · cases ha
        · intro x hx hxh a ha
          show markOf marks a = _
          rw [hM, if_neg, if_neg]
          · rintro rfl
            have := h.namedOnce e hem x hx _ (.inr ht) ha
            subst this; exact hxh rfl
          · intro hc
            have := h.namedOnce e hem x hx _ (.inl hc) ha
            subst this; exact hxh rfl
        · intro a ha
          cases ha
          show markOf marks _ = _
          rw [hM, if_neg hno, if_pos rfl]
        · intro a ha; cases ha
        · intro a ha
          have ha : markOf marks a = _ := ha
          rw [hM] at ha
          split at ha
          · cases ha
          · rename_i h1
            split at ha
            · rename_i heq; exact .inl (by rw [heq])
            · exact .inr ⟨ha, fun x hx hxh hxa => h1 (honly x hx hxh ▸ hxa)⟩
        · intro a ha
          have ha : markOf marks a = _ := ha
          rw [hM] at ha
          split at ha
          · cases ha
          · split at ha
            · cases ha
            · rename_i h2
              exact .inr ⟨ha, fun x hx hxh hxa => by rw [honly x hx hxh, ht] at hxa; cases hxa; exact h2 rfl⟩
        · intro a st ha
          have ha : markOf marks a = _ := ha
          rw [hM] at ha
          split at ha
          · rename_i heq; cases ha; exact ⟨(h.marked _ _ (h.spareBound e hem a heq)).1, by simp⟩
          · split at ha
            · rename_i heq; cases ha; exact ⟨heq ▸ (h.marked _ _ hheld).1, by simp⟩
            · exact h.marked a st ha
        · intro _; rfl
      dsimp only
      split
      · rename_i old ho
        refine key _ (insertMark_sorted old .dead _ (insertMark_sorted t .bound _ hs.2)) ?_
        intro b
        show markOf (insertMark old .dead (insertMark t .bound s.map.marks)) b = _
        rw [markOf_insertMark, markOf_insertMark, ho]
        by_cases hbo : b = old
        · simp [hbo]
        · simp [hbo, Ne.symm hbo]
      · rename_i ho
        refine key _ (insertMark_sorted t .bound _ hs.2) ?_
        intro b
        show markOf (insertMark t .bound s.map.marks) b = _
        rw [markOf_insertMark, ho]
        simp
    · exact h
  · exact h

/-- The entries left when a home's entry is removed. -/
theorem mem_filter_home {l : List RemapEntry} {home : Nat} {x} : x ∈ l.filter (·.home != home) ↔ x ∈ l ∧ x.home ≠ home := by simp

/-- The end of a return keeps the law, when the last target loses its mark or becomes DEAD (R4). -/
theorem PlacesLaw.dropTarget (h : PlacesLaw s) {home e} (he : entryOf s home = some e) {marks : List SpareMark}
    (hsm : (marks.map (·.ala)).Pairwise (· < ·))
    (hM : ∀ b, markOf marks b = if e.target = some b then some .dead else markOf s.map.marks b) :
    PlacesLaw ((dropTarget home e s).setMap { (dropTarget home e s).map with marks }) := by
  have hs := h.ordered
  obtain ⟨hem, heh⟩ := entryOf_mem he
  have honly : ∀ x ∈ s.map.table, x.home = e.home → x = e := fun x hx hh => entry_unique hs.1 hx hem hh
  have hkeep : ∀ x ∈ s.map.table, x.home ≠ e.home → ∀ a, x.namesLine a → markOf marks a = markOf s.map.marks a := by
    intro x hx hxh a ha
    rw [hM, if_neg]
    intro hc
    have := h.namedOnce e hem x hx _ (.inr hc) ha
    subst this; exact hxh rfl
  have hmark : ∀ a st, markOf marks a = some st → inReserve s a = true ∧ st ≠ .free := by
    intro a st ha
    rw [hM] at ha
    split at ha
    · rename_i heq; cases ha; exact ⟨(h.marked _ _ (h.targetHeld e hem a heq)).1, by simp⟩
    · exact h.marked a st ha
  cases hsp : e.spare with
  | some sp =>
    have : (Machine.dropTarget home e s).setMap { (Machine.dropTarget home e s).map with marks } =
        s.setMap { s.map with table := insertEntry { e with target := none } s.map.table, marks } := by
      unfold Machine.dropTarget; rw [hsp]; rfl
    rw [this]
    refine h.put (e := { e with target := none }) rfl rfl ⟨insertEntry_sorted _ _ hs.1, hsm⟩ (h.not_ident hem)
      (fun x => mem_insertEntry hs.1 x) (h.homesBelow e hem) ?_ hkeep ?_ ?_ ?_ ?_ hmark (fun _ => rfl)
    · rintro a (ha | ha) x hx hxh hn
      · have := h.namedOnce e hem x hx _ (.inl ha) hn
        subst this; exact hxh rfl
      · cases ha
    · intro a ha
      have hsb := h.spareBound e hem a ha
      show markOf marks a = _
      rw [hM, if_neg, hsb]
      intro hc; rw [h.targetHeld e hem a hc] at hsb; cases hsb
    · intro a ha; cases ha
    · intro a ha
      have ha : markOf marks a = _ := ha
      rw [hM] at ha
      split at ha
      · cases ha
      · by_cases hc : e.spare = some a
        · exact .inl hc
        · exact .inr ⟨ha, fun x hx hxh hxa => hc (honly x hx hxh ▸ hxa)⟩
    · intro a ha
      have ha : markOf marks a = _ := ha
      rw [hM] at ha
      split at ha
      · cases ha
      · rename_i h1
        exact .inr ⟨ha, fun x hx hxh hxa => h1 (honly x hx hxh ▸ hxa)⟩
  | none =>
    have : (Machine.dropTarget home e s).setMap { (Machine.dropTarget home e s).map with marks } =
        s.setMap { s.map with table := s.map.table.filter (·.home != home), marks } := by
      unfold Machine.dropTarget; rw [hsp]; rfl
    rw [this]
    refine h.remap (m := { s.map with table := s.map.table.filter (·.home != home), marks }) rfl rfl
      ⟨hs.1.sublist (List.filter_sublist.map _), hsm⟩ (h.not_ident hem) ?_ ?_ ?_ ?_ ?_ ?_ hmark ?_
    · intro x hx; exact h.homesBelow x (List.mem_of_mem_filter hx)
    · intro d hd x hx; exact h.namedOnce d (List.mem_of_mem_filter hd) x (List.mem_of_mem_filter hx)
    · intro x hx a ha
      obtain ⟨hx, hxh⟩ := mem_filter_home.mp hx
      show markOf marks a = _
      rw [hkeep x hx (heh ▸ hxh) a (.inl ha)]; exact h.spareBound x hx a ha
    · intro x hx a ha
      obtain ⟨hx, hxh⟩ := mem_filter_home.mp hx
      show markOf marks a = _
      rw [hkeep x hx (heh ▸ hxh) a (.inr ha)]; exact h.targetHeld x hx a ha
    · intro a ha
      have ha : markOf marks a = _ := ha
      rw [hM] at ha
      split at ha
      · cases ha
      · obtain ⟨x, hx, hxa⟩ := h.boundNamed a ha
        refine ⟨x, mem_filter_home.mpr ⟨hx, ?_⟩, hxa⟩
        intro hh; rw [honly x hx (hh.trans heh.symm), hsp] at hxa; cases hxa
    · intro a ha
      have ha : markOf marks a = _ := ha
      rw [hM] at ha
      split at ha
      · cases ha
      · rename_i h1
        obtain ⟨x, hx, hxa⟩ := h.heldNamed a ha
        refine ⟨x, mem_filter_home.mpr ⟨hx, ?_⟩, hxa⟩
        intro hh; exact h1 (honly x hx (hh.trans heh.symm) ▸ hxa)
    · intro hp x hx; exact h.building hp x (List.mem_of_mem_filter hx)

/-- The entry's reversion leaves the marks. -/
theorem dropTarget_marks {home e} : (dropTarget home e s).map.marks = s.map.marks := by
  unfold Machine.dropTarget; split <;> rfl

/-- The end of a return with its target DEAD keeps the law (R4, R10). -/
theorem PlacesLaw.revert (h : PlacesLaw s) {home e t} (he : entryOf s home = some e) (ht : e.target = some t) :
    PlacesLaw (setMark t .dead (Machine.dropTarget home e s)) := by
  refine h.dropTarget he (marks := insertMark t .dead (Machine.dropTarget home e s).map.marks) ?_ ?_
  · rw [dropTarget_marks]; exact insertMark_sorted _ _ _ h.ordered.2
  · intro b
    rw [dropTarget_marks, markOf_insertMark, ht]
    by_cases hb : b = t
    · simp [hb]
    · simp [hb, Ne.symm hb]

/-- The end of a return without a target keeps the law. -/
theorem PlacesLaw.drop (h : PlacesLaw s) {home e} (he : entryOf s home = some e) (ht : e.target = none) :
    PlacesLaw (Machine.dropTarget home e s) := by
  have := h.dropTarget he (marks := s.map.marks) h.ordered.2 (by intro b; simp [ht])
  rw [← dropTarget_marks (home := home) (e := e)] at this
  exact this

/-- A replayed BIND record keeps the law (R5, R131). -/
theorem PlacesLaw.replayBind (h : PlacesLaw s) {home spare} (hp : s.start.phase ≠ .idle) (hb : bindApplies s home spare = true) :
    PlacesLaw (Machine.replayBind home spare s) := by
  have hs := h.ordered
  have hpb := h.starting hp
  simp only [bindApplies, Bool.and_eq_true, Bool.or_eq_true, decide_eq_true_eq, beq_iff_eq, Option.isNone_iff_eq_none] at hb
  obtain ⟨⟨hh, hr⟩, hm⟩ := hb
  have hph : s.start.phase ≠ .ident := by
    intro hc
    have := (h.counting hc).2.2
    unfold fenceValue at hh; rw [this] at hh; simp at hh
  have hnn : ∀ x ∈ s.map.table, x.home ≠ home → ¬ x.namesLine spare := by
    intro x hx hxh hn
    rcases hm with hm | hm
    · rcases h.marked_of_names hx hn with h1 | h1 <;> rw [hm] at h1 <;> cases h1
    · cases he : entryOf s home with
      | none => rw [he] at hm; cases hm
      | some e =>
        rw [he] at hm
        have := h.namedOnce e (entryOf_mem he).1 x hx _ (.inl hm) hn
        subst this; exact hxh (entryOf_mem he).2
  have key : ∀ marks : List SpareMark, (marks.map (·.ala)).Pairwise (· < ·) →
      (∀ b, markOf marks b = if b = spare then some .bound else if (entryOf s home).bind (·.spare) =
          some b then some .dead else markOf s.map.marks b) →
      PlacesLaw (s.setMap { s.map with table := insertEntry { home, spare := some spare, target := none, cause := none, boundTick := some s.tick } s.map.table, marks }) := by
    intro marks hsm hM
    have holdIs : ∀ x ∈ s.map.table, x.home = home → (entryOf s home).bind (·.spare) = x.spare := by
      intro x hx hxh
      cases he : entryOf s home with
      | none => exact absurd hxh (entryOf_none he x hx)
      | some e => rw [entry_unique hs.1 hx (entryOf_mem he).1 (hxh.trans (entryOf_mem he).2.symm)]; rfl
    have holdMem : ∀ b, (entryOf s home).bind (·.spare) = some b → ∃ x ∈ s.map.table, x.home = home ∧ x.spare = some b := by
      intro b hb
      cases he : entryOf s home with
      | none => rw [he] at hb; cases hb
      | some e => rw [he] at hb; exact ⟨e, (entryOf_mem he).1, (entryOf_mem he).2, hb⟩
    refine h.put (e := { home, spare := some spare, target := none, cause := none, boundTick := some s.tick }) rfl rfl
      ⟨insertEntry_sorted _ _ hs.1, hsm⟩ hph (fun x => mem_insertEntry hs.1 x) hh ?_ ?_ ?_ ?_ ?_ ?_ ?_ (fun _ => rfl)
    · rintro a (ha | ha) x hx hxh hn
      · cases ha; exact hnn x hx hxh hn
      · cases ha
    · intro x hx hxh a ha
      show markOf marks a = _
      rw [hM, if_neg, if_neg]
      · intro hc
        obtain ⟨y, hy, hyh, hya⟩ := holdMem a hc
        have := h.namedOnce y hy x hx _ (.inl hya) ha
        subst this; exact hxh hyh
      · rintro rfl; exact hnn x hx hxh ha
    · intro a ha
      cases ha
      show markOf marks _ = _
      rw [hM, if_pos rfl]
    · intro a ha; cases ha
    · intro a ha
      have ha : markOf marks a = _ := ha
      rw [hM] at ha
      split at ha
      · rename_i heq; exact .inl (by rw [heq])
      · split at ha
        · cases ha
        · rename_i h2
          exact .inr ⟨ha, fun x hx hxh hxa => h2 (by rw [holdIs x hx hxh, hxa])⟩
    · intro a ha
      have ha : markOf marks a = _ := ha
      rw [hM] at ha
      split at ha
      · cases ha
      · split at ha
        · cases ha
        · obtain ⟨x, hx, hxa⟩ := h.heldNamed a ha
          rw [h.building hpb x hx] at hxa; cases hxa
    · intro a st ha
      have ha : markOf marks a = _ := ha
      rw [hM] at ha
      split at ha
      · rename_i heq; cases ha; exact ⟨heq ▸ hr, by simp⟩
      · split at ha
        · rename_i heq
          cases ha
          obtain ⟨x, hx, _, hxa⟩ := holdMem a heq
          exact ⟨(h.marked _ _ (h.spareBound x hx a hxa)).1, by simp⟩
        · exact h.marked a st ha
  unfold Machine.replayBind
  dsimp only
  split
  · rename_i o ho
    split
    · rename_i heq
      refine key _ (insertMark_sorted spare .bound _ hs.2) ?_
      intro b
      show markOf (insertMark spare .bound s.map.marks) b = _
      rw [markOf_insertMark, ho, heq]
      by_cases hb : b = spare
      · simp [hb]
      · simp [hb, Ne.symm hb]
    · refine key _ (insertMark_sorted spare .bound _ (insertMark_sorted o .dead _ hs.2)) ?_
      intro b
      show markOf (insertMark spare .bound (insertMark o .dead s.map.marks)) b = _
      rw [markOf_insertMark, markOf_insertMark, ho]
      by_cases hb : b = o
      · simp [hb]
      · simp [hb, Ne.symm hb]
  · rename_i ho
    refine key _ (insertMark_sorted spare .bound _ hs.2) ?_
    intro b
    show markOf (insertMark spare .bound s.map.marks) b = _
    rw [markOf_insertMark, ho]
    simp

/-- A replayed DEAD record keeps the law (R131). -/
theorem PlacesLaw.replayDead (h : PlacesLaw s) {a} (hp : s.start.phase ≠ .idle) (hr : inReserve s a = true)
    (hm : markOf s.map.marks a ≠ some .bound) : PlacesLaw (setMark a .dead s) := by
  have hph : s.start.phase ≠ .ident := by
    intro hc
    unfold inReserve at hr
    rw [(h.counting hc).2.2] at hr; cases hr
  refine h.kill hr hph ?_
  rintro x hx (hn | hn)
  · exact hm (h.spareBound x hx a hn)
  · rw [h.building (h.starting hp) x hx] at hn; cases hn

/-- A mark found is in the list. -/
theorem markOf_mem {l : List SpareMark} {a st} (h : markOf l a = some st) : ∃ m ∈ l, m.ala = a := by
  unfold markOf at h
  rw [Option.map_eq_some_iff] at h
  obtain ⟨m, hm, _⟩ := h
  exact ⟨m, List.mem_of_find?_eq_some hm, by simpa using List.find?_some hm⟩

/-- A fence that may apply keeps the law (R49, R131). -/
theorem PlacesLaw.fence (h : PlacesLaw s) {f} (hp : s.map.poolBuilt = true ∨ s.start.phase ≠ .ident) (hf : fenceApplies s f =
    true) :
    PlacesLaw (s.setMap { s.map with fence := some f }) := by
  have hph : s.start.phase ≠ .ident := by
    rcases hp with hp | hp
    · rw [h.idle hp]; simp
    · exact hp
  simp only [fenceApplies, Bool.and_eq_true, Bool.not_eq_true', List.any_eq_false, decide_eq_true_eq, not_and]  at hf
  obtain ⟨⟨h1, h2⟩, h3⟩ := hf
  refine { h with homesBelow := ?_, marked := ?_, bounds := ?_, counting := fun hc => absurd hc hph }
  · intro e he
    show e.home < f
    by_contra hc
    have hhome := h.homesBelow e he
    have hcl : ∃ g, s.map.fence = some g ∧ e.home < g := by
      unfold fenceValue at hhome
      cases hg : s.map.fence with
      | none => rw [hg] at hhome; simp at hhome
      | some g => rw [hg] at hhome; exact ⟨g, rfl, hhome⟩
    obtain ⟨g, hg, hlt⟩ := hcl
    have hb : g + 64 ≤ reserveEnd s := by
      have := h.bounds g hg
      simp only [fenceInBounds, Bool.and_eq_true, decide_eq_true_eq] at this
      exact this.1
    have hnr : inReserve s e.home = false := by
      unfold inReserve; rw [hg]; simp; omega
    have := h3 e he ⟨by omega, by omega⟩
    exact this hnr
  · intro a st ha
    have hm := h.marked a st ha
    refine ⟨?_, hm.2⟩
    obtain ⟨m, hmm, hma⟩ := markOf_mem ha
    have := h2 m hmm (by rw [hma]; exact hm.1)
    have hr := hm.1
    unfold inReserve at hr ⊢
    show (decide (f ≤ a) && decide (a < reserveEnd s)) = true
    cases hg : s.map.fence with
    | none => rw [hg] at hr; cases hr
    | some g => rw [hg] at hr; simp at hr ⊢; omega
  · intro g hg
    cases hg
    exact h1
end

end Sys2Proof.Machine
end

