-- ==== Sys2Proof/Laws/Search.lean ====
section
/-! SUPPORT. Searches over ranges of lines, the states they ask about, and counts that saturate. -/

namespace Sys2Proof.Machine

/-- The line a search from below finds is the lowest that passes. -/
theorem range_find_first (p : Nat → Bool) (a : Nat) : ∀ (n lo : Nat), (List.range' lo n).find? p = some a → lo ≤ a ∧ a < lo + n ∧ p a = true ∧ ∀ b, lo ≤ b → b < a → p b = false := by
  intro n
  induction n with
  | zero => intro lo h; simp at h
  | succ n ih =>
    intro lo h
    rw [List.range'_succ, List.find?_cons] at h
    by_cases hp : p lo = true
    · rw [hp] at h; cases h; exact ⟨Nat.le_refl _, by omega, hp, fun b h1 h2 => by omega⟩
    · rw [Bool.not_eq_true] at hp
      rw [hp] at h
      obtain ⟨h1, h2, h3, h4⟩ := ih (lo + 1) h
      refine ⟨by omega, by omega, h3, ?_⟩
      intro b hb1 hb2
      by_cases hb : b = lo
      · rw [hb]; exact hp
      · exact h4 b (by omega) hb2

/-- The answer of a search from below is that of the lowest line that has one. -/
theorem range_findSome_first {β : Type} (g : Nat → Option β) (a : Nat) (v : β) (hv : g a = some v) : ∀ (n lo : Nat), lo ≤ a → a < lo + n → (∀ b, lo ≤ b → b < a → g b = none) → (List.range' lo n).findSome? g = some v := by
  intro n
  induction n with
  | zero => intro lo h1 h2; omega
  | succ n ih =>
    intro lo h1 h2 hb
    rw [List.range'_succ, List.findSome?_cons]
    by_cases h : lo = a
    · subst h; rw [hv]
    · rw [hb lo (Nat.le_refl _) (by omega)]
      exact ih (lo + 1) (by omega) (by omega) (fun b h3 h4 => hb b (by omega) h4)

theorem range_findSome_none {β : Type} (g : Nat → Option β) (n lo : Nat) (h : ∀ b, lo ≤ b → b < lo + n → g b = none) : (List.range' lo n).findSome? g = none := by
  rw [List.findSome?_eq_none_iff]
  intro x hx
  rw [List.mem_range'_1] at hx
  exact h x hx.1 hx.2

/-- The spare state of a line is a matter of the map and the line count alone. -/
theorem spareStateOf_congr (x y : State) (hm : x.map = y.map) (ha : x.array = y.array) (n : Nat) : spareStateOf x n = spareStateOf y n := by
  unfold spareStateOf inReserve reserveEnd
  rw [hm, ha]

/-- A line with a spare state lies in the reserve (R6). -/
theorem spareStateOf_bounds (s : State) (b : Nat) (x : SpareState) (h : spareStateOf s b = some x) : fenceValue s ≤ b ∧ b < fenceValue s + spareCount s := by
  unfold spareStateOf at h
  split at h
  · rename_i hr
    unfold inReserve at hr
    unfold fenceValue spareCount
    cases hf : s.map.fence with
    | none => rw [hf] at hr; cases hr
    | some f =>
      rw [hf] at hr
      simp only [Bool.and_eq_true, decide_eq_true_eq] at hr
      dsimp only [Option.getD]
      generalize reserveEnd s = z at *
      omega
  · cases h

/-- The bounds of a fence, as inequalities (R50). -/
theorem fenceInBounds_iff (x : State) (n top : Nat) (h : reserveEnd x = top) : fenceInBounds x n = true ↔ n + 64 ≤ top ∧ top ≤ n + 8192 := by
  subst h; unfold fenceInBounds; rw [Bool.and_eq_true, decide_eq_true_eq, decide_eq_true_eq]; exact Iff.rfl

/-- A record offered while the Journal Queue has room joins it (R119). -/
theorem offerRecord_room (r : Record) (x : State) (h : x.jour.queue.length < 16) : offerRecord r x = x.setJour { x.jour with queue := x.jour.queue ++ [r] } := by
  unfold offerRecord; exact if_pos h

theorem offerRecord_port (r : Record) (x : State) : (offerRecord r x).port = x.port := by
  unfold offerRecord; split <;> rfl

theorem saturate8_eq (x : Byte) : saturate8 x = if x = 255 then 255 else x + 1 := by
  unfold saturate8
  by_cases h : x = 255#8
  · subst h; rfl
  · rw [if_neg h, if_neg (show ¬ x = 255 from h)]

theorem saturate16_eq (x : Count16) : saturate16 x = if x = 65535 then 65535 else x + 1 := by
  unfold saturate16
  by_cases h : x = 65535#16
  · subst h; rfl
  · rw [if_neg h, if_neg (show ¬ x = 65535 from h)]

end Sys2Proof.Machine
end

