-- ==== Sys2Proof/Tests/Slice0.lean ====
section
/-! SUPPORT. Tests: well-formedness, bytes and words worked out by hand from the spec,
    one-step examples of the spec's chapters, and for
every statement with hypotheses a state and operands that meet them (`meets_<statement>`, one part for each clause). -/

namespace Sys2Proof.Tests

-- One theorem after another: all at once they ask for more threads than the check's memory holds.
set_option Elab.async false

open Sys2Proof.Machine

/-! ### Small states -/

/-- The part RUNNING with an array of 2^18 lines, the default fence 257024 and bank A active. -/
def run : State :=
  { State.reset with
    start := { op := .running, phase := .idle, format := none }
    map := { State.reset.map with poolBuilt := true, fence := some 257024 }
    array := { lineCount := 262144, inFlight := [], waiting := [] }
    jour := { State.reset.jour with active := some .a, nextLine := 5, lastSeq := 9 } }

/-- In HELD with this reason. -/
def held (r : HeldReason) : State := { State.reset with
  start := { op := .held r, phase := .idle, format := none }, array := { lineCount := 262144, inFlight := [], waiting := [] } }

/-- With one operation in flight. -/
def fly (op : ArrayOp) (owner : Owner) (s : State) : State :=
  { s with array := { s.array with inFlight := [inFlightNow op owner 0] } }

/-- With requests waiting at the arbiter, placed in event 0. -/
def ask (bodies : List ReqBody) (s : State) : State :=
  { s with array := { s.array with waiting := bodies.map fun b => { body := b, age := ⟨0, false, 0⟩ } } }

/-- With a command in progress under sequence 7. -/
def cmd (c : LongCommand) (s : State) : State := { s with port := { s.port with command := some { seq := 7, command := c } } }

/-- With POSTING OFF. -/
def unposted (s : State) : State := { s with policy := { s.policy with active := { s.policy.active with posting := false } } }

/-- With this journal state. -/
def journal (j : JournalState) (s : State) : State := { s with jour := { s.jour with state := j } }

/-- An entry of the Write Buffer. -/
def ent (id hla : Nat) (mask : Mask) (phase : Phase) : Item :=
  { id, hla, data := 0xAB, mask, phase, epoch := some 1, place := hla, ladder := none }

/-- With these entries. -/
def bufs (es : List Item) (s : State) : State := { s with buf := { s.buf with entries := es } }

/-- With these direct writes. -/
def dirs (es : List Item) (s : State) : State := { s with buf := { s.buf with direct := es } }

/-- A request with tag 3. -/
def req (id hla : Nat) (stage : ReqStage) : HostReq := { id, tag := 3, live := true, hla, write := none, stage }

/-- With these requests, of tag 3, and the next identity 9. -/
def reqs (rs : List HostReq) (s : State) : State :=
  { s with host := { s.host with order := rs, tags := [3] }, ids := { s.ids with nextId := 9 } }

/-- A ladder of depth 4. -/
def lad (ala step : Nat) (granted : Bool) : Ladder := { ala, depth := 4, step, age := ⟨0, false, 0⟩, granted }

/-- With these pending lines, hit 255 times. -/
def pends (ls : List Nat) (s : State) : State :=
  { s with reloc := { s.reloc with pendingList := ls.map fun hla => { hla, origin := .hostRead, entered := 0, hits := 255 } } }

/-- A relocation of line 0 to spare 257024. -/
def moving (st : SlotState) (dirty : Bool) (attempts : Nat) : State :=
  { run with
    map :=
      { run.map with
        table := [{ home := 0, spare := none, target := some 257024, cause := some .writeFault, boundTick := none }]
        marks := [{ ala := 257024, state := .held }] }
    reloc :=
      { run.reloc with slots := [{ home := 0, data := 0xCD, state := st, dirty, attempts, epoch := none, waiting := [] }] } }

/-- A SPAN survey of lines 0 to 9 at this line. -/
def live (next : Nat) (phase : SurveyPhase) (e : Option SurveyOutcome) : LiveSurvey :=
  { mode := .span, first := 0, count := 10, start := 0, limit := 10, excluded := [], next, phase, startTick := 0
    counts := ⟨0, 0, 0, 0, 0, 0, 0⟩, firstUncorrectable := none, endRequested := e }

/-- With this survey. -/
def surveying (l : LiveSurvey) (s : State) : State := { s with survey := { s.survey with live := some l } }

/-- A fault record of this sequence. -/
def frec (seq : Nat) : FaultRecord :=
  { seq := BitVec.ofNat 32 seq, kind := .protocol, tick := 0, hla := none, ala := none, step := none, trace := [] }

/-- A full Fault Log of records 1 to 16 with this cursor. -/
def logged (cursor : Nat) : State :=
  { run with
    log := { run.log with records := (List.range' 1 16).map frec, next := 17, cursor := BitVec.ofNat 32 cursor, count := 16 } }

/-- The Guard LOCKED with word 7 and these attempts. -/
def locked (attempts : Nat) : State := { run with guard := { state := .locked, attempts, word := some 7 } }

/-- The Guard FROZEN. -/
def frozen : State := { run with guard := { state := .frozen, attempts := 5, word := none } }

/-- With the port's fields changed. -/
def port (f : ServicePort → ServicePort) (s : State) : State := { s with port := f s.port }

/-- A response OK of sequence 7. -/
def resp : Response := { seq := 7, status := .ok, results := [] }

/-- A compaction into bank B. -/
def compacting (lines : List (List Record)) (faults : Nat) : State :=
  { run with jour := { run.jour with state := .compacting, compaction := some { bank := .b, pos := 0, seq := 10, lines, faults } } }

/-- A map with one BOUND home, 4. -/
def bound : State :=
  { run with
    map := { run.map with table := [{ home := 4, spare := some 257024, target := none, cause := none, boundTick := none }]
                          marks := [{ ala := 257024, state := .bound }] } }

/-- With this Watch Table. -/
def watching (ws : List WatchEntry) : State := { run with reloc := { run.reloc with watch := ws } }

/-- With one reserve line in this state. -/
def marked (ala : Nat) (st : SpareState) : State := { run with map := { run.map with marks := [{ ala, state := st }] } }

/-- With this fence. -/
def fenced (f : Nat) : State := { run with map := { run.map with fence := some f } }

/-- With a record in the Journal Queue. -/
def queued : State := { run with jour := { run.jour with queue := [.dead 257030] } }

/-- With a BARRIER of tag 3 and barrier epoch 1 waiting. -/
def barred (s : State) : State := { s with host := { s.host with barriers := [{ tag := 3, epoch := 1 }] } }

/-- With the data of line 0 and ack epoch 1 in a slot in WRITING. -/
def covered (s : State) : State :=
  { s with
    reloc :=
      { s.reloc with
        slots :=
          [{ home := 0, data := 0, state := .writing, dirty := false, attempts := 1, epoch := some 1, waiting := [] }] } }

/-- Start-up in this phase, with the read of a journal line in flight. -/
def starting (ala : Nat) (phase : StartPhase) : State :=
  fly (.read ala) .journalRead { run with start := { op := .starting, phase, format := none } }

/-- The header of a journal line as it reads back. -/
def header (bank : Bank) (d : LineData) : JournalHeader := (decodeJournalLine bank d).getD ⟨0, false, false, []⟩

/-- What is so of a line that was read is so of every line read there. -/
theorem line_is {o : Option JournalHeader} {g : JournalHeader} {p : JournalHeader → Prop} (e : o = some g) (hp : p g) :
    ∀ h, o = some h → p h := by
  intro h h'
  rw [e] at h'
  cases h'
  exact hp

/-- What is read is not CLEAN. -/
theorem not_clean {c d : Classification} (e : c = d) (hd : ∀ x, d ≠ .clean x) : ∀ x, c ≠ .clean x := e ▸ hd

/-- With the one line of the reserve DEAD. -/
def dry (s : State) : State :=
  { s with map := { s.map with fence := some 258047, marks := [{ ala := 258047, state := .dead }] } }

/-- A LINE_RETIRE read of line 257023 at this step. -/
def rread (step : Nat) (live : Bool) : RetireRead := { id := 2, home := 257023, ladder := lad 257023 step true, live }

/-- With a LINE_RETIRE in progress, its slot reserved and this read in flight. -/
def reading (r : RetireRead) (s : State) : State :=
  cmd (.lineRetire r.home false)
    (fly (.read r.home) (.retireRead r.id) { s with reloc := { s.reloc with reserved := some r.home, retireReads := [r] } })

/-! ### Well-formedness: each check refuses an ill-formed command -/

theorem test_request_kinds_are_no_other_transfer :
    (Instr.nonRequestTransfer 0).wellFormed = false ∧ (Instr.nonRequestTransfer 1).wellFormed = false ∧
      (Instr.nonRequestTransfer 2).wellFormed = false ∧ (Instr.nonRequestTransfer 3).wellFormed = true := by decide

theorem test_known_code_is_no_unknown_command :
    (Instr.unknownCommand 0 98 [] 0).wellFormed = false ∧ (Instr.unknownCommand 0 99 [] 0).wellFormed = true := by decide

theorem test_at_most_seven_argument_bytes :
    (Instr.unknownCommand 0 12 (List.replicate 8 0) 0).wellFormed = false ∧
      (Instr.unknownCommand 0 12 (List.replicate 7 0) 0).wellFormed = true := by decide

/-! ### Bytes and frames worked out by hand -/

/-- The table gives no bits, so no word spells a command. -/
theorem test_no_word_spells_a_command : decodeTableWord 8 1 = none ∧ run.withFetchWord 8 1 = run := by decide +kernel

/-- A READ of tag 5 and line 0x01F403, a BARRIER of tag 4 (section 11.2); a READ of 4 bytes is no transfer. -/
theorem test_transfers :
    decodeTransfer [0, 5, 0x01, 0xF4, 0x03] = some (.hostRead 5 0x01F403) ∧ decodeTransfer [2, 4] = some (.barrier 4) ∧
      decodeTransfer [0, 5, 0x01, 0xF4] = none := by decide

/-- A WRITE: byte 7 of the mask's eight holds bytes 0 to 7, byte 0 of the data is the first sent (section 11.2, R188). -/
theorem test_write_transfer :
    decodeTransfer ([1, 6, 0, 0x03, 0x84, 0, 0, 0, 0, 0, 0, 0, 1, 0xAB] ++ List.replicate 63 0) =
      some (.hostWrite 6 900 1 0xAB) := by decide +kernel

/-- The well-known check value of this code: the digits 1 to 9 give 29B1 (R190). -/
theorem test_frame_check : frameCheck [0x31, 0x32, 0x33, 0x34, 0x35, 0x36, 0x37, 0x38, 0x39] = 0x29B1 := by decide +kernel

/-- A response frame: marker, length of what follows, sequence, status, results, check (R191). -/
theorem test_response_frame :
    (Response.bytes { seq := 9, status := .stale, results := [1, 2, 3] }).take 7 = [0xA5, 7, 9, 6, 1, 2, 3] := by decide +kernel

/-- The defaults of R180 in the seven bytes of section 11.6. -/
theorem test_default_policy_bytes : PolicySet.default.pack = [4, 3, 0, 32, 8, 1, 16] := by decide +kernel

/-- A journal line with FENCE 257,024 (03EC00): header, record place, zeros (R116, R193). -/
theorem test_journal_line_bytes :
    (bytesOfLine (journalLine 0x102 .b true false [.fence 257024])).take 20 =
      [0, 0, 1, 2, 1, 1, 1, 0, 0, 0, 3, 0x03, 0xEC, 0x00, 0, 0, 0, 0, 0, 0] := by decide +kernel

/-! ### The spec's examples, one event each -/

/-- What a state shows after a command. -/
def after {α : Type} (c : Instr) (s : State) (f : State → α) (other : α) : α :=
  match exec c s with
  | .next t => f t
  | .fault _ => other
  | .refused _ => other

/-- Section 1.10: after MAP_SEEK(101), MAP_NEXT returns home 250 in its MOVING shape, and the cursor is 251. -/
def walk : State :=
  { run with
    map :=
      { run.map with
        table := [⟨50, none, some 257029, some .watch, none⟩, ⟨100, some 257027, none, some .watch, some 0⟩,
          ⟨250, some 257026, some 257028, some .retry, some 0⟩, ⟨4000, some 257025, none, none, some 0⟩]
        marks := [⟨257024, .dead⟩, ⟨257025, .bound⟩, ⟨257026, .bound⟩, ⟨257027, .bound⟩, ⟨257028, .held⟩, ⟨257029, .held⟩]
        cursor := 101 } }

theorem test_walk_returns_moving_entry :
    after (.mapNext 1 (commandCheck 1 5 [])) walk (fun t => (t.map.cursor, (t.port.sending.map (·.results.take 13)).getD []))
      (0, []) = (251, [0, 0, 250, 1, 0x03, 0xEC, 0x02, 1, 0x03, 0xEC, 0x04, 0, 1]) := by decide +kernel

theorem test_walk_free_spares : freeCount walk = 1018 ∧ lowestFree walk = some 257030 := by decide +kernel

/-- Section 2.7: READ tag 5 of the pending line 900 is answered POISON. -/
theorem test_pending_read_poison :
    after (.hostRead 5 900) (pends [900] run) (fun t => t.out.host.map HostResponse.bytes) [] = [[0, 5, 2, 0]] := by
  decide +kernel

/-- Section 3.8: BLOCKED at line 257,000 with kind ENTRY. -/
theorem test_lowering_blocked_by_entry :
    after (.fenceAdjust 1 257024 256992 (commandCheck 1 64 (arg24 257024 ++ arg24 256992)))
      { run with map := { run.map with table := [⟨257000, some 257030, none, none, none⟩] } }
      (fun t => t.port.sending) none = some { seq := 1, status := .blocked, results := [0x03, 0xEB, 0xE8, 3] } :=
          by decide +kernel

/-- Section 4.11: at the timeout of R0 the operation keeps its place, marked,
    and step 1 is placed in class 4 with step 0's age. -/
theorem test_silent_read_goes_to_next_step :
    after .arrayOpTimeout (reqs [req 8 12288 (.inArray (lad 12288 0 true))] (fly (.read 12288) (.hostRead 8) run))
      (fun t => (t.array.inFlight.map (·.timedOut), t.array.waiting)) ([], []) =
        ([true], [⟨.hostRead 8, ⟨0, false, 0⟩⟩]) := by decide +kernel

/-- Section 4.11, last event: CORRECTED to the host, a RETRY relocation, a RETRY_CORRECTED record of step 1. -/
theorem test_corrected_retry :
    after (.hostReadAttemptAnswer { data := 1, check := .code 12288 0 })
      (reqs [req 8 12288 (.inArray (lad 12288 1 true))] (fly (.read 12288) (.hostRead 8) run))
      (fun t => (t.out.host.map (·.status), t.map.table.map (·.cause), t.log.records.map fun r => (r.kind, r.step))) ([], [],
          []) =
        ([.corrected], [some .retry], [(.retryCorrected, some 1)]) := by decide +kernel

/-- Section 6.14: at the durability of the BIND a dirty slot enters FINISHING; the dirty mark stays until its write is issued. -/
theorem test_dirty_slot_finishes :
    after (.logLineWriteAnswer .done)
      (fly (.write 258053 0) (.journalWrite .log)
        { moving .journaling true 1 with
          jour := { run.jour with state := .appending, queue := [.bind 0 257024], line := some ⟨1, 10⟩ } })
      (fun t => (t.reloc.slots.map (·.state), t.jour.nextLine)) ([], 0) = ([.finishing], 6) := by decide +kernel

/-- Section 6.14, last event: the home is BOUND to its target and the slot is free. -/
theorem test_finishing_done_binds :
    after (.finishingWriteAnswer .done) (fly (.write 257024 0xCD) (.slotWrite 0 .finishing) (moving .finishing false 1))
      (fun t => (t.map.table.map fun e => (e.spare, e.target), t.map.marks, t.reloc.slots.length)) ([], [], 9) =
        ([(some 257024, none)], [⟨257024, .bound⟩], 0) := by decide +kernel

/-- Section 8.8: at a gap's expiry the pending line 5 is skipped, the next line 6 is read. -/
theorem test_survey_skips_pending :
    after .surveyGapExpiry (pends [5] (surveying (live 5 (.gap 16) none) run))
      (fun t => (t.survey.live.map fun l => (l.next, l.counts.skipped), t.array.waiting.map (·.body))) (none, []) =
        (some (6, 1), [.surveyRead]) := by decide +kernel

/-- Section 9.6: the record after a full unread log removes record 1, moves the cursor to 2 and latches LOG_WRAP, cause 6. -/
theorem test_full_log_wraps :
    ((writeFault .protocol none none none (logged 1)).log.records.length = 16 ∧
      (writeFault .protocol none none none (logged 1)).log.cursor = 2 ∧
        (writeFault .protocol none none none (logged 1)).alert.causes.getLsbD AlertCause.logWrap.index = true) :=
            by decide +kernel

/-- Section 10.9, events 1 and 3: a wrong word costs an attempt, the right word opens. -/
theorem test_unlock_wrong_then_right :
    after (.guardUnlock 41 8 (commandCheck 41 97 (enc32 8))) (locked 5) (fun t => (t.guard.attempts, t.port.sending)) (9, none) =
        (4, some { seq := 41, status := .mismatch, results := [1, 4] }) ∧
      after (.guardUnlock 42 7 (commandCheck 42 97 (enc32 7))) (locked 4) (fun t => t.port.sending) none =
        some { seq := 42, status := .ok, results := [0, 5] } := by decide +kernel

/-- Section 10.9, event 2: a frame with the last sequence is answered with the stored response. -/
theorem test_repeat_is_resent :
    after (.guardUnlock 7 7 (commandCheck 7 97 (enc32 7))) (port (fun p => { p with stored := some resp }) (locked 4))
      (fun t => (t.guard.attempts, t.port.sending)) (9, none) = (4, some resp) := by decide +kernel

/-- The fixed figures of chapter 0: the journal area and bounds of F at the largest array, whose default fence is 16,772,096. -/
theorem test_largest_array :
    journalAla { run with array := { run.array with lineCount := 16777216 } } .a 0 = 16773120 ∧
      formatFence none { run with array := { run.array with lineCount := 16777216 } } = 16772096 := by decide +kernel

/-- Start-up: the IDENT answer sets C and the read of line 0 of bank A follows (R60, R129). -/
theorem test_ident_begins_startup :
    after (.identAnswer 262144) State.reset (fun t => (t.array.lineCount, t.array.waiting.map (·.body))) (0, []) =
      (262144, [.journalRead 258048]) := by decide +kernel

/-- The tick wraps (R137). -/
theorem test_tick_wraps : after .uptimeTick { run with tick := 0xFFFFFFFF } (·.tick) 1 = 0 := by decide +kernel

/-- A step takes the front command; an empty queue idles. -/
theorem test_step_takes_front :
    (match step { run with pending := [.uptimeTick, .hrst] } with
      | .next t => (t.tick, t.pending)
      | .fault _ => (0, [])
      | .refused _ => (0, [])) = (1, [.hrst]) := by decide +kernel

/-- The laws of table and pool hold of a map with one BOUND home. -/
theorem bound_places : PlacesLaw bound := by
  have hm : ∀ a st, markOf bound.map.marks a = some st → a = 257024 ∧ st = .bound := by
    intro a st h
    by_cases ha : a = 257024
    · subst ha
      exact ⟨rfl, (Option.some.inj h).symm⟩
    · rw [show markOf bound.map.marks a = none by simp [bound, markOf, Ne.symm ha]] at h
      cases h
  exact
    { ordered := by unfold mapLaw; decide
      homesBelow := by decide
      namedOnce := by
        intro d hd e he _ _ _
        simp only [bound, List.mem_singleton] at hd he
        rw [hd, he]
      spareBound := by
        intro e he a ha
        simp only [bound, List.mem_singleton] at he
        subst he
        cases ha
        rfl
      targetHeld := by
        intro e he a ha
        simp only [bound, List.mem_singleton] at he
        subst he
        cases ha
      boundNamed := fun a h => ⟨_, List.mem_singleton.mpr rfl, congrArg some (hm a _ h).1.symm⟩
      heldNamed := fun a h => nomatch (hm a _ h).2
      marked := by
        intro a st h
        obtain ⟨rfl, rfl⟩ := hm a st h
        decide
      bounds := by
        intro f h
        cases h
        decide
      building := fun h => absurd h (by decide)
      starting := fun h => absurd h (by decide)
      counting := fun h => absurd h (by decide) }

/-! ### Witnesses: a state and operands that meet the hypotheses of each clause of each statement -/

theorem meets_stepRunsFrontCommand :
    (∃ (s : State) (c : Instr) (rest : List Instr),
      s.pending = c :: rest) ∧
    (∃ (s : State),
       s.pending = []) :=
  ⟨⟨{ run with pending := [.uptimeTick, .hrst] }, .uptimeTick, [.hrst], rfl⟩,
    ⟨run, rfl⟩⟩

theorem meets_resetCommandsRestart :
    (∃ (s t : State),
    t = { State.reset with
          out := { s.out with array := s.out.array ++ [.linkReset, .ident] }, ids := s.ids, pending := s.pending }) :=
  ⟨run, _, rfl⟩

theorem meets_guardAndPolicyLawsKept :
    (∃ (s t : State),
      step s = .next t ∧
      guardLaw s.guard = true) ∧
    (∃ (s t : State),
      step s = .next t ∧
      policyLaw s.policy = true) :=
  ⟨⟨locked 0, _, rfl, by decide +kernel⟩,
    ⟨run, _, rfl, by decide +kernel⟩⟩

theorem meets_faultLogLawKept :
    (∃ (s t : State),
      step s = .next t ∧
      logLaw s.log = true) :=
  ⟨logged 17, _, rfl, by decide +kernel⟩

theorem meets_capacitiesKept :
    (∃ (s t : State),
      step s = .next t ∧
      capacityLaw s = true) :=
  ⟨pends (List.range 32) run, _, rfl, by decide +kernel⟩

theorem meets_levelCausesTrue :
    (∃ (s t : State),
      levelLaw s ∧
      step s = .next t) :=
  ⟨State.reset, _, by unfold levelLaw; decide, rfl⟩

theorem meets_tagsAndIdentitiesKept :
    (∃ (s t : State),
      tagLaw s.host ∧
      step s = .next t) ∧
    (∃ (s t : State),
      idLaw s ∧
      step s = .next t) :=
  ⟨⟨reqs [req 8 0 .queued] run, _, by unfold tagLaw; decide, rfl⟩,
    ⟨reqs [req 8 0 .queued] run, _, by unfold idLaw; decide, rfl⟩⟩

theorem meets_mapOrderKept :
    (∃ (s t : State),
      mapLaw s.map ∧
      step s = .next t) ∧
    (∃ (s t : State),
      PlacesLaw s ∧
      step s = .next t) :=
  ⟨⟨bound, _, by unfold mapLaw; decide, rfl⟩,
    ⟨bound, _, bound_places, rfl⟩⟩

theorem meets_tickCounts :
    (∃ (s : State),
      s.tick = BitVec.allOnes 32) ∧
    (∃ (c : Instr) (s t : State),
      exec c s = .next t ∧
       (c = .powerOnReset ∨ c = .resetInput)) ∧
    (∃ (c : Instr) (s t : State),
      exec c s = .next t ∧
         c ≠ .powerOnReset ∧
      c ≠ .resetInput ∧
      c ≠ .uptimeTick) :=
  ⟨⟨{ run with tick := BitVec.allOnes 32 }, by decide +kernel⟩,
    ⟨.resetInput, run, _, rfl, by decide +kernel⟩,
    ⟨.hrst, run, _, rfl, by decide +kernel⟩⟩

theorem meets_guardOutOfReach :
    (∃ (c : Instr) (s t : State),
      exec c s = .next t ∧
      c.ofServiceLink = false ∧
         c ≠ .powerOnReset ∧
      c ≠ .resetInput) :=
  ⟨.hrst, locked 1, _, rfl, by decide +kernel⟩

theorem meets_tagBitsAndNonRequests :
    (∃ (kind : Byte) (rest : List Byte),
      kind ≠ 0 ∧
      kind ≠ 1 ∧
      kind ≠ 2) ∧
    (∃ (kind : Byte) (s : State),
      kind ≠ 0 ∧
      kind ≠ 1 ∧
      kind ≠ 2) :=
  ⟨⟨3, [], by decide +kernel⟩,
    ⟨255, run, by decide +kernel⟩⟩

theorem meets_requestsDiscardedOrRefused :
    (∃ (s : State) (tag : Byte) (hla : Addr24) (mask : Mask) (data : LineData) (kind : ReqKind) (line : Option Nat) (t : State),
      line = (if kind = .barrier then none else some hla.toNat) ∧
      t = writeFault .protocol line none none
            (((arrived kind (tagOf tag) line s).setHost
              { s.host with
                protocolCount := if s.host.protocolCount = 65535 then 65535 else s.host.protocolCount + 1 }).setAlert
              { s.alert with causes := s.alert.causes ||| AlertCause.protocol.bit }) ∧
      s.host.tags.contains (tagOf tag) = true ∧
       kind = .read) ∧
    (∃ (s : State) (tag : Byte) (hla : Addr24) (mask : Mask) (data : LineData) (kind : ReqKind) (line : Option Nat) (t : State),
      line = (if kind = .barrier then none else some hla.toNat) ∧
      t = writeFault .protocol line none none
            (((arrived kind (tagOf tag) line s).setHost
              { s.host with
                protocolCount := if s.host.protocolCount = 65535 then 65535 else s.host.protocolCount + 1 }).setAlert
              { s.alert with causes := s.alert.causes ||| AlertCause.protocol.bit }) ∧
      s.host.tags.contains (tagOf tag) = true ∧
         kind = .write) ∧
    (∃ (s : State) (tag : Byte) (hla : Addr24) (mask : Mask) (data : LineData) (kind : ReqKind) (line : Option Nat) (t : State),
      line = (if kind = .barrier then none else some hla.toNat) ∧
      t = writeFault .protocol line none none
            (((arrived kind (tagOf tag) line s).setHost
              { s.host with
                protocolCount := if s.host.protocolCount = 65535 then 65535 else s.host.protocolCount + 1 }).setAlert
              { s.alert with causes := s.alert.causes ||| AlertCause.protocol.bit }) ∧
      s.host.tags.contains (tagOf tag) = true ∧
      kind = .barrier) ∧
    (∃ (s : State) (tag : Byte) (hla : Addr24) (mask : Mask) (data : LineData) (kind : ReqKind) (line : Option Nat) (reason :
        RefuseReason) (t : State),
      line = (if kind = .barrier then none else some hla.toNat) ∧
      t = responded
            { kind, tag := tagOf tag, status := .refused, reason := some reason,
              report := if kind = .read then none else s.host.reports.head?, data := none }
            ((arrived kind (tagOf tag) line s).setHost
              { s.host with reports := if kind = .read then s.host.reports else s.host.reports.drop 1 }) ∧
      s.host.tags.contains (tagOf tag) = false ∧
        (s.start.op = .running ∧ kind ≠ .barrier ∧ reason = .beyond ∧
          (s.map.fence.getD 0 ≤ hla.toNat ∨
            ∃ r, s.map.range = some r ∧ r.kind = .closing ∧ r.lo ≤ hla.toNat ∧ hla.toNat < r.hi)) ∧
       kind = .read) ∧
    (∃ (s : State) (tag : Byte) (hla : Addr24) (mask : Mask) (data : LineData) (kind : ReqKind) (line : Option Nat) (reason :
        RefuseReason) (t : State),
      line = (if kind = .barrier then none else some hla.toNat) ∧
      t = responded
            { kind, tag := tagOf tag, status := .refused, reason := some reason,
              report := if kind = .read then none else s.host.reports.head?, data := none }
            ((arrived kind (tagOf tag) line s).setHost
              { s.host with reports := if kind = .read then s.host.reports else s.host.reports.drop 1 }) ∧
      s.host.tags.contains (tagOf tag) = false ∧
        (s.start.op = .running ∧ kind ≠ .barrier ∧ reason = .beyond ∧
          (s.map.fence.getD 0 ≤ hla.toNat ∨
            ∃ r, s.map.range = some r ∧ r.kind = .closing ∧ r.lo ≤ hla.toNat ∧ hla.toNat < r.hi)) ∧
         kind = .write) ∧
    (∃ (s : State) (tag : Byte) (hla : Addr24) (mask : Mask) (data : LineData) (kind : ReqKind) (line : Option Nat) (reason :
        RefuseReason) (t : State),
      line = (if kind = .barrier then none else some hla.toNat) ∧
      t = responded
            { kind, tag := tagOf tag, status := .refused, reason := some reason,
              report := if kind = .read then none else s.host.reports.head?, data := none }
            ((arrived kind (tagOf tag) line s).setHost
              { s.host with reports := if kind = .read then s.host.reports else s.host.reports.drop 1 }) ∧
      s.host.tags.contains (tagOf tag) = false ∧
       (s.start.op ≠ .running ∧ reason = .notReady) ∧
      kind = .barrier) :=
  ⟨⟨reqs [req 8 0 (.inArray (lad 0 0 true))] run, 19, 0, 1, 0, .read, _, _, rfl, rfl, by decide +kernel⟩,
    ⟨reqs [req 8 0 (.inArray (lad 0 0 true))] run, 3, 0, 1, 0, .write, _, _, rfl, rfl, by decide +kernel⟩,
    ⟨reqs [req 8 0 (.inArray (lad 0 0 true))] run, 3, 0, 1, 0, .barrier, _, _, rfl, rfl, by decide +kernel⟩,
    ⟨run, 3, 257024, 1, 0, .read, _, .beyond, _, rfl, rfl, by decide +kernel⟩,
    ⟨{ run with map := { run.map with range := some ⟨.closing, 256000, 257024, false⟩ } }, 3, 257023, 1, 0, .write, _,
     .beyond, _, rfl, rfl, by decide +kernel⟩,
    ⟨held .noArray, 3, 0, 1, 0, .barrier, _, .notReady, _, rfl, rfl, by decide +kernel⟩⟩

theorem meets_pendingReadAnsweredPoison :
    (∃ (s : State) (hla : Addr24) (hits : List PendingEntry) (r : HostReq),
    hits = (s.reloc.pendingList.map fun p =>
      if p.hla = hla.toNat then { p with hits := if p.hits = 255 then 255 else p.hits + 1 } else p) ∧
    (∀ e ∈ s.buf.entries, e.hla ≠ hla.toNat) ∧
      isMoving s hla.toNat = false ∧
      isPending s hla.toNat = true ∧
      r.hla = hla.toNat ∧
      r.live = true) ∧
    (∃ (s : State) (hla : Addr24) (hits : List PendingEntry) (tag : Byte) (t : State),
    hits = (s.reloc.pendingList.map fun p =>
      if p.hla = hla.toNat then { p with hits := if p.hits = 255 then 255 else p.hits + 1 } else p) ∧
      t = responded (readAnswer (tagOf tag) .poison none)
            ((takeId (arrived .read (tagOf tag) (some hla.toNat) s)).setReloc { s.reloc with pendingList := hits }) ∧
    (∀ e ∈ s.buf.entries, e.hla ≠ hla.toNat) ∧
      isMoving s hla.toNat = false ∧
      isPending s hla.toNat = true ∧
      presentedAtOnce s (tagOf tag) hla.toNat = true ∧
      calm t = true) :=
  ⟨⟨pends [257023] run, 257023, _, req 8 257023 .queued, rfl, by decide +kernel⟩,
    ⟨pends [257023] run, 257023, _, 0, _, rfl, rfl, by decide +kernel⟩⟩

theorem meets_readAnsweredByState :
    (∃ (s : State) (tag : Byte) (hla : Addr24) (data : LineData) (t : State),
      t = responded (readAnswer (tagOf tag) .ok (some data)) (takeId (arrived .read (tagOf tag) (some hla.toNat) s)) ∧
      presentedAtOnce s (tagOf tag) hla.toNat = true ∧
       (∃ e, newestEntry s hla.toNat = some e ∧ e.mask = BitVec.allOnes 64 ∧ e.data = data) ∧
      calm t = true) ∧
    (∃ (s : State) (tag : Byte) (hla : Addr24) (data : LineData) (t : State),
      t = responded (readAnswer (tagOf tag) .ok (some data)) (takeId (arrived .read (tagOf tag) (some hla.toNat) s)) ∧
      presentedAtOnce s (tagOf tag) hla.toNat = true ∧
        ((∀ e ∈ s.buf.entries, e.hla ≠ hla.toNat) ∧ isMoving s hla.toNat = true ∧
          ∃ q, findSlot s hla.toNat = some q ∧ q.data = data) ∧
      calm t = true) ∧
    (∃ (s : State) (tag : Byte) (hla : Addr24) (t : State) (e : Item),
        t = (takeId (arrived .read (tagOf tag) (some hla.toNat) s)).setHost
              { s.host with
                tags := s.host.tags ++ [tagOf tag]
                order := s.host.order ++
                  [{ id := s.ids.nextId, tag := tagOf tag, live := true, hla := hla.toNat, write := none,
                     stage := .waitEntry e.id }] } ∧
      presentedAtOnce s (tagOf tag) hla.toNat = true ∧
             newestEntry s hla.toNat = some e ∧
      e.mask ≠ BitVec.allOnes 64 ∧
      calm t = true) ∧
    (∃ (s : State) (tag : Byte) (hla : Addr24) (t : State) (age : Age),
        age = { event := s.ids.event + 1, direct := false, order := s.ids.nextId + 1 } ∧
        t = ((takeId (takeId (arrived .read (tagOf tag) (some hla.toNat) s))).setHost
              { s.host with
                tags := s.host.tags ++ [tagOf tag]
                order := s.host.order ++
                  [{ id := s.ids.nextId, tag := tagOf tag, live := true, hla := hla.toNat, write := none,
                     stage := .inArray
                       { ala := ((entryOf s hla.toNat).bind (·.spare)).getD hla.toNat
                         depth := s.policy.active.retryDepth, step := 0, age, granted := false } }] }).setArray
              { s.array with waiting := s.array.waiting ++ [{ body := .hostRead s.ids.nextId, age }] } ∧
      presentedAtOnce s (tagOf tag) hla.toNat = true ∧
    (∀ e ∈ s.buf.entries, e.hla ≠ hla.toNat) ∧
      isMoving s hla.toNat = false ∧
        isPending s hla.toNat = false ∧
      calm t = true) :=
  ⟨⟨ask [.drain (.entry 1)] (bufs [ent 1 0 (BitVec.allOnes 64) .waiting] run), 0, 0, 0xAB, _, rfl, by decide +kernel⟩,
    ⟨moving .journaling false 1, 15, 0, 0xCD, _, rfl, by decide +kernel⟩,
    ⟨ask [.drain (.entry 1)] (bufs [ent 1 257023 1 .waiting] run), 0, 257023, _, ent 1 257023 1 .waiting, rfl,
     by decide +kernel⟩,
    ⟨run, 0, 257023, _, _, rfl, rfl, by decide +kernel⟩⟩

theorem meets_writesOutsideBuffer :
    (∃ (s : State) (tag : Byte) (hla : Addr24) (mask : Mask) (data : LineData) (t : State),
        t = responded (reportingAnswer .write (tagOf tag) .done s)
              ((arrived .write (tagOf tag) (some hla.toNat) s).setHost { s.host with reports := s.host.reports.drop 1 }) ∧
       mask = 0 ∧
         s.start.op = .running ∧
      s.host.tags.contains (tagOf tag) = false ∧
      hla.toNat < fenceValue s ∧
        inRange s .closing hla.toNat = false) ∧
    (∃ (s : State) (tag : Byte) (hla : Addr24) (mask : Mask) (data : LineData) (t : State),
        t = responded (reportingAnswer .write (tagOf tag) .poisonHit s)
              ((takeId (arrived .write (tagOf tag) (some hla.toNat) s)).setHost
                { s.host with reports := s.host.reports.drop 1 }) ∧
       mask ≠ 0 ∧
      mask ≠ BitVec.allOnes 64 ∧
      presentedAtOnce s (tagOf tag) hla.toNat = true ∧
    (∀ e ∈ s.buf.entries, e.hla ≠ hla.toNat) ∧
      isPending s hla.toNat = true ∧
      calm t = true) ∧
    (∃ (s : State) (tag : Byte) (hla : Addr24) (mask : Mask) (data : LineData) (t : State),
      t = ((takeId (arrived .write (tagOf tag) (some hla.toNat) s)).setHost
            { s.host with
              tags := s.host.tags ++ [tagOf tag]
              order := s.host.order ++
                [{ id := s.ids.nextId, tag := tagOf tag, live := true, hla := hla.toNat, write := some (data, mask),
                   stage := .direct }] }).setBuf
            { s.buf with
              direct := s.buf.direct ++
                [{ id := s.ids.nextId, hla := hla.toNat, data, mask, phase := .waiting, epoch := none, place := hla.toNat,
                   ladder := none }] } ∧
       mask ≠ 0 ∧
      s.policy.active.posting = false ∧
      presentedAtOnce s (tagOf tag) hla.toNat = true ∧
        (isMoving s hla.toNat = false ∧ (isPending s hla.toNat = false ∨ mask = BitVec.allOnes 64)) ∧
      steady t = true) :=
  ⟨⟨run, 0, 257023, 0, 0, _, rfl, by decide +kernel⟩,
    ⟨pends [0] run, 0, 0, 1, 0, _, rfl, by decide +kernel⟩,
    ⟨unposted run, 0, 257023, 1, 0, _, rfl, by decide +kernel⟩⟩

theorem meets_postedWriteEntersBuffer :
    (∃ (s : State) (tag : Byte) (hla : Addr24) (mask : Mask) (data : LineData) (t : State),
      t = responded (reportingAnswer .write (tagOf tag) .done s)
            (((takeId (takeId (arrived .write (tagOf tag) (some hla.toNat) s))).setHost
              { s.host with reports := s.host.reports.drop 1, epochCount := s.host.epochCount + 1 }).setBuf
              { s.buf with
                entries := s.buf.entries ++
                  [{ id := s.ids.nextId + 1, hla := hla.toNat, data, mask, phase := .waiting,
                     epoch := some (s.host.epochCount + 1), place := hla.toNat, ladder := none }] }) ∧
       mask ≠ 0 ∧
      s.policy.active.posting = true ∧
      presentedAtOnce s (tagOf tag) hla.toNat = true ∧
    (∀ e ∈ s.buf.entries, e.hla ≠ hla.toNat) ∧
      isMoving s hla.toNat = false ∧
      mask = BitVec.allOnes 64 ∧
      s.buf.entries.length < 8 ∧
      steady t = true) ∧
    (∃ (s : State) (tag : Byte) (hla : Addr24) (mask : Mask) (data : LineData) (t : State),
      t = responded (reportingAnswer .write (tagOf tag) .done s)
            (((takeId (takeId (arrived .write (tagOf tag) (some hla.toNat) s))).setHost
              { s.host with reports := s.host.reports.drop 1, epochCount := s.host.epochCount + 1 }).setBuf
              { s.buf with
                entries := s.buf.entries ++
                  [{ id := s.ids.nextId + 1, hla := hla.toNat, data, mask, phase := .waiting,
                     epoch := some (s.host.epochCount + 1), place := hla.toNat, ladder := none }] }) ∧
       mask ≠ 0 ∧
      s.policy.active.posting = true ∧
      presentedAtOnce s (tagOf tag) hla.toNat = true ∧
    (∀ e ∈ s.buf.entries, e.hla ≠ hla.toNat) ∧
      isMoving s hla.toNat = false ∧
        isPending s hla.toNat = false ∧
      s.buf.entries.length < 8 ∧
      steady t = true) ∧
    (∃ (s : State) (tag : Byte) (hla : Addr24) (mask : Mask) (data : LineData) (t : State) (e : Item),
      t = responded (reportingAnswer .write (tagOf tag) .done s)
            (((takeId (arrived .write (tagOf tag) (some hla.toNat) s)).setHost
              { s.host with reports := s.host.reports.drop 1, epochCount := s.host.epochCount + 1 }).setBuf
              { s.buf with
                entries := s.buf.entries.map fun x =>
                  if x.id == e.id then { x with data := mergeLine x.data data mask, mask := x.mask ||| mask } else x }) ∧
       mask ≠ 0 ∧
      s.policy.active.posting = true ∧
      presentedAtOnce s (tagOf tag) hla.toNat = true ∧
             newestEntry s hla.toNat = some e ∧
      e.phase = .waiting ∧
      steady t = true) :=
  ⟨⟨pends [0] run, 0, 0, BitVec.allOnes 64, 0, _, rfl, by decide +kernel⟩,
    ⟨run, 0, 257023, 1, 0, _, rfl, by decide +kernel⟩,
    ⟨bufs [ent 1 0 1 .waiting] run, 0, 0, 2, 0, _, ent 1 0 1 .waiting, rfl, by decide +kernel⟩⟩

theorem meets_writeMergesIntoSlot :
    (∃ (s : State) (tag : Byte) (hla : Addr24) (mask : Mask) (data : LineData) (t : State) (posted : Bool),
      t = responded (reportingAnswer .write (tagOf tag) .done s)
            (((takeId (arrived .write (tagOf tag) (some hla.toNat) s)).setHost
              { s.host with reports := s.host.reports.drop 1, epochCount := s.host.epochCount + 1 }).setReloc
              { s.reloc with
                slots := s.reloc.slots.map fun q =>
                  if q.home == hla.toNat then
                    { q with
                      data := mergeLine q.data data mask
                      dirty := q.dirty || slotWriteInFlight s hla.toNat || q.state == .journaling
                      epoch := some (match q.epoch with
                        | some e => min e (s.host.epochCount + 1)
                        | none => s.host.epochCount + 1) }
                  else q }) ∧
       mask ≠ 0 ∧
      s.policy.active.posting = posted ∧
      presentedAtOnce s (tagOf tag) hla.toNat = true ∧
    (∀ e ∈ s.buf.entries, e.hla ≠ hla.toNat) ∧
      isMoving s hla.toNat = true ∧
      (findSlot s hla.toNat).isSome = true ∧
      (isPending s hla.toNat = false ∨ mask = BitVec.allOnes 64) ∧
     posted = true ∧
      calm t = true) ∧
    (∃ (s : State) (tag : Byte) (hla : Addr24) (mask : Mask) (data : LineData) (t : State) (posted : Bool),
      t = ((takeId (arrived .write (tagOf tag) (some hla.toNat) s)).setHost
            { s.host with tags := s.host.tags ++ [tagOf tag] }).setReloc
            { s.reloc with
              slots := s.reloc.slots.map fun q =>
                if q.home == hla.toNat then
                  { q with
                    data := mergeLine q.data data mask
                    dirty := q.dirty || slotWriteInFlight s hla.toNat || q.state == .journaling
                    waiting := q.waiting ++ [{ tag := tagOf tag, live := true }] }
                else q } ∧
       mask ≠ 0 ∧
      s.policy.active.posting = posted ∧
      presentedAtOnce s (tagOf tag) hla.toNat = true ∧
    (∀ e ∈ s.buf.entries, e.hla ≠ hla.toNat) ∧
      isMoving s hla.toNat = true ∧
      (findSlot s hla.toNat).isSome = true ∧
      (isPending s hla.toNat = false ∨ mask = BitVec.allOnes 64) ∧
     posted = false ∧
      calm t = true) :=
  ⟨⟨moving .journaling false 1, 0, 0, 1, 0, _, true, rfl, by decide +kernel⟩,
    ⟨unposted (moving .writing false 3), 0, 0, BitVec.allOnes 64, 0, _, false, rfl, by decide +kernel⟩⟩

theorem meets_barrierAnsweredOrWaits :
    (∃ (s : State) (tag : Byte) (covered : Bool) (t : State),
      covered = (s.buf.entries.any (fun e => decide (∃ n, e.epoch = some n ∧ n ≤ s.host.epochCount)) ||
        s.reloc.slots.any fun q => decide (∃ n, q.epoch = some n ∧ n ≤ s.host.epochCount)) ∧
       covered = false ∧
        t = responded (reportingAnswer .barrier (tagOf tag) .done s)
              ((arrived .barrier (tagOf tag) none s).setHost { s.host with reports := s.host.reports.drop 1 }) ∧
         s.start.op = .running ∧
      s.host.tags.contains (tagOf tag) = false ∧
      calm s = true) ∧
    (∃ (s : State) (tag : Byte) (covered : Bool) (t : State),
      covered = (s.buf.entries.any (fun e => decide (∃ n, e.epoch = some n ∧ n ≤ s.host.epochCount)) ||
        s.reloc.slots.any fun q => decide (∃ n, q.epoch = some n ∧ n ≤ s.host.epochCount)) ∧
        t = (arrived .barrier (tagOf tag) none s).setHost
              { s.host with
                tags := s.host.tags ++ [tagOf tag], barriers := [{ tag := tagOf tag, epoch := s.host.epochCount }] } ∧
         s.start.op = .running ∧
      s.host.tags.contains (tagOf tag) = false ∧
      calm s = true ∧
       covered = true ∧
      s.jour.state ≠ .stalled) ∧
    (∃ (s : State) (b : Barrier) (answer : HostStatus → State → State),
      (∀ status x, answer status x = responded (reportingAnswer .barrier b.tag status x)
        (x.setHost
          { x.host with
            barriers := [], tags := x.host.tags.filter (· != b.tag), reports := x.host.reports.drop 1 })) ∧
       (∀ e ∈ s.buf.entries, ∀ n, e.epoch = some n → b.epoch < n) ∧
      (∀ q ∈ s.reloc.slots, ∀ n, q.epoch = some n → b.epoch < n) ∧
      s.host.barriers = [b]) ∧
    (∃ (s : State) (b : Barrier) (answer : HostStatus → State → State),
      (∀ status x, answer status x = responded (reportingAnswer .barrier b.tag status x)
        (x.setHost
          { x.host with
            barriers := [], tags := x.host.tags.filter (· != b.tag), reports := x.host.reports.drop 1 })) ∧
        ((∃ q ∈ s.reloc.slots, ∃ n, q.epoch = some n ∧ n ≤ b.epoch) ∨
          ∃ e ∈ s.buf.entries, ∃ n home cause, e.epoch = some n ∧ n ≤ b.epoch ∧
            QueueItem.request (.entry e.id) home cause ∈ s.reloc.queue) ∧
      s.host.barriers = [b] ∧
       s.jour.state = .stalled) ∧
    (∃ (s : State) (b : Barrier) (answer : HostStatus → State → State),
      (∀ status x, answer status x = responded (reportingAnswer .barrier b.tag status x)
        (x.setHost
          { x.host with
            barriers := [], tags := x.host.tags.filter (· != b.tag), reports := x.host.reports.drop 1 })) ∧
        ((∃ q ∈ s.reloc.slots, ∃ n, q.epoch = some n ∧ n ≤ b.epoch) ∨
          ∃ e ∈ s.buf.entries, ∃ n home cause, e.epoch = some n ∧ n ≤ b.epoch ∧
            QueueItem.request (.entry e.id) home cause ∈ s.reloc.queue) ∧
      s.host.barriers = [b] ∧
       s.jour.state = .stalled) ∧
    (∃ (s : State) (b : Barrier) (answer : HostStatus → State → State),
      (∀ status x, answer status x = responded (reportingAnswer .barrier b.tag status x)
        (x.setHost
          { x.host with
            barriers := [], tags := x.host.tags.filter (· != b.tag), reports := x.host.reports.drop 1 })) ∧
       (∃ e ∈ s.buf.entries, ∃ n, e.epoch = some n ∧ n ≤ b.epoch) ∧
        (s.jour.state ≠ .stalled ∨
          ((∀ q ∈ s.reloc.slots, ∀ n, q.epoch = some n → b.epoch < n) ∧ s.reloc.queue = [])) ∧
      s.host.barriers = [b]) ∧
    (∃ (s : State) (b : Barrier) (answer : HostStatus → State → State),
      (∀ status x, answer status x = responded (reportingAnswer .barrier b.tag status x)
        (x.setHost
          { x.host with
            barriers := [], tags := x.host.tags.filter (· != b.tag), reports := x.host.reports.drop 1 })) ∧
       (∃ e ∈ s.buf.entries, ∃ n, e.epoch = some n ∧ n ≤ b.epoch) ∧
        (s.jour.state ≠ .stalled ∨
          ((∀ q ∈ s.reloc.slots, ∀ n, q.epoch = some n → b.epoch < n) ∧ s.reloc.queue = [])) ∧
      s.host.barriers = [b]) ∧
    (∃ (s : State) (b : Barrier) (answer : HostStatus → State → State),
      (∀ status x, answer status x = responded (reportingAnswer .barrier b.tag status x)
        (x.setHost
          { x.host with
            barriers := [], tags := x.host.tags.filter (· != b.tag), reports := x.host.reports.drop 1 })) ∧
         (∃ q ∈ s.reloc.slots, ∃ n, q.epoch = some n ∧ n ≤ b.epoch) ∧
      s.host.barriers = [b] ∧
      s.jour.state ≠ .stalled) ∧
    (∃ (s : State) (b : Barrier) (answer : HostStatus → State → State),
      (∀ status x, answer status x = responded (reportingAnswer .barrier b.tag status x)
        (x.setHost
          { x.host with
            barriers := [], tags := x.host.tags.filter (· != b.tag), reports := x.host.reports.drop 1 })) ∧
      s.host.barriers = [b]) ∧
    (∃ (s : State) (b : Barrier) (answer : HostStatus → State → State) (n : _),
      (∀ status x, answer status x = responded (reportingAnswer .barrier b.tag status x)
        (x.setHost
          { x.host with
            barriers := [], tags := x.host.tags.filter (· != b.tag), reports := x.host.reports.drop 1 })) ∧
      s.host.barriers = [b] ∧
      n ≤ b.epoch) ∧
    (∃ (s : State) (b : Barrier) (answer : HostStatus → State → State) (n : _),
      (∀ status x, answer status x = responded (reportingAnswer .barrier b.tag status x)
        (x.setHost
          { x.host with
            barriers := [], tags := x.host.tags.filter (· != b.tag), reports := x.host.reports.drop 1 })) ∧
      s.host.barriers = [b] ∧
      b.epoch < n) ∧
    (∃ (s : State) (b : Barrier) (answer : HostStatus → State → State) (id ala step : Nat) (data : LineData) (rest :
        List Flight) (e : Item) (t : State),
      (∀ status x, answer status x = responded (reportingAnswer .barrier b.tag status x)
        (x.setHost
          { x.host with
            barriers := [], tags := x.host.tags.filter (· != b.tag), reports := x.host.reports.drop 1 })) ∧
      (∀ r ∈ s.host.order, r.stage ≠ .waitEntry id) ∧
          (∀ x ∈ s.buf.entries, x.id ≠ id → ∀ n, x.epoch = some n → b.epoch < n) ∧
      (∀ q ∈ s.reloc.slots, ∀ n, q.epoch = some n → b.epoch < n) ∧
          t = answer .done
                (((answerTaken rest s).setReloc
                  { s.reloc with pendingList := s.reloc.pendingList.filter (·.hla != e.hla) }).setBuf
                  { s.buf with entries := s.buf.entries.filter (·.id != id) }) ∧
      s.host.barriers = [b] ∧
        findItem s (.entry id) = some e ∧
         s.array.inFlight = inFlightNow (.write ala data) (.drainWrite (.entry id)) step :: rest ∧
      isMoving s e.hla = false ∧
      calm t = true) ∧
    (∃ (s : State) (b : Barrier) (answer : HostStatus → State → State) (id ala step : Nat) (data : LineData) (rest :
        List Flight) (e : Item) (t : State) (n : Nat) (v : State),
      (∀ status x, answer status x = responded (reportingAnswer .barrier b.tag status x)
        (x.setHost
          { x.host with
            barriers := [], tags := x.host.tags.filter (· != b.tag), reports := x.host.reports.drop 1 })) ∧
      (∀ r ∈ s.host.order, r.stage ≠ .waitEntry id) ∧
          v = queueReport e.hla .noSpare
                (writeFault .homeWriteFault (some e.hla) (some e.place) none (answerTaken rest s)) ∧
          t = answer .incomplete (v.setBuf { s.buf with entries := s.buf.entries.filter (·.id != id) }) ∧
      s.host.barriers = [b] ∧
        findItem s (.entry id) = some e ∧
      s.array.inFlight = inFlightNow (.write ala data) (.inPlace (.entry id)) step :: rest ∧
      e.epoch = some n ∧
      n ≤ b.epoch) :=
  ⟨⟨run, 15, _, _, rfl, rfl, rfl, by decide +kernel⟩,
    ⟨ask [.drain (.entry 1)] (bufs [ent 1 0 1 .waiting] { run with host := { run.host with epochCount := 1 } }), 0, _, _,
     rfl, rfl, by decide +kernel⟩,
    ⟨barred (bufs [{ ent 1 0 (BitVec.allOnes 64) .waiting with epoch := some 2 }] run), ⟨3, 1⟩, _, (fun _ _ => rfl),
     (fun e he n hn => by cases List.mem_singleton.mp he; cases hn; decide), (fun q hq => (nomatch hq)), by decide +kernel⟩,
    ⟨barred (covered (journal .stalled run)), ⟨3, 1⟩, _, (fun _ _ => rfl),
     .inl ⟨_, List.mem_singleton.mpr rfl, 1, rfl, by decide⟩, by decide +kernel⟩,
    ⟨barred (bufs [ent 1 0 (BitVec.allOnes 64) .relocating] (journal .stalled { run with reloc := { run.reloc with queue := [.request (.entry 1) 0 .writeFault] } })),
     ⟨3, 1⟩, _, (fun _ _ => rfl),
     .inr ⟨_, List.mem_singleton.mpr rfl, 1, 0, .writeFault, rfl, by decide, List.mem_singleton.mpr rfl⟩, by decide +kernel⟩,
    ⟨barred (bufs [ent 1 0 (BitVec.allOnes 64) .waiting] run), ⟨3, 1⟩, _, (fun _ _ => rfl),
     ⟨_, List.mem_singleton.mpr rfl, 1, rfl, by decide⟩, .inl (by decide), by decide +kernel⟩,
    ⟨barred (bufs [ent 1 0 (BitVec.allOnes 64) .waiting] (journal .stalled run)), ⟨3, 1⟩, _, (fun _ _ => rfl),
     ⟨_, List.mem_singleton.mpr rfl, 1, rfl, by decide⟩, .inr ⟨fun q hq => (nomatch hq), rfl⟩, by decide +kernel⟩,
    ⟨barred (covered run), ⟨3, 1⟩, _, (fun _ _ => rfl), ⟨_, List.mem_singleton.mpr rfl, 1, rfl, by decide⟩, by decide +kernel⟩,
    ⟨barred run, ⟨3, 1⟩, _, (fun _ _ => rfl), by decide +kernel⟩,
    ⟨barred run, ⟨3, 1⟩, _, 1, (fun _ _ => rfl), by decide +kernel⟩,
    ⟨barred run, ⟨3, 1⟩, _, 2, (fun _ _ => rfl), by decide +kernel⟩,
    ⟨barred (bufs [ent 1 0 (BitVec.allOnes 64) .writing] (fly (.write 0 0xAB) (.drainWrite (.entry 1)) run)), ⟨3, 1⟩, _, 1,
     0, 0, 0xAB, [], ent 1 0 (BitVec.allOnes 64) .writing, _, (fun _ _ => rfl), (fun q hq => (nomatch hq)),
     (fun x hx h => absurd (by cases List.mem_singleton.mp hx; rfl) h), (fun q hq => (nomatch hq)), rfl, by decide +kernel⟩,
    ⟨barred (bufs [ent 1 0 (BitVec.allOnes 64) .writing] (fly (.write 0 0xAB) (.inPlace (.entry 1)) run)), ⟨3, 1⟩, _, 1, 0,
     0, 0xAB, [], ent 1 0 (BitVec.allOnes 64) .writing, _, 1, _, (fun _ _ => rfl), (fun q hq => (nomatch hq)), rfl, rfl,
     by decide +kernel⟩⟩

theorem meets_hostLinkResetReleasesTags :
    (∃ (s t : State) (drops : HostReq → Bool),
    (∀ r, drops r = true ↔
      (r.stage = .queued ∨ r.stage = .waitRoom ∨ (∃ e, r.stage = .waitEntry e) ∨
        ∃ l, r.stage = .inArray l ∧ l.granted = false)) ∧
    t = (((nextEvent s).setHost
          { s.host with
            tags := [], roomWait := [], barriers := []
            order := (s.host.order.filter fun r => !drops r).map fun r => { r with live := false } }).setArray
          { s.array with
            waiting := s.array.waiting.filter fun q =>
              !(s.host.order.filter drops).any fun r => q.body == .hostRead r.id }).setReloc
          { s.reloc with
            slots := s.reloc.slots.map fun q =>
              { q with waiting := q.waiting.map fun w => { w with live := false } } }) :=
  ⟨ask [.hostRead 8] (reqs [req 8 0 (.inArray (lad 0 0 false))] run), _, droppedAtHrst, (by
      intro r; unfold droppedAtHrst; cases r.stage <;> simp),
     rfl⟩

theorem meets_startupReadsTaken :
    (∃ (s : State) (count step : Nat) (rest : List Flight) (t : State),
       (∃ k, 18 ≤ k ∧ k ≤ 24 ∧ count = 2 ^ k) ∧
        t = (placeRequest (.journalRead (count - 4096))
              ((answerTaken rest s).setArray { s.array with inFlight := rest, lineCount := count })).setStart
              { s.start with phase := .lineA } ∧
      s.array.inFlight = inFlightNow .ident .ident step :: rest ∧
      s.start.phase = .ident) ∧
    (∃ (s : State) (count step : Nat) (rest : List Flight) (t : State),
       (∀ k, 18 ≤ k → k ≤ 24 → count ≠ 2 ^ k) ∧
        t = ((answerTaken rest s).setArray { s.array with inFlight := rest, lineCount := count }).setStart
              { s.start with op := .held .noArray, phase := .idle } ∧
      s.array.inFlight = inFlightNow .ident .ident step :: rest ∧
      s.start.phase = .ident ∧
      s.port.command = none) ∧
    (∃ (s : State) (ala step : Nat) (line : ArrayLine) (rest : List Flight) (t : State),
        t = (placeRequest (.journalRead (s.array.lineCount - 2048)) (answerTaken rest s)).setStart
              { s.start with phase := .lineB ((readableLine .a (classify ala line)).map lineZero) } ∧
      s.array.inFlight = inFlightNow (.read ala) .journalRead step :: rest ∧
       s.start.phase = .lineA) ∧
    (∃ (s : State) (ala step : Nat) (line : ArrayLine) (rest : List Flight) (t : State) (a : Option LineZero),
      (∀ z, a = some z → z.image = false) ∧
        (∀ h, readableLine .b (classify ala line) = some h → h.image = false) ∧
        t = (answerTaken rest s).setStart { s.start with op := .held .noJournal, phase := .idle } ∧
      s.array.inFlight = inFlightNow (.read ala) .journalRead step :: rest ∧
      s.start.phase = .lineB a ∧
      s.port.command = none) ∧
    (∃ (s : State) (ala step : Nat) (line : ArrayLine) (rest : List Flight) (a b : Option LineZero) (bank : Bank) (next :
        Option Bank) (t : State),
       (∃ x y, a = some x ∧ b = some y ∧ x.image = true ∧ y.image = true ∧
          ((1 ≤ (y.seq - x.seq).toNat ∧ (y.seq - x.seq).toNat ≤ 2147483647 ∧ bank = .b ∧ next = some .a) ∨
            (((y.seq - x.seq).toNat < 1 ∨ 2147483647 < (y.seq - x.seq).toNat) ∧ bank = .a ∧ next = some .b))) ∧
      t = (placeRequest (.journalRead (s.array.lineCount - (if bank = .a then 4096 else 2048))) (answerTaken rest s)).setStart
            { s.start with phase := .examine bank 0 0 a b next } ∧
      s.array.inFlight = inFlightNow (.read ala) .journalRead step :: rest ∧
      s.start.phase = .lineB a ∧
      b = (readableLine .b (classify ala line)).map lineZero) ∧
    (∃ (s : State) (ala step : Nat) (line : ArrayLine) (rest : List Flight) (a b : Option LineZero) (bank : Bank) (next :
        Option Bank) (t : State),
       (∃ x y, a = some x ∧ b = some y ∧ x.image = true ∧ y.image = true ∧
          ((1 ≤ (y.seq - x.seq).toNat ∧ (y.seq - x.seq).toNat ≤ 2147483647 ∧ bank = .b ∧ next = some .a) ∨
            (((y.seq - x.seq).toNat < 1 ∨ 2147483647 < (y.seq - x.seq).toNat) ∧ bank = .a ∧ next = some .b))) ∧
      t = (placeRequest (.journalRead (s.array.lineCount - (if bank = .a then 4096 else 2048))) (answerTaken rest s)).setStart
            { s.start with phase := .examine bank 0 0 a b next } ∧
      s.array.inFlight = inFlightNow (.read ala) .journalRead step :: rest ∧
      s.start.phase = .lineB a ∧
      b = (readableLine .b (classify ala line)).map lineZero) ∧
    (∃ (s : State) (ala step : Nat) (line : ArrayLine) (rest : List Flight) (a b : Option LineZero) (bank : Bank) (next :
        Option Bank) (t : State),
       (∃ x y, a = some x ∧ b = some y ∧ x.image = true ∧ y.image = true ∧
          ((1 ≤ (y.seq - x.seq).toNat ∧ (y.seq - x.seq).toNat ≤ 2147483647 ∧ bank = .b ∧ next = some .a) ∨
            (((y.seq - x.seq).toNat < 1 ∨ 2147483647 < (y.seq - x.seq).toNat) ∧ bank = .a ∧ next = some .b))) ∧
      t = (placeRequest (.journalRead (s.array.lineCount - (if bank = .a then 4096 else 2048))) (answerTaken rest s)).setStart
            { s.start with phase := .examine bank 0 0 a b next } ∧
      s.array.inFlight = inFlightNow (.read ala) .journalRead step :: rest ∧
      s.start.phase = .lineB a ∧
      b = (readableLine .b (classify ala line)).map lineZero) ∧
    (∃ (s : State) (ala step : Nat) (line : ArrayLine) (rest : List Flight) (a b : Option LineZero) (bank : Bank) (next :
        Option Bank) (t : State),
       (∃ x y, a = some x ∧ b = some y ∧ x.image = true ∧ y.image = true ∧
          ((1 ≤ (y.seq - x.seq).toNat ∧ (y.seq - x.seq).toNat ≤ 2147483647 ∧ bank = .b ∧ next = some .a) ∨
            (((y.seq - x.seq).toNat < 1 ∨ 2147483647 < (y.seq - x.seq).toNat) ∧ bank = .a ∧ next = some .b))) ∧
      t = (placeRequest (.journalRead (s.array.lineCount - (if bank = .a then 4096 else 2048))) (answerTaken rest s)).setStart
            { s.start with phase := .examine bank 0 0 a b next } ∧
      s.array.inFlight = inFlightNow (.read ala) .journalRead step :: rest ∧
      s.start.phase = .lineB a ∧
      b = (readableLine .b (classify ala line)).map lineZero) ∧
    (∃ (s : State) (ala step : Nat) (line : ArrayLine) (rest : List Flight) (a b : Option LineZero) (bank : Bank) (next :
        Option Bank) (t : State),
        (∃ x, a = some x ∧ x.image = true ∧ (∀ y, b = some y → y.image = false) ∧ bank = .a ∧ next = none) ∧
      t = (placeRequest (.journalRead (s.array.lineCount - (if bank = .a then 4096 else 2048))) (answerTaken rest s)).setStart
            { s.start with phase := .examine bank 0 0 a b next } ∧
      s.array.inFlight = inFlightNow (.read ala) .journalRead step :: rest ∧
      s.start.phase = .lineB a ∧
      b = (readableLine .b (classify ala line)).map lineZero) ∧
    (∃ (s : State) (ala step : Nat) (line : ArrayLine) (rest : List Flight) (a b : Option LineZero) (bank : Bank) (next :
        Option Bank) (t : State),
        (∃ y, b = some y ∧ y.image = true ∧ (∀ x, a = some x → x.image = false) ∧ bank = .b ∧ next = none) ∧
      t = (placeRequest (.journalRead (s.array.lineCount - (if bank = .a then 4096 else 2048))) (answerTaken rest s)).setStart
            { s.start with phase := .examine bank 0 0 a b next } ∧
      s.array.inFlight = inFlightNow (.read ala) .journalRead step :: rest ∧
      s.start.phase = .lineB a ∧
      b = (readableLine .b (classify ala line)).map lineZero) ∧
    (∃ (s : State) (ala step : Nat) (line : ArrayLine) (rest : List Flight) (bank : Bank) (pos : Nat) (prev : Seq32) (a b :
        Option LineZero) (next : Option Bank) (t : State) (h : _),
          t = (placeRequest (.journalRead (journalAla s bank (pos + 1))) (answerTaken rest s)).setStart
                { s.start with phase := .examine bank (pos + 1) h.seq a b next } ∧
      s.array.inFlight = inFlightNow (.read ala) .journalRead step :: rest ∧
      s.start.phase = .examine bank pos prev a b next ∧
            readableLine bank (classify ala line) = some h ∧
      h.image = true ∧
      (pos = 0 ∨ h.seq = prev + 1) ∧
         h.commit = false ∧
      pos + 1 < 2048) ∧
    (∃ (s : State) (ala step : Nat) (line : ArrayLine) (rest : List Flight) (bank : Bank) (pos : Nat) (prev : Seq32) (a b :
        Option LineZero) (next : Option Bank) (t : State) (h : _),
          t = (placeRequest (.journalRead (journalAla s bank (pos + 1))) (answerTaken rest s)).setStart
                { s.start with phase := .examine bank (pos + 1) h.seq a b next } ∧
      s.array.inFlight = inFlightNow (.read ala) .journalRead step :: rest ∧
      s.start.phase = .examine bank pos prev a b next ∧
            readableLine bank (classify ala line) = some h ∧
      h.image = true ∧
      (pos = 0 ∨ h.seq = prev + 1) ∧
         h.commit = false ∧
      pos + 1 < 2048) ∧
    (∃ (s : State) (ala step : Nat) (line : ArrayLine) (rest : List Flight) (bank : Bank) (pos : Nat) (prev : Seq32) (a b :
        Option LineZero) (next : Option Bank) (t : State) (h : _) (u : _),
           ((if bank = .a then b else a) ≠ none ∧ u = answerTaken rest s) ∧
          t = (placeRequest (.journalRead (journalAla s bank 0)) (u.setJour { s.jour with active := some bank })).setStart
                { s.start with phase := .replay bank 0 0 } ∧
      s.array.inFlight = inFlightNow (.read ala) .journalRead step :: rest ∧
      s.start.phase = .examine bank pos prev a b next ∧
            readableLine bank (classify ala line) = some h ∧
      h.image = true ∧
      (pos = 0 ∨ h.seq = prev + 1) ∧
             h.commit = true) ∧
    (∃ (s : State) (ala step : Nat) (line : ArrayLine) (rest : List Flight) (bank : Bank) (pos : Nat) (prev : Seq32) (a b :
        Option LineZero) (next : Option Bank) (t : State) (h : _) (u : _),
            ((if bank = .a then b else a) = none ∧
              u = writeFault .replayBank none (some (journalAla s bank.other 0)) none
                    ((answerTaken rest s).setAlert
                      { s.alert with causes := s.alert.causes ||| AlertCause.journal.bit })) ∧
          t = (placeRequest (.journalRead (journalAla s bank 0)) (u.setJour { s.jour with active := some bank })).setStart
                { s.start with phase := .replay bank 0 0 } ∧
      s.array.inFlight = inFlightNow (.read ala) .journalRead step :: rest ∧
      s.start.phase = .examine bank pos prev a b next ∧
            readableLine bank (classify ala line) = some h ∧
      h.image = true ∧
      (pos = 0 ∨ h.seq = prev + 1) ∧
             h.commit = true) ∧
    (∃ (s : State) (ala step : Nat) (line : ArrayLine) (rest : List Flight) (bank : Bank) (pos : Nat) (prev : Seq32) (a b :
        Option LineZero) (next : Option Bank) (t : State) (n : _),
       (∀ h, readableLine bank (classify ala line) = some h →
          h.image = false ∨ (pos ≠ 0 ∧ h.seq ≠ prev + 1) ∨ (h.commit = false ∧ 2048 ≤ pos + 1)) ∧
          t = (placeRequest (.journalRead (journalAla s n 0)) (answerTaken rest s)).setStart
                { s.start with phase := .examine n 0 0 a b none } ∧
      s.array.inFlight = inFlightNow (.read ala) .journalRead step :: rest ∧
      s.start.phase = .examine bank pos prev a b next ∧
              next = some n) ∧
    (∃ (s : State) (ala step : Nat) (line : ArrayLine) (rest : List Flight) (bank : Bank) (pos : Nat) (prev : Seq32) (a b :
        Option LineZero) (next : Option Bank) (t : State) (n : _),
       (∀ h, readableLine bank (classify ala line) = some h →
          h.image = false ∨ (pos ≠ 0 ∧ h.seq ≠ prev + 1) ∨ (h.commit = false ∧ 2048 ≤ pos + 1)) ∧
          t = (placeRequest (.journalRead (journalAla s n 0)) (answerTaken rest s)).setStart
                { s.start with phase := .examine n 0 0 a b none } ∧
      s.array.inFlight = inFlightNow (.read ala) .journalRead step :: rest ∧
      s.start.phase = .examine bank pos prev a b next ∧
              next = some n) ∧
    (∃ (s : State) (ala step : Nat) (line : ArrayLine) (rest : List Flight) (bank : Bank) (pos : Nat) (prev : Seq32) (a b :
        Option LineZero) (next : Option Bank) (t : State) (n : _),
       (∀ h, readableLine bank (classify ala line) = some h →
          h.image = false ∨ (pos ≠ 0 ∧ h.seq ≠ prev + 1) ∨ (h.commit = false ∧ 2048 ≤ pos + 1)) ∧
          t = (placeRequest (.journalRead (journalAla s n 0)) (answerTaken rest s)).setStart
                { s.start with phase := .examine n 0 0 a b none } ∧
      s.array.inFlight = inFlightNow (.read ala) .journalRead step :: rest ∧
      s.start.phase = .examine bank pos prev a b next ∧
              next = some n) ∧
    (∃ (s : State) (ala step : Nat) (line : ArrayLine) (rest : List Flight) (bank : Bank) (pos : Nat) (prev : Seq32) (a b :
        Option LineZero) (next : Option Bank) (t : State),
       (∀ h, readableLine bank (classify ala line) = some h →
          h.image = false ∨ (pos ≠ 0 ∧ h.seq ≠ prev + 1) ∨ (h.commit = false ∧ 2048 ≤ pos + 1)) ∧
        t = (answerTaken rest s).setStart { s.start with op := .held .noJournal, phase := .idle } ∧
      s.array.inFlight = inFlightNow (.read ala) .journalRead step :: rest ∧
      s.start.phase = .examine bank pos prev a b next ∧
      next = none ∧
      s.port.command = none) ∧
    (∃ (s : State) (ala : Nat) (reserve : Nat → Prop) (f : Nat) (ok : Prop),
      (∀ x, reserve x ↔ ∃ f, s.map.fence = some f ∧ f ≤ x ∧ x < s.array.lineCount - 4096) ∧
        (ok ↔ f + 64 ≤ s.array.lineCount - 4096 ∧ s.array.lineCount - 4096 ≤ f + 8192 ∧
          (∀ m ∈ s.map.marks, reserve m.ala → f ≤ m.ala) ∧
          ∀ e ∈ s.map.table, f ≤ e.home → e.home < s.array.lineCount - 4096 → reserve e.home) ∧
      ok) ∧
    (∃ (s : State) (ala : Nat) (reserve : Nat → Prop) (f : Nat) (ok : Prop),
      (∀ x, reserve x ↔ ∃ f, s.map.fence = some f ∧ f ≤ x ∧ x < s.array.lineCount - 4096) ∧
        (ok ↔ f + 64 ≤ s.array.lineCount - 4096 ∧ s.array.lineCount - 4096 ≤ f + 8192 ∧
          (∀ m ∈ s.map.marks, reserve m.ala → f ≤ m.ala) ∧
          ∀ e ∈ s.map.table, f ≤ e.home → e.home < s.array.lineCount - 4096 → reserve e.home) ∧
      ok) ∧
    (∃ (s : State) (ala : Nat) (reserve : Nat → Prop) (f : Nat) (ok : Prop),
      (∀ x, reserve x ↔ ∃ f, s.map.fence = some f ∧ f ≤ x ∧ x < s.array.lineCount - 4096) ∧
        (ok ↔ f + 64 ≤ s.array.lineCount - 4096 ∧ s.array.lineCount - 4096 ≤ f + 8192 ∧
          (∀ m ∈ s.map.marks, reserve m.ala → f ≤ m.ala) ∧
          ∀ e ∈ s.map.table, f ≤ e.home → e.home < s.array.lineCount - 4096 → reserve e.home) ∧
         ¬ ok) ∧
    (∃ (s : State) (ala : Nat) (reserve : Nat → Prop) (f : Nat) (ok : Prop),
      (∀ x, reserve x ↔ ∃ f, s.map.fence = some f ∧ f ≤ x ∧ x < s.array.lineCount - 4096) ∧
        (ok ↔ f + 64 ≤ s.array.lineCount - 4096 ∧ s.array.lineCount - 4096 ≤ f + 8192 ∧
          (∀ m ∈ s.map.marks, reserve m.ala → f ≤ m.ala) ∧
          ∀ e ∈ s.map.table, f ≤ e.home → e.home < s.array.lineCount - 4096 → reserve e.home) ∧
         ¬ ok) ∧
    (∃ (s : State) (ala : Nat) (reserve : Nat → Prop) (p : PolicySet),
      (∀ x, reserve x ↔ ∃ f, s.map.fence = some f ∧ f ≤ x ∧ x < s.array.lineCount - 4096)) ∧
    (∃ (s : State) (ala : Nat) (reserve : Nat → Prop) (x : _),
      (∀ x, reserve x ↔ ∃ f, s.map.fence = some f ∧ f ≤ x ∧ x < s.array.lineCount - 4096) ∧
            reserve x ∧
      markOf s.map.marks x ≠ some .bound) ∧
    (∃ (s : State) (ala : Nat) (reserve : Nat → Prop) (x : _),
      (∀ x, reserve x ↔ ∃ f, s.map.fence = some f ∧ f ≤ x ∧ x < s.array.lineCount - 4096) ∧
            reserve x ∧
      markOf s.map.marks x ≠ some .bound) ∧
    (∃ (s : State) (ala : Nat) (reserve : Nat → Prop) (x : _),
      (∀ x, reserve x ↔ ∃ f, s.map.fence = some f ∧ f ≤ x ∧ x < s.array.lineCount - 4096) ∧
         (¬ reserve x ∨ markOf s.map.marks x = some .bound)) ∧
    (∃ (s : State) (ala : Nat) (reserve : Nat → Prop) (x : _),
      (∀ x, reserve x ↔ ∃ f, s.map.fence = some f ∧ f ≤ x ∧ x < s.array.lineCount - 4096) ∧
         (¬ reserve x ∨ markOf s.map.marks x = some .bound)) ∧
    (∃ (s : State) (ala : Nat) (reserve : Nat → Prop) (x : _),
      (∀ x, reserve x ↔ ∃ f, s.map.fence = some f ∧ f ≤ x ∧ x < s.array.lineCount - 4096) ∧
         (¬ reserve x ∨ markOf s.map.marks x = some .bound)) ∧
    (∃ (s : State) (ala : Nat) (reserve : Nat → Prop) (home x : Nat) (ok : Prop) (marks : List SpareMark),
      (∀ x, reserve x ↔ ∃ f, s.map.fence = some f ∧ f ≤ x ∧ x < s.array.lineCount - 4096) ∧
        (ok ↔ home < s.map.fence.getD 0 ∧ reserve x ∧
          (markOf s.map.marks x = none ∨ ∃ e, entryOf s home = some e ∧ e.spare = some x)) ∧
         (∃ e old, entryOf s home = some e ∧ e.spare = some old ∧ old ≠ x ∧ marks = insertMark old .dead s.map.marks) ∧
      ok) ∧
    (∃ (s : State) (ala : Nat) (reserve : Nat → Prop) (home x : Nat) (ok : Prop) (marks : List SpareMark),
      (∀ x, reserve x ↔ ∃ f, s.map.fence = some f ∧ f ≤ x ∧ x < s.array.lineCount - 4096) ∧
        (ok ↔ home < s.map.fence.getD 0 ∧ reserve x ∧
          (markOf s.map.marks x = none ∨ ∃ e, entryOf s home = some e ∧ e.spare = some x)) ∧
          ((∀ e old, entryOf s home = some e → e.spare = some old → old = x) ∧ marks = s.map.marks) ∧
      ok) ∧
    (∃ (s : State) (ala : Nat) (reserve : Nat → Prop) (home x : Nat) (ok : Prop) (marks : List SpareMark),
      (∀ x, reserve x ↔ ∃ f, s.map.fence = some f ∧ f ≤ x ∧ x < s.array.lineCount - 4096) ∧
        (ok ↔ home < s.map.fence.getD 0 ∧ reserve x ∧
          (markOf s.map.marks x = none ∨ ∃ e, entryOf s home = some e ∧ e.spare = some x)) ∧
          ((∀ e old, entryOf s home = some e → e.spare = some old → old = x) ∧ marks = s.map.marks) ∧
         ¬ ok) ∧
    (∃ (s : State) (ala : Nat) (reserve : Nat → Prop),
      (∀ x, reserve x ↔ ∃ f, s.map.fence = some f ∧ f ≤ x ∧ x < s.array.lineCount - 4096)) ∧
    (∃ (s : State) (ala step : Nat) (line : ArrayLine) (rest : List Flight) (bank : Bank) (pos : Nat) (prev last : Seq32)
        (u t : State) (h : _),
        last = (if pos = 0 then Config.noLineSequence else prev) ∧
            u = (h.places.map decodeRecord).foldl (replayRecord (journalAla s bank pos)) (answerTaken rest s) ∧
              t = (placeRequest (.journalRead (journalAla s bank (pos + 1))) u).setStart
                    { s.start with phase := .replay bank (pos + 1) h.seq } ∧
      s.array.inFlight = inFlightNow (.read ala) .journalRead step :: rest ∧
      s.start.phase = .replay bank pos prev ∧
            readableLine bank (classify ala line) = some h ∧
      (pos = 0 ∨ h.seq = prev + 1) ∧
      pos + 1 < 2048) ∧
    (∃ (s : State) (ala step : Nat) (line : ArrayLine) (rest : List Flight) (bank : Bank) (pos : Nat) (prev last : Seq32)
        (u t : State) (h : _),
        last = (if pos = 0 then Config.noLineSequence else prev) ∧
            u = (h.places.map decodeRecord).foldl (replayRecord (journalAla s bank pos)) (answerTaken rest s) ∧
              t = (placeRequest (.journalRead (journalAla s bank (pos + 1))) u).setStart
                    { s.start with phase := .replay bank (pos + 1) h.seq } ∧
      s.array.inFlight = inFlightNow (.read ala) .journalRead step :: rest ∧
      s.start.phase = .replay bank pos prev ∧
            readableLine bank (classify ala line) = some h ∧
      (pos = 0 ∨ h.seq = prev + 1) ∧
      pos + 1 < 2048) ∧
    (∃ (s : State) (ala step : Nat) (line : ArrayLine) (rest : List Flight) (bank : Bank) (pos : Nat) (prev last : Seq32)
        (u t : State) (h : _),
        last = (if pos = 0 then Config.noLineSequence else prev) ∧
            u = (h.places.map decodeRecord).foldl (replayRecord (journalAla s bank pos)) (answerTaken rest s) ∧
      s.array.inFlight = inFlightNow (.read ala) .journalRead step :: rest ∧
      s.start.phase = .replay bank pos prev ∧
            readableLine bank (classify ala line) = some h ∧
      (pos = 0 ∨ h.seq = prev + 1) ∧
      2048 ≤ pos + 1) ∧
    (∃ (s : State) (ala step : Nat) (line : ArrayLine) (rest : List Flight) (bank : Bank) (pos : Nat) (prev last : Seq32)
        (u t : State) (h : _),
        last = (if pos = 0 then Config.noLineSequence else prev) ∧
      s.array.inFlight = inFlightNow (.read ala) .journalRead step :: rest ∧
      s.start.phase = .replay bank pos prev ∧
            readableLine bank (classify ala line) = some h ∧
      pos ≠ 0 ∧
      h.seq ≠ prev + 1) ∧
    (∃ (s : State) (ala step : Nat) (line : ArrayLine) (rest : List Flight) (bank : Bank) (pos : Nat) (prev last : Seq32)
        (u t : State),
        last = (if pos = 0 then Config.noLineSequence else prev) ∧
      s.array.inFlight = inFlightNow (.read ala) .journalRead step :: rest ∧
      s.start.phase = .replay bank pos prev ∧
         readableLine bank (classify ala line) = none) ∧
    (∃ (s : State) (ala step : Nat) (line : ArrayLine) (rest : List Flight) (bank : Bank) (pos : Nat) (prev last : Seq32)
        (u t : State) (n : Nat),
        t = ((s.setJour { s.jour with nextLine := n, lastSeq := last }).setStart
              { s.start with op := .running, phase := .idle }).setMap { s.map with poolBuilt := true } ∧
      s.port.command = none) ∧
    (∃ (s : State) (ala step : Nat) (line : ArrayLine) (rest : List Flight) (bank : Bank) (pos : Nat) (prev last : Seq32)
        (u t : State) (n : Nat) (seq : _),
        t = ((s.setJour { s.jour with nextLine := n, lastSeq := last }).setStart
              { s.start with op := .running, phase := .idle }).setMap { s.map with poolBuilt := true } ∧
      s.port.command = some { seq, command := .journalFormat }) ∧
    (∃ (s : State) (ala step : Nat) (line : ArrayLine) (rest : List Flight) (bank : Bank) (pos : Nat) (prev last : Seq32)
        (u t : State) (n : Nat) (seq : _),
        t = ((s.setJour { s.jour with nextLine := n, lastSeq := last }).setStart
              { s.start with op := .running, phase := .idle }).setMap { s.map with poolBuilt := true } ∧
           s.port.command = some { seq, command := .bridgeRestart }) ∧
    (∃ (s : State) (ala step : Nat) (line : ArrayLine) (rest : List Flight) (bank : Bank) (pos : Nat) (prev last : Seq32)
        (u t : State) (reason : HeldReason) (seq : Byte) (command : LongCommand),
        (command = .journalFormat ∨ command = .bridgeRestart) ∧
      s.port.command = some { seq, command }) ∧
    (∃ (s : State) (ala step : Nat) (line : ArrayLine) (rest : List Flight) (bank : Bank) (pos : Nat) (prev last : Seq32)
        (u t : State) (reason : HeldReason) (seq : Byte) (command : LongCommand),
        (command = .journalFormat ∨ command = .bridgeRestart) ∧
      s.port.command = some { seq, command }) :=
  ⟨⟨State.reset, 16777216, 0, [], _, ⟨24, by decide, by decide, by decide⟩, rfl, by decide +kernel⟩,
    ⟨State.reset, 131072, 0, [], _, (fun k h h2 => by interval_cases k <;> decide), rfl, by decide +kernel⟩,
    ⟨fly (.read 258048) .journalRead { State.reset with start := ⟨.starting, .lineA, none⟩ }, 258048, 0,
     writtenLine 258048 0, [], _, rfl, by decide +kernel⟩,
    ⟨fly (.read 260096) .journalRead { State.reset with start := ⟨.starting, .lineB none, none⟩ }, 260096, 0,
     writtenLine 260096 0, [], _, none, (fun z h => nomatch h),
     (fun h e => absurd e (by rw [show readableLine .b (classify 260096 (writtenLine 260096 0)) =
         none by decide +kernel]; exact fun h => nomatch h)),
     rfl, by decide +kernel⟩,
    ⟨starting 260096 (.lineB (some ⟨1, true⟩)), 260096, 0, writtenLine 260096 (journalLine 2 .b true false [.fence 257024]),
     [], some ⟨1, true⟩, some ⟨2, true⟩, .b, some .a, _, ⟨_, _, rfl, rfl, rfl, rfl, .inl ⟨by decide, by decide, rfl, rfl⟩⟩,
     rfl, by decide +kernel⟩,
    ⟨starting 260096 (.lineB (some ⟨1, true⟩)), 260096, 0,
     writtenLine 260096 (journalLine 0x80000000 .b true false [.fence 257024]), [], some ⟨1, true⟩, some ⟨0x80000000, true⟩,
     .b, some .a, _, ⟨_, _, rfl, rfl, rfl, rfl, .inl ⟨by decide, by decide, rfl, rfl⟩⟩, rfl, by decide +kernel⟩,
    ⟨starting 260096 (.lineB (some ⟨1, true⟩)), 260096, 0, writtenLine 260096 (journalLine 1 .b true false [.fence 257024]),
     [], some ⟨1, true⟩, some ⟨1, true⟩, .a, some .b, _, ⟨_, _, rfl, rfl, rfl, rfl, .inr ⟨.inl (by decide), rfl, rfl⟩⟩, rfl,
     by decide +kernel⟩,
    ⟨starting 260096 (.lineB (some ⟨1, true⟩)), 260096, 0,
     writtenLine 260096 (journalLine 0x80000001 .b true false [.fence 257024]), [], some ⟨1, true⟩, some ⟨0x80000001, true⟩,
     .a, some .b, _, ⟨_, _, rfl, rfl, rfl, rfl, .inr ⟨.inr (by decide), rfl, rfl⟩⟩, rfl, by decide +kernel⟩,
    ⟨starting 260096 (.lineB (some ⟨1, true⟩)), 260096, 0, writtenLine 260096 (journalLine 2 .b false false [.fence 257024]),
     [], some ⟨1, true⟩, some ⟨2, false⟩, .a, none, _, ⟨_, rfl, rfl, fun y hy => by cases hy; rfl, rfl, rfl⟩, rfl,
     by decide +kernel⟩,
    ⟨starting 260096 (.lineB (none)), 260096, 0, writtenLine 260096 (journalLine 2 .b true false [.fence 257024]), [], none,
     some ⟨2, true⟩, .b, none, _, ⟨_, rfl, rfl, fun x hx => (nomatch hx), rfl, rfl⟩, rfl, by decide +kernel⟩,
    ⟨starting 258048 (.examine .a 0 0 (some ⟨4, true⟩) (none) (none)), 258048, 0,
     writtenLine 258048 (journalLine 5 .a true false [.fence 257024]), [], .a, 0, 0, some ⟨4, true⟩, none, none, _,
     header .a (journalLine 5 .a true false [.fence 257024]), rfl, by decide +kernel⟩,
    ⟨starting 260094 (.examine .a 2046 4 (some ⟨4, true⟩) (none) (none)), 260094, 0,
     writtenLine 260094 (journalLine 5 .a true false [.fence 257024]), [], .a, 2046, 4, some ⟨4, true⟩, none, none, _,
     header .a (journalLine 5 .a true false [.fence 257024]), rfl, by decide +kernel⟩,
    ⟨starting 258048 (.examine .a 0 0 (some ⟨4, true⟩) (some ⟨3, true⟩) (none)), 258048, 0,
     writtenLine 258048 (journalLine 5 .a true true [.fence 257024]), [], .a, 0, 0, some ⟨4, true⟩, some ⟨3, true⟩, none, _,
     header .a (journalLine 5 .a true true [.fence 257024]), _, ⟨by decide, rfl⟩, rfl, by decide +kernel⟩,
    ⟨starting 260095 (.examine .a 2047 4 (some ⟨4, true⟩) (none) (none)), 260095, 0,
     writtenLine 260095 (journalLine 5 .a true true [.fence 257024]), [], .a, 2047, 4, some ⟨4, true⟩, none, none, _,
     header .a (journalLine 5 .a true true [.fence 257024]), _, ⟨rfl, rfl⟩, rfl, by decide +kernel⟩,
    ⟨starting 258048 (.examine .a 0 0 (some ⟨4, true⟩) (none) (some .b)), 258048, 0,
     writtenLine 258048 (journalLine 5 .a false true [.fence 257024]), [], .a, 0, 0, some ⟨4, true⟩, none, some .b, _, .b,
     line_is (g := header .a (journalLine 5 .a false true [.fence 257024])) (by decide +kernel) (.inl (by decide +kernel)),
     rfl, by decide +kernel⟩,
    ⟨starting 258049 (.examine .a 1 5 (some ⟨4, true⟩) (none) (some .b)), 258049, 0,
     writtenLine 258049 (journalLine 5 .a true true [.fence 257024]), [], .a, 1, 5, some ⟨4, true⟩, none, some .b, _, .b,
     line_is (g := header .a (journalLine 5 .a true true [.fence 257024])) (by decide +kernel)
         (.inr (.inl ⟨by decide, by decide +kernel⟩)),
     rfl, by decide +kernel⟩,
    ⟨starting 260095 (.examine .a 2047 4 (some ⟨4, true⟩) (none) (some .b)), 260095, 0,
     writtenLine 260095 (journalLine 5 .a true false [.fence 257024]), [], .a, 2047, 4, some ⟨4, true⟩, none, some .b, _, .b,
     line_is (g := header .a (journalLine 5 .a true false [.fence 257024])) (by decide +kernel)
         (.inr (.inr ⟨by decide +kernel, by decide⟩)),
     rfl, by decide +kernel⟩,
    ⟨starting 258048 (.examine .a 0 0 (some ⟨4, true⟩) (none) (none)), 258048, 0, writtenLine 258048 0, [], .a, 0, 0,
     some ⟨4, true⟩, none, none, _,
     (fun h e => absurd e (by rw [show readableLine .a (classify 258048 (writtenLine 258048 0)) =
         none by decide +kernel]; exact fun h => (nomatch h))),
     rfl, by decide +kernel⟩,
    ⟨run, 258048, _, 257984, _, (fun _ => Iff.rfl), Iff.rfl,
     by exact ⟨by decide, by decide, fun m h => (nomatch h), fun e h => (nomatch h)⟩⟩,
    ⟨run, 258048, _, 249856, _, (fun _ => Iff.rfl), Iff.rfl,
     by exact ⟨by decide, by decide, fun m h => (nomatch h), fun e h => (nomatch h)⟩⟩,
    ⟨run, 258048, _, 257985, _, (fun _ => Iff.rfl), Iff.rfl, (fun h => absurd h.1 (by decide))⟩,
    ⟨run, 258048, _, 249855, _, (fun _ => Iff.rfl), Iff.rfl, (fun h => absurd h.2.1 (by decide))⟩,
    ⟨run, 258048, _, .default, (fun _ => Iff.rfl)⟩,
    ⟨run, 258048, _, 257024, (fun _ => Iff.rfl), ⟨257024, rfl, by decide, by decide⟩, by decide +kernel⟩,
    ⟨run, 258048, _, 258047, (fun _ => Iff.rfl), ⟨257024, rfl, by decide, by decide⟩, by decide +kernel⟩,
    ⟨run, 258048, _, 258048, (fun _ => Iff.rfl), .inl fun ⟨_, _, _, h⟩ => absurd h (by decide)⟩,
    ⟨run, 258048, _, 257023, (fun _ => Iff.rfl), .inl fun ⟨_, hf, h, _⟩ => by cases hf; exact absurd h (by decide)⟩,
    ⟨bound, 258048, _, 257024, (fun _ => Iff.rfl), .inr (by decide)⟩,
    ⟨bound, 258048, _, 4, 257025, _, _, (fun _ => Iff.rfl), Iff.rfl, ⟨_, _, rfl, rfl, by decide, rfl⟩,
     ⟨by decide, ⟨257024, rfl, by decide, by decide⟩, .inl (by decide)⟩⟩,
    ⟨run, 258048, _, 257023, 258047, _, _, (fun _ => Iff.rfl), Iff.rfl,
     by exact ⟨fun e old h => (nomatch (show (none : Option RemapEntry) = some e from h)), rfl⟩,
     ⟨by decide, ⟨257024, rfl, by decide, by decide⟩, .inl (by decide)⟩⟩,
    ⟨run, 258048, _, 257024, 257025, _, _, (fun _ => Iff.rfl), Iff.rfl,
     by exact ⟨fun e old h => (nomatch (show (none : Option RemapEntry) = some e from h)), rfl⟩,
     (fun h => absurd h.1 (by decide))⟩,
    ⟨run, 258048, _, (fun _ => Iff.rfl)⟩,
    ⟨starting 258048 (.replay .a 0 0), 258048, 0, writtenLine 258048 (journalLine 5 .a true false [.fence 257024]), [], .a,
     0, 0, _, _, _, header .a (journalLine 5 .a true false [.fence 257024]), rfl, rfl, rfl, by decide +kernel⟩,
    ⟨starting 260094 (.replay .a 2046 4), 260094, 0, writtenLine 260094 (journalLine 5 .a true false [.fence 257024]), [],
     .a, 2046, 4, _, _, _, header .a (journalLine 5 .a true false [.fence 257024]), rfl, rfl, rfl, by decide +kernel⟩,
    ⟨starting 260095 (.replay .a 2047 4), 260095, 0, writtenLine 260095 (journalLine 5 .a true false [.fence 257024]), [],
     .a, 2047, 4, _, _, run, header .a (journalLine 5 .a true false [.fence 257024]), rfl, rfl, by decide +kernel⟩,
    ⟨starting 258049 (.replay .a 1 5), 258049, 0, writtenLine 258049 (journalLine 5 .a true false [.fence 257024]), [], .a,
     1, 5, _, run, run, header .a (journalLine 5 .a true false [.fence 257024]), rfl, by decide +kernel⟩,
    ⟨starting 258048 (.replay .a 0 0), 258048, 0, writtenLine 258048 (0), [], .a, 0, 0, _, run, run, rfl, by decide +kernel⟩,
    ⟨run, 0, 0, writtenLine 0 0, [], .a, 0, 0, 9, run, _, 5, rfl, by decide +kernel⟩,
    ⟨cmd .journalFormat run, 0, 0, writtenLine 0 0, [], .a, 0, 0, 9, run, _, 5, 7, rfl, by decide +kernel⟩,
    ⟨cmd .bridgeRestart run, 0, 0, writtenLine 0 0, [], .a, 0, 0, 9, run, _, 2048, 7, rfl, by decide +kernel⟩,
    ⟨cmd .journalFormat run, 0, 0, writtenLine 0 0, [], .a, 0, 0, 9, run, run, .noArray, 7, .journalFormat, .inl rfl,
     by decide +kernel⟩,
    ⟨cmd .bridgeRestart run, 0, 0, writtenLine 0 0, [], .a, 0, 0, 9, run, run, .noJournal, 7, .bridgeRestart, .inr rfl,
     by decide +kernel⟩⟩

theorem meets_readOutcomeDispatch :
    (∃ (s : State) (hla ala step : Nat) (origin : PendingOrigin) (data : LineData),
       step ≠ 0) :=
  ⟨run, 0, 0, 1, .hostRead, 0, by decide +kernel⟩

theorem meets_hostReadAttemptAnswered :
    (∃ (s : State) (id ala step : Nat) (line : ArrayLine) (rest : List Flight) (r : HostReq) (l : Ladder) (t : State),
      t = ((answerTaken rest s).setHost
            { s.host with
              order := s.host.order.map fun q =>
                if q.id == id then { q with stage := .inArray { l with step := l.step + 1 } } else q }).setArray
            { s.array with inFlight := rest, waiting := s.array.waiting ++ [{ body := .hostRead id, age := l.age }] } ∧
    s.array.inFlight = inFlightNow (.read ala) (.hostRead id) step :: rest ∧
    findReq s id = some r ∧
             r.stage = .inArray l ∧
     classify ala line = .uncorrectable ∧
      l.step < l.depth) ∧
    (∃ (s : State) (id ala step : Nat) (line : ArrayLine) (rest : List Flight) (r : HostReq) (l : Ladder) (t : State) (u :
        State) (status : HostStatus) (data : Option LineData),
      (∀ d, classify ala line = .clean d → status = .ok ∧ data = some d) ∧
      (∀ d, classify ala line = .corrected d → status = .corrected ∧ data = some d) ∧
      u = dispatchRead r.hla l.ala l.step (if l.ala = r.hla then .hostRead else .spareRead) (classify ala line)
            (answerTaken rest s) ∧
        t = responded (readAnswer r.tag status data)
              (u.setHost
                { u.host with
                  order := u.host.order.filter (·.id != r.id), tags := u.host.tags.filter (· != r.tag) }) ∧
    s.array.inFlight = inFlightNow (.read ala) (.hostRead id) step :: rest ∧
    findReq s id = some r ∧
             r.stage = .inArray l ∧
      (classify ala line = .uncorrectable → l.depth ≤ l.step) ∧
      (classify ala line = .uncorrectable → status = .poison ∧ data = none) ∧
      r.live = true) ∧
    (∃ (s : State) (id ala step : Nat) (line : ArrayLine) (rest : List Flight) (r : HostReq) (l : Ladder) (t : State) (u :
        State) (status : HostStatus) (data : Option LineData),
      (classify ala line = .uncorrectable → l.depth ≤ l.step) ∧
      (classify ala line = .uncorrectable → status = .poison ∧ data = none) ∧
      (∀ d, classify ala line = .clean d → status = .ok ∧ data = some d) ∧
      (∀ d, classify ala line = .corrected d → status = .corrected ∧ data = some d) ∧
      u = dispatchRead r.hla l.ala l.step (if l.ala = r.hla then .hostRead else .spareRead) (classify ala line)
            (answerTaken rest s) ∧
        t = u.setHost { u.host with order := u.host.order.filter (·.id != r.id) } ∧
    s.array.inFlight = inFlightNow (.read ala) (.hostRead id) step :: rest ∧
    findReq s id = some r ∧
             r.stage = .inArray l ∧
       r.live = false) :=
  ⟨⟨reqs [req 8 257023 (.inArray (lad 257023 3 true))] (fly (.read 257023) (.hostRead 8) run), 8, 257023, 0,
     { data := 0x101, check := .code 257023 0 }, [], req 8 257023 (.inArray (lad 257023 3 true)), lad 257023 3 true, _, rfl,
     by decide +kernel⟩,
    ⟨reqs [req 8 257023 (.inArray (lad 257023 4 true))] (fly (.read 257023) (.hostRead 8) run), 8, 257023, 0,
     { data := 0x101, check := .code 257023 0 }, [], req 8 257023 (.inArray (lad 257023 4 true)), lad 257023 4 true, _, _,
     .poison, none,
     (fun d h => absurd h (by rw [show classify 257023 { data := 0x101, check := .code 257023 0 } =
         .uncorrectable by decide +kernel]; exact fun h => nomatch h)),
     (fun d h => absurd h (by rw [show classify 257023 { data := 0x101, check := .code 257023 0 } =
         .uncorrectable by decide +kernel]; exact fun h => nomatch h)),
     rfl, rfl, by decide +kernel⟩,
    ⟨reqs [{ req 8 257023 (.inArray (lad 257023 0 true)) with live := false }] (fly (.read 257023) (.hostRead 8) run), 8,
     257023, 0, writtenLine 257023 0, [], { req 8 257023 (.inArray (lad 257023 0 true)) with live := false },
     lad 257023 0 true, _, _, .ok, some 0, (fun h => absurd h (by decide +kernel)), (fun h => absurd h (by decide +kernel)),
     (fun d h => by rw [show classify 257023 (writtenLine 257023 0) =
         .clean 0 by decide +kernel] at h; cases h; exact ⟨rfl, rfl⟩),
     (fun d h => absurd h (by rw [show classify 257023 (writtenLine 257023 0) =
         .clean 0 by decide +kernel]; exact fun h => nomatch h)),
     rfl, rfl, by decide +kernel⟩⟩

theorem meets_rmwAndRetireReadsDeliver :
    (∃ (s : State) (id ala step : Nat) (line : ArrayLine) (rest : List Flight) (e : Item) (l : Ladder) (u t : State) (data : _),
      u = dispatchRead e.hla l.ala l.step .mergeRead (classify ala line) (answerTaken rest s) ∧
        t = placeDrain (.entry id)
              (u.setBuf
                { u.buf with
                  entries := u.buf.entries.map fun x =>
                    if x.id == id then
                      { x with
                        data := mergeLine data x.data x.mask, mask := BitVec.allOnes 64, phase := .assembled, ladder := none }
                    else x }) ∧
      s.array.inFlight = inFlightNow (.read ala) (.rmwRead (.entry id)) step :: rest ∧
        findItem s (.entry id) = some e ∧
      e.ladder = some l ∧
      classify ala line = .clean data) ∧
    (∃ (s : State) (id ala step : Nat) (line : ArrayLine) (rest : List Flight) (e : Item) (l : Ladder) (u t : State) (data : _),
      u = dispatchRead e.hla l.ala l.step .mergeRead (classify ala line) (answerTaken rest s) ∧
        t = placeDrain (.entry id)
              (u.setBuf
                { u.buf with
                  entries := u.buf.entries.map fun x =>
                    if x.id == id then
                      { x with
                        data := mergeLine data x.data x.mask, mask := BitVec.allOnes 64, phase := .assembled, ladder := none }
                    else x }) ∧
      s.array.inFlight = inFlightNow (.read ala) (.rmwRead (.entry id)) step :: rest ∧
        findItem s (.entry id) = some e ∧
      e.ladder = some l ∧
      classify ala line = .corrected data) ∧
    (∃ (s : State) (id ala step : Nat) (line : ArrayLine) (rest : List Flight) (e : Item) (l : Ladder) (u t : State),
      u = dispatchRead e.hla l.ala l.step .mergeRead (classify ala line) (answerTaken rest s) ∧
        t = ((answerTaken rest s).setBuf
              { s.buf with
                entries := s.buf.entries.map fun x =>
                  if x.id == id then { x with ladder := some { l with step := l.step + 1 } } else x }).setArray
              { s.array with
                inFlight := rest, waiting := s.array.waiting ++ [{ body := .rmwRead (.entry id), age := l.age }] } ∧
      s.array.inFlight = inFlightNow (.read ala) (.rmwRead (.entry id)) step :: rest ∧
        findItem s (.entry id) = some e ∧
      e.ladder = some l ∧
     classify ala line = .uncorrectable ∧
      l.step < l.depth) ∧
    (∃ (s : State) (id ala step : Nat) (line : ArrayLine) (rest : List Flight) (e : Item) (l : Ladder) (u t : State) (v : _),
      u = dispatchRead e.hla l.ala l.step .mergeRead (classify ala line) (answerTaken rest s) ∧
             v = queueReport e.hla .unreadableMerge u ∧
        t = failCovered e.epoch
              ((v.setBuf { v.buf with entries := v.buf.entries.filter (·.id != id) }).setHost
                { v.host with
                  order := v.host.order.map fun r => if r.stage = .waitEntry id then { r with stage := .queued } else r }) ∧
      s.array.inFlight = inFlightNow (.read ala) (.rmwRead (.entry id)) step :: rest ∧
        findItem s (.entry id) = some e ∧
      e.ladder = some l ∧
     classify ala line = .uncorrectable ∧
      l.depth ≤ l.step) ∧
    (∃ (s : State) (id ala step : Nat) (line : ArrayLine) (rest : List Flight) (r : RetireRead) (c : InProgress) (released :
        State → State) (u t : State) (data : _),
      (∀ x, released x = x.setReloc
        { x.reloc with
          reserved := none
          queue := x.reloc.queue.filter fun q => match q with
            | .reservation _ => false
            | .request _ _ _ => true
          retireReads := x.reloc.retireReads.map fun q => { q with live := false } }) ∧
      u = (answerTaken rest s).setReloc
            { s.reloc with retireReads := s.reloc.retireReads.filter (·.id != r.id) } ∧
      t = completeCommand c.seq .pending [] (released u) ∧
      s.array.inFlight = inFlightNow (.read ala) (.retireRead id) step :: rest ∧
      findRetireRead s id = some r ∧
      s.port.command = some c ∧
      classify ala line = .clean data ∧
      r.live = true ∧
        s.reloc.reserved = some r.home ∧
         isPending s r.home = true) ∧
    (∃ (s : State) (id ala step : Nat) (line : ArrayLine) (rest : List Flight) (r : RetireRead) (c : InProgress) (released :
        State → State) (u t : State) (data : _),
      (∀ x, released x = x.setReloc
        { x.reloc with
          reserved := none
          queue := x.reloc.queue.filter fun q => match q with
            | .reservation _ => false
            | .request _ _ _ => true
          retireReads := x.reloc.retireReads.map fun q => { q with live := false } }) ∧
      u = (answerTaken rest s).setReloc
            { s.reloc with retireReads := s.reloc.retireReads.filter (·.id != r.id) } ∧
          t = completeCommand c.seq .exhausted []
                (released (u.setAlert { s.alert with causes := s.alert.causes ||| AlertCause.sparesOut.bit })) ∧
      s.array.inFlight = inFlightNow (.read ala) (.retireRead id) step :: rest ∧
      findRetireRead s id = some r ∧
      s.port.command = some c ∧
      classify ala line = .corrected data ∧
      r.live = true ∧
        s.reloc.reserved = some r.home ∧
         isPending s r.home = false ∧
      r.home < fenceValue s ∧
      isMoving s r.home = false ∧
      lowestFree s = none) ∧
    (∃ (s : State) (id ala step : Nat) (line : ArrayLine) (rest : List Flight) (r : RetireRead) (c : InProgress) (released :
        State → State) (u t : State) (data : _) (spare : Nat) (v : State),
      (∀ x, released x = x.setReloc
        { x.reloc with
          reserved := none
          queue := x.reloc.queue.filter fun q => match q with
            | .reservation _ => false
            | .request _ _ _ => true
          retireReads := x.reloc.retireReads.map fun q => { q with live := false } }) ∧
      u = (answerTaken rest s).setReloc
            { s.reloc with retireReads := s.reloc.retireReads.filter (·.id != r.id) } ∧
          v = (beginRelocation r.home spare .service data none [] (setMark spare .held u)).setPort
                { s.port with command := some { seq := c.seq, command := .lineRetire r.home true } } ∧
           (∀ ref home cause, QueueItem.request ref home cause ∈ s.reloc.queue → home ≠ r.home) ∧
      s.array.inFlight = inFlightNow (.read ala) (.retireRead id) step :: rest ∧
      findRetireRead s id = some r ∧
      s.port.command = some c ∧
      classify ala line = .clean data ∧
      r.live = true ∧
        s.reloc.reserved = some r.home ∧
         isPending s r.home = false ∧
      r.home < fenceValue s ∧
      isMoving s r.home = false ∧
          lowestFree s = some spare) ∧
    (∃ (s : State) (id ala step : Nat) (line : ArrayLine) (rest : List Flight) (r : RetireRead) (c : InProgress) (released :
        State → State) (u t : State) (data : _) (spare : Nat) (v : State) (ref : ItemRef) (cause : RelocCause) (e : Item),
      (∀ x, released x = x.setReloc
        { x.reloc with
          reserved := none
          queue := x.reloc.queue.filter fun q => match q with
            | .reservation _ => false
            | .request _ _ _ => true
          retireReads := x.reloc.retireReads.map fun q => { q with live := false } }) ∧
      u = (answerTaken rest s).setReloc
            { s.reloc with retireReads := s.reloc.retireReads.filter (·.id != r.id) } ∧
          v = (beginRelocation r.home spare .service data none [] (setMark spare .held u)).setPort
                { s.port with command := some { seq := c.seq, command := .lineRetire r.home true } } ∧
      t = mergeItem ref e (v.setReloc { v.reloc with queue := [] }) ∧
      s.array.inFlight = inFlightNow (.read ala) (.retireRead id) step :: rest ∧
      findRetireRead s id = some r ∧
      s.port.command = some c ∧
      classify ala line = .corrected data ∧
      r.live = true ∧
        s.reloc.reserved = some r.home ∧
         isPending s r.home = false ∧
      r.home < fenceValue s ∧
      isMoving s r.home = false ∧
          lowestFree s = some spare ∧
      s.reloc.queue = [.request ref r.home cause] ∧
            findItem s ref = some e) ∧
    (∃ (s : State) (id ala step : Nat) (line : ArrayLine) (rest : List Flight) (r : RetireRead) (c : InProgress) (released :
        State → State) (u t : State) (data : _),
      (∀ x, released x = x.setReloc
        { x.reloc with
          reserved := none
          queue := x.reloc.queue.filter fun q => match q with
            | .reservation _ => false
            | .request _ _ _ => true
          retireReads := x.reloc.retireReads.map fun q => { q with live := false } }) ∧
      u = (answerTaken rest s).setReloc
            { s.reloc with retireReads := s.reloc.retireReads.filter (·.id != r.id) } ∧
      s.array.inFlight = inFlightNow (.read ala) (.retireRead id) step :: rest ∧
      findRetireRead s id = some r ∧
      s.port.command = some c ∧
      classify ala line = .clean data ∧
        (r.live = false ∨ s.reloc.reserved ≠ some r.home)) ∧
    (∃ (s : State) (id ala step : Nat) (line : ArrayLine) (rest : List Flight) (r : RetireRead) (c : InProgress) (released :
        State → State) (u t : State) (data : _),
      (∀ x, released x = x.setReloc
        { x.reloc with
          reserved := none
          queue := x.reloc.queue.filter fun q => match q with
            | .reservation _ => false
            | .request _ _ _ => true
          retireReads := x.reloc.retireReads.map fun q => { q with live := false } }) ∧
      u = (answerTaken rest s).setReloc
            { s.reloc with retireReads := s.reloc.retireReads.filter (·.id != r.id) } ∧
      s.array.inFlight = inFlightNow (.read ala) (.retireRead id) step :: rest ∧
      findRetireRead s id = some r ∧
      s.port.command = some c ∧
      classify ala line = .clean data ∧
        (r.live = false ∨ s.reloc.reserved ≠ some r.home)) ∧
    (∃ (s : State) (id ala step : Nat) (line : ArrayLine) (rest : List Flight) (r : RetireRead) (c : InProgress) (released :
        State → State) (u t : State),
      (∀ x, released x = x.setReloc
        { x.reloc with
          reserved := none
          queue := x.reloc.queue.filter fun q => match q with
            | .reservation _ => false
            | .request _ _ _ => true
          retireReads := x.reloc.retireReads.map fun q => { q with live := false } }) ∧
      u = (answerTaken rest s).setReloc
            { s.reloc with retireReads := s.reloc.retireReads.filter (·.id != r.id) } ∧
        t = ((answerTaken rest s).setReloc
              { s.reloc with
                retireReads := s.reloc.retireReads.map fun q =>
                  if q.id == id then { q with ladder := { q.ladder with step := q.ladder.step + 1 } } else q }).setArray
              { s.array with
                inFlight := rest, waiting := s.array.waiting ++ [{ body := .retireRead id, age := r.ladder.age }] } ∧
      s.array.inFlight = inFlightNow (.read ala) (.retireRead id) step :: rest ∧
      findRetireRead s id = some r ∧
      s.port.command = some c ∧
     classify ala line = .uncorrectable ∧
      r.ladder.step < r.ladder.depth) ∧
    (∃ (s : State) (id ala step : Nat) (line : ArrayLine) (rest : List Flight) (r : RetireRead) (c : InProgress) (released :
        State → State) (u t : State) (v : _),
      (∀ x, released x = x.setReloc
        { x.reloc with
          reserved := none
          queue := x.reloc.queue.filter fun q => match q with
            | .reservation _ => false
            | .request _ _ _ => true
          retireReads := x.reloc.retireReads.map fun q => { q with live := false } }) ∧
      u = (answerTaken rest s).setReloc
            { s.reloc with retireReads := s.reloc.retireReads.filter (·.id != r.id) } ∧
        v = pendingAdd r.home .service
              (writeFault .uncorrectableRead (some r.home) (some r.ladder.ala) (some r.ladder.step) u) ∧
      t = completeCommand c.seq .pending [] (released v) ∧
      s.array.inFlight = inFlightNow (.read ala) (.retireRead id) step :: rest ∧
      findRetireRead s id = some r ∧
      s.port.command = some c ∧
     classify ala line = .uncorrectable ∧
      r.ladder.depth ≤ r.ladder.step ∧
      r.live = true ∧
        s.reloc.reserved = some r.home) ∧
    (∃ (s : State) (id ala step : Nat) (line : ArrayLine) (rest : List Flight) (r : RetireRead) (c : InProgress) (released :
        State → State) (u t : State) (v : _),
      (∀ x, released x = x.setReloc
        { x.reloc with
          reserved := none
          queue := x.reloc.queue.filter fun q => match q with
            | .reservation _ => false
            | .request _ _ _ => true
          retireReads := x.reloc.retireReads.map fun q => { q with live := false } }) ∧
      u = (answerTaken rest s).setReloc
            { s.reloc with retireReads := s.reloc.retireReads.filter (·.id != r.id) } ∧
        v = pendingAdd r.home .service
              (writeFault .uncorrectableRead (some r.home) (some r.ladder.ala) (some r.ladder.step) u) ∧
      s.array.inFlight = inFlightNow (.read ala) (.retireRead id) step :: rest ∧
      findRetireRead s id = some r ∧
      s.port.command = some c ∧
     classify ala line = .uncorrectable ∧
      r.ladder.depth ≤ r.ladder.step ∧
        (r.live = false ∨ s.reloc.reserved ≠ some r.home)) :=
  ⟨⟨bufs [{ ent 1 0 1 .reading with ladder := some (lad 0 0 true) }] (fly (.read 0) (.rmwRead (.entry 1)) run), 1, 0, 0,
     writtenLine 0 0, [], { ent 1 0 1 .reading with ladder := some (lad 0 0 true) }, lad 0 0 true, _, _, 0, rfl, rfl,
     by decide +kernel⟩,
    ⟨bufs [{ ent 1 0 1 .reading with ladder := some (lad 0 4 true) }] (fly (.read 0) (.rmwRead (.entry 1)) run), 1, 0, 0,
     { data := 1, check := .code 0 0 }, [], { ent 1 0 1 .reading with ladder := some (lad 0 4 true) }, lad 0 4 true, _, _, 0,
     rfl, rfl, by decide +kernel⟩,
    ⟨bufs [{ ent 1 0 1 .reading with ladder := some (lad 0 3 true) }] (fly (.read 0) (.rmwRead (.entry 1)) run), 1, 0, 0,
     { data := 0x101, check := .code 0 0 }, [], { ent 1 0 1 .reading with ladder := some (lad 0 3 true) }, lad 0 3 true, _,
     _, rfl, rfl, by decide +kernel⟩,
    ⟨bufs [{ ent 1 0 1 .reading with ladder := some (lad 0 4 true) }] (fly (.read 0) (.rmwRead (.entry 1)) run), 1, 0, 0,
     { data := 0x101, check := .code 0 0 }, [], { ent 1 0 1 .reading with ladder := some (lad 0 4 true) }, lad 0 4 true, _,
     _, _, rfl, rfl, rfl, by decide +kernel⟩,
    ⟨reading (rread 0 true) (pends [257023] run), 2, 257023, 0, writtenLine 257023 0, [], rread 0 true,
     { seq := 7, command := .lineRetire 257023 false }, _, _, _, 0, (fun _ => rfl), rfl, rfl, by decide +kernel⟩,
    ⟨reading (rread 0 true) (dry run), 2, 257023, 0, { data := 1, check := .code 257023 0 }, [], rread 0 true,
     { seq := 7, command := .lineRetire 257023 false }, _, _, _, 0, (fun _ => rfl), rfl, rfl, by decide +kernel⟩,
    ⟨reading (rread 0 true) run, 2, 257023, 0, writtenLine 257023 0, [], rread 0 true,
     { seq := 7, command := .lineRetire 257023 false }, _, _, run, 0, 257024, _, (fun _ => rfl), rfl, rfl,
     (fun ref home cause h => (nomatch h)), by decide +kernel⟩,
    ⟨reading (rread 0 true) (bufs [ent 1 257023 (BitVec.allOnes 64) .relocating] { run with reloc := { run.reloc with queue := [.request (.entry 1) 257023 .writeFault] } }),
     2, 257023, 0, { data := 1, check := .code 257023 0 }, [], rread 0 true,
     { seq := 7, command := .lineRetire 257023 false }, _, _, _, 0, 257024, _, .entry 1, .writeFault,
     ent 1 257023 (BitVec.allOnes 64) .relocating, (fun _ => rfl), rfl, rfl, rfl, by decide +kernel⟩,
    ⟨reading (rread 0 false) run, 2, 257023, 0, writtenLine 257023 0, [], rread 0 false,
     { seq := 7, command := .lineRetire 257023 false }, _, _, run, 0, (fun _ => rfl), rfl, by decide +kernel⟩,
    ⟨{ reading (rread 0 true) run with reloc := { run.reloc with retireReads := [rread 0 true] } }, 2, 257023, 0,
     writtenLine 257023 0, [], rread 0 true, { seq := 7, command := .lineRetire 257023 false }, _, _, run, 0, (fun _ => rfl),
     rfl, by decide +kernel⟩,
    ⟨reading (rread 3 true) run, 2, 257023, 0, { data := 0x101, check := .code 257023 0 }, [], rread 3 true,
     { seq := 7, command := .lineRetire 257023 false }, _, _, _, (fun _ => rfl), rfl, rfl, by decide +kernel⟩,
    ⟨reading (rread 4 true) run, 2, 257023, 0, { data := 0x101, check := .code 257023 0 }, [], rread 4 true,
     { seq := 7, command := .lineRetire 257023 false }, _, _, _, _, (fun _ => rfl), rfl, rfl, rfl, by decide +kernel⟩,
    ⟨reading (rread 4 false) run, 2, 257023, 0, { data := 0x101, check := .code 257023 0 }, [], rread 4 false,
     { seq := 7, command := .lineRetire 257023 false }, _, _, run, _, (fun _ => rfl), rfl, rfl, by decide +kernel⟩⟩

theorem meets_surveyReadsAndGaps :
    (∃ (s : State) (ala step : Nat) (line : ArrayLine) (rest : List Flight) (l : LiveSurvey) (d : Ladder) (data : LineData)
        (t : State),
      t = (answerTaken rest s).setSurvey
            { s.survey with
              live := some
                { l with
                  next := l.next + 1
                  counts := { l.counts with linesRead := l.counts.linesRead + 1 }
                  phase := .gap s.policy.active.surveyGap } } ∧
      s.array.inFlight = inFlightNow (.read ala) .surveyRead step :: rest ∧
      s.survey.live = some l ∧
      l.phase = .reading d ∧
      l.mode = .span ∧
      l.excluded = [] ∧
      l.next < l.limit ∧
      d.step = 0 ∧
      l.endRequested = none ∧
      s.policy.active.surveyGap ≠ 0 ∧
      classify ala line = .clean data) ∧
    (∃ (s : State) (l : LiveSurvey) (units : Nat) (t : State),
        t = ((nextEvent s).setSurvey
              { live := none
                report := some
                  { mode := l.mode, first := l.first, count := l.count, startTick := l.startTick, endTick := s.tick,
                    outcome := .done, next := l.next, counts := l.counts, firstUncorrectable := l.firstUncorrectable } }).setAlert
              { s.alert with causes := s.alert.causes ||| AlertCause.surveyEnd.bit } ∧
      s.survey.live = some l ∧
      l.phase = .gap units ∧
      l.mode = .span ∧
       l.limit ≤ l.next) ∧
    (∃ (s : State) (l : LiveSurvey) (units : Nat) (t : State),
        t = placeRequest .surveyRead
              ((nextEvent s).setSurvey
                { s.survey with
                  live := some
                    { l with
                      phase := .reading
                        { ala := servingPlace s l.next, depth := s.policy.active.retryDepth, step := 0,
                          age := { event := s.ids.event + 1, direct := false, order := s.ids.nextId },
                          granted := false } } }) ∧
      s.survey.live = some l ∧
      l.phase = .gap units ∧
      l.mode = .span ∧
      l.next < l.limit ∧
      isPending s l.next = false ∧
      isMoving s l.next = false ∧
        (∀ e ∈ s.buf.entries, e.hla ≠ l.next) ∧
      (∀ e ∈ s.buf.direct, e.hla ≠ l.next)) ∧
    (∃ (excluded : List Nat) (limit line n : Nat),
      (∀ x, line ≤ x → x < n → x ∈ excluded) ∧
      line ≤ n ∧
      n ≤ limit ∧
      (n = limit ∨ n ∉ excluded)) ∧
    (∃ (excluded : List Nat) (limit line n : Nat),
      (∀ x, line ≤ x → x < n → x ∈ excluded) ∧
      line ≤ n ∧
      n ≤ limit ∧
      (n = limit ∨ n ∉ excluded)) ∧
    (∃ (s : State) (l : LiveSurvey),
      (isPending s l.next = true ∨ isMoving s l.next = true ∨ (∃ e ∈ s.buf.entries, e.hla = l.next) ∨
        ∃ e ∈ s.buf.direct, e.hla = l.next) ∧
      l.mode = .span ∧
      l.excluded = [] ∧
      l.next < l.limit) ∧
    (∃ (s : State) (l : LiveSurvey),
      (isPending s l.next = true ∨ isMoving s l.next = true ∨ (∃ e ∈ s.buf.entries, e.hla = l.next) ∨
        ∃ e ∈ s.buf.direct, e.hla = l.next) ∧
      l.mode = .span ∧
      l.excluded = [] ∧
      l.next < l.limit) ∧
    (∃ (s : State) (l : LiveSurvey),
      (isPending s l.next = true ∨ isMoving s l.next = true ∨ (∃ e ∈ s.buf.entries, e.hla = l.next) ∨
        ∃ e ∈ s.buf.direct, e.hla = l.next) ∧
      l.mode = .span ∧
      l.excluded = [] ∧
      l.next < l.limit) ∧
    (∃ (s : State) (l : LiveSurvey),
      (isPending s l.next = true ∨ isMoving s l.next = true ∨ (∃ e ∈ s.buf.entries, e.hla = l.next) ∨
        ∃ e ∈ s.buf.direct, e.hla = l.next) ∧
      l.mode = .span ∧
      l.excluded = [] ∧
      l.next < l.limit) ∧
    (∃ (s : State) (ala step : Nat) (line : ArrayLine) (rest : List Flight) (l : LiveSurvey) (d : Ladder) (u t : State),
        t = ((answerTaken rest s).setSurvey
              { s.survey with live := some { l with phase := .reading { d with step := d.step + 1 } } }).setArray
              { s.array with inFlight := rest, waiting := s.array.waiting ++ [{ body := .surveyRead, age := d.age }] } ∧
      s.array.inFlight = inFlightNow (.read ala) .surveyRead step :: rest ∧
      s.survey.live = some l ∧
      l.phase = .reading d ∧
      l.mode = .span ∧
      l.excluded = [] ∧
      l.next < l.limit ∧
     classify ala line = .uncorrectable ∧
      d.step < d.depth) ∧
    (∃ (s : State) (ala step : Nat) (line : ArrayLine) (rest : List Flight) (l : LiveSurvey) (d : Ladder) (u t : State)
        (counts : SurveyCounts) (first : Option Nat) (dropped : Prop),
         ((∃ x, classify ala line = .clean x) ∧ first = l.firstUncorrectable ∧
            counts = { l.counts with
              linesRead := l.counts.linesRead + 1
              cleanAfterRetry := l.counts.cleanAfterRetry + (if d.step = 0 then 0 else 1) }) ∧
        (dropped ↔ classify ala line = .uncorrectable ∧ isMoving s l.next = false ∧ isPending s l.next = false ∧
          32 ≤ s.reloc.pendingList.length) ∧
        u = dispatchRead l.next d.ala d.step .survey (classify ala line) (answerTaken rest s) ∧
      ¬ dropped ∧
          t = u.setSurvey
                { s.survey with
                  live := some
                    { l with
                      next := l.next + 1, counts, firstUncorrectable := first
                      phase := .gap s.policy.active.surveyGap } } ∧
      s.array.inFlight = inFlightNow (.read ala) .surveyRead step :: rest ∧
      s.survey.live = some l ∧
      l.phase = .reading d ∧
      l.mode = .span ∧
      l.excluded = [] ∧
      l.next < l.limit ∧
        (classify ala line = .uncorrectable → d.depth ≤ d.step) ∧
      l.endRequested = none ∧
      s.policy.active.surveyGap ≠ 0) ∧
    (∃ (s : State) (ala step : Nat) (line : ArrayLine) (rest : List Flight) (l : LiveSurvey) (d : Ladder) (u t : State)
        (counts : SurveyCounts) (first : Option Nat) (dropped : Prop),
          ((∃ x, classify ala line = .corrected x) ∧ first = l.firstUncorrectable ∧
            counts = { l.counts with
              linesRead := l.counts.linesRead + 1
              corrected := l.counts.corrected + (if d.step = 0 then 1 else 0)
              retriedCorrected := l.counts.retriedCorrected + (if d.step = 0 then 0 else 1) }) ∧
        (dropped ↔ classify ala line = .uncorrectable ∧ isMoving s l.next = false ∧ isPending s l.next = false ∧
          32 ≤ s.reloc.pendingList.length) ∧
        u = dispatchRead l.next d.ala d.step .survey (classify ala line) (answerTaken rest s) ∧
      ¬ dropped ∧
          t = u.setSurvey
                { s.survey with
                  live := some
                    { l with
                      next := l.next + 1, counts, firstUncorrectable := first
                      phase := .gap s.policy.active.surveyGap } } ∧
      s.array.inFlight = inFlightNow (.read ala) .surveyRead step :: rest ∧
      s.survey.live = some l ∧
      l.phase = .reading d ∧
      l.mode = .span ∧
      l.excluded = [] ∧
      l.next < l.limit ∧
        (classify ala line = .uncorrectable → d.depth ≤ d.step) ∧
      l.endRequested = none ∧
      s.policy.active.surveyGap ≠ 0) ∧
    (∃ (s : State) (ala step : Nat) (line : ArrayLine) (rest : List Flight) (l : LiveSurvey) (d : Ladder) (u t : State)
        (counts : SurveyCounts) (first : Option Nat) (dropped : Prop),
          (classify ala line = .uncorrectable ∧ first = some (l.firstUncorrectable.getD l.next) ∧
            counts = { l.counts with
              linesRead := l.counts.linesRead + 1, uncorrectable := l.counts.uncorrectable + 1 }) ∧
        (dropped ↔ classify ala line = .uncorrectable ∧ isMoving s l.next = false ∧ isPending s l.next = false ∧
          32 ≤ s.reloc.pendingList.length) ∧
        u = dispatchRead l.next d.ala d.step .survey (classify ala line) (answerTaken rest s) ∧
      ¬ dropped ∧
          t = u.setSurvey
                { s.survey with
                  live := some
                    { l with
                      next := l.next + 1, counts, firstUncorrectable := first
                      phase := .gap s.policy.active.surveyGap } } ∧
      s.array.inFlight = inFlightNow (.read ala) .surveyRead step :: rest ∧
      s.survey.live = some l ∧
      l.phase = .reading d ∧
      l.mode = .span ∧
      l.excluded = [] ∧
      l.next < l.limit ∧
        (classify ala line = .uncorrectable → d.depth ≤ d.step) ∧
      l.endRequested = none ∧
      s.policy.active.surveyGap ≠ 0) ∧
    (∃ (s : State) (ala step : Nat) (line : ArrayLine) (rest : List Flight) (l : LiveSurvey) (d : Ladder) (u t : State)
        (counts : SurveyCounts) (first : Option Nat) (dropped : Prop) (outcome : SurveyOutcome),
         ((∃ x, classify ala line = .clean x) ∧ first = l.firstUncorrectable ∧
            counts = { l.counts with
              linesRead := l.counts.linesRead + 1
              cleanAfterRetry := l.counts.cleanAfterRetry + (if d.step = 0 then 0 else 1) }) ∧
        (dropped ↔ classify ala line = .uncorrectable ∧ isMoving s l.next = false ∧ isPending s l.next = false ∧
          32 ≤ s.reloc.pendingList.length) ∧
        u = dispatchRead l.next d.ala d.step .survey (classify ala line) (answerTaken rest s) ∧
          ((l.endRequested = some .reset ∧ outcome = .reset) ∨
            (l.endRequested ≠ some .reset ∧ dropped ∧ outcome = .haltedFull) ∨
            (l.endRequested = some outcome ∧ outcome ≠ .reset ∧ ¬ dropped)) ∧
          t = (u.setSurvey
                { live := none
                  report := some
                    { mode := l.mode, first := l.first, count := l.count, startTick := l.startTick, endTick := s.tick,
                      outcome, next := l.next + 1, counts, firstUncorrectable := first } }).setAlert
                { u.alert with causes := u.alert.causes ||| AlertCause.surveyEnd.bit } ∧
      s.array.inFlight = inFlightNow (.read ala) .surveyRead step :: rest ∧
      s.survey.live = some l ∧
      l.phase = .reading d ∧
      l.mode = .span ∧
      l.excluded = [] ∧
      l.next < l.limit ∧
        (classify ala line = .uncorrectable → d.depth ≤ d.step)) ∧
    (∃ (s : State) (ala step : Nat) (line : ArrayLine) (rest : List Flight) (l : LiveSurvey) (d : Ladder) (u t : State)
        (counts : SurveyCounts) (first : Option Nat) (dropped : Prop) (outcome : SurveyOutcome),
          (classify ala line = .uncorrectable ∧ first = some (l.firstUncorrectable.getD l.next) ∧
            counts = { l.counts with
              linesRead := l.counts.linesRead + 1, uncorrectable := l.counts.uncorrectable + 1 }) ∧
        (dropped ↔ classify ala line = .uncorrectable ∧ isMoving s l.next = false ∧ isPending s l.next = false ∧
          32 ≤ s.reloc.pendingList.length) ∧
        u = dispatchRead l.next d.ala d.step .survey (classify ala line) (answerTaken rest s) ∧
          ((l.endRequested = some .reset ∧ outcome = .reset) ∨
            (l.endRequested ≠ some .reset ∧ dropped ∧ outcome = .haltedFull) ∨
            (l.endRequested = some outcome ∧ outcome ≠ .reset ∧ ¬ dropped)) ∧
          t = (u.setSurvey
                { live := none
                  report := some
                    { mode := l.mode, first := l.first, count := l.count, startTick := l.startTick, endTick := s.tick,
                      outcome, next := l.next + 1, counts, firstUncorrectable := first } }).setAlert
                { u.alert with causes := u.alert.causes ||| AlertCause.surveyEnd.bit } ∧
      s.array.inFlight = inFlightNow (.read ala) .surveyRead step :: rest ∧
      s.survey.live = some l ∧
      l.phase = .reading d ∧
      l.mode = .span ∧
      l.excluded = [] ∧
      l.next < l.limit ∧
        (classify ala line = .uncorrectable → d.depth ≤ d.step)) ∧
    (∃ (s : State) (ala step : Nat) (line : ArrayLine) (rest : List Flight) (l : LiveSurvey) (d : Ladder) (u t : State)
        (counts : SurveyCounts) (first : Option Nat) (dropped : Prop) (outcome : SurveyOutcome),
         ((∃ x, classify ala line = .clean x) ∧ first = l.firstUncorrectable ∧
            counts = { l.counts with
              linesRead := l.counts.linesRead + 1
              cleanAfterRetry := l.counts.cleanAfterRetry + (if d.step = 0 then 0 else 1) }) ∧
        (dropped ↔ classify ala line = .uncorrectable ∧ isMoving s l.next = false ∧ isPending s l.next = false ∧
          32 ≤ s.reloc.pendingList.length) ∧
        u = dispatchRead l.next d.ala d.step .survey (classify ala line) (answerTaken rest s) ∧
          ((l.endRequested = some .reset ∧ outcome = .reset) ∨
            (l.endRequested ≠ some .reset ∧ dropped ∧ outcome = .haltedFull) ∨
            (l.endRequested = some outcome ∧ outcome ≠ .reset ∧ ¬ dropped)) ∧
          t = (u.setSurvey
                { live := none
                  report := some
                    { mode := l.mode, first := l.first, count := l.count, startTick := l.startTick, endTick := s.tick,
                      outcome, next := l.next + 1, counts, firstUncorrectable := first } }).setAlert
                { u.alert with causes := u.alert.causes ||| AlertCause.surveyEnd.bit } ∧
      s.array.inFlight = inFlightNow (.read ala) .surveyRead step :: rest ∧
      s.survey.live = some l ∧
      l.phase = .reading d ∧
      l.mode = .span ∧
      l.excluded = [] ∧
      l.next < l.limit ∧
        (classify ala line = .uncorrectable → d.depth ≤ d.step)) ∧
    (∃ (s : State) (ala step : Nat) (line : ArrayLine) (rest : List Flight) (l : LiveSurvey) (d : Ladder) (counts :
        SurveyCounts) (first : Option Nat) (dead : Bool) (u t : State),
      (dead = true ↔ (∀ x, classify ala line ≠ .clean x) ∧ spareStateOf s l.next = some .free) ∧
      u = (if dead then
            offerRecord (.dead l.next)
              ((answerTaken rest s).setMap { s.map with marks := insertMark l.next .dead s.map.marks })
           else answerTaken rest s) ∧
        (classify ala line = .uncorrectable ∧ first = some (l.firstUncorrectable.getD l.next) ∧
          counts = { l.counts with
            linesRead := l.counts.linesRead + 1, uncorrectable := l.counts.uncorrectable + 1
            markedDead := l.counts.markedDead + (if dead then 1 else 0) }) ∧
      t = u.setSurvey
            { s.survey with
              live := some
                { l with
                  next := nextVisit l.excluded l.limit (l.next + 1), counts, firstUncorrectable := first
                  phase := .gap s.policy.active.surveyGap } } ∧
      s.array.inFlight = inFlightNow (.read ala) .surveyRead step :: rest ∧
      s.survey.live = some l ∧
      l.phase = .reading d ∧
      l.mode = .spares ∧
      d.depth ≤ d.step ∧
      l.endRequested = none ∧
      s.policy.active.surveyGap ≠ 0) ∧
    (∃ (s : State) (ala step : Nat) (line : ArrayLine) (rest : List Flight) (l : LiveSurvey) (d : Ladder) (counts :
        SurveyCounts) (first : Option Nat) (dead : Bool) (u t : State),
      (dead = true ↔ (∀ x, classify ala line ≠ .clean x) ∧ spareStateOf s l.next = some .free) ∧
      u = (if dead then
            offerRecord (.dead l.next)
              ((answerTaken rest s).setMap { s.map with marks := insertMark l.next .dead s.map.marks })
           else answerTaken rest s) ∧
        ((∃ x, classify ala line = .corrected x) ∧ first = l.firstUncorrectable ∧
          counts = { l.counts with
            linesRead := l.counts.linesRead + 1, corrected := l.counts.corrected + 1
            markedDead := l.counts.markedDead + (if dead then 1 else 0) }) ∧
      t = u.setSurvey
            { s.survey with
              live := some
                { l with
                  next := nextVisit l.excluded l.limit (l.next + 1), counts, firstUncorrectable := first
                  phase := .gap s.policy.active.surveyGap } } ∧
      s.array.inFlight = inFlightNow (.read ala) .surveyRead step :: rest ∧
      s.survey.live = some l ∧
      l.phase = .reading d ∧
      l.mode = .spares ∧
      d.depth ≤ d.step ∧
      l.endRequested = none ∧
      s.policy.active.surveyGap ≠ 0) ∧
    (∃ (s : State) (ala step : Nat) (line : ArrayLine) (rest : List Flight) (l : LiveSurvey) (d : Ladder) (counts :
        SurveyCounts) (first : Option Nat) (dead : Bool) (u t : State),
      (dead = true ↔ (∀ x, classify ala line ≠ .clean x) ∧ spareStateOf s l.next = some .free) ∧
      u = (if dead then
            offerRecord (.dead l.next)
              ((answerTaken rest s).setMap { s.map with marks := insertMark l.next .dead s.map.marks })
           else answerTaken rest s) ∧
       ((∃ x, classify ala line = .clean x) ∧ first = l.firstUncorrectable ∧
          counts = { l.counts with linesRead := l.counts.linesRead + 1 }) ∧
      t = u.setSurvey
            { s.survey with
              live := some
                { l with
                  next := nextVisit l.excluded l.limit (l.next + 1), counts, firstUncorrectable := first
                  phase := .gap s.policy.active.surveyGap } } ∧
      s.array.inFlight = inFlightNow (.read ala) .surveyRead step :: rest ∧
      s.survey.live = some l ∧
      l.phase = .reading d ∧
      l.mode = .spares ∧
      d.depth ≤ d.step ∧
      l.endRequested = none ∧
      s.policy.active.surveyGap ≠ 0) :=
  ⟨⟨fly (.read 9) .surveyRead (surveying (live 9 (.reading (lad 9 0 true)) none) run), 9, 0, writtenLine 9 0, [],
     live 9 (.reading (lad 9 0 true)) none, lad 9 0 true, 0, _, rfl, by decide +kernel⟩,
    ⟨surveying (live 10 (.gap 16) none) run, live 10 (.gap 16) none, 16, _, rfl, by decide +kernel⟩,
    ⟨surveying (live 9 (.gap 16) none) run, live 9 (.gap 16) none, 16, _, rfl, by decide +kernel⟩,
    ⟨[5, 6], 10, 5, 7, (fun x h h2 => by interval_cases x <;> decide), by decide +kernel⟩,
    ⟨[9], 10, 9, 10, (fun x h h2 => by interval_cases x <;> decide), by decide +kernel⟩,
    ⟨pends [9] run, live 9 (.gap 16) none, .inl (by decide), by decide +kernel⟩,
    ⟨moving .writing false 1, live 0 (.gap 16) none, .inr (.inl (by decide)), by decide +kernel⟩,
    ⟨bufs [ent 1 9 1 .waiting] run, live 9 (.gap 16) none, .inr (.inr (.inl ⟨_, List.mem_singleton.mpr rfl, rfl⟩)),
     by decide +kernel⟩,
    ⟨dirs [ent 1 9 1 .waiting] run, live 9 (.gap 16) none, .inr (.inr (.inr ⟨_, List.mem_singleton.mpr rfl, rfl⟩)),
     by decide +kernel⟩,
    ⟨fly (.read 9) .surveyRead (surveying (live 9 (.reading (lad 9 3 true)) none) run), 9, 0,
     { data := 0x101, check := .code 9 0 }, [], live 9 (.reading (lad 9 3 true)) none, lad 9 3 true, run, _, rfl,
     by decide +kernel⟩,
    ⟨fly (.read 9) .surveyRead (surveying (live 9 (.reading (lad 9 0 true)) none) run), 9, 0, writtenLine 9 0, [],
     live 9 (.reading (lad 9 0 true)) none, lad 9 0 true, _, _, _, _, _, ⟨⟨0, by decide +kernel⟩, rfl, rfl⟩, Iff.rfl, rfl,
     by exact fun h => absurd h.2.2.2 (by decide), rfl, by decide +kernel⟩,
    ⟨fly (.read 9) .surveyRead (surveying (live 9 (.reading (lad 9 1 true)) none) run), 9, 0,
     { data := 1, check := .code 9 0 }, [], live 9 (.reading (lad 9 1 true)) none, lad 9 1 true, _, _, _, _, _,
     ⟨⟨0, by decide +kernel⟩, rfl, rfl⟩, Iff.rfl, rfl, by exact fun h => absurd h.2.2.2 (by decide), rfl, by decide +kernel⟩,
    ⟨fly (.read 9) .surveyRead (surveying (live 9 (.reading (lad 9 4 true)) none) (pends (List.range' 100 31) run)), 9, 0,
     { data := 0x101, check := .code 9 0 }, [], live 9 (.reading (lad 9 4 true)) none, lad 9 4 true, _, _, _, _, _,
     ⟨by decide +kernel, rfl, rfl⟩, Iff.rfl, rfl, by exact fun h => absurd h.2.2.2 (by decide), rfl, by decide +kernel⟩,
    ⟨fly (.read 9) .surveyRead (surveying (live 9 (.reading (lad 9 0 true)) (some .reset)) run), 9, 0, writtenLine 9 0, [],
     live 9 (.reading (lad 9 0 true)) (some .reset), lad 9 0 true, _, _, _, _, _, .reset, ⟨⟨0, by decide +kernel⟩, rfl, rfl⟩,
     Iff.rfl, rfl, .inl ⟨rfl, rfl⟩, rfl, by decide +kernel⟩,
    ⟨fly (.read 9) .surveyRead (surveying (live 9 (.reading (lad 9 4 true)) none) (pends (List.range' 100 32) run)), 9, 0,
     { data := 0x101, check := .code 9 0 }, [], live 9 (.reading (lad 9 4 true)) none, lad 9 4 true, _, _, _, _, _,
     .haltedFull, ⟨by decide +kernel, rfl, rfl⟩, Iff.rfl, rfl,
     by exact .inr (.inl ⟨by decide, ⟨by decide +kernel, by decide, by decide, by decide⟩, rfl⟩), rfl, by decide +kernel⟩,
    ⟨fly (.read 9) .surveyRead (surveying (live 9 (.reading (lad 9 0 true)) (some .stopped)) run), 9, 0, writtenLine 9 0, [],
     live 9 (.reading (lad 9 0 true)) (some .stopped), lad 9 0 true, _, _, _, _, _, .stopped,
     ⟨⟨0, by decide +kernel⟩, rfl, rfl⟩, Iff.rfl, rfl,
     by exact .inr (.inr ⟨rfl, by decide, fun h => absurd h.1 (by decide +kernel)⟩), rfl, by decide +kernel⟩,
    ⟨fly (.read 257024) .surveyRead (surveying { live 257024 (.reading { lad 257024 0 true with depth := 0 }) none with mode := .spares, limit := 258048 } run),
     257024, 0, { data := 0x101, check := .code 257024 0 }, [],
     { live 257024 (.reading { lad 257024 0 true with depth := 0 }) none with mode := .spares, limit := 258048 },
     { lad 257024 0 true with depth := 0 }, _, _, true, _, _,
     ⟨fun _ => ⟨not_clean (d := .uncorrectable) (by decide +kernel) (fun _ h => (nomatch h)), by decide⟩, fun _ => rfl⟩, rfl,
     ⟨by decide +kernel, rfl, rfl⟩, rfl, by decide +kernel⟩,
    ⟨fly (.read 257024) .surveyRead (surveying { live 257024 (.reading { lad 257024 0 true with depth := 0 }) none with mode := .spares, limit := 258048 } (marked 257024 .held)),
     257024, 0, { data := 1, check := .code 257024 0 }, [],
     { live 257024 (.reading { lad 257024 0 true with depth := 0 }) none with mode := .spares, limit := 258048 },
     { lad 257024 0 true with depth := 0 }, _, _, false, _, _, ⟨fun h => (nomatch h), fun h => absurd h.2 (by decide)⟩, rfl,
     ⟨⟨0, by decide +kernel⟩, rfl, rfl⟩, rfl, by decide +kernel⟩,
    ⟨fly (.read 257024) .surveyRead (surveying { live 257024 (.reading { lad 257024 0 true with depth := 0 }) none with mode := .spares, limit := 258048 } run),
     257024, 0, writtenLine 257024 0, [],
     { live 257024 (.reading { lad 257024 0 true with depth := 0 }) none with mode := .spares, limit := 258048 },
     { lad 257024 0 true with depth := 0 }, _, _, false, _, _,
     ⟨fun h => (nomatch h), fun h => absurd (by decide +kernel) (h.1 0)⟩, rfl, ⟨⟨0, by decide +kernel⟩, rfl, rfl⟩, rfl,
     by decide +kernel⟩⟩

theorem meets_drainWritesAnswered :
    (∃ (s : State) (id ala step : Nat) (data : LineData) (rest : List Flight) (e : Item) (u t : State),
      u = (answerTaken rest s).setReloc
            { s.reloc with pendingList := s.reloc.pendingList.filter (·.hla != e.hla) } ∧
        t = u.setBuf { s.buf with entries := s.buf.entries.filter (·.id != id) } ∧
      isMoving s e.hla = false ∧
         s.array.inFlight = inFlightNow (.write ala data) (.drainWrite (.entry id)) step :: rest ∧
        findItem s (.entry id) = some e ∧
      (∀ r ∈ s.host.order, r.stage ≠ .waitEntry id)) ∧
    (∃ (s : State) (id ala step : Nat) (data : LineData) (rest : List Flight) (e : Item) (u t : State) (r : HostReq),
      u = (answerTaken rest s).setReloc
            { s.reloc with pendingList := s.reloc.pendingList.filter (·.hla != e.hla) } ∧
        t = responded (reportingAnswer .write r.tag .done s)
              ((u.setBuf { s.buf with direct := s.buf.direct.filter (·.id != id) }).setHost
                { s.host with
                  order := s.host.order.filter (·.id != id), tags := s.host.tags.filter (· != r.tag)
                  reports := s.host.reports.drop 1 }) ∧
      isMoving s e.hla = false ∧
                     s.array.inFlight = inFlightNow (.write ala data) (.drainWrite (.direct id)) step :: rest ∧
        findItem s (.direct id) = some e ∧
    findReq s id = some r ∧
      r.live = true) ∧
    (∃ (s : State) (id ala step spare : Nat) (data : LineData) (rest : List Flight) (e : Item) (t : State),
      t = (beginRelocation e.hla spare .writeFault e.data e.epoch [] (setMark spare .held (answerTaken rest s))).setBuf
            { s.buf with entries := s.buf.entries.filter (·.id != id) } ∧
         s.array.inFlight = inFlightNow (.write ala data) (.drainWrite (.entry id)) step :: rest ∧
        findItem s (.entry id) = some e ∧
      e.hla < fenceValue s ∧
      isMoving s e.hla = false ∧
      reservationFor s e.hla = false ∧
      slotFree s = true ∧
          lowestFree s = some spare ∧
      (∀ r ∈ s.host.order, r.stage ≠ .waitEntry id)) ∧
    (∃ (s : State) (id ala step : Nat) (data : LineData) (rest : List Flight) (e : Item) (t : State),
      t = ((answerTaken rest s).setReloc
            { s.reloc with pendingList := s.reloc.pendingList.filter (·.hla != e.hla) }).setBuf
            { s.buf with entries := s.buf.entries.filter (·.id != id) } ∧
      s.array.inFlight = inFlightNow (.write ala data) (.inPlace (.entry id)) step :: rest ∧
        findItem s (.entry id) = some e ∧
      (∀ r ∈ s.host.order, r.stage ≠ .waitEntry id)) ∧
    (∃ (s : State) (id ala step : Nat) (data : LineData) (rest : List Flight) (e : Item) (u v t : State),
      u = (answerTaken rest s).setReloc
            { s.reloc with
              slots := s.reloc.slots.map fun q =>
                if q.home == e.hla then
                  { q with
                    data := mergeLine q.data e.data (BitVec.allOnes 64)
                    dirty := q.dirty || slotWriteInFlight (answerTaken rest s) e.hla || q.state == .journaling }
                else q
              pendingList := s.reloc.pendingList.filter (·.hla != e.hla) } ∧
        v = settleBarriers (u.setBuf { s.buf with entries := s.buf.entries.filter (·.id != id) }) ∧
        t = v.setReloc
              { v.reloc with
                slots := v.reloc.slots.map fun q =>
                  if q.home == e.hla then
                    { q with
                      epoch := match q.epoch, e.epoch with
                        | some a, some b => some (min a b)
                        | some a, none => some a
                        | none, b => b }
                  else q } ∧
      isMoving s e.hla = true ∧
         s.array.inFlight = inFlightNow (.write ala data) (.drainWrite (.entry id)) step :: rest ∧
        findItem s (.entry id) = some e ∧
      (∀ r ∈ s.host.order, r.stage ≠ .waitEntry id)) ∧
    (∃ (s : State) (id ala step : Nat) (data : LineData) (rest : List Flight) (e : Item) (u v t : State) (r : HostReq),
      u = (answerTaken rest s).setReloc
            { s.reloc with
              slots := s.reloc.slots.map fun q =>
                if q.home == e.hla then
                  { q with
                    data := mergeLine q.data e.data (BitVec.allOnes 64)
                    dirty := q.dirty || slotWriteInFlight (answerTaken rest s) e.hla || q.state == .journaling }
                else q
              pendingList := s.reloc.pendingList.filter (·.hla != e.hla) } ∧
        v = settleBarriers
              (responded (reportingAnswer .write r.tag .done s)
                ((u.setBuf { s.buf with direct := s.buf.direct.filter (·.id != id) }).setHost
                  { s.host with
                    order := s.host.order.filter (·.id != id), tags := s.host.tags.filter (· != r.tag)
                    reports := s.host.reports.drop 1 })) ∧
        t = v.setReloc
              { v.reloc with
                slots := v.reloc.slots.map fun q =>
                  if q.home == e.hla then { q with waiting := q.waiting ++ [{ tag := r.tag, live := false }] } else q } ∧
      isMoving s e.hla = true ∧
                     s.array.inFlight = inFlightNow (.write ala data) (.drainWrite (.direct id)) step :: rest ∧
        findItem s (.direct id) = some e ∧
      e.epoch = none ∧
    findReq s id = some r ∧
      r.live = true) ∧
    (∃ (s : State) (id ala step : Nat) (data : LineData) (rest : List Flight) (e : Item) (left : State → State) (u t : State),
      (∀ x, left x =
        (x.setBuf { x.buf with entries := x.buf.entries.filter (·.id != id) }).setHost
          { x.host with
            order := x.host.order.map fun r => if r.stage = .waitEntry id then { r with stage := .queued } else r }) ∧
        u = queueReport e.hla .noSpare
              (writeFault .homeWriteFault (some e.hla) (some e.place) none
                (pendingAdd e.hla .writeFault
                  ((answerTaken rest s).setAlert { s.alert with causes := s.alert.causes ||| AlertCause.sparesOut.bit }))) ∧
        t = failCovered e.epoch (left u) ∧
        findItem s (.entry id) = some e ∧
         s.array.inFlight = inFlightNow (.write ala data) (.drainWrite (.entry id)) step :: rest ∧
      e.hla < fenceValue s ∧
      isMoving s e.hla = false ∧
      reservationFor s e.hla = false ∧
      slotFree s = true ∧
      lowestFree s = none) ∧
    (∃ (s : State) (id ala step : Nat) (data : LineData) (rest : List Flight) (e : Item) (left : State → State) (u t : State),
      (∀ x, left x =
        (x.setBuf { x.buf with entries := x.buf.entries.filter (·.id != id) }).setHost
          { x.host with
            order := x.host.order.map fun r => if r.stage = .waitEntry id then { r with stage := .queued } else r }) ∧
        u = queueReport e.hla .noSpare
              (writeFault .homeWriteFault (some e.hla) (some e.place) none (answerTaken rest s)) ∧
        t = failCovered e.epoch (left u) ∧
        findItem s (.entry id) = some e ∧
      s.array.inFlight = inFlightNow (.write ala data) (.inPlace (.entry id)) step :: rest) ∧
    (∃ (s : State) (id : Nat) (e : Item) (reason : ReportReason) (r : HostReq) (u : State),
    findReq s id = some r ∧
      r.live = true) ∧
    (∃ (s : State) (id : Nat) (e : Item) (reason : ReportReason) (r : HostReq) (u : State),
      u = queueReport e.hla reason s ∧
    findReq s id = some r ∧
       r.live = false) ∧
    (∃ (s : State) (id : Nat) (e : Item) (cause : RelocCause) (u : State),
      u = s.setBuf
            { s.buf with entries := s.buf.entries.map fun x => if x.id == id then { x with phase := .relocating } else x } ∧
      reservationFor s e.hla = false ∧
      slotFree s = true) ∧
    (∃ (s : State) (id : Nat) (e : Item) (cause : RelocCause) (u : State),
      u = s.setBuf
            { s.buf with entries := s.buf.entries.map fun x => if x.id == id then { x with phase := .relocating } else x } ∧
       (reservationFor s e.hla = true ∨ slotFree s = false)) ∧
    (∃ (s : State) (id : Nat) (e : Item) (cause : RelocCause) (u : State),
      u = s.setBuf
            { s.buf with entries := s.buf.entries.map fun x => if x.id == id then { x with phase := .relocating } else x } ∧
       (reservationFor s e.hla = true ∨ slotFree s = false)) ∧
    (∃ (s : State) (id : Nat) (e : Item) (cause : RelocCause) (u : State) (spare : Nat) (v : State),
      u = s.setBuf
            { s.buf with entries := s.buf.entries.map fun x => if x.id == id then { x with phase := .relocating } else x } ∧
          v = beginRelocation e.hla spare cause e.data e.epoch [] (setMark spare .held s) ∧
      e.hla < fenceValue s ∧
      isMoving s e.hla = false ∧
          lowestFree s = some spare) ∧
    (∃ (s : State) (id : Nat) (e : Item) (cause : RelocCause) (u : State) (place : Nat),
      u = s.setBuf
            { s.buf with entries := s.buf.entries.map fun x => if x.id == id then { x with phase := .relocating } else x } ∧
      e.hla < fenceValue s ∧
      isMoving s e.hla = false ∧
      lowestFree s = none ∧
      cause = .pendingWrite ∧
          place = ((entryOf s e.hla).bind (·.spare)).getD e.hla) :=
  ⟨⟨pends [0] (bufs [ent 1 0 (BitVec.allOnes 64) .writing] (fly (.write 0 0xAB) (.drainWrite (.entry 1)) run)), 1, 0, 0,
     0xAB, [], ent 1 0 (BitVec.allOnes 64) .writing, _, _, rfl, rfl, by decide +kernel⟩,
    ⟨dirs [ent 8 0 1 .writing] (reqs [req 8 0 .direct] (fly (.write 0 0xAB) (.drainWrite (.direct 8)) run)), 8, 0, 0, 0xAB,
     [], ent 8 0 1 .writing, _, _, req 8 0 .direct, rfl, rfl, by decide +kernel⟩,
    ⟨bufs [ent 1 257023 (BitVec.allOnes 64) .writing] (fly (.write 257023 0xAB) (.drainWrite (.entry 1)) run), 1, 257023, 0,
     257024, 0xAB, [], ent 1 257023 (BitVec.allOnes 64) .writing, _, rfl, by decide +kernel⟩,
    ⟨pends [0] (bufs [ent 1 0 (BitVec.allOnes 64) .writing] (fly (.write 0 0xAB) (.inPlace (.entry 1)) run)), 1, 0, 0, 0xAB,
     [], ent 1 0 (BitVec.allOnes 64) .writing, _, rfl, by decide +kernel⟩,
    ⟨bufs [ent 1 0 (BitVec.allOnes 64) .writing] (fly (.write 0 0xAB) (.drainWrite (.entry 1)) (barred (moving .writing false 1))),
     1, 0, 0, 0xAB, [], ent 1 0 (BitVec.allOnes 64) .writing, _, _, _, rfl, rfl, rfl, by decide +kernel⟩,
    ⟨dirs [{ ent 8 0 1 .writing with epoch := none }] (reqs [req 8 0 .direct] (fly (.write 0 0xAB) (.drainWrite (.direct 8)) (moving .journaling false 1))),
     8, 0, 0, 0xAB, [], { ent 8 0 1 .writing with epoch := none }, _, _, _, req 8 0 .direct, rfl, rfl, rfl, by decide +kernel⟩,
    ⟨dry (bufs [ent 1 0 (BitVec.allOnes 64) .writing] (fly (.write 0 0xAB) (.drainWrite (.entry 1)) run)), 1, 0, 0, 0xAB, [],
     ent 1 0 (BitVec.allOnes 64) .writing, _, _, _, (fun _ => rfl), rfl, rfl, by decide +kernel⟩,
    ⟨bufs [ent 1 0 (BitVec.allOnes 64) .writing] (fly (.write 0 0xAB) (.inPlace (.entry 1)) run), 1, 0, 0, 0xAB, [],
     ent 1 0 (BitVec.allOnes 64) .writing, _, _, _, (fun _ => rfl), rfl, rfl, by decide +kernel⟩,
    ⟨dirs [ent 8 0 1 .writing] (reqs [req 8 0 .direct] run), 8, ent 8 0 1 .writing, .noSpare, req 8 0 .direct, run,
     by decide +kernel⟩,
    ⟨dirs [ent 8 0 1 .writing] (reqs [{ req 8 0 .direct with live := false }] run), 8, ent 8 0 1 .writing, .noSpare,
     { req 8 0 .direct with live := false }, _, rfl, by decide +kernel⟩,
    ⟨bufs [ent 1 0 (BitVec.allOnes 64) .writing] run, 1, ent 1 0 (BitVec.allOnes 64) .writing, .pendingWrite, _, rfl,
     by decide +kernel⟩,
    ⟨bufs [ent 1 0 (BitVec.allOnes 64) .writing] { run with reloc := { run.reloc with reserved := some 0 } }, 1,
     ent 1 0 (BitVec.allOnes 64) .writing, .writeFault, _, rfl, by decide +kernel⟩,
    ⟨bufs [ent 1 0 (BitVec.allOnes 64) .writing] { run with reloc := { run.reloc with slots := List.replicate 4 { home := 0, data := 0xCD, state := .writing, dirty := false, attempts := 1, epoch := none, waiting := [] } } },
     1, ent 1 0 (BitVec.allOnes 64) .writing, .writeFault, _, rfl, by decide +kernel⟩,
    ⟨bufs [ent 1 0 (BitVec.allOnes 64) .writing] run, 1, ent 1 0 (BitVec.allOnes 64) .writing, .writeFault, _, 257024, _,
     rfl, rfl, by decide +kernel⟩,
    ⟨dry (bufs [ent 1 0 (BitVec.allOnes 64) .writing] run), 1, ent 1 0 (BitVec.allOnes 64) .writing, .pendingWrite, _, 0,
     rfl, by decide +kernel⟩⟩

theorem meets_targetWriteAnswered :
    (∃ (s : State) (home ala step : Nat) (data : LineData) (rest : List Flight) (q : Slot) (t : State),
      t = (if q.dirty = true then placeRequest (.slotWrite home) (answerTaken rest s)
           else
            offerRecord (.bind home (targetOf s home))
              ((answerTaken rest s).setReloc
                { s.reloc with
                  slots := s.reloc.slots.map fun x => if x.home == home then { x with state := .journaling } else x })) ∧
      s.array.inFlight = inFlightNow (.write ala data) (.slotWrite home .target) step :: rest ∧
      findSlot s home = some q) ∧
    (∃ (s : State) (home ala step : Nat) (data : LineData) (rest : List Flight) (q : Slot) (e : RemapEntry) (old : Nat) (u t :
        State) (next : Nat),
      u = writeFault .spareWriteFault (some home) (some old) none (answerTaken rest s) ∧
        t = placeRequest (.slotWrite home)
              ((offerRecord (.dead old)
                (setEntry { e with target := some next } (setMark old .dead (setMark next .held u)))).setReloc
                { s.reloc with
                  slots := s.reloc.slots.map fun x => if x.home == home then { x with attempts := x.attempts + 1 } else x }) ∧
      s.array.inFlight = inFlightNow (.write ala data) (.slotWrite home .target) step :: rest ∧
      findSlot s home = some q ∧
      entryOf s home = some e ∧
      e.target = some old ∧
      q.attempts < 3 ∧
      lowestFree s = some next) ∧
    (∃ (s : State) (home ala step : Nat) (data : LineData) (rest : List Flight) (q : Slot) (e : RemapEntry) (old : Nat) (u t :
        State) (v : State),
      u = writeFault .spareWriteFault (some home) (some old) none (answerTaken rest s) ∧
         (3 ≤ q.attempts ∧ v = u) ∧
        t = placeRequest (.slotWrite home)
              ((writeFault .relocateFail (some home) (some old) none v).setReloc
                { s.reloc with
                  slots := s.reloc.slots.map fun x => if x.home == home then { x with state := .returning } else x }) ∧
      s.array.inFlight = inFlightNow (.write ala data) (.slotWrite home .target) step :: rest ∧
      findSlot s home = some q ∧
      entryOf s home = some e ∧
      e.target = some old) ∧
    (∃ (s : State) (home ala step : Nat) (data : LineData) (rest : List Flight) (q : Slot) (e : RemapEntry) (old : Nat) (u t :
        State) (v : State),
      u = writeFault .spareWriteFault (some home) (some old) none (answerTaken rest s) ∧
          (q.attempts < 3 ∧ lowestFree s = none ∧
            v = u.setAlert { u.alert with causes := u.alert.causes ||| AlertCause.sparesOut.bit }) ∧
        t = placeRequest (.slotWrite home)
              ((writeFault .relocateFail (some home) (some old) none v).setReloc
                { s.reloc with
                  slots := s.reloc.slots.map fun x => if x.home == home then { x with state := .returning } else x }) ∧
      s.array.inFlight = inFlightNow (.write ala data) (.slotWrite home .target) step :: rest ∧
      findSlot s home = some q ∧
      entryOf s home = some e ∧
      e.target = some old) :=
  ⟨⟨fly (.write 257024 0xCD) (.slotWrite 0 .target) (moving .writing false 1), 0, 257024, 0, 0xCD, [],
     { home := 0, data := 0xCD, state := .writing, dirty := false, attempts := 1, epoch := none, waiting := [] }, _, rfl,
     by decide +kernel⟩,
    ⟨fly (.write 257024 0xCD) (.slotWrite 0 .target) (moving .writing false 2), 0, 257024, 0, 0xCD, [],
     { home := 0, data := 0xCD, state := .writing, dirty := false, attempts := 2, epoch := none, waiting := [] },
     { home := 0, spare := none, target := some 257024, cause := some .writeFault, boundTick := none }, 257024, _, _, 257025,
     rfl, rfl, by decide +kernel⟩,
    ⟨fly (.write 257024 0xCD) (.slotWrite 0 .target) (moving .writing true 3), 0, 257024, 0, 0xCD, [],
     { home := 0, data := 0xCD, state := .writing, dirty := true, attempts := 3, epoch := none, waiting := [] },
     { home := 0, spare := none, target := some 257024, cause := some .writeFault, boundTick := none }, 257024, _, _, _, rfl,
     ⟨by decide, rfl⟩, rfl, by decide +kernel⟩,
    ⟨fly (.write 257024 0xCD) (.slotWrite 0 .target) { dry run with map := { (dry run).map with table := [{ home := 0, spare := none, target := some 257024, cause := some .writeFault, boundTick := none }] }, reloc := (moving .writing false 1).reloc },
     0, 257024, 0, 0xCD, [],
     { home := 0, data := 0xCD, state := .writing, dirty := false, attempts := 1, epoch := none, waiting := [] },
     { home := 0, spare := none, target := some 257024, cause := some .writeFault, boundTick := none }, 257024, _, _, _, rfl,
     ⟨by decide, by decide, rfl⟩, rfl, by decide +kernel⟩⟩

theorem meets_finishingWriteDone :
    (∃ (s : State) (home ala step : Nat) (data : LineData) (rest : List Flight) (q : Slot) (e : RemapEntry) (target : Nat) (t :
        State),
      t = placeRequest (.slotWrite home) (answerTaken rest s) ∧
      s.array.inFlight = inFlightNow (.write ala data) (.slotWrite home .finishing) step :: rest ∧
      findSlot s home = some q ∧
      q.home = home ∧
      entryOf s home = some e ∧
      e.target = some target ∧
              q.dirty = true) ∧
    (∃ (s : State) (home ala step : Nat) (data : LineData) (rest : List Flight) (q : Slot) (e : RemapEntry) (target : Nat) (t :
        State),
        t = ((answerTaken rest s).setMap
              { s.map with
                table := insertEntry { e with spare := some target, target := none, boundTick := some s.tick } s.map.table
                marks :=
                  match e.spare with
                  | some old => insertMark old .dead (insertMark target .bound s.map.marks)
                  | none => insertMark target .bound s.map.marks }).setReloc
              { s.reloc with slots := s.reloc.slots.filter (·.home != home) } ∧
      s.array.inFlight = inFlightNow (.write ala data) (.slotWrite home .finishing) step :: rest ∧
      findSlot s home = some q ∧
      q.home = home ∧
      entryOf s home = some e ∧
      e.target = some target ∧
       q.dirty = false ∧
      s.jour.state ≠ .stalled ∧
      q.waiting = [] ∧
      s.port.command = none) ∧
    (∃ (s : State) (home ala step : Nat) (data : LineData) (rest : List Flight) (q : Slot) (e : RemapEntry) (target : Nat)
        (bound : State → State) (t : State),
      (∀ x, bound x =
        (x.setMap
          { s.map with
            table := insertEntry { e with spare := some target, target := none, boundTick := some s.tick } s.map.table
            marks :=
              match e.spare with
              | some old => insertMark old .dead (insertMark target .bound s.map.marks)
              | none => insertMark target .bound s.map.marks }).setReloc
          { x.reloc with slots := s.reloc.slots.filter (·.home != home) }) ∧
          t = (answerTaken rest s).setReloc { s.reloc with held := s.reloc.held ++ [{ home, answer := .done, dropped := false }] } ∧
      findSlot s home = some q ∧
      q.home = home ∧
      entryOf s home = some e ∧
      e.target = some target ∧
      s.array.inFlight = inFlightNow (.write ala data) (.slotWrite home .finishing) step :: rest ∧
       s.jour.state = .stalled ∧
       q.dirty = false) ∧
    (∃ (s : State) (home ala step : Nat) (data : LineData) (rest : List Flight) (q : Slot) (e : RemapEntry) (target : Nat)
        (bound : State → State) (t : State) (dropped : Bool) (u v : State),
      (∀ x, bound x =
        (x.setMap
          { s.map with
            table := insertEntry { e with spare := some target, target := none, boundTick := some s.tick } s.map.table
            marks :=
              match e.spare with
              | some old => insertMark old .dead (insertMark target .bound s.map.marks)
              | none => insertMark target .bound s.map.marks }).setReloc
          { x.reloc with slots := s.reloc.slots.filter (·.home != home) }) ∧
          u = writeFault .spareWriteFault (some home) (some target) none (answerTaken rest s) ∧
          v = (if dropped then
                writeFault .pendingOverflow (some home) none none
                  (u.setAlert { u.alert with causes := u.alert.causes ||| AlertCause.pendingFull.bit })
               else u) ∧
          t = (writeFault .dataLost (some home) (some target) none v).setReloc
                { s.reloc with held := s.reloc.held ++ [{ home, answer := .fault, dropped }] } ∧
      findSlot s home = some q ∧
      q.home = home ∧
      entryOf s home = some e ∧
      e.target = some target ∧
      s.array.inFlight = inFlightNow (.write ala data) (.slotWrite home .finishing) step :: rest ∧
       s.jour.state = .stalled ∧
          (dropped = true ↔ isPending s home = false ∧ 32 ≤ s.reloc.pendingList.length)) ∧
    (∃ (s : State) (home ala step : Nat) (data : LineData) (rest : List Flight) (q : Slot) (e : RemapEntry) (target : Nat)
        (bound : State → State) (t : State) (dropped : Bool) (u v : State),
      (∀ x, bound x =
        (x.setMap
          { s.map with
            table := insertEntry { e with spare := some target, target := none, boundTick := some s.tick } s.map.table
            marks :=
              match e.spare with
              | some old => insertMark old .dead (insertMark target .bound s.map.marks)
              | none => insertMark target .bound s.map.marks }).setReloc
          { x.reloc with slots := s.reloc.slots.filter (·.home != home) }) ∧
          u = writeFault .spareWriteFault (some home) (some target) none (answerTaken rest s) ∧
          v = (if dropped then
                writeFault .pendingOverflow (some home) none none
                  (u.setAlert { u.alert with causes := u.alert.causes ||| AlertCause.pendingFull.bit })
               else u) ∧
          t = (writeFault .dataLost (some home) (some target) none v).setReloc
                { s.reloc with held := s.reloc.held ++ [{ home, answer := .fault, dropped }] } ∧
      findSlot s home = some q ∧
      q.home = home ∧
      entryOf s home = some e ∧
      e.target = some target ∧
      s.array.inFlight = inFlightNow (.write ala data) (.slotWrite home .finishing) step :: rest ∧
       s.jour.state = .stalled ∧
          (dropped = true ↔ isPending s home = false ∧ 32 ≤ s.reloc.pendingList.length)) ∧
    (∃ (s : State) (home ala step : Nat) (data : LineData) (rest : List Flight) (q : Slot) (e : RemapEntry) (target : Nat)
        (bound : State → State) (t : State),
      (∀ x, bound x =
        (x.setMap
          { s.map with
            table := insertEntry { e with spare := some target, target := none, boundTick := some s.tick } s.map.table
            marks :=
              match e.spare with
              | some old => insertMark old .dead (insertMark target .bound s.map.marks)
              | none => insertMark target .bound s.map.marks }).setReloc
          { x.reloc with slots := s.reloc.slots.filter (·.home != home) }) ∧
          t = failCovered q.epoch
                (answerWaiting q .poisonHit
                  (queueReport home .dataLost
                    (writeFault .dataLost (some home) (some target) none
                      (pendingAdd home .relocate
                        (bound (writeFault .spareWriteFault (some home) (some target) none (answerTaken rest s))))))) ∧
      findSlot s home = some q ∧
      q.home = home ∧
      entryOf s home = some e ∧
      e.target = some target ∧
      s.array.inFlight = inFlightNow (.write ala data) (.slotWrite home .finishing) step :: rest ∧
      s.jour.state ≠ .stalled ∧
      s.port.command = none) ∧
    (∃ (s : State) (home ala step : Nat) (data : LineData) (rest : List Flight) (q : Slot) (e : RemapEntry) (target : Nat)
        (bound : State → State) (t : State) (seq : _),
      (∀ x, bound x =
        (x.setMap
          { s.map with
            table := insertEntry { e with spare := some target, target := none, boundTick := some s.tick } s.map.table
            marks :=
              match e.spare with
              | some old => insertMark old .dead (insertMark target .bound s.map.marks)
              | none => insertMark target .bound s.map.marks }).setReloc
          { x.reloc with slots := s.reloc.slots.filter (·.home != home) }) ∧
          t = completeCommand seq .ok (enc24 home ++ enc24 target) (bound (answerTaken rest s)) ∧
      findSlot s home = some q ∧
      q.home = home ∧
      entryOf s home = some e ∧
      e.target = some target ∧
      s.array.inFlight = inFlightNow (.write ala data) (.slotWrite home .finishing) step :: rest ∧
      s.jour.state ≠ .stalled ∧
       q.dirty = false ∧
      q.waiting = [] ∧
          s.port.command = some { seq, command := .lineRetire home true }) ∧
    (∃ (s : State) (home ala step : Nat) (data : LineData) (rest : List Flight) (q : Slot) (e : RemapEntry) (target : Nat)
        (bound : State → State) (t : State) (w : _) (status : HostStatus),
      (∀ x, bound x =
        (x.setMap
          { s.map with
            table := insertEntry { e with spare := some target, target := none, boundTick := some s.tick } s.map.table
            marks :=
              match e.spare with
              | some old => insertMark old .dead (insertMark target .bound s.map.marks)
              | none => insertMark target .bound s.map.marks }).setReloc
          { x.reloc with slots := s.reloc.slots.filter (·.home != home) }) ∧
      findSlot s home = some q ∧
      q.home = home ∧
      entryOf s home = some e ∧
      e.target = some target ∧
            w.live = true ∧
      q.waiting = [w]) ∧
    (∃ (s : State) (home ala step : Nat) (data : LineData) (rest : List Flight) (q : Slot) (e : RemapEntry) (target : Nat)
        (bound : State → State) (t : State) (status : HostStatus),
      (∀ x, bound x =
        (x.setMap
          { s.map with
            table := insertEntry { e with spare := some target, target := none, boundTick := some s.tick } s.map.table
            marks :=
              match e.spare with
              | some old => insertMark old .dead (insertMark target .bound s.map.marks)
              | none => insertMark target .bound s.map.marks }).setReloc
          { x.reloc with slots := s.reloc.slots.filter (·.home != home) }) ∧
      findSlot s home = some q ∧
      q.home = home ∧
      entryOf s home = some e ∧
      e.target = some target ∧
      q.waiting = []) ∧
    (∃ (s : State) (home ala step : Nat) (data : LineData) (rest : List Flight) (q : Slot) (e : RemapEntry) (target : Nat)
        (bound : State → State) (t : State),
      (∀ x, bound x =
        (x.setMap
          { s.map with
            table := insertEntry { e with spare := some target, target := none, boundTick := some s.tick } s.map.table
            marks :=
              match e.spare with
              | some old => insertMark old .dead (insertMark target .bound s.map.marks)
              | none => insertMark target .bound s.map.marks }).setReloc
          { x.reloc with slots := s.reloc.slots.filter (·.home != home) }) ∧
      findSlot s home = some q ∧
      q.home = home ∧
      entryOf s home = some e ∧
      e.target = some target ∧
       (s.reloc.held = [] ∨ s.jour.state ≠ .ready)) ∧
    (∃ (s : State) (home ala step : Nat) (data : LineData) (rest : List Flight) (q : Slot) (e : RemapEntry) (target : Nat)
        (bound : State → State) (t : State),
      (∀ x, bound x =
        (x.setMap
          { s.map with
            table := insertEntry { e with spare := some target, target := none, boundTick := some s.tick } s.map.table
            marks :=
              match e.spare with
              | some old => insertMark old .dead (insertMark target .bound s.map.marks)
              | none => insertMark target .bound s.map.marks }).setReloc
          { x.reloc with slots := s.reloc.slots.filter (·.home != home) }) ∧
      findSlot s home = some q ∧
      q.home = home ∧
      entryOf s home = some e ∧
      e.target = some target ∧
       (s.reloc.held = [] ∨ s.jour.state ≠ .ready)) ∧
    (∃ (s : State) (home ala step : Nat) (data : LineData) (rest : List Flight) (q : Slot) (e : RemapEntry) (target : Nat)
        (bound : State → State) (t : State) (others : _),
      (∀ x, bound x =
        (x.setMap
          { s.map with
            table := insertEntry { e with spare := some target, target := none, boundTick := some s.tick } s.map.table
            marks :=
              match e.spare with
              | some old => insertMark old .dead (insertMark target .bound s.map.marks)
              | none => insertMark target .bound s.map.marks }).setReloc
          { x.reloc with slots := s.reloc.slots.filter (·.home != home) }) ∧
      findSlot s home = some q ∧
      q.home = home ∧
      entryOf s home = some e ∧
      e.target = some target ∧
      s.jour.state = .ready ∧
      s.port.command = none ∧
         s.reloc.held = { home, answer := .done, dropped := false } :: others ∧
       q.dirty = false ∧
      q.waiting = []) ∧
    (∃ (s : State) (home ala step : Nat) (data : LineData) (rest : List Flight) (q : Slot) (e : RemapEntry) (target : Nat)
        (bound : State → State) (t : State) (others : _) (dropped : Bool) (u : State),
      (∀ x, bound x =
        (x.setMap
          { s.map with
            table := insertEntry { e with spare := some target, target := none, boundTick := some s.tick } s.map.table
            marks :=
              match e.spare with
              | some old => insertMark old .dead (insertMark target .bound s.map.marks)
              | none => insertMark target .bound s.map.marks }).setReloc
          { x.reloc with slots := s.reloc.slots.filter (·.home != home) }) ∧
          u = bound (s.setReloc { s.reloc with held := others }) ∧
      findSlot s home = some q ∧
      q.home = home ∧
      entryOf s home = some e ∧
      e.target = some target ∧
      s.jour.state = .ready ∧
      s.port.command = none ∧
      s.reloc.held = { home, answer := .fault, dropped } :: others) ∧
    (∃ (s : State) (home ala step : Nat) (data : LineData) (rest : List Flight) (q : Slot) (e : RemapEntry) (target : Nat)
        (bound : State → State) (t : State) (others : _) (dropped : Bool) (u : State),
      (∀ x, bound x =
        (x.setMap
          { s.map with
            table := insertEntry { e with spare := some target, target := none, boundTick := some s.tick } s.map.table
            marks :=
              match e.spare with
              | some old => insertMark old .dead (insertMark target .bound s.map.marks)
              | none => insertMark target .bound s.map.marks }).setReloc
          { x.reloc with slots := s.reloc.slots.filter (·.home != home) }) ∧
          u = bound (s.setReloc { s.reloc with held := others }) ∧
      findSlot s home = some q ∧
      q.home = home ∧
      entryOf s home = some e ∧
      e.target = some target ∧
      s.jour.state = .ready ∧
      s.port.command = none ∧
      s.reloc.held = { home, answer := .fault, dropped } :: others) :=
  ⟨⟨fly (.write 257024 0xCD) (.slotWrite 0 .finishing) (moving .finishing true 1), 0, 257024, 0, 0xCD, [],
     { home := 0, data := 0xCD, state := .finishing, dirty := true, attempts := 1, epoch := none, waiting := [] },
     { home := 0, spare := none, target := some 257024, cause := some .writeFault, boundTick := none }, 257024, _, rfl,
     by decide +kernel⟩,
    ⟨fly (.write 257024 0xCD) (.slotWrite 0 .finishing) (moving .finishing false 1), 0, 257024, 0, 0xCD, [],
     { home := 0, data := 0xCD, state := .finishing, dirty := false, attempts := 1, epoch := none, waiting := [] },
     { home := 0, spare := none, target := some 257024, cause := some .writeFault, boundTick := none }, 257024, _, rfl,
     by decide +kernel⟩,
    ⟨journal .stalled (fly (.write 257024 0xCD) (.slotWrite 0 .finishing) (moving .finishing false 1)), 0, 257024, 0, 0xCD,
     [], { home := 0, data := 0xCD, state := .finishing, dirty := false, attempts := 1, epoch := none, waiting := [] },
     { home := 0, spare := none, target := some 257024, cause := some .writeFault, boundTick := none }, 257024, _, _,
     (fun _ => rfl), rfl, by decide +kernel⟩,
    ⟨journal .stalled (fly (.write 257024 0xCD) (.slotWrite 0 .finishing) (moving .finishing true 1)), 0, 257024, 0, 0xCD,
     [], { home := 0, data := 0xCD, state := .finishing, dirty := true, attempts := 1, epoch := none, waiting := [] },
     { home := 0, spare := none, target := some 257024, cause := some .writeFault, boundTick := none }, 257024, _, _, false,
     _, _, (fun _ => rfl), rfl, rfl, rfl, by decide +kernel⟩,
    ⟨journal .stalled (pends (List.range' 1 32) (fly (.write 257024 0xCD) (.slotWrite 0 .finishing) (moving .finishing true 1))),
     0, 257024, 0, 0xCD, [],
     { home := 0, data := 0xCD, state := .finishing, dirty := true, attempts := 1, epoch := none, waiting := [] },
     { home := 0, spare := none, target := some 257024, cause := some .writeFault, boundTick := none }, 257024, _, _, true,
     _, _, (fun _ => rfl), rfl, rfl, rfl, by decide +kernel⟩,
    ⟨fly (.write 257024 0xCD) (.slotWrite 0 .finishing) (moving .finishing false 1), 0, 257024, 0, 0xCD, [],
     { home := 0, data := 0xCD, state := .finishing, dirty := false, attempts := 1, epoch := none, waiting := [] },
     { home := 0, spare := none, target := some 257024, cause := some .writeFault, boundTick := none }, 257024, _, _,
     (fun _ => rfl), rfl, by decide +kernel⟩,
    ⟨cmd (.lineRetire 0 true) (fly (.write 257024 0xCD) (.slotWrite 0 .finishing) (moving .finishing false 1)), 0, 257024, 0,
     0xCD, [], { home := 0, data := 0xCD, state := .finishing, dirty := false, attempts := 1, epoch := none, waiting := [] },
     { home := 0, spare := none, target := some 257024, cause := some .writeFault, boundTick := none }, 257024, _, _, 7,
     (fun _ => rfl), rfl, by decide +kernel⟩,
    ⟨{ moving .finishing false 1 with reloc := { run.reloc with slots := [{ home := 0, data := 0xCD, state := .finishing, dirty := false, attempts := 1, epoch := none, waiting := [{ tag := 3, live := true }] }] } },
     0, 257024, 0, 0xCD, [],
     { home := 0, data := 0xCD, state := .finishing, dirty := false, attempts := 1, epoch := none, waiting := [{ tag := 3, live := true }] },
     { home := 0, spare := none, target := some 257024, cause := some .writeFault, boundTick := none }, 257024, _, run,
     { tag := 3, live := true }, .poisonHit, (fun _ => rfl), by decide +kernel⟩,
    ⟨moving .finishing false 1, 0, 257024, 0, 0xCD, [],
     { home := 0, data := 0xCD, state := .finishing, dirty := false, attempts := 1, epoch := none, waiting := [] },
     { home := 0, spare := none, target := some 257024, cause := some .writeFault, boundTick := none }, 257024, _, run,
     .done, (fun _ => rfl), by decide +kernel⟩,
    ⟨moving .finishing false 1, 0, 257024, 0, 0xCD, [],
     { home := 0, data := 0xCD, state := .finishing, dirty := false, attempts := 1, epoch := none, waiting := [] },
     { home := 0, spare := none, target := some 257024, cause := some .writeFault, boundTick := none }, 257024, _, run,
     (fun _ => rfl), by decide +kernel⟩,
    ⟨{ journal .stalled (moving .finishing false 1) with reloc := { (moving .finishing false 1).reloc with held := [{ home := 0, answer := .done, dropped := false }] } },
     0, 257024, 0, 0xCD, [],
     { home := 0, data := 0xCD, state := .finishing, dirty := false, attempts := 1, epoch := none, waiting := [] },
     { home := 0, spare := none, target := some 257024, cause := some .writeFault, boundTick := none }, 257024, _, run,
     (fun _ => rfl), by decide +kernel⟩,
    ⟨{ moving .finishing false 1 with reloc := { (moving .finishing false 1).reloc with held := [{ home := 0, answer := .done, dropped := false }] } },
     0, 257024, 0, 0xCD, [],
     { home := 0, data := 0xCD, state := .finishing, dirty := false, attempts := 1, epoch := none, waiting := [] },
     { home := 0, spare := none, target := some 257024, cause := some .writeFault, boundTick := none }, 257024, _, run, [],
     (fun _ => rfl), by decide +kernel⟩,
    ⟨{ moving .finishing false 1 with reloc := { (moving .finishing false 1).reloc with held := [{ home := 0, answer := .fault, dropped := false }] } },
     0, 257024, 0, 0xCD, [],
     { home := 0, data := 0xCD, state := .finishing, dirty := false, attempts := 1, epoch := none, waiting := [] },
     { home := 0, spare := none, target := some 257024, cause := some .writeFault, boundTick := none }, 257024, _, run, [],
     false, _, (fun _ => rfl), rfl, by decide +kernel⟩,
    ⟨{ moving .finishing false 1 with reloc := { (moving .finishing false 1).reloc with held := [{ home := 0, answer := .fault, dropped := true }] } },
     0, 257024, 0, 0xCD, [],
     { home := 0, data := 0xCD, state := .finishing, dirty := false, attempts := 1, epoch := none, waiting := [] },
     { home := 0, spare := none, target := some 257024, cause := some .writeFault, boundTick := none }, 257024, _, run, [],
     true, _, (fun _ => rfl), rfl, by decide +kernel⟩⟩

theorem meets_fallbackWriteAnswered :
    (∃ (s : State) (home ala step : Nat) (data : LineData) (rest : List Flight) (q : Slot) (e : RemapEntry) (target : Nat) (t :
        State),
      t = (offerRecord (.dead target)
            ((answerTaken rest s).setMap
              { s.map with
                table := if e.spare.isSome then insertEntry { e with target := none } s.map.table
                  else s.map.table.filter (·.home != home)
                marks := insertMark target .dead s.map.marks })).setReloc
            { s.reloc with slots := s.reloc.slots.filter (·.home != home) } ∧
      s.array.inFlight = inFlightNow (.write ala data) (.slotWrite home .fallback) step :: rest ∧
      findSlot s home = some q ∧
      q.home = home ∧
      entryOf s home = some e ∧
      e.target = some target ∧
       q.dirty = false ∧
      q.waiting = [] ∧
      s.port.command = none) ∧
    (∃ (s : State) (home ala step : Nat) (data : LineData) (rest : List Flight) (q : Slot) (e : RemapEntry) (target : Nat) (t :
        State),
      t = queueReport home .dataLost
            (writeFault .dataLost (some home) (some (e.spare.getD home)) none
              (pendingAdd home .relocate
                ((offerRecord (.dead target)
                  ((answerTaken rest s).setMap
                    { s.map with
                      table := if e.spare.isSome then insertEntry { e with target := none } s.map.table
                        else s.map.table.filter (·.home != home)
                      marks := insertMark target .dead s.map.marks })).setReloc
                  { s.reloc with slots := s.reloc.slots.filter (·.home != home) }))) ∧
      s.array.inFlight = inFlightNow (.write ala data) (.slotWrite home .fallback) step :: rest ∧
      findSlot s home = some q ∧
      q.home = home ∧
      entryOf s home = some e ∧
      e.target = some target ∧
      q.waiting = [] ∧
      q.epoch = none ∧
      s.port.command = none) :=
  ⟨⟨fly (.write 257024 0xCD) (.slotWrite 0 .fallback) (moving .returning false 3), 0, 257024, 0, 0xCD, [],
     { home := 0, data := 0xCD, state := .returning, dirty := false, attempts := 3, epoch := none, waiting := [] },
     { home := 0, spare := none, target := some 257024, cause := some .writeFault, boundTick := none }, 257024, _, rfl,
     by decide +kernel⟩,
    ⟨fly (.write 257024 0xCD) (.slotWrite 0 .fallback) (moving .returning true 3), 0, 257024, 0, 0xCD, [],
     { home := 0, data := 0xCD, state := .returning, dirty := true, attempts := 3, epoch := none, waiting := [] },
     { home := 0, spare := none, target := some 257024, cause := some .writeFault, boundTick := none }, 257024, _, rfl,
     by decide +kernel⟩⟩

theorem meets_logRecordsBecomeDurable :
    (∃ (s : State) (ala step : Nat) (data : LineData) (rest : List Flight) (g : LogLine) (u t : State),
      u = (answerTaken rest s).setJour
            { s.jour with
              state := .ready, nextLine := s.jour.nextLine + 1, lastSeq := g.seq, line := none
              queue := s.jour.queue.drop g.count ++ s.jour.wait.take (16 - (s.jour.queue.drop g.count).length)
              wait := s.jour.wait.drop (16 - (s.jour.queue.drop g.count).length) } ∧
       (∀ r ∈ s.jour.queue.take g.count, ∃ a, r = .dead a) ∧
        t = u ∧
      s.array.inFlight = inFlightNow (.write ala data) (.journalWrite .log) step :: rest ∧
      s.jour.line = some g) ∧
    (∃ (s : State) (ala step : Nat) (data : LineData) (rest : List Flight) (g : LogLine) (u t : State) (home spare : Nat) (q :
        Slot),
      u = (answerTaken rest s).setJour
            { s.jour with
              state := .ready, nextLine := s.jour.nextLine + 1, lastSeq := g.seq, line := none
              queue := s.jour.queue.drop g.count ++ s.jour.wait.take (16 - (s.jour.queue.drop g.count).length)
              wait := s.jour.wait.drop (16 - (s.jour.queue.drop g.count).length) } ∧
        t = placeRequest (.slotWrite home)
              (u.setReloc
                { s.reloc with
                  slots := s.reloc.slots.map fun x => if x.home == home then { x with state := .finishing } else x }) ∧
      s.array.inFlight = inFlightNow (.write ala data) (.journalWrite .log) step :: rest ∧
      s.jour.line = some g ∧
      s.jour.queue.take g.count = [.bind home spare] ∧
      findSlot s home = some q ∧
        q.state = .journaling ∧
              q.dirty = true) ∧
    (∃ (s : State) (seq : Byte) (new : Nat) (t : State),
        t = (s.setMap { s.map with fence := some new, range := none }).setReloc
              { s.reloc with
                watch := s.reloc.watch.filter fun w =>
                  !decide (∃ r, s.map.range = some r ∧ r.kind = .closing ∧ r.lo ≤ w.hla ∧ w.hla < r.hi) } ∧
       s.port.command = some { seq, command := .fenceAdjust new } ∧
      fenceMoves s new = true) ∧
    (∃ (s : State) (seq : Byte) (new : Nat) (t : State) (p : PolicySet),
        t = s.setPolicy { active := s.policy.staged, staged := s.policy.active } ∧
      s.port.command = some { seq, command := .policyExchange }) ∧
    (∃ (s : State) (ala step : Nat) (data : LineData) (rest : List Flight) (g : LogLine) (u t : State),
         u = (answerTaken rest s).setJour
              { s.jour with
                state := .ready, nextLine := s.jour.nextLine + 1, lastSeq := g.seq, line := none
                queue := s.jour.queue.drop g.count ++ s.jour.wait.take (16 - (s.jour.queue.drop g.count).length)
                wait := s.jour.wait.drop (16 - (s.jour.queue.drop g.count).length) } ∧
      s.array.inFlight = inFlightNow (.write ala data) (.journalWrite .log) step :: rest ∧
      s.jour.line = some g) ∧
    (∃ (s : State) (ala step : Nat) (data : LineData) (rest : List Flight) (g : LogLine) (u t : State),
         u = writeFault .journalWriteFault none (some ala) none (answerTaken rest s) ∧
          t = beginCompaction 0 (u.setJour { s.jour with faulted := s.jour.queue.take g.count }) ∧
      s.array.inFlight = inFlightNow (.write ala data) (.journalWrite .log) step :: rest ∧
      s.jour.line = some g) ∧
    (∃ (s : State) (ala step : Nat) (data : LineData) (rest : List Flight) (g : LogLine) (u t : State) (f : _),
            (∀ c, s.port.command = some c → c.command ≠ .fenceAdjust f)) ∧
    (∃ (s : State) (ala step : Nat) (data : LineData) (rest : List Flight) (g : LogLine) (u t : State) (f : _),
            (∀ c, s.port.command = some c → c.command ≠ .fenceAdjust f)) ∧
    (∃ (s : State) (ala step : Nat) (data : LineData) (rest : List Flight) (g : LogLine) (u t : State) (p : PolicySet),
      (∀ c, s.port.command = some c → c.command ≠ .policyExchange)) ∧
    (∃ (s : State) (ala step : Nat) (data : LineData) (rest : List Flight) (g : LogLine) (u t : State) (p : PolicySet),
      (∀ c, s.port.command = some c → c.command ≠ .policyExchange)) ∧
    (∃ (s : State) (ala step : Nat) (data : LineData) (rest : List Flight) (g : LogLine) (u t : State) (home spare : Nat),
         (∀ q, findSlot s home = some q → q.state ≠ .journaling)) ∧
    (∃ (s : State) (ala step : Nat) (data : LineData) (rest : List Flight) (g : LogLine) (u t : State) (home spare : Nat),
         (∀ q, findSlot s home = some q → q.state ≠ .journaling)) ∧
    (∃ (s : State) (ala step : Nat) (data : LineData) (rest : List Flight) (g : LogLine) (u t : State) (home spare : Nat) (q : _),
      findSlot s home = some q ∧
      q.home = home ∧
        q.state = .journaling ∧
              q.dirty = true) ∧
    (∃ (s : State) (ala step : Nat) (data : LineData) (rest : List Flight) (g : LogLine) (u t : State) (home spare : Nat) (q :
        _) (e : RemapEntry) (target : Nat) (marks : List SpareMark),
              (e.spare = none ∧ marks = insertMark target .bound s.map.marks) ∧
      findSlot s home = some q ∧
      q.home = home ∧
        q.state = .journaling ∧
       q.dirty = false ∧
      q.waiting = [] ∧
      s.port.command = none ∧
      entryOf s home = some e ∧
      e.target = some target) ∧
    (∃ (s : State) (ala step : Nat) (data : LineData) (rest : List Flight) (g : LogLine) (u t : State) (home spare : Nat) (q :
        _) (e : RemapEntry) (target : Nat) (marks : List SpareMark),
             (∃ old, e.spare = some old ∧ marks = insertMark old .dead (insertMark target .bound s.map.marks)) ∧
      findSlot s home = some q ∧
      q.home = home ∧
        q.state = .journaling ∧
       q.dirty = false ∧
      q.waiting = [] ∧
      s.port.command = none ∧
      entryOf s home = some e ∧
      e.target = some target) :=
  ⟨⟨fly (.write 258053 0) (.journalWrite .log) { run with jour := { run.jour with state := .appending, queue := [.dead 257030], line := some ⟨1, 10⟩ } },
     258053, 0, 0, [], ⟨1, 10⟩, _, _, rfl, (by
      intro r h
      have h : r ∈ [Record.dead 257030] := h
      rw [List.mem_singleton.mp h]
      exact ⟨_, rfl⟩),
     rfl, by decide +kernel⟩,
    ⟨fly (.write 258053 0) (.journalWrite .log) { moving .journaling true 1 with jour := { run.jour with state := .appending, queue := [.bind 0 257024], line := some ⟨1, 10⟩ } },
     258053, 0, 0, [], ⟨1, 10⟩, _, _, 0, 257024,
     { home := 0, data := 0xCD, state := .journaling, dirty := true, attempts := 1, epoch := none, waiting := [] }, rfl, rfl,
     by decide +kernel⟩,
    ⟨cmd (.fenceAdjust 257984) run, 7, 257984, _, rfl, by decide +kernel⟩,
    ⟨cmd .policyExchange run, 7, 0, _, .default, rfl, by decide +kernel⟩,
    ⟨fly (.write 258053 0) (.journalWrite .log) { run with jour := { run.jour with state := .appending, queue := [.dead 257030], line := some ⟨1, 10⟩ } },
     258053, 0, 0, [], ⟨1, 10⟩, _, run, rfl, by decide +kernel⟩,
    ⟨fly (.write 258053 0) (.journalWrite .log) { run with jour := { run.jour with state := .appending, queue := [.dead 257030], line := some ⟨1, 10⟩ } },
     258053, 0, 0, [], ⟨1, 10⟩, _, _, rfl, rfl, by decide +kernel⟩,
    ⟨run, 0, 0, 0, [], ⟨1, 10⟩, run, run, 257024, (fun c h => (nomatch (show (none : Option InProgress) = some c from h)))⟩,
    ⟨cmd (.fenceAdjust 257984) run, 0, 0, 0, [], ⟨1, 10⟩, run, run, 257024, (fun c h => by cases h; decide)⟩,
    ⟨run, 0, 0, 0, [], ⟨1, 10⟩, run, run, .default, (fun c h => (nomatch (show (none : Option InProgress) = some c from h)))⟩,
    ⟨cmd .journalCompact run, 0, 0, 0, [], ⟨1, 10⟩, run, run, .default, (fun c h => by cases h; decide)⟩,
    ⟨run, 0, 0, 0, [], ⟨1, 10⟩, run, run, 0, 257024, (fun q h => (nomatch (show (none : Option Slot) = some q from h)))⟩,
    ⟨moving .finishing true 1, 0, 0, 0, [], ⟨1, 10⟩, run, run, 0, 257024, (fun q h => by cases h; decide)⟩,
    ⟨moving .journaling true 1, 0, 0, 0, [], ⟨1, 10⟩, run, run, 0, 257024,
     { home := 0, data := 0xCD, state := .journaling, dirty := true, attempts := 1, epoch := none, waiting := [] },
     by decide +kernel⟩,
    ⟨moving .journaling false 1, 0, 0, 0, [], ⟨1, 10⟩, run, run, 0, 257024,
     { home := 0, data := 0xCD, state := .journaling, dirty := false, attempts := 1, epoch := none, waiting := [] },
     { home := 0, spare := none, target := some 257024, cause := some .writeFault, boundTick := none }, 257024, _,
     ⟨rfl, rfl⟩, by decide +kernel⟩,
    ⟨{ moving .journaling false 1 with map := { run.map with table := [{ home := 0, spare := some 257030, target := some 257024, cause := none, boundTick := none }] } },
     0, 0, 0, [], ⟨1, 10⟩, run, run, 0, 257024,
     { home := 0, data := 0xCD, state := .journaling, dirty := false, attempts := 1, epoch := none, waiting := [] },
     { home := 0, spare := some 257030, target := some 257024, cause := none, boundTick := none }, 257024, _, ⟨_, rfl, rfl⟩,
     by decide +kernel⟩⟩

theorem meets_imageLineAnswered :
    (∃ (s : State) (ala step : Nat) (data : LineData) (rest : List Flight) (c : Compaction) (t : State) (done next :
        List Record) (others : List (List Record)),
        t = placeRequest
              (.journalWrite .image (journalAla s c.bank (c.pos + 1))
                (journalLine (c.seq + 1) c.bank true others.isEmpty next))
              ((answerTaken rest s).setJour
                { s.jour with
                  state := .compacting
                  compaction := some { c with pos := c.pos + 1, seq := c.seq + 1, lines := next :: others } }) ∧
      s.array.inFlight = inFlightNow (.write ala data) (.journalWrite .image) step :: rest ∧
      s.jour.compaction = some c ∧
      c.lines = done :: next :: others) ∧
    (∃ (s : State) (ala step : Nat) (data : LineData) (rest : List Flight) (c : Compaction) (t : State),
       (∃ last, c.lines = [last]) ∧
        t = (answerTaken rest s).setJour
              { s.jour with
                state := .ready, active := some c.bank, nextLine := c.pos + 1, lastSeq := c.seq, compaction := none
                faulted := [] } ∧
      s.array.inFlight = inFlightNow (.write ala data) (.journalWrite .image) step :: rest ∧
      s.jour.compaction = some c ∧
      s.map.range = none ∧
      s.port.command = none) ∧
    (∃ (s : State) (ala step : Nat) (data : LineData) (rest : List Flight) (c : Compaction) (u t : State),
      u = settleBarriers
            ((writeFault .journalWriteFault none (some ala) none (answerTaken rest s)).setJour
              { s.jour with state := .stalled, compaction := none }) ∧
      t = u.setAlert { u.alert with causes := u.alert.causes ||| AlertCause.journal.bit } ∧
      s.array.inFlight = inFlightNow (.write ala data) (.journalWrite .image) step :: rest ∧
      s.jour.compaction = some c ∧
      c.faults ≠ 0 ∧
      s.port.command = none) ∧
    (∃ (s : State) (bank : Bank) (faults : Nat),
      s.jour.active = some bank) ∧
    (∃ (s : State) (ala step : Nat) (data : LineData) (rest : List Flight) (c : Compaction) (u v t : State),
         u = writeFault .journalWriteFault none (some ala) none (answerTaken rest s) ∧
      s.array.inFlight = inFlightNow (.write ala data) (.journalWrite .image) step :: rest ∧
      s.jour.compaction = some c ∧
       c.faults = 0) ∧
    (∃ (s : State) (ala step : Nat) (data : LineData) (rest : List Flight) (c : Compaction) (u v t : State),
         u = writeFault .journalWriteFault none (some ala) none (answerTaken rest s) ∧
      v = settleBarriers (u.setJour { s.jour with state := .stalled, compaction := none }) ∧
      s.array.inFlight = inFlightNow (.write ala data) (.journalWrite .image) step :: rest ∧
      s.jour.compaction = some c ∧
      c.faults ≠ 0) ∧
    (∃ (s : State) (ala step : Nat) (data : LineData) (rest : List Flight) (c : Compaction) (u v t : State) (last :
        List Record) (range : Option FenceRange),
         u = writeFault .journalWriteFault none (some ala) none (answerTaken rest s) ∧
          ((∀ r, s.map.range = some r → r.kept = false) ∧ range = s.map.range) ∧
        t = ((answerTaken rest s).setMap { s.map with range }).setJour
              { s.jour with
                state := .ready, active := some c.bank, nextLine := c.pos + 1, lastSeq := c.seq, compaction := none
                faulted := [] } ∧
         (∀ p, s.port.command = some p → p.command ≠ .journalCompact) ∧
      s.array.inFlight = inFlightNow (.write ala data) (.journalWrite .image) step :: rest ∧
      s.jour.compaction = some c ∧
      c.lines = [last]) ∧
    (∃ (s : State) (ala step : Nat) (data : LineData) (rest : List Flight) (c : Compaction) (u v t : State) (last :
        List Record) (range : Option FenceRange),
         u = writeFault .journalWriteFault none (some ala) none (answerTaken rest s) ∧
         ((∃ r, s.map.range = some r ∧ r.kept = true) ∧ range = none) ∧
        t = ((answerTaken rest s).setMap { s.map with range }).setJour
              { s.jour with
                state := .ready, active := some c.bank, nextLine := c.pos + 1, lastSeq := c.seq, compaction := none
                faulted := [] } ∧
         (∀ p, s.port.command = some p → p.command ≠ .journalCompact) ∧
      s.array.inFlight = inFlightNow (.write ala data) (.journalWrite .image) step :: rest ∧
      s.jour.compaction = some c ∧
      c.lines = [last]) ∧
    (∃ (s : State) (ala step : Nat) (data : LineData) (rest : List Flight) (c : Compaction) (u v t : State) (last :
        List Record) (range : Option FenceRange),
         u = writeFault .journalWriteFault none (some ala) none (answerTaken rest s) ∧
          ((∀ r, s.map.range = some r → r.kept = false) ∧ range = s.map.range) ∧
        t = ((answerTaken rest s).setMap { s.map with range }).setJour
              { s.jour with
                state := .ready, active := some c.bank, nextLine := c.pos + 1, lastSeq := c.seq, compaction := none
                faulted := [] } ∧
         (∀ p, s.port.command = some p → p.command ≠ .journalCompact) ∧
      s.array.inFlight = inFlightNow (.write ala data) (.journalWrite .image) step :: rest ∧
      s.jour.compaction = some c ∧
      c.lines = [last]) ∧
    (∃ (s : State) (ala step : Nat) (data : LineData) (rest : List Flight) (c : Compaction) (u v t : State) (last :
        List Record) (range : Option FenceRange) (seq : _),
         u = writeFault .journalWriteFault none (some ala) none (answerTaken rest s) ∧
          ((∀ r, s.map.range = some r → r.kept = false) ∧ range = s.map.range) ∧
        t = ((answerTaken rest s).setMap { s.map with range }).setJour
              { s.jour with
                state := .ready, active := some c.bank, nextLine := c.pos + 1, lastSeq := c.seq, compaction := none
                faulted := [] } ∧
      s.array.inFlight = inFlightNow (.write ala data) (.journalWrite .image) step :: rest ∧
      s.jour.compaction = some c ∧
      c.lines = [last] ∧
      s.port.command = some { seq, command := .journalCompact }) ∧
    (∃ (s : State) (seq : Byte) (t : State),
      s.port.command = none) ∧
    (∃ (s : State) (seq : Byte) (t : State),
      s.port.command = some { seq, command := .journalCompact }) ∧
    (∃ (s : State) (seq : Byte) (t : State) (home moving : _),
        t = s.setReloc
              { s.reloc with
                reserved := none
                queue := s.reloc.queue.filter fun q => match q with
                  | .reservation _ => false
                  | .request _ _ _ => true
                retireReads := s.reloc.retireReads.map fun q => { q with live := false } } ∧
      s.port.command = some { seq, command := .lineRetire home moving }) ∧
    (∃ (s : State) (seq : Byte) (t : State) (home moving : _),
        t = s.setReloc
              { s.reloc with
                reserved := none
                queue := s.reloc.queue.filter fun q => match q with
                  | .reservation _ => false
                  | .request _ _ _ => true
                retireReads := s.reloc.retireReads.map fun q => { q with live := false } } ∧
      s.port.command = some { seq, command := .lineRetire home moving }) ∧
    (∃ (s : State) (seq : Byte) (t : State),
           s.port.command = some { seq, command := .bridgeRestart }) ∧
    (∃ (s : State) (seq : Byte) (t : State) (kept : Record → Bool),
      (∀ r, kept r = false ↔ ∃ p, r = .policy p) ∧
      s.port.command = some { seq, command := .policyExchange }) ∧
    (∃ (s : State) (seq : Byte) (t : State) (new : Nat) (kept : Record → Bool) (range : Option FenceRange),
        (∀ r, kept r = false ↔ ∃ f, r = .fence f) ∧
         (range = none ∧ ∀ r ∈ s.jour.faulted, kept r = true) ∧
       s.port.command = some { seq, command := .fenceAdjust new }) ∧
    (∃ (s : State) (seq : Byte) (t : State) (new : Nat) (kept : Record → Bool) (range : Option FenceRange),
        (∀ r, kept r = false ↔ ∃ f, r = .fence f) ∧
          ((∃ r ∈ s.jour.faulted, kept r = false) ∧ range = s.map.range.map fun x => { x with kept := true }) ∧
       s.port.command = some { seq, command := .fenceAdjust new }) :=
  ⟨⟨fly (.write 260096 0) (.journalWrite .image) (compacting [[.fence 257024], [.dead 257030]] 0), 260096, 0, 0, [],
     { bank := .b, pos := 0, seq := 10, lines := [[.fence 257024], [.dead 257030]], faults := 0 }, _, [.fence 257024],
     [.dead 257030], [], rfl, by decide +kernel⟩,
    ⟨fly (.write 260096 0) (.journalWrite .image) (compacting [[.fence 257024]] 1), 260096, 0, 0, [],
     { bank := .b, pos := 0, seq := 10, lines := [[.fence 257024]], faults := 1 }, _, ⟨_, rfl⟩, rfl, by decide +kernel⟩,
    ⟨fly (.write 260096 0) (.journalWrite .image) (compacting [[.fence 257024]] 1), 260096, 0, 0, [],
     { bank := .b, pos := 0, seq := 10, lines := [[.fence 257024]], faults := 1 }, _, _, rfl, rfl, by decide +kernel⟩,
    ⟨run, .a, 0, by decide +kernel⟩,
    ⟨fly (.write 260096 0) (.journalWrite .image) (compacting [[.fence 257024]] 0), 260096, 0, 0, [],
     { bank := .b, pos := 0, seq := 10, lines := [[.fence 257024]], faults := 0 }, _, run, run, rfl, by decide +kernel⟩,
    ⟨fly (.write 260096 0) (.journalWrite .image) (compacting [[.fence 257024]] 1), 260096, 0, 0, [],
     { bank := .b, pos := 0, seq := 10, lines := [[.fence 257024]], faults := 1 }, _, _, run, rfl, rfl, by decide +kernel⟩,
    ⟨fly (.write 260096 0) (.journalWrite .image) (compacting [[.fence 257024]] 0), 260096, 0, 0, [],
     { bank := .b, pos := 0, seq := 10, lines := [[.fence 257024]], faults := 0 }, _, run, _, [.fence 257024], _, rfl,
     ⟨fun r h => (nomatch (show (none : Option FenceRange) = some r from h)), rfl⟩, rfl,
     (fun c h => (nomatch (show (none : Option InProgress) = some c from h))), by decide +kernel⟩,
    ⟨{ fly (.write 260096 0) (.journalWrite .image) (compacting [[.fence 257024]] 0) with map := { run.map with range := some ⟨.withdrawal, 257024, 257030, true⟩ } },
     260096, 0, 0, [], { bank := .b, pos := 0, seq := 10, lines := [[.fence 257024]], faults := 0 }, _, run, _,
     [.fence 257024], _, rfl, ⟨⟨_, rfl, rfl⟩, rfl⟩, rfl,
     (fun c h => (nomatch (show (none : Option InProgress) = some c from h))), by decide +kernel⟩,
    ⟨cmd .policyExchange ({ fly (.write 260096 0) (.journalWrite .image) (compacting [[.fence 257024]] 0) with map := { run.map with range := some ⟨.withdrawal, 257024, 257030, false⟩ } }),
     260096, 0, 0, [], { bank := .b, pos := 0, seq := 10, lines := [[.fence 257024]], faults := 0 }, _, run, _,
     [.fence 257024], _, rfl, ⟨fun r h => by cases h; rfl, rfl⟩, rfl, (fun c h => by cases h; decide), by decide +kernel⟩,
    ⟨cmd .journalCompact (fly (.write 260096 0) (.journalWrite .image) (compacting [[.fence 257024]] 0)), 260096, 0, 0, [],
     { bank := .b, pos := 0, seq := 10, lines := [[.fence 257024]], faults := 0 }, _, run, _, [.fence 257024], _, 7, rfl,
     ⟨fun r h => (nomatch (show (none : Option FenceRange) = some r from h)), rfl⟩, rfl, by decide +kernel⟩,
    ⟨run, 7, run, by decide +kernel⟩,
    ⟨cmd .journalCompact run, 7, run, by decide +kernel⟩,
    ⟨cmd (.lineRetire 0 false) run, 7, _, 0, false, rfl, by decide +kernel⟩,
    ⟨cmd (.lineRetire 0 true) run, 7, _, 0, true, rfl, by decide +kernel⟩,
    ⟨cmd .bridgeRestart run, 7, run, by decide +kernel⟩,
    ⟨cmd .policyExchange run, 7, run, fun r => match r with | .policy _ => false | _ => true, (fun r => by cases r <;> simp),
     by decide +kernel⟩,
    ⟨cmd (.fenceAdjust 257984) run, 7, run, 257984, fun r => match r with | .fence _ => false | _ => true, _,
     (fun r => by cases r <;> simp), ⟨rfl, fun r h => (nomatch h)⟩, by decide +kernel⟩,
    ⟨cmd (.fenceAdjust 257984) { run with jour := { run.jour with faulted := [.fence 257984] } }, 7, run, 257984,
     fun r => match r with | .fence _ => false | _ => true, _, (fun r => by cases r <;> simp),
     ⟨⟨_, List.mem_singleton.mpr rfl, rfl⟩, rfl⟩, by decide +kernel⟩⟩

theorem meets_formatLineAnswered :
    (∃ (s : State) (ala step : Nat) (data : LineData) (rest : List Flight) (j : FormatJob) (t : State),
        t = (placeRequest
              (.journalWrite .format (journalAla s (formatPlace (j.index + 1)).1 (formatPlace (j.index + 1)).2)
                (formatLine j.fence (j.index + 1))) (answerTaken rest s)).setStart
              { s.start with format := some { j with index := j.index + 1 } } ∧
      s.array.inFlight = inFlightNow (.write ala data) (.journalWrite .format) step :: rest ∧
      s.start.format = some j ∧
       j.index + 1 < 4096) ∧
    (∃ (s : State) (ala step : Nat) (data : LineData) (rest : List Flight) (j : FormatJob) (t : State) (seq : Byte),
        t = completeCommand seq .journalFault []
              (writeFault .journalWriteFault none (some ala) none
                ((answerTaken rest s).setStart { s.start with format := none })) ∧
      s.array.inFlight = inFlightNow (.write ala data) (.journalWrite .format) step :: rest ∧
      s.start.format = some j ∧
      s.port.command = some { seq, command := .journalFormat }) ∧
    (∃ (s : State) (ala step : Nat) (data : LineData) (rest : List Flight) (j : FormatJob) (t : State),
      t = placeRequest (.journalRead (s.array.lineCount - 4096))
            (((((answerTaken rest s).setMap
              { s.map with table := [], marks := [], poolBuilt := false, fence := none, range := none }).setJour
              { s.jour with
                state := .ready, active := none, nextLine := 0, queue := [], wait := [], line := none, compaction := none
                faulted := [] }).setPolicy { active := .default, staged := .default }).setStart
              { op := .starting, phase := .lineA, format := none }) ∧
      s.array.inFlight = inFlightNow (.write ala data) (.journalWrite .format) step :: rest ∧
      s.start.format = some j ∧
      j.index + 1 = 4096) ∧
    (∃ (i : Nat),
      i < 2048) ∧
    (∃ (i : Nat),
      i < 2048) ∧
    (∃ (i : Nat),
      i < 2047) ∧
    (∃ (i : Nat),
      i < 2047) ∧
    (∃ (f i : Nat) (bank : Bank),
      i < 4095 ∧
      (i < 2048 ∧ bank = .b)) ∧
    (∃ (f i : Nat) (bank : Bank),
      i < 4095 ∧
      (2048 ≤ i ∧ bank = .a)) ∧
    (∃ (f i : Nat) (bank : Bank),
      i < 4095 ∧
      (2048 ≤ i ∧ bank = .a)) :=
  ⟨⟨cmd .journalFormat (fly (.write 260096 0) (.journalWrite .format) { held .noJournal with start := ⟨.held .noJournal, .idle, some ⟨257024, 4094⟩⟩ }),
     260096, 0, 0, [], ⟨257024, 4094⟩, _, rfl, by decide +kernel⟩,
    ⟨cmd .journalFormat (fly (.write 260096 0) (.journalWrite .format) { held .noJournal with start := ⟨.held .noJournal, .idle, some ⟨257024, 4095⟩⟩ }),
     260096, 0, 0, [], ⟨257024, 4095⟩, _, 7, rfl, by decide +kernel⟩,
    ⟨cmd .journalFormat (fly (.write 260096 0) (.journalWrite .format) { held .noJournal with start := ⟨.held .noJournal, .idle, some ⟨257024, 4095⟩⟩ }),
     260096, 0, 0, [], ⟨257024, 4095⟩, _, rfl, by decide +kernel⟩,
    ⟨0, by decide +kernel⟩,
    ⟨2047, by decide +kernel⟩,
    ⟨0, by decide +kernel⟩,
    ⟨2046, by decide +kernel⟩,
    ⟨257024, 2047, .b, by decide +kernel⟩,
    ⟨257024, 2048, .a, by decide +kernel⟩,
    ⟨257024, 4094, .a, by decide +kernel⟩⟩

theorem meets_hostReadTimesOut :
    (∃ (s : State) (id ala step : Nat) (late rest : List Flight) (r : HostReq) (l : Ladder) (t : State),
    t = ((nextEvent s).setHost
          { s.host with
            order := s.host.order.map fun q =>
              if q.id == id then { q with stage := .inArray { l with step := l.step + 1 } } else q }).setArray
          { s.array with
            inFlight := late ++ { op := .read ala, owner := .hostRead id, step, timedOut := true } :: rest
            waiting := s.array.waiting ++ [{ body := .hostRead id, age := l.age }] } ∧
    (∀ f ∈ late, f.timedOut = true) ∧
    s.array.inFlight = late ++ inFlightNow (.read ala) (.hostRead id) step :: rest ∧
    findReq s id = some r ∧
             r.stage = .inArray l ∧
      l.step < l.depth) :=
  ⟨(let s := reqs [req 8 257023 (.inArray (lad 257023 3 true))] (fly (.read 257023) (.hostRead 8) run); { s with array := { s.array with inFlight := { op := .read 0, owner := .surveyRead, step := 0, timedOut := true } :: s.array.inFlight } }),
     8, 257023, 0, [{ op := .read 0, owner := .surveyRead, step := 0, timedOut := true }], [],
     req 8 257023 (.inArray (lad 257023 3 true)), lad 257023 3 true, _, rfl, by decide +kernel⟩

theorem meets_lateAnswerFreesPlace :
    (∃ (s : State) (answer : ArrayAnswer) (f : Flight) (rest : List Flight),
      s.array.inFlight = f :: rest ∧
      f.timedOut = true) ∧
    (∃ (s : State) (answer : ArrayAnswer) (f : Flight) (rest : List Flight),
      s.array.inFlight = f :: rest ∧
      f.timedOut = true ∧
         calm (answerTaken rest s) = true) ∧
    (∃ (s : State) (answer : ArrayAnswer),
     8 ≤ s.array.inFlight.length) :=
  ⟨⟨{ run with array := { run.array with inFlight := List.replicate 8 { op := .read 0, owner := .surveyRead, step := 0, timedOut := true } } },
     .write .done, { op := .read 0, owner := .surveyRead, step := 0, timedOut := true },
     List.replicate 7 { op := .read 0, owner := .surveyRead, step := 0, timedOut := true }, by decide +kernel⟩,
    ⟨{ run with array := { run.array with inFlight := List.replicate 8 { op := .read 0, owner := .surveyRead, step := 0, timedOut := true } } },
     .write .done, { op := .read 0, owner := .surveyRead, step := 0, timedOut := true },
     List.replicate 7 { op := .read 0, owner := .surveyRead, step := 0, timedOut := true }, by decide +kernel⟩,
    ⟨{ run with array := { run.array with inFlight := List.replicate 8 { op := .read 0, owner := .surveyRead, step := 0, timedOut := true } } },
     .ident 0, by decide +kernel⟩⟩

theorem meets_arbiterChoosesLowestClass :
    (∃ (s : State),
     s.array.waiting ≠ []) ∧
    (∃ (s : State) (r : ArbReq),
      chooseRequest s = some r) ∧
    (∃ (s : State) (r : ArbReq) (q : _),
      chooseRequest s = some r ∧
      q ∈ s.array.waiting) ∧
    (∃ (s : State) (ref e : _),
            findItem s ref = some e ∧
      e.mask = BitVec.allOnes 64 ∧
      8 ≤ s.buf.entries.length) ∧
    (∃ (s : State) (ref e : _),
            findItem s ref = some e ∧
      e.mask ≠ BitVec.allOnes 64) ∧
    (∃ (s : State) (ref e : _),
            findItem s ref = some e ∧
      e.mask = BitVec.allOnes 64 ∧
      s.buf.entries.length < 8) :=
  ⟨⟨ask [.surveyRead, .journalRead 258048] run, by decide +kernel⟩,
    ⟨ask [.surveyRead, .journalRead 258048] run, ⟨.journalRead 258048, ⟨0, false, 0⟩⟩, by decide +kernel⟩,
    ⟨ask [.surveyRead, .journalRead 258048] run, ⟨.journalRead 258048, ⟨0, false, 0⟩⟩, ⟨.surveyRead, ⟨0, false, 0⟩⟩,
     by decide +kernel⟩,
    ⟨bufs (List.replicate 8 (ent 1 0 (BitVec.allOnes 64) .waiting)) run, .entry 1, ent 1 0 (BitVec.allOnes 64) .waiting,
     by decide +kernel⟩,
    ⟨bufs [ent 1 0 1 .waiting] run, .entry 1, ent 1 0 1 .waiting, by decide +kernel⟩,
    ⟨bufs (List.replicate 7 (ent 1 0 (BitVec.allOnes 64) .waiting)) run, .entry 1, ent 1 0 (BitVec.allOnes 64) .waiting,
     by decide +kernel⟩⟩

theorem meets_grantIssuesRequest :
    (∃ (s : State) (q : ArbReq) (t : State),
     8 ≤ s.array.inFlight.length) ∧
    (∃ (s : State) (q : ArbReq) (t : State),
      s.array.waiting = []) ∧
    (∃ (s : State) (q : ArbReq) (t : State) (id : Nat) (r : HostReq) (l : Ladder),
          t = (((nextEvent s).setArray
                { s.array with
                  waiting := s.array.waiting.erase q
                  inFlight := s.array.inFlight ++ [inFlightNow (.read l.ala) (.hostRead id) l.step] }).setHost
                { s.host with
                  order := s.host.order.map fun x =>
                    if x.id == id then { x with stage := .inArray { l with granted := true } } else x }).setOut
                { s.out with array := s.out.array ++ [.read l.ala] } ∧
       s.array.inFlight.length < 8 ∧
      chooseRequest s = some q ∧
      q.body = .hostRead id ∧
    findReq s id = some r ∧
             r.stage = .inArray l) ∧
    (∃ (s : State) (q : ArbReq) (t : State) (ala : Nat),
          t = ((nextEvent s).setArray
                { s.array with
                  waiting := s.array.waiting.erase q
                  inFlight := s.array.inFlight ++ [inFlightNow (.read ala) .journalRead 0] }).setOut
                { s.out with array := s.out.array ++ [.read ala] } ∧
       s.array.inFlight.length < 8 ∧
      chooseRequest s = some q ∧
      q.body = .journalRead ala) ∧
    (∃ (s : State) (q : ArbReq) (t : State) (kind : JournalWriteKind) (ala : Nat) (data : LineData),
          t = ((nextEvent s).setArray
                { s.array with
                  waiting := s.array.waiting.erase q
                  inFlight := s.array.inFlight ++ [inFlightNow (.write ala data) (.journalWrite kind) 0] }).setOut
                { s.out with array := s.out.array ++ [.write ala data (.code ala data)] } ∧
       s.array.inFlight.length < 8 ∧
      chooseRequest s = some q ∧
      q.body = .journalWrite kind ala data) ∧
    (∃ (s : State) (q : ArbReq) (id : Nat) (e : Item) (place : Nat) (t : State),
          place = ((entryOf s e.hla).bind (·.spare)).getD e.hla ∧
        t = (((nextEvent s).setArray
              { s.array with
                waiting := s.array.waiting.erase q
                inFlight := s.array.inFlight ++ [inFlightNow (.write place e.data) (.drainWrite (.entry id)) 0] }).setBuf
              { s.buf with
                entries := s.buf.entries.map fun x =>
                  if x.id == id then { x with phase := .writing, place } else x }).setOut
              { s.out with array := s.out.array ++ [.write place e.data (.code place e.data)] } ∧
       s.array.inFlight.length < 8 ∧
      chooseRequest s = some q ∧
      q.body = .drain (.entry id) ∧
        findItem s (.entry id) = some e ∧
      isMoving s e.hla = false ∧
      isPending s e.hla = false ∧
      e.mask = BitVec.allOnes 64) ∧
    (∃ (s : State) (q : ArbReq) (id : Nat) (e : Item) (place : Nat) (t : State),
          place = ((entryOf s e.hla).bind (·.spare)).getD e.hla ∧
        t = (((nextEvent s).setArray
              { s.array with
                waiting := s.array.waiting.erase q
                inFlight := s.array.inFlight ++ [inFlightNow (.read place) (.rmwRead (.entry id)) 0] }).setBuf
              { s.buf with
                entries := s.buf.entries.map fun x =>
                  if x.id == id then
                    { x with
                      phase := .reading, place
                      ladder := some
                        { ala := place, depth := s.policy.active.retryDepth, step := 0, age := q.age, granted := true } }
                  else x }).setOut
              { s.out with array := s.out.array ++ [.read place] } ∧
       s.array.inFlight.length < 8 ∧
      chooseRequest s = some q ∧
      q.body = .drain (.entry id) ∧
        findItem s (.entry id) = some e ∧
      isMoving s e.hla = false ∧
      isPending s e.hla = false ∧
      e.mask ≠ BitVec.allOnes 64) ∧
    (∃ (s : State) (q : ArbReq) (t : State) (sent : ArrayOp → Owner → Nat → State) (home place : Nat) (kind : SlotWriteKind)
        (x : Slot),
      (∀ op owner step, sent op owner step =
        ((nextEvent s).setArray
          { s.array with
            waiting := s.array.waiting.erase q, inFlight := s.array.inFlight ++ [inFlightNow op owner step] }).setOut
          { s.out with
            array := s.out.array ++
              [match op with
                | .ident => .ident
                | .read a => .read a
                | .write a d => .write a d (.code a d)] }) ∧
         ((x.state = .writing ∨ x.state = .journaling) ∧ kind = .target ∧
            place = ((entryOf s x.home).bind (·.target)).getD x.home) ∧
        t = (sent (.write place x.data) (.slotWrite home kind) 0).setReloc
              { s.reloc with
                slots := s.reloc.slots.map fun y => if y.home == home then { y with dirty := false } else y } ∧
       s.array.inFlight.length < 8 ∧
      chooseRequest s = some q ∧
      q.body = .slotWrite home ∧
      findSlot s home = some x) ∧
    (∃ (s : State) (q : ArbReq) (t : State) (sent : ArrayOp → Owner → Nat → State) (home place : Nat) (kind : SlotWriteKind)
        (x : Slot),
      (∀ op owner step, sent op owner step =
        ((nextEvent s).setArray
          { s.array with
            waiting := s.array.waiting.erase q, inFlight := s.array.inFlight ++ [inFlightNow op owner step] }).setOut
          { s.out with
            array := s.out.array ++
              [match op with
                | .ident => .ident
                | .read a => .read a
                | .write a d => .write a d (.code a d)] }) ∧
         ((x.state = .writing ∨ x.state = .journaling) ∧ kind = .target ∧
            place = ((entryOf s x.home).bind (·.target)).getD x.home) ∧
        t = (sent (.write place x.data) (.slotWrite home kind) 0).setReloc
              { s.reloc with
                slots := s.reloc.slots.map fun y => if y.home == home then { y with dirty := false } else y } ∧
       s.array.inFlight.length < 8 ∧
      chooseRequest s = some q ∧
      q.body = .slotWrite home ∧
      findSlot s home = some x) ∧
    (∃ (s : State) (q : ArbReq) (t : State) (sent : ArrayOp → Owner → Nat → State) (home place : Nat) (kind : SlotWriteKind)
        (x : Slot),
      (∀ op owner step, sent op owner step =
        ((nextEvent s).setArray
          { s.array with
            waiting := s.array.waiting.erase q, inFlight := s.array.inFlight ++ [inFlightNow op owner step] }).setOut
          { s.out with
            array := s.out.array ++
              [match op with
                | .ident => .ident
                | .read a => .read a
                | .write a d => .write a d (.code a d)] }) ∧
          (x.state = .finishing ∧ kind = .finishing ∧ place = ((entryOf s x.home).bind (·.target)).getD x.home) ∧
        t = (sent (.write place x.data) (.slotWrite home kind) 0).setReloc
              { s.reloc with
                slots := s.reloc.slots.map fun y => if y.home == home then { y with dirty := false } else y } ∧
       s.array.inFlight.length < 8 ∧
      chooseRequest s = some q ∧
      q.body = .slotWrite home ∧
      findSlot s home = some x) ∧
    (∃ (s : State) (q : ArbReq) (t : State) (sent : ArrayOp → Owner → Nat → State) (home place : Nat) (kind : SlotWriteKind)
        (x : Slot),
      (∀ op owner step, sent op owner step =
        ((nextEvent s).setArray
          { s.array with
            waiting := s.array.waiting.erase q, inFlight := s.array.inFlight ++ [inFlightNow op owner step] }).setOut
          { s.out with
            array := s.out.array ++
              [match op with
                | .ident => .ident
                | .read a => .read a
                | .write a d => .write a d (.code a d)] }) ∧
          (x.state = .returning ∧ kind = .fallback ∧ place = ((entryOf s x.home).bind (·.spare)).getD x.home) ∧
        t = (sent (.write place x.data) (.slotWrite home kind) 0).setReloc
              { s.reloc with
                slots := s.reloc.slots.map fun y => if y.home == home then { y with dirty := false } else y } ∧
       s.array.inFlight.length < 8 ∧
      chooseRequest s = some q ∧
      q.body = .slotWrite home ∧
      findSlot s home = some x) ∧
    (∃ (s : State) (q : ArbReq) (t : State) (sent : ArrayOp → Owner → Nat → State) (ref e : _),
      (∀ op owner step, sent op owner step =
        ((nextEvent s).setArray
          { s.array with
            waiting := s.array.waiting.erase q, inFlight := s.array.inFlight ++ [inFlightNow op owner step] }).setOut
          { s.out with
            array := s.out.array ++
              [match op with
                | .ident => .ident
                | .read a => .read a
                | .write a d => .write a d (.code a d)] }) ∧
      t = sent (.write e.place e.data) (.inPlace ref) 0 ∧
       s.array.inFlight.length < 8 ∧
      chooseRequest s = some q ∧
      q.body = .inPlace ref ∧
            findItem s ref = some e) ∧
    (∃ (s : State) (q : ArbReq) (t : State) (sent : ArrayOp → Owner → Nat → State) (id r : _),
      (∀ op owner step, sent op owner step =
        ((nextEvent s).setArray
          { s.array with
            waiting := s.array.waiting.erase q, inFlight := s.array.inFlight ++ [inFlightNow op owner step] }).setOut
          { s.out with
            array := s.out.array ++
              [match op with
                | .ident => .ident
                | .read a => .read a
                | .write a d => .write a d (.code a d)] }) ∧
        t = (sent (.read r.ladder.ala) (.retireRead id) r.ladder.step).setReloc
              { s.reloc with
                retireReads := s.reloc.retireReads.map fun y =>
                  if y.id == id then { y with ladder := { y.ladder with granted := true } } else y } ∧
       s.array.inFlight.length < 8 ∧
      chooseRequest s = some q ∧
      q.body = .retireRead id ∧
      findRetireRead s id = some r) ∧
    (∃ (s : State) (q : ArbReq) (t : State) (sent : ArrayOp → Owner → Nat → State) (l d : _),
      (∀ op owner step, sent op owner step =
        ((nextEvent s).setArray
          { s.array with
            waiting := s.array.waiting.erase q, inFlight := s.array.inFlight ++ [inFlightNow op owner step] }).setOut
          { s.out with
            array := s.out.array ++
              [match op with
                | .ident => .ident
                | .read a => .read a
                | .write a d => .write a d (.code a d)] }) ∧
        t = (sent (.read d.ala) .surveyRead d.step).setSurvey
              { s.survey with live := some { l with phase := .reading { d with granted := true } } } ∧
       s.array.inFlight.length < 8 ∧
      chooseRequest s = some q ∧
              q.body = .surveyRead ∧
      s.survey.live = some l ∧
      l.phase = .reading d) ∧
    (∃ (s : State) (q : ArbReq) (t : State) (sent : ArrayOp → Owner → Nat → State) (ref e l : _),
      (∀ op owner step, sent op owner step =
        ((nextEvent s).setArray
          { s.array with
            waiting := s.array.waiting.erase q, inFlight := s.array.inFlight ++ [inFlightNow op owner step] }).setOut
          { s.out with
            array := s.out.array ++
              [match op with
                | .ident => .ident
                | .read a => .read a
                | .write a d => .write a d (.code a d)] }) ∧
        t = sent (.read l.ala) (.rmwRead ref) l.step ∧
       s.array.inFlight.length < 8 ∧
      chooseRequest s = some q ∧
      q.body = .rmwRead ref ∧
            findItem s ref = some e ∧
      e.ladder = some l) ∧
    (∃ (s : State) (q : ArbReq) (t : State) (sent : ArrayOp → Owner → Nat → State) (id : Nat) (e : Item) (place : Nat),
      (∀ op owner step, sent op owner step =
        ((nextEvent s).setArray
          { s.array with
            waiting := s.array.waiting.erase q, inFlight := s.array.inFlight ++ [inFlightNow op owner step] }).setOut
          { s.out with
            array := s.out.array ++
              [match op with
                | .ident => .ident
                | .read a => .read a
                | .write a d => .write a d (.code a d)] }) ∧
          place = ((entryOf s e.hla).bind (·.spare)).getD e.hla ∧
          t = (sent (.write place e.data) (.drainWrite (.direct id)) 0).setBuf
                { s.buf with
                  direct := s.buf.direct.map fun x => if x.id == id then { x with phase := .writing, place } else x } ∧
       s.array.inFlight.length < 8 ∧
      chooseRequest s = some q ∧
      q.body = .drain (.direct id) ∧
        findItem s (.direct id) = some e ∧
      isMoving s e.hla = false ∧
      isPending s e.hla = false ∧
      e.mask = BitVec.allOnes 64) ∧
    (∃ (s : State) (q : ArbReq) (t : State) (sent : ArrayOp → Owner → Nat → State) (id : Nat) (e : Item) (place : Nat),
      (∀ op owner step, sent op owner step =
        ((nextEvent s).setArray
          { s.array with
            waiting := s.array.waiting.erase q, inFlight := s.array.inFlight ++ [inFlightNow op owner step] }).setOut
          { s.out with
            array := s.out.array ++
              [match op with
                | .ident => .ident
                | .read a => .read a
                | .write a d => .write a d (.code a d)] }) ∧
          place = ((entryOf s e.hla).bind (·.spare)).getD e.hla ∧
          t = (sent (.read place) (.rmwRead (.direct id)) 0).setBuf
                { s.buf with
                  direct := s.buf.direct.map fun x =>
                    if x.id == id then
                      { x with
                        phase := .reading, place
                        ladder := some
                          { ala := place, depth := s.policy.active.retryDepth, step := 0, age := q.age, granted := true } }
                    else x } ∧
       s.array.inFlight.length < 8 ∧
      chooseRequest s = some q ∧
      q.body = .drain (.direct id) ∧
        findItem s (.direct id) = some e ∧
      isMoving s e.hla = false ∧
      isPending s e.hla = false ∧
      e.mask ≠ BitVec.allOnes 64) ∧
    (∃ (s : State) (id : Nat) (e : Item) (age : Age) (u : State),
        u = (s.setReloc
              { s.reloc with
                slots := s.reloc.slots.map fun q =>
                  if q.home == e.hla then
                    { q with
                      data := mergeLine q.data e.data e.mask
                      dirty := q.dirty || slotWriteInFlight s e.hla || q.state == .journaling
                      epoch := match q.epoch, e.epoch with
                        | some a, some b => some (min a b)
                        | some a, none => some a
                        | none, b => b }
                  else q }).setBuf { s.buf with entries := s.buf.entries.filter (·.id != id) } ∧
      (∀ r ∈ s.host.order, r.stage ≠ .waitEntry id) ∧
      isMoving s e.hla = true) ∧
    (∃ (s : State) (id : Nat) (e : Item) (age : Age) (u : State),
      isMoving s e.hla = false ∧
      isPending s e.hla = true ∧
      e.mask = BitVec.allOnes 64) ∧
    (∃ (s : State) (id : Nat) (e : Item) (age : Age) (u : State),
      isMoving s e.hla = false ∧
      isPending s e.hla = true ∧
      e.mask ≠ BitVec.allOnes 64) ∧
    (∃ (s : State) (id : Nat) (e : Item) (age : Age) (u : State) (n : Nat) (q : ArbReq),
        grantRequest q (s.setArray { s.array with waiting := s.array.waiting.erase q }) = .free u ∧
       s.array.inFlight.length < 8 ∧
      chooseRequest s = some q ∧
      steady u = true) ∧
    (∃ (s : State) (id : Nat) (e : Item) (age : Age) (u : State) (q : ArbReq),
        u = discardItem (.entry id) e .unreadableMerge ((nextEvent s).setArray { s.array with waiting := [] }) ∧
       s.array.inFlight.length < 8 ∧
      s.array.waiting = [q] ∧
      q.body = .drain (.entry id) ∧
        findItem s (.entry id) = some e ∧
      isMoving s e.hla = false ∧
      isPending s e.hla = true ∧
      e.mask ≠ BitVec.allOnes 64 ∧
        calm u = true) :=
  ⟨⟨{ run with array := { run.array with inFlight := List.replicate 8 { op := .read 0, owner := .surveyRead, step := 0, timedOut := true } } },
     ⟨.surveyRead, ⟨0, false, 0⟩⟩, run, by decide +kernel⟩,
    ⟨run, ⟨.surveyRead, ⟨0, false, 0⟩⟩, run, by decide +kernel⟩,
    ⟨(let s := ask [.hostRead 8] (reqs [req 8 257023 (.inArray (lad 257023 0 false))] run); { s with array := { s.array with inFlight := List.replicate 7 { op := .read 0, owner := .surveyRead, step := 0, timedOut := true } } }),
     ⟨.hostRead 8, ⟨0, false, 0⟩⟩, _, 8, req 8 257023 (.inArray (lad 257023 0 false)), lad 257023 0 false, rfl,
     by decide +kernel⟩,
    ⟨ask [.journalRead 258048] { State.reset with array := ⟨262144, [], []⟩ }, ⟨.journalRead 258048, ⟨0, false, 0⟩⟩, _,
     258048, rfl, by decide +kernel⟩,
    ⟨ask [.journalWrite .image 260096 0] (compacting [[.fence 257024]] 0), ⟨.journalWrite .image 260096 0, ⟨0, false, 0⟩⟩, _,
     .image, 260096, 0, rfl, by decide +kernel⟩,
    ⟨ask [.drain (.entry 1)] (bufs [ent 1 4 (BitVec.allOnes 64) .waiting] bound), ⟨.drain (.entry 1), ⟨0, false, 0⟩⟩, 1,
     ent 1 4 (BitVec.allOnes 64) .waiting, _, _, rfl, rfl, by decide +kernel⟩,
    ⟨ask [.drain (.entry 1)] (bufs [ent 1 0 1 .waiting] bound), ⟨.drain (.entry 1), ⟨0, false, 0⟩⟩, 1, ent 1 0 1 .waiting, _,
     _, rfl, rfl, by decide +kernel⟩,
    ⟨(let s := ask [.slotWrite 0] (moving .writing true 1); { s with array := { s.array with inFlight := List.replicate 7 { op := .read 0, owner := .surveyRead, step := 0, timedOut := true } } }),
     ⟨.slotWrite 0, ⟨0, false, 0⟩⟩, _, _, 0, _, _,
     { home := 0, data := 0xCD, state := .writing, dirty := true, attempts := 1, epoch := none, waiting := [] },
     (fun _ _ _ => rfl), ⟨.inl rfl, rfl, rfl⟩, rfl, by decide +kernel⟩,
    ⟨(let s := ask [.slotWrite 0] (moving .journaling false 1); { s with array := { s.array with inFlight := List.replicate 7 { op := .read 0, owner := .surveyRead, step := 0, timedOut := true } } }),
     ⟨.slotWrite 0, ⟨0, false, 0⟩⟩, _, _, 0, _, _,
     { home := 0, data := 0xCD, state := .journaling, dirty := false, attempts := 1, epoch := none, waiting := [] },
     (fun _ _ _ => rfl), ⟨.inr rfl, rfl, rfl⟩, rfl, by decide +kernel⟩,
    ⟨(let s := ask [.slotWrite 0] (moving .finishing true 1); { s with array := { s.array with inFlight := List.replicate 7 { op := .read 0, owner := .surveyRead, step := 0, timedOut := true } } }),
     ⟨.slotWrite 0, ⟨0, false, 0⟩⟩, _, _, 0, _, _,
     { home := 0, data := 0xCD, state := .finishing, dirty := true, attempts := 1, epoch := none, waiting := [] },
     (fun _ _ _ => rfl), ⟨rfl, rfl, rfl⟩, rfl, by decide +kernel⟩,
    ⟨(let s := ask [.slotWrite 0] ({ moving .returning false 3 with map := { run.map with table := [{ home := 0, spare := some 257030, target := some 257024, cause := none, boundTick := none }] } }); { s with array := { s.array with inFlight := List.replicate 7 { op := .read 0, owner := .surveyRead, step := 0, timedOut := true } } }),
     ⟨.slotWrite 0, ⟨0, false, 0⟩⟩, _, _, 0, _, _,
     { home := 0, data := 0xCD, state := .returning, dirty := false, attempts := 3, epoch := none, waiting := [] },
     (fun _ _ _ => rfl), ⟨rfl, rfl, rfl⟩, rfl, by decide +kernel⟩,
    ⟨(let s := ask [.inPlace (.entry 1)] (bufs [ent 1 0 (BitVec.allOnes 64) .relocating] run); { s with array := { s.array with inFlight := List.replicate 7 { op := .read 0, owner := .surveyRead, step := 0, timedOut := true } } }),
     ⟨.inPlace (.entry 1), ⟨0, false, 0⟩⟩, _, _, .entry 1, ent 1 0 (BitVec.allOnes 64) .relocating, (fun _ _ _ => rfl), rfl,
     by decide +kernel⟩,
    ⟨(let s := ask [.retireRead 2] { run with reloc := { run.reloc with retireReads := [rread 1 true] } }; { s with array := { s.array with inFlight := List.replicate 7 { op := .read 0, owner := .surveyRead, step := 0, timedOut := true } } }),
     ⟨.retireRead 2, ⟨0, false, 0⟩⟩, _, _, 2, rread 1 true, (fun _ _ _ => rfl), rfl, by decide +kernel⟩,
    ⟨(let s := ask [.surveyRead] (surveying (live 9 (.reading (lad 9 0 false)) none) run); { s with array := { s.array with inFlight := List.replicate 7 { op := .read 0, owner := .surveyRead, step := 0, timedOut := true } } }),
     ⟨.surveyRead, ⟨0, false, 0⟩⟩, _, _, live 9 (.reading (lad 9 0 false)) none, lad 9 0 false, (fun _ _ _ => rfl), rfl,
     by decide +kernel⟩,
    ⟨(let s := ask [.rmwRead (.entry 1)] (bufs [{ ent 1 0 1 .reading with ladder := some (lad 0 1 true) }] run); { s with array := { s.array with inFlight := List.replicate 7 { op := .read 0, owner := .surveyRead, step := 0, timedOut := true } } }),
     ⟨.rmwRead (.entry 1), ⟨0, false, 0⟩⟩, _, _, .entry 1, { ent 1 0 1 .reading with ladder := some (lad 0 1 true) },
     lad 0 1 true, (fun _ _ _ => rfl), rfl, by decide +kernel⟩,
    ⟨(let s := ask [.drain (.direct 8)] (dirs [ent 8 4 (BitVec.allOnes 64) .waiting] bound); { s with array := { s.array with inFlight := List.replicate 7 { op := .read 0, owner := .surveyRead, step := 0, timedOut := true } } }),
     ⟨.drain (.direct 8), ⟨0, false, 0⟩⟩, _, _, 8, ent 8 4 (BitVec.allOnes 64) .waiting, _, (fun _ _ _ => rfl), rfl, rfl,
     by decide +kernel⟩,
    ⟨(let s := ask [.drain (.direct 8)] (dirs [ent 8 257023 1 .waiting] run); { s with array := { s.array with inFlight := List.replicate 7 { op := .read 0, owner := .surveyRead, step := 0, timedOut := true } } }),
     ⟨.drain (.direct 8), ⟨0, false, 0⟩⟩, _, _, 8, ent 8 257023 1 .waiting, _, (fun _ _ _ => rfl), rfl, rfl, by decide +kernel⟩,
    ⟨bufs [ent 1 0 1 .waiting] (moving .writing false 1), 1, ent 1 0 1 .waiting, ⟨0, false, 0⟩, _, rfl,
     (fun q hq => (nomatch hq)), by decide +kernel⟩,
    ⟨pends [0] (bufs [ent 1 0 (BitVec.allOnes 64) .waiting] run), 1, ent 1 0 (BitVec.allOnes 64) .waiting, ⟨0, false, 0⟩,
     run, by decide +kernel⟩,
    ⟨pends [0] (bufs [ent 1 0 1 .waiting] run), 1, ent 1 0 1 .waiting, ⟨0, false, 0⟩, run, by decide +kernel⟩,
    ⟨pends [0] (ask [.drain (.entry 1)] (bufs [ent 1 0 1 .waiting] run)), 1, ent 1 0 1 .waiting, ⟨0, false, 0⟩, _, 0,
     ⟨.drain (.entry 1), ⟨0, false, 0⟩⟩, rfl, by decide +kernel⟩,
    ⟨pends [0] (ask [.drain (.entry 1)] (bufs [ent 1 0 1 .waiting] run)), 1, ent 1 0 1 .waiting, ⟨0, false, 0⟩, _,
     ⟨.drain (.entry 1), ⟨0, false, 0⟩⟩, rfl, by decide +kernel⟩⟩

theorem meets_serviceLinkBytes :
    (∃ (s : State) (b : Byte),
       s.port.sending.isSome = true) ∧
    (∃ (s : State) (b : Byte),
       s.port.sending = none ∧
         s.port.receiver = .hunting ∧
      b = 165) ∧
    (∃ (s : State) (b : Byte),
       s.port.sending = none ∧
         s.port.receiver = .hunting ∧
      b ≠ 165) ∧
    (∃ (s : State) (b : Byte),
       s.port.sending = none ∧
         s.port.receiver = .receiving [] ∧
      4 ≤ b.toNat ∧
      b.toNat ≤ 11) ∧
    (∃ (s : State) (b : Byte),
       s.port.sending = none ∧
         s.port.receiver = .receiving [] ∧
      4 ≤ b.toNat ∧
      b.toNat ≤ 11) ∧
    (∃ (s : State) (b : Byte),
       s.port.sending = none ∧
         s.port.receiver = .receiving [] ∧
      b.toNat < 4 ∧
      s.port.waiting = []) ∧
    (∃ (s : State) (b : Byte),
       s.port.sending = none ∧
         s.port.receiver = .receiving [] ∧
      11 < b.toNat ∧
      s.port.waiting = []) ∧
    (∃ (s : State) (b : Byte) (n : Byte) (got : List Byte),
       s.port.sending = none ∧
      s.port.receiver = .receiving (n :: got) ∧
      got.length + 1 < n.toNat) ∧
    (∃ (s : State),
         s.port.receiver = .hunting) ∧
    (∃ (s : State) (bytes : List Byte),
      s.port.receiver = .receiving bytes ∧
       s.port.sending = none) ∧
    (∃ (s : State),
       s.port.sending = none) ∧
    (∃ (s : State) (r : Response),
      s.port.sending = some r ∧
         s.port.receiver = .hunting) ∧
    (∃ (s : State) (seq code b : Byte) (args got : List Byte) (check : BitVec 16),
      args.length ≤ 7 ∧
       s.port.sending = none ∧
      s.port.receiver = .receiving got ∧
      got ++ [b] = BitVec.ofNat 8 (args.length + 4) :: seq :: code :: args ++ enc16 check.toNat) ∧
    (∃ (s : State) (seq code b : Byte) (args got : List Byte) (check : BitVec 16),
      args.length ≤ 7 ∧
       s.port.sending = none ∧
      s.port.receiver = .receiving got ∧
      got ++ [b] = BitVec.ofNat 8 (args.length + 4) :: seq :: code :: args ++ enc16 check.toNat) :=
  ⟨⟨port (fun p => { p with sending := some resp }) run, 165, by decide +kernel⟩,
    ⟨run, 165, by decide +kernel⟩,
    ⟨run, 164, by decide +kernel⟩,
    ⟨port (fun p => { p with receiver := .receiving [] }) run, 4, by decide +kernel⟩,
    ⟨port (fun p => { p with receiver := .receiving [] }) run, 11, by decide +kernel⟩,
    ⟨port (fun p => { p with receiver := .receiving [] }) run, 3, by decide +kernel⟩,
    ⟨port (fun p => { p with receiver := .receiving [] }) run, 12, by decide +kernel⟩,
    ⟨port (fun p => { p with receiver := .receiving [4, 1, 2] }) run, 0, 4, [1, 2], by decide +kernel⟩,
    ⟨run, by decide +kernel⟩,
    ⟨port (fun p => { p with receiver := .receiving [4] }) run, [4], by decide +kernel⟩,
    ⟨run, by decide +kernel⟩,
    ⟨port (fun p => { p with sending := some resp }) run, resp, by decide +kernel⟩,
    ⟨port (fun p => { p with receiver := .receiving [4, 9, 1, 0] }) run, 9, 1, 0x34, [], [4, 9, 1, 0], 0x34, by decide +kernel⟩,
    ⟨port (fun p => { p with receiver := .receiving [11, 9, 36, 0, 1, 0, 0, 1, 0, 0, 0] }) run, 9, 36, 0,
     [0, 1, 0, 0, 1, 0, 0], [11, 9, 36, 0, 1, 0, 0, 1, 0, 0, 0], 0, by decide +kernel⟩⟩

theorem meets_commandFramesChecked :
    (∃ (s : State) (seq code : Byte) (args : List Byte) (check : BitVec 16),
      args.length ≤ 7 ∧
       s.port.sending.isSome = true) ∧
    (∃ (s : State) (seq code : Byte) (args : List Byte) (check : BitVec 16),
      args.length ≤ 7 ∧
       s.port.sending = none ∧
         s.port.receiver = .hunting ∧
      s.port.waiting = [] ∧
         check ≠ commandCheck seq code args) ∧
    (∃ (s : State) (seq code : Byte) (args : List Byte) (check : BitVec 16) (lengths : _),
      args.length ≤ 7 ∧
       s.port.sending = none ∧
         s.port.receiver = .hunting ∧
      s.port.waiting = [] ∧
      argLengths code = some lengths ∧
      args.length ∉ lengths) ∧
    (∃ (s : State) (seq code : Byte) (args : List Byte) (check : BitVec 16) (c : _),
      (∀ lengths, argLengths code = some lengths → args.length ∈ lengths) ∧
      args.length ≤ 7 ∧
       s.port.sending = none ∧
         s.port.receiver = .hunting ∧
      s.port.waiting = [] ∧
         check = commandCheck seq code args ∧
      s.port.command = some c ∧
      c.seq = seq) ∧
    (∃ (s : State) (seq code : Byte) (args : List Byte) (check : BitVec 16) (c : _),
      (∀ lengths, argLengths code = some lengths → args.length ∈ lengths) ∧
      args.length ≤ 7 ∧
       s.port.sending = none ∧
         s.port.receiver = .hunting ∧
      s.port.waiting = [] ∧
         check = commandCheck seq code args ∧
      s.port.command = some c ∧
      c.seq ≠ seq) ∧
    (∃ (s : State) (seq code : Byte) (args : List Byte) (check : BitVec 16) (r : _),
      (∀ lengths, argLengths code = some lengths → args.length ∈ lengths) ∧
      args.length ≤ 7 ∧
       s.port.sending = none ∧
         s.port.receiver = .hunting ∧
      s.port.waiting = [] ∧
         check = commandCheck seq code args ∧
      s.port.command = none ∧
      s.port.stored = some r ∧
      r.seq = seq) ∧
    (∃ (s : State) (seq code : Byte) (args : List Byte) (check : BitVec 16),
      (∀ lengths, argLengths code = some lengths → args.length ∈ lengths) ∧
      args.length ≤ 7 ∧
       s.port.sending = none ∧
         s.port.receiver = .hunting ∧
      s.port.waiting = [] ∧
         check = commandCheck seq code args ∧
           portReady s seq = true ∧
             argLengths code = none) ∧
    (∃ (s : State) (seq code : Byte) (args : List Byte) (check : BitVec 16),
      (∀ lengths, argLengths code = some lengths → args.length ∈ lengths) ∧
      args.length ≤ 7 ∧
       s.port.sending = none ∧
         s.port.receiver = .hunting ∧
      s.port.waiting = [] ∧
         check = commandCheck seq code args ∧
           portReady s seq = true ∧
             64 ≤ code.toNat ∧
      code.toNat ≤ 69 ∧
      s.guard.state ≠ .open) ∧
    (∃ (s : State) (seq code : Byte) (args : List Byte) (check : BitVec 16),
      (∀ lengths, argLengths code = some lengths → args.length ∈ lengths) ∧
      args.length ≤ 7 ∧
       s.port.sending = none ∧
         s.port.receiver = .hunting ∧
      s.port.waiting = [] ∧
         check = commandCheck seq code args ∧
           portReady s seq = true ∧
             64 ≤ code.toNat ∧
      code.toNat ≤ 69 ∧
      s.guard.state ≠ .open) :=
  ⟨⟨port (fun p => { p with sending := some resp }) run, 1, 3, [0, 0, 0], 0, by decide +kernel⟩,
    ⟨run, 1, 1, [], 0, by decide +kernel⟩,
    ⟨run, 1, 1, [0], 0, [0], by decide +kernel⟩,
    ⟨cmd .policyExchange run, 7, 1, [], commandCheck 7 1 [], ⟨7, .policyExchange⟩, (fun l h => by cases h; decide),
     by decide +kernel⟩,
    ⟨cmd .policyExchange run, 8, 1, [], commandCheck 8 1 [], ⟨7, .policyExchange⟩, (fun l h => by cases h; decide),
     by decide +kernel⟩,
    ⟨port (fun p => { p with stored := some resp }) run, 7, 36, [0, 1, 0, 0, 1, 0, 0],
     commandCheck 7 36 [0, 1, 0, 0, 1, 0, 0], resp, (fun l h => by cases h; decide), by decide +kernel⟩,
    ⟨run, 8, 12, [], commandCheck 8 12 [], (fun l h => nomatch h), by decide +kernel⟩,
    ⟨frozen, 8, 64, [0, 0, 0, 0, 0, 0], commandCheck 8 64 [0, 0, 0, 0, 0, 0], (fun l h => by cases h; decide),
     by decide +kernel⟩,
    ⟨locked 0, 8, 69, [], commandCheck 8 69 [], (fun l h => by cases h; decide), by decide +kernel⟩⟩

theorem meets_guardCommandsAct :
    (∃ (s : State) (seq : Byte) (word : BitVec 32) (check : BitVec 16) (status : Status) (g : Guard),
     portTakes s seq 96 (enc32 word) check = true ∧
      ((s.guard.state = .open ∧ status = .ok ∧ g = { state := .locked, attempts := 5, word := some word }) ∨
        (s.guard.state ≠ .open ∧ status = .refusedGuard ∧ g = s.guard))) ∧
    (∃ (s : State) (seq : Byte) (word : BitVec 32) (check : BitVec 16) (status : Status) (g : Guard),
     portTakes s seq 96 (enc32 word) check = true ∧
      ((s.guard.state = .open ∧ status = .ok ∧ g = { state := .locked, attempts := 5, word := some word }) ∨
        (s.guard.state ≠ .open ∧ status = .refusedGuard ∧ g = s.guard))) ∧
    (∃ (s : State) (seq : Byte) (word : BitVec 32) (check : BitVec 16) (status : Status) (g : Guard),
     portTakes s seq 97 (enc32 word) check = true ∧
      ((s.guard.state = .open ∧ status = .ok ∧ g = s.guard) ∨
        (s.guard.state = .frozen ∧ status = .refusedGuard ∧ g = s.guard) ∨
        (s.guard.state = .locked ∧ s.guard.attempts = 0 ∧ status = .attempts ∧ g = s.guard) ∨
        (s.guard.state = .locked ∧ s.guard.attempts ≠ 0 ∧ s.guard.word = some word ∧ status = .ok ∧
          g = { state := .open, attempts := 5, word := none }) ∨
        (s.guard.state = .locked ∧ s.guard.attempts ≠ 0 ∧ s.guard.word ≠ some word ∧ status = .mismatch ∧
          g = { s.guard with attempts := s.guard.attempts - 1 }))) ∧
    (∃ (s : State) (seq : Byte) (word : BitVec 32) (check : BitVec 16) (status : Status) (g : Guard),
     portTakes s seq 97 (enc32 word) check = true ∧
      ((s.guard.state = .open ∧ status = .ok ∧ g = s.guard) ∨
        (s.guard.state = .frozen ∧ status = .refusedGuard ∧ g = s.guard) ∨
        (s.guard.state = .locked ∧ s.guard.attempts = 0 ∧ status = .attempts ∧ g = s.guard) ∨
        (s.guard.state = .locked ∧ s.guard.attempts ≠ 0 ∧ s.guard.word = some word ∧ status = .ok ∧
          g = { state := .open, attempts := 5, word := none }) ∨
        (s.guard.state = .locked ∧ s.guard.attempts ≠ 0 ∧ s.guard.word ≠ some word ∧ status = .mismatch ∧
          g = { s.guard with attempts := s.guard.attempts - 1 }))) ∧
    (∃ (s : State) (seq : Byte) (word : BitVec 32) (check : BitVec 16) (status : Status) (g : Guard),
     portTakes s seq 97 (enc32 word) check = true ∧
      ((s.guard.state = .open ∧ status = .ok ∧ g = s.guard) ∨
        (s.guard.state = .frozen ∧ status = .refusedGuard ∧ g = s.guard) ∨
        (s.guard.state = .locked ∧ s.guard.attempts = 0 ∧ status = .attempts ∧ g = s.guard) ∨
        (s.guard.state = .locked ∧ s.guard.attempts ≠ 0 ∧ s.guard.word = some word ∧ status = .ok ∧
          g = { state := .open, attempts := 5, word := none }) ∨
        (s.guard.state = .locked ∧ s.guard.attempts ≠ 0 ∧ s.guard.word ≠ some word ∧ status = .mismatch ∧
          g = { s.guard with attempts := s.guard.attempts - 1 }))) ∧
    (∃ (s : State) (seq : Byte) (word : BitVec 32) (check : BitVec 16) (status : Status) (g : Guard),
     portTakes s seq 97 (enc32 word) check = true ∧
      ((s.guard.state = .open ∧ status = .ok ∧ g = s.guard) ∨
        (s.guard.state = .frozen ∧ status = .refusedGuard ∧ g = s.guard) ∨
        (s.guard.state = .locked ∧ s.guard.attempts = 0 ∧ status = .attempts ∧ g = s.guard) ∨
        (s.guard.state = .locked ∧ s.guard.attempts ≠ 0 ∧ s.guard.word = some word ∧ status = .ok ∧
          g = { state := .open, attempts := 5, word := none }) ∨
        (s.guard.state = .locked ∧ s.guard.attempts ≠ 0 ∧ s.guard.word ≠ some word ∧ status = .mismatch ∧
          g = { s.guard with attempts := s.guard.attempts - 1 }))) ∧
    (∃ (s : State) (seq : Byte) (word : BitVec 32) (check : BitVec 16) (status : Status) (g : Guard),
     portTakes s seq 97 (enc32 word) check = true ∧
      ((s.guard.state = .open ∧ status = .ok ∧ g = s.guard) ∨
        (s.guard.state = .frozen ∧ status = .refusedGuard ∧ g = s.guard) ∨
        (s.guard.state = .locked ∧ s.guard.attempts = 0 ∧ status = .attempts ∧ g = s.guard) ∨
        (s.guard.state = .locked ∧ s.guard.attempts ≠ 0 ∧ s.guard.word = some word ∧ status = .ok ∧
          g = { state := .open, attempts := 5, word := none }) ∨
        (s.guard.state = .locked ∧ s.guard.attempts ≠ 0 ∧ s.guard.word ≠ some word ∧ status = .mismatch ∧
          g = { s.guard with attempts := s.guard.attempts - 1 }))) ∧
    (∃ (s : State) (seq : Byte) (word : BitVec 32) (check : BitVec 16) (status : Status) (g : Guard),
     portTakes s seq 98 [] check = true ∧
      g = { state := .frozen, attempts := s.guard.attempts, word := none }) :=
  ⟨⟨run, 0, 0xFFFFFFFF, commandCheck 0 96 (enc32 0xFFFFFFFF), .ok,
     { state := .locked, attempts := 5, word := some 0xFFFFFFFF }, by decide +kernel⟩,
    ⟨frozen, 0, 7, commandCheck 0 96 (enc32 7), .refusedGuard, { state := .frozen, attempts := 5, word := none },
     by decide +kernel⟩,
    ⟨run, 0, 7, commandCheck 0 97 (enc32 7), .ok, { state := .open, attempts := 5, word := none }, by decide +kernel⟩,
    ⟨frozen, 0, 7, commandCheck 0 97 (enc32 7), .refusedGuard, { state := .frozen, attempts := 5, word := none },
     by decide +kernel⟩,
    ⟨locked 0, 0, 7, commandCheck 0 97 (enc32 7), .attempts, { state := .locked, attempts := 0, word := some 7 },
     by decide +kernel⟩,
    ⟨locked 1, 0, 7, commandCheck 0 97 (enc32 7), .ok, { state := .open, attempts := 5, word := none }, by decide +kernel⟩,
    ⟨locked 1, 0, 8, commandCheck 0 97 (enc32 8), .mismatch, { state := .locked, attempts := 0, word := some 7 },
     by decide +kernel⟩,
    ⟨locked 0, 255, 0, commandCheck 255 98 ([]), .ok, { state := .frozen, attempts := 0, word := none }, by decide +kernel⟩⟩

theorem meets_identifyStatusReport :
    (∃ (s : State) (seq : Byte) (check : BitVec 16) (f spares : Nat) (held : Option HeldReason) (counted : SurveyCounts →
        List Byte),
    (∀ c, counted c =
      [c.linesRead, c.skipped, c.cleanAfterRetry, c.corrected, c.retriedCorrected, c.uncorrectable, c.markedDead].flatMap
        enc24) ∧
    (∀ r, held = some r ↔ s.start.op = .held r) ∧
    f = s.map.fence.getD 0 ∧
      spares = (if s.map.fence = none then 0 else s.array.lineCount - 4096 - f) ∧
     portTakes s seq 1 [] check = true) ∧
    (∃ (s : State) (seq : Byte) (check : BitVec 16) (f spares : Nat) (held : Option HeldReason) (counted : SurveyCounts →
        List Byte),
    (∀ c, counted c =
      [c.linesRead, c.skipped, c.cleanAfterRetry, c.corrected, c.retriedCorrected, c.uncorrectable, c.markedDead].flatMap
        enc24) ∧
    (∀ r, held = some r ↔ s.start.op = .held r) ∧
    f = s.map.fence.getD 0 ∧
      spares = (if s.map.fence = none then 0 else s.array.lineCount - 4096 - f) ∧
     portTakes s seq 2 [] check = true) ∧
    (∃ (s : State) (seq : Byte) (check : BitVec 16) (f spares : Nat) (held : Option HeldReason) (counted : SurveyCounts →
        List Byte),
    (∀ c, counted c =
      [c.linesRead, c.skipped, c.cleanAfterRetry, c.corrected, c.retriedCorrected, c.uncorrectable, c.markedDead].flatMap
        enc24) ∧
    (∀ r, held = some r ↔ s.start.op = .held r) ∧
    f = s.map.fence.getD 0 ∧
      spares = (if s.map.fence = none then 0 else s.array.lineCount - 4096 - f) ∧
     portTakes s seq 9 [] check = true) :=
  ⟨⟨State.reset, 0, commandCheck 0 1 ([]), 0, 0, none, _, (fun _ => rfl), (by
      intro r; cases r <;> decide +kernel),
     by decide +kernel⟩,
    ⟨held .noJournal, 0, commandCheck 0 2 ([]), 0, 0, some .noJournal, _, (fun _ => rfl), (by
      intro r; cases r <;> decide +kernel),
     by decide +kernel⟩,
    ⟨run, 255, commandCheck 255 9 ([]), 257024, 1024, none, _, (fun _ => rfl), (by
      intro r; cases r <;> decide +kernel),
     by decide +kernel⟩⟩

theorem meets_lineAndListQueries :
    (∃ (s : State) (seq : Byte) (hla : Addr24) (list index : Byte) (check : BitVec 16) (shown : Prop),
    (shown ↔ s.start.op = .running ∨ s.start.op = .quiescing) ∧
     portTakes s seq 3 (arg24 hla) check = true ∧
       ¬ shown) ∧
    (∃ (s : State) (seq : Byte) (hla : Addr24) (list index : Byte) (check : BitVec 16) (shown : Prop),
    (shown ↔ s.start.op = .running ∨ s.start.op = .quiescing) ∧
     portTakes s seq 3 (arg24 hla) check = true ∧
      shown ∧
      s.array.lineCount - 4096 ≤ hla.toNat) ∧
    (∃ (s : State) (seq : Byte) (hla : Addr24) (list index : Byte) (check : BitVec 16) (shown : Prop),
    (shown ↔ s.start.op = .running ∨ s.start.op = .quiescing) ∧
     portTakes s seq 3 (arg24 hla) check = true ∧
      shown ∧
      hla.toNat < s.array.lineCount - 4096) ∧
    (∃ (s : State) (seq : Byte) (hla : Addr24) (list index : Byte) (check : BitVec 16) (shown : Prop),
    (shown ↔ s.start.op = .running ∨ s.start.op = .quiescing) ∧
     portTakes s seq 6 [list, index] check = true ∧
       list ≠ 0 ∧
      list ≠ 1) ∧
    (∃ (s : State) (seq : Byte) (hla : Addr24) (list index : Byte) (check : BitVec 16) (shown : Prop),
    (shown ↔ s.start.op = .running ∨ s.start.op = .quiescing) ∧
     portTakes s seq 6 [list, index] check = true ∧
       (list = 0 ∨ list = 1) ∧
       ¬ shown) ∧
    (∃ (s : State) (seq : Byte) (hla : Addr24) (list index : Byte) (check : BitVec 16) (shown : Prop) (p : _),
    (shown ↔ s.start.op = .running ∨ s.start.op = .quiescing) ∧
     portTakes s seq 6 [list, index] check = true ∧
      shown ∧
        list = 0 ∧
      s.reloc.pendingList[index.toNat]? = some p) ∧
    (∃ (s : State) (seq : Byte) (hla : Addr24) (list index : Byte) (check : BitVec 16) (shown : Prop) (w : _),
    (shown ↔ s.start.op = .running ∨ s.start.op = .quiescing) ∧
     portTakes s seq 6 [list, index] check = true ∧
      shown ∧
      list = 1 ∧
      s.reloc.watch[index.toNat]? = some w) ∧
    (∃ (s : State) (seq : Byte) (hla : Addr24) (list index : Byte) (check : BitVec 16) (shown : Prop),
    (shown ↔ s.start.op = .running ∨ s.start.op = .quiescing) ∧
     portTakes s seq 6 [list, index] check = true ∧
      shown ∧
               ((list = 0 ∧ s.reloc.pendingList.length ≤ index.toNat) ∨ (list = 1 ∧ s.reloc.watch.length ≤ index.toNat))) :=
  ⟨⟨State.reset, 1, 0, 0, 0, commandCheck 1 3 (arg24 0), False, by decide +kernel⟩,
    ⟨run, 1, 258048, 0, 0, commandCheck 1 3 (arg24 258048), True, by decide +kernel⟩,
    ⟨run, 1, 258047, 0, 0, commandCheck 1 3 (arg24 258047), True, by decide +kernel⟩,
    ⟨run, 1, 0, 2, 0, commandCheck 1 6 ([2, 0]), True, by decide +kernel⟩,
    ⟨held .noJournal, 1, 0, 1, 0, commandCheck 1 6 ([1, 0]), False, by decide +kernel⟩,
    ⟨pends (List.range 32) run, 1, 0, 0, 31, commandCheck 1 6 ([0, 31]), True,
     { hla := 31, origin := .hostRead, entered := 0, hits := 255 }, by decide +kernel⟩,
    ⟨watching [⟨5, 15, 0⟩], 1, 0, 1, 0, commandCheck 1 6 ([1, 0]), True, ⟨5, 15, 0⟩, by decide +kernel⟩,
    ⟨pends [5] run, 1, 0, 0, 1, commandCheck 1 6 ([0, 1]), True, by decide +kernel⟩⟩

theorem meets_mapCursorWalks :
    (∃ (s : State) (seq : Byte) (hla : Addr24) (check : BitVec 16),
     portTakes s seq 4 (arg24 hla) check = true) ∧
    (∃ (s : State) (seq : Byte) (hla : Addr24) (check : BitVec 16),
     portTakes s seq 5 [] check = true ∧
        s.start.op ≠ .running ∧
      s.start.op ≠ .quiescing) ∧
    (∃ (s : State) (seq : Byte) (hla : Addr24) (check : BitVec 16),
      mapLaw s.map ∧
     portTakes s seq 5 [] check = true ∧
       (s.start.op = .running ∨ s.start.op = .quiescing) ∧
         (∀ e ∈ s.map.table, e.home < s.map.cursor)) ∧
    (∃ (s : State) (seq : Byte) (hla : Addr24) (check : BitVec 16) (e : _),
      mapLaw s.map ∧
     portTakes s seq 5 [] check = true ∧
       (s.start.op = .running ∨ s.start.op = .quiescing) ∧
            e ∈ s.map.table ∧
      s.map.cursor ≤ e.home ∧
          (∀ x ∈ s.map.table, s.map.cursor ≤ x.home → e.home ≤ x.home)) :=
  ⟨⟨State.reset, 1, 0xFFFFFF, commandCheck 1 4 (arg24 0xFFFFFF), by decide +kernel⟩,
    ⟨State.reset, 1, 0, commandCheck 1 5 ([]), by decide +kernel⟩,
    ⟨{ bound with map := { bound.map with cursor := 5 } }, 1, 0, commandCheck 1 5 ([]), by unfold mapLaw; decide +kernel,
     by decide +kernel⟩,
    ⟨{ bound with map := { bound.map with cursor := 4 } }, 1, 0, commandCheck 1 5 ([]),
     { home := 4, spare := some 257024, target := none, cause := none, boundTick := none }, by unfold mapLaw; decide +kernel,
     by decide +kernel⟩⟩

theorem meets_faultLogCommands :
    (∃ (s : State) (seq : Byte) (check : BitVec 16) (r : _),
      logLaw s.log = true ∧
     portTakes s seq 7 [] check = true ∧
         r ∈ s.log.records ∧
      r.seq = s.log.cursor) ∧
    (∃ (s : State) (seq : Byte) (check : BitVec 16),
      logLaw s.log = true ∧
     portTakes s seq 7 [] check = true ∧
       s.log.cursor = s.log.next) ∧
    (∃ (s : State) (seq : Byte) (check : BitVec 16),
      logLaw s.log = true ∧
     portTakes s seq 8 [] check = true ∧
       s.log.records = []) ∧
    (∃ (s : State) (seq : Byte) (check : BitVec 16) (oldest : FaultRecord) (others : List FaultRecord),
      logLaw s.log = true ∧
     portTakes s seq 8 [] check = true ∧
      s.log.records = oldest :: others) ∧
    (∃ (s : State) (seq : Byte) (check : BitVec 16),
      logLaw s.log = true ∧
     portTakes s seq 67 [] check = true ∧
        s.guard.state = .open) :=
  ⟨⟨logged 1, 1, commandCheck 1 7 ([]), frec 1, by decide +kernel⟩,
    ⟨logged 17, 1, commandCheck 1 7 ([]), by decide +kernel⟩,
    ⟨run, 1, commandCheck 1 8 ([]), by decide +kernel⟩,
    ⟨logged 1, 1, commandCheck 1 8 ([]), frec 1, (List.range' 2 15).map frec, by decide +kernel⟩,
    ⟨logged 1, 1, commandCheck 1 67 ([]), by decide +kernel⟩⟩

theorem meets_alertReadReturns :
    (∃ (s : State) (seq : Byte) (check : BitVec 16) (asserted : Bool),
    portTakes s seq 11 [] check = true ∧
    (asserted = true ↔ ∃ i, i < 10 ∧ s.alert.causes.getLsbD i = true ∧ s.alert.mask.getLsbD i = true)) ∧
    (∃ (s : State) (seq : Byte) (check : BitVec 16) (asserted : Bool),
    portTakes s seq 11 [] check = true ∧
    (asserted = true ↔ ∃ i, i < 10 ∧ s.alert.causes.getLsbD i = true ∧ s.alert.mask.getLsbD i = true)) :=
  ⟨⟨{ run with alert := { causes := 1, mask := 1 } }, 1, commandCheck 1 11 ([]), true, by decide +kernel⟩,
    ⟨{ run with alert := { causes := 1, mask := 1022 } }, 1, commandCheck 1 11 ([]), false, by decide +kernel⟩⟩

theorem meets_alertAckAndMask :
    (∃ (s : State) (seq : Byte) (set : BitVec 16) (check : BitVec 16) (after : BitVec 10),
     portTakes s seq 34 (enc16 set.toNat) check = true ∧
      (∀ i, i < 10 → after.getLsbD i = (s.alert.causes.getLsbD i && !(set.getLsbD i && i != 0 && i != 2)))) ∧
    (∃ (s : State) (seq : Byte) (set : BitVec 16) (check : BitVec 16) (after : BitVec 10),
     portTakes s seq 35 (enc16 set.toNat) check = true ∧
      (∀ i, i < 10 → after.getLsbD i = set.getLsbD i)) :=
  ⟨⟨{ run with alert := { causes := 1023, mask := 1023 } }, 1, 0xFFFF, commandCheck 1 34 (enc16 0xFFFF), 5, by decide +kernel⟩,
    ⟨{ run with alert := { causes := 1023, mask := 1023 } }, 1, 0xFC01, commandCheck 1 35 (enc16 0xFC01), 1, by decide +kernel⟩⟩

theorem meets_policyReadAnswers :
    (∃ (s : State) (seq set : Byte) (check : BitVec 16) (p : PolicySet),
    portTakes s seq 10 [set] check = true ∧
     ((set = 0 ∧ p = s.policy.active) ∨ (set = 1 ∧ p = s.policy.staged))) ∧
    (∃ (s : State) (seq set : Byte) (check : BitVec 16) (p : PolicySet),
    portTakes s seq 10 [set] check = true ∧
     ((set = 0 ∧ p = s.policy.active) ∨ (set = 1 ∧ p = s.policy.staged))) ∧
    (∃ (s : State) (seq set : Byte) (check : BitVec 16) (p : PolicySet),
    portTakes s seq 10 [set] check = true ∧
     set ≠ 0 ∧
      set ≠ 1) :=
  ⟨⟨run, 1, 0, commandCheck 1 10 ([0]), .default, by decide +kernel⟩,
    ⟨run, 1, 1, commandCheck 1 10 ([1]), .default, by decide +kernel⟩,
    ⟨run, 1, 2, commandCheck 1 10 ([2]), .default, by decide +kernel⟩⟩

theorem meets_policyStageWrites :
    (∃ (s : State) (seq retryDepth watchLimit : Byte) (spareLow : BitVec 16) (pendingHigh posting surveyGap : Byte) (check :
        BitVec 16) (args : List Byte),
    args = [retryDepth, watchLimit] ++ enc16 spareLow.toNat ++ [pendingHigh, posting, surveyGap] ∧
    portTakes s seq 36 args check = true ∧
        s.start.op ≠ .running) ∧
    (∃ (s : State) (seq retryDepth watchLimit : Byte) (spareLow : BitVec 16) (pendingHigh posting surveyGap : Byte) (check :
        BitVec 16) (args : List Byte) (field : PolicyField),
    args = [retryDepth, watchLimit] ++ enc16 spareLow.toNat ++ [pendingHigh, posting, surveyGap] ∧
    portTakes s seq 36 args check = true ∧
         s.start.op = .running ∧
        ((4 < retryDepth.toNat ∧ field = .retryDepth) ∨
          (retryDepth.toNat ≤ 4 ∧ (watchLimit.toNat < 1 ∨ 15 < watchLimit.toNat) ∧ field = .watchLimit) ∨
          (retryDepth.toNat ≤ 4 ∧ 1 ≤ watchLimit.toNat ∧ watchLimit.toNat ≤ 15 ∧ 1024 < spareLow.toNat ∧
            field = .spareLow) ∨
          (retryDepth.toNat ≤ 4 ∧ 1 ≤ watchLimit.toNat ∧ watchLimit.toNat ≤ 15 ∧ spareLow.toNat ≤ 1024 ∧
            (pendingHigh.toNat < 1 ∨ 32 < pendingHigh.toNat) ∧ field = .pendingHigh) ∨
          (retryDepth.toNat ≤ 4 ∧ 1 ≤ watchLimit.toNat ∧ watchLimit.toNat ≤ 15 ∧ spareLow.toNat ≤ 1024 ∧
            1 ≤ pendingHigh.toNat ∧ pendingHigh.toNat ≤ 32 ∧ 1 < posting.toNat ∧ field = .posting))) ∧
    (∃ (s : State) (seq retryDepth watchLimit : Byte) (spareLow : BitVec 16) (pendingHigh posting surveyGap : Byte) (check :
        BitVec 16) (args : List Byte) (field : PolicyField),
    args = [retryDepth, watchLimit] ++ enc16 spareLow.toNat ++ [pendingHigh, posting, surveyGap] ∧
    portTakes s seq 36 args check = true ∧
         s.start.op = .running ∧
        ((4 < retryDepth.toNat ∧ field = .retryDepth) ∨
          (retryDepth.toNat ≤ 4 ∧ (watchLimit.toNat < 1 ∨ 15 < watchLimit.toNat) ∧ field = .watchLimit) ∨
          (retryDepth.toNat ≤ 4 ∧ 1 ≤ watchLimit.toNat ∧ watchLimit.toNat ≤ 15 ∧ 1024 < spareLow.toNat ∧
            field = .spareLow) ∨
          (retryDepth.toNat ≤ 4 ∧ 1 ≤ watchLimit.toNat ∧ watchLimit.toNat ≤ 15 ∧ spareLow.toNat ≤ 1024 ∧
            (pendingHigh.toNat < 1 ∨ 32 < pendingHigh.toNat) ∧ field = .pendingHigh) ∨
          (retryDepth.toNat ≤ 4 ∧ 1 ≤ watchLimit.toNat ∧ watchLimit.toNat ≤ 15 ∧ spareLow.toNat ≤ 1024 ∧
            1 ≤ pendingHigh.toNat ∧ pendingHigh.toNat ≤ 32 ∧ 1 < posting.toNat ∧ field = .posting))) ∧
    (∃ (s : State) (seq retryDepth watchLimit : Byte) (spareLow : BitVec 16) (pendingHigh posting surveyGap : Byte) (check :
        BitVec 16) (args : List Byte) (field : PolicyField),
    args = [retryDepth, watchLimit] ++ enc16 spareLow.toNat ++ [pendingHigh, posting, surveyGap] ∧
    portTakes s seq 36 args check = true ∧
         s.start.op = .running ∧
        ((4 < retryDepth.toNat ∧ field = .retryDepth) ∨
          (retryDepth.toNat ≤ 4 ∧ (watchLimit.toNat < 1 ∨ 15 < watchLimit.toNat) ∧ field = .watchLimit) ∨
          (retryDepth.toNat ≤ 4 ∧ 1 ≤ watchLimit.toNat ∧ watchLimit.toNat ≤ 15 ∧ 1024 < spareLow.toNat ∧
            field = .spareLow) ∨
          (retryDepth.toNat ≤ 4 ∧ 1 ≤ watchLimit.toNat ∧ watchLimit.toNat ≤ 15 ∧ spareLow.toNat ≤ 1024 ∧
            (pendingHigh.toNat < 1 ∨ 32 < pendingHigh.toNat) ∧ field = .pendingHigh) ∨
          (retryDepth.toNat ≤ 4 ∧ 1 ≤ watchLimit.toNat ∧ watchLimit.toNat ≤ 15 ∧ spareLow.toNat ≤ 1024 ∧
            1 ≤ pendingHigh.toNat ∧ pendingHigh.toNat ≤ 32 ∧ 1 < posting.toNat ∧ field = .posting))) ∧
    (∃ (s : State) (seq retryDepth watchLimit : Byte) (spareLow : BitVec 16) (pendingHigh posting surveyGap : Byte) (check :
        BitVec 16) (args : List Byte) (field : PolicyField),
    args = [retryDepth, watchLimit] ++ enc16 spareLow.toNat ++ [pendingHigh, posting, surveyGap] ∧
    portTakes s seq 36 args check = true ∧
         s.start.op = .running ∧
        ((4 < retryDepth.toNat ∧ field = .retryDepth) ∨
          (retryDepth.toNat ≤ 4 ∧ (watchLimit.toNat < 1 ∨ 15 < watchLimit.toNat) ∧ field = .watchLimit) ∨
          (retryDepth.toNat ≤ 4 ∧ 1 ≤ watchLimit.toNat ∧ watchLimit.toNat ≤ 15 ∧ 1024 < spareLow.toNat ∧
            field = .spareLow) ∨
          (retryDepth.toNat ≤ 4 ∧ 1 ≤ watchLimit.toNat ∧ watchLimit.toNat ≤ 15 ∧ spareLow.toNat ≤ 1024 ∧
            (pendingHigh.toNat < 1 ∨ 32 < pendingHigh.toNat) ∧ field = .pendingHigh) ∨
          (retryDepth.toNat ≤ 4 ∧ 1 ≤ watchLimit.toNat ∧ watchLimit.toNat ≤ 15 ∧ spareLow.toNat ≤ 1024 ∧
            1 ≤ pendingHigh.toNat ∧ pendingHigh.toNat ≤ 32 ∧ 1 < posting.toNat ∧ field = .posting))) ∧
    (∃ (s : State) (seq retryDepth watchLimit : Byte) (spareLow : BitVec 16) (pendingHigh posting surveyGap : Byte) (check :
        BitVec 16) (args : List Byte) (field : PolicyField),
    args = [retryDepth, watchLimit] ++ enc16 spareLow.toNat ++ [pendingHigh, posting, surveyGap] ∧
    portTakes s seq 36 args check = true ∧
         s.start.op = .running ∧
        ((4 < retryDepth.toNat ∧ field = .retryDepth) ∨
          (retryDepth.toNat ≤ 4 ∧ (watchLimit.toNat < 1 ∨ 15 < watchLimit.toNat) ∧ field = .watchLimit) ∨
          (retryDepth.toNat ≤ 4 ∧ 1 ≤ watchLimit.toNat ∧ watchLimit.toNat ≤ 15 ∧ 1024 < spareLow.toNat ∧
            field = .spareLow) ∨
          (retryDepth.toNat ≤ 4 ∧ 1 ≤ watchLimit.toNat ∧ watchLimit.toNat ≤ 15 ∧ spareLow.toNat ≤ 1024 ∧
            (pendingHigh.toNat < 1 ∨ 32 < pendingHigh.toNat) ∧ field = .pendingHigh) ∨
          (retryDepth.toNat ≤ 4 ∧ 1 ≤ watchLimit.toNat ∧ watchLimit.toNat ≤ 15 ∧ spareLow.toNat ≤ 1024 ∧
            1 ≤ pendingHigh.toNat ∧ pendingHigh.toNat ≤ 32 ∧ 1 < posting.toNat ∧ field = .posting))) ∧
    (∃ (s : State) (seq retryDepth watchLimit : Byte) (spareLow : BitVec 16) (pendingHigh posting surveyGap : Byte) (check :
        BitVec 16) (args : List Byte) (field : PolicyField),
    args = [retryDepth, watchLimit] ++ enc16 spareLow.toNat ++ [pendingHigh, posting, surveyGap] ∧
    portTakes s seq 36 args check = true ∧
         s.start.op = .running ∧
        ((4 < retryDepth.toNat ∧ field = .retryDepth) ∨
          (retryDepth.toNat ≤ 4 ∧ (watchLimit.toNat < 1 ∨ 15 < watchLimit.toNat) ∧ field = .watchLimit) ∨
          (retryDepth.toNat ≤ 4 ∧ 1 ≤ watchLimit.toNat ∧ watchLimit.toNat ≤ 15 ∧ 1024 < spareLow.toNat ∧
            field = .spareLow) ∨
          (retryDepth.toNat ≤ 4 ∧ 1 ≤ watchLimit.toNat ∧ watchLimit.toNat ≤ 15 ∧ spareLow.toNat ≤ 1024 ∧
            (pendingHigh.toNat < 1 ∨ 32 < pendingHigh.toNat) ∧ field = .pendingHigh) ∨
          (retryDepth.toNat ≤ 4 ∧ 1 ≤ watchLimit.toNat ∧ watchLimit.toNat ≤ 15 ∧ spareLow.toNat ≤ 1024 ∧
            1 ≤ pendingHigh.toNat ∧ pendingHigh.toNat ≤ 32 ∧ 1 < posting.toNat ∧ field = .posting))) ∧
    (∃ (s : State) (seq retryDepth watchLimit : Byte) (spareLow : BitVec 16) (pendingHigh posting surveyGap : Byte) (check :
        BitVec 16) (args : List Byte) (field : PolicyField),
    args = [retryDepth, watchLimit] ++ enc16 spareLow.toNat ++ [pendingHigh, posting, surveyGap] ∧
    portTakes s seq 36 args check = true ∧
         s.start.op = .running ∧
        ((4 < retryDepth.toNat ∧ field = .retryDepth) ∨
          (retryDepth.toNat ≤ 4 ∧ (watchLimit.toNat < 1 ∨ 15 < watchLimit.toNat) ∧ field = .watchLimit) ∨
          (retryDepth.toNat ≤ 4 ∧ 1 ≤ watchLimit.toNat ∧ watchLimit.toNat ≤ 15 ∧ 1024 < spareLow.toNat ∧
            field = .spareLow) ∨
          (retryDepth.toNat ≤ 4 ∧ 1 ≤ watchLimit.toNat ∧ watchLimit.toNat ≤ 15 ∧ spareLow.toNat ≤ 1024 ∧
            (pendingHigh.toNat < 1 ∨ 32 < pendingHigh.toNat) ∧ field = .pendingHigh) ∨
          (retryDepth.toNat ≤ 4 ∧ 1 ≤ watchLimit.toNat ∧ watchLimit.toNat ≤ 15 ∧ spareLow.toNat ≤ 1024 ∧
            1 ≤ pendingHigh.toNat ∧ pendingHigh.toNat ≤ 32 ∧ 1 < posting.toNat ∧ field = .posting))) ∧
    (∃ (s : State) (seq retryDepth watchLimit : Byte) (spareLow : BitVec 16) (pendingHigh posting surveyGap : Byte) (check :
        BitVec 16) (args : List Byte),
    args = [retryDepth, watchLimit] ++ enc16 spareLow.toNat ++ [pendingHigh, posting, surveyGap] ∧
    portTakes s seq 36 args check = true ∧
         s.start.op = .running ∧
           retryDepth.toNat ≤ 4 ∧
      1 ≤ watchLimit.toNat ∧
      watchLimit.toNat ≤ 15 ∧
      spareLow.toNat ≤ 1024 ∧
            1 ≤ pendingHigh.toNat ∧
      pendingHigh.toNat ≤ 32 ∧
      posting.toNat ≤ 1) ∧
    (∃ (s : State) (seq retryDepth watchLimit : Byte) (spareLow : BitVec 16) (pendingHigh posting surveyGap : Byte) (check :
        BitVec 16) (args : List Byte),
    args = [retryDepth, watchLimit] ++ enc16 spareLow.toNat ++ [pendingHigh, posting, surveyGap] ∧
    portTakes s seq 36 args check = true ∧
         s.start.op = .running ∧
           retryDepth.toNat ≤ 4 ∧
      1 ≤ watchLimit.toNat ∧
      watchLimit.toNat ≤ 15 ∧
      spareLow.toNat ≤ 1024 ∧
            1 ≤ pendingHigh.toNat ∧
      pendingHigh.toNat ≤ 32 ∧
      posting.toNat ≤ 1) :=
  ⟨⟨held .noJournal, 1, 4, 15, 1024, 32, 1, 255, commandCheck 1 36 ([4, 15] ++ enc16 1024 ++ [32, 1, 255]), _, rfl,
     by decide +kernel⟩,
    ⟨run, 1, 5, 0, 1025, 33, 2, 255, commandCheck 1 36 ([5, 0] ++ enc16 1025 ++ [33, 2, 255]), _, .retryDepth, rfl,
     by decide +kernel⟩,
    ⟨run, 1, 4, 0, 1025, 33, 2, 255, commandCheck 1 36 ([4, 0] ++ enc16 1025 ++ [33, 2, 255]), _, .watchLimit, rfl,
     by decide +kernel⟩,
    ⟨run, 1, 4, 16, 1025, 33, 2, 255, commandCheck 1 36 ([4, 16] ++ enc16 1025 ++ [33, 2, 255]), _, .watchLimit, rfl,
     by decide +kernel⟩,
    ⟨run, 1, 4, 15, 1025, 33, 2, 255, commandCheck 1 36 ([4, 15] ++ enc16 1025 ++ [33, 2, 255]), _, .spareLow, rfl,
     by decide +kernel⟩,
    ⟨run, 1, 4, 15, 1024, 33, 2, 255, commandCheck 1 36 ([4, 15] ++ enc16 1024 ++ [33, 2, 255]), _, .pendingHigh, rfl,
     by decide +kernel⟩,
    ⟨run, 1, 4, 15, 1024, 0, 2, 255, commandCheck 1 36 ([4, 15] ++ enc16 1024 ++ [0, 2, 255]), _, .pendingHigh, rfl,
     by decide +kernel⟩,
    ⟨run, 1, 4, 15, 1024, 32, 2, 255, commandCheck 1 36 ([4, 15] ++ enc16 1024 ++ [32, 2, 255]), _, .posting, rfl,
     by decide +kernel⟩,
    ⟨run, 1, 4, 15, 1024, 32, 1, 255, commandCheck 1 36 ([4, 15] ++ enc16 1024 ++ [32, 1, 255]), _, rfl, by decide +kernel⟩,
    ⟨run, 1, 0, 1, 0, 1, 0, 0, commandCheck 1 36 ([0, 1] ++ enc16 0 ++ [1, 0, 0]), _, rfl, by decide +kernel⟩⟩

theorem meets_surveyStartAndStop :
    (∃ (s : State) (seq mode : Byte) (first count : Addr24) (check : BitVec 16) (f : Nat) (zero : SurveyCounts) (t : State)
        (status : Status),
    zero = { linesRead := 0, skipped := 0, cleanAfterRetry := 0, corrected := 0, retriedCorrected := 0, uncorrectable := 0,
             markedDead := 0 } ∧
    f = s.map.fence.getD 0 ∧
     portTakes s seq 32 (mode :: arg24 first ++ arg24 count) check = true ∧
        ((s.start.op ≠ .running ∧ status = .state) ∨
          (s.start.op = .running ∧ s.survey.live ≠ none ∧ status = .state) ∨
          (s.start.op = .running ∧ s.survey.live = none ∧ mode ≠ 0 ∧ mode ≠ 1 ∧ status = .range) ∨
          (s.start.op = .running ∧ s.survey.live = none ∧ mode = 0 ∧ f ≤ first.toNat ∧ status = .range))) ∧
    (∃ (s : State) (seq mode : Byte) (first count : Addr24) (check : BitVec 16) (f : Nat) (zero : SurveyCounts) (t : State)
        (status : Status),
    zero = { linesRead := 0, skipped := 0, cleanAfterRetry := 0, corrected := 0, retriedCorrected := 0, uncorrectable := 0,
             markedDead := 0 } ∧
    f = s.map.fence.getD 0 ∧
     portTakes s seq 32 (mode :: arg24 first ++ arg24 count) check = true ∧
        ((s.start.op ≠ .running ∧ status = .state) ∨
          (s.start.op = .running ∧ s.survey.live ≠ none ∧ status = .state) ∨
          (s.start.op = .running ∧ s.survey.live = none ∧ mode ≠ 0 ∧ mode ≠ 1 ∧ status = .range) ∨
          (s.start.op = .running ∧ s.survey.live = none ∧ mode = 0 ∧ f ≤ first.toNat ∧ status = .range))) ∧
    (∃ (s : State) (seq mode : Byte) (first count : Addr24) (check : BitVec 16) (f : Nat) (zero : SurveyCounts) (t : State)
        (status : Status),
    zero = { linesRead := 0, skipped := 0, cleanAfterRetry := 0, corrected := 0, retriedCorrected := 0, uncorrectable := 0,
             markedDead := 0 } ∧
    f = s.map.fence.getD 0 ∧
     portTakes s seq 32 (mode :: arg24 first ++ arg24 count) check = true ∧
        ((s.start.op ≠ .running ∧ status = .state) ∨
          (s.start.op = .running ∧ s.survey.live ≠ none ∧ status = .state) ∨
          (s.start.op = .running ∧ s.survey.live = none ∧ mode ≠ 0 ∧ mode ≠ 1 ∧ status = .range) ∨
          (s.start.op = .running ∧ s.survey.live = none ∧ mode = 0 ∧ f ≤ first.toNat ∧ status = .range))) ∧
    (∃ (s : State) (seq mode : Byte) (first count : Addr24) (check : BitVec 16) (f : Nat) (zero : SurveyCounts) (t : State)
        (status : Status),
    zero = { linesRead := 0, skipped := 0, cleanAfterRetry := 0, corrected := 0, retriedCorrected := 0, uncorrectable := 0,
             markedDead := 0 } ∧
    f = s.map.fence.getD 0 ∧
     portTakes s seq 32 (mode :: arg24 first ++ arg24 count) check = true ∧
        ((s.start.op ≠ .running ∧ status = .state) ∨
          (s.start.op = .running ∧ s.survey.live ≠ none ∧ status = .state) ∨
          (s.start.op = .running ∧ s.survey.live = none ∧ mode ≠ 0 ∧ mode ≠ 1 ∧ status = .range) ∨
          (s.start.op = .running ∧ s.survey.live = none ∧ mode = 0 ∧ f ≤ first.toNat ∧ status = .range))) ∧
    (∃ (s : State) (seq mode : Byte) (first count : Addr24) (check : BitVec 16) (f : Nat) (zero : SurveyCounts) (t : State)
        (limit : Nat),
    zero = { linesRead := 0, skipped := 0, cleanAfterRetry := 0, corrected := 0, retriedCorrected := 0, uncorrectable := 0,
             markedDead := 0 } ∧
        t = answered { seq, status := .ok, results := 0 :: enc24 first.toNat ++ enc24 (limit - first.toNat) }
              (placeRequest .surveyRead
                ((nextEvent s).setSurvey
                  { s.survey with
                    live := some
                      { mode := .span, first := first.toNat, count := limit - first.toNat, start := first.toNat, limit
                        excluded := [], next := first.toNat
                        phase := .reading
                          { ala := servingPlace s first.toNat, depth := s.policy.active.retryDepth, step := 0
                            age := { event := s.ids.event + 1, direct := false, order := s.ids.nextId }, granted := false }
                        startTick := s.tick, counts := zero, firstUncorrectable := none, endRequested := none } })) ∧
    f = s.map.fence.getD 0 ∧
     portTakes s seq 32 (mode :: arg24 first ++ arg24 count) check = true ∧
         s.start.op = .running ∧
      s.survey.live = none ∧
      mode = 0 ∧
      first.toNat < f ∧
        limit = (if count = 0 then f else min (first.toNat + count.toNat) f) ∧
        isPending s first.toNat = false ∧
      isMoving s first.toNat = false ∧
        (∀ e ∈ s.buf.entries, e.hla ≠ first.toNat) ∧
      (∀ e ∈ s.buf.direct, e.hla ≠ first.toNat) ∧
      calm t = true) ∧
    (∃ (s : State) (seq mode : Byte) (first count : Addr24) (check : BitVec 16) (f : Nat) (zero : SurveyCounts) (t : State),
    zero = { linesRead := 0, skipped := 0, cleanAfterRetry := 0, corrected := 0, retriedCorrected := 0, uncorrectable := 0,
             markedDead := 0 } ∧
        t = answered { seq, status := .ok, results := 1 :: enc24 f ++ enc24 (s.array.lineCount - 4096 - f) }
              (placeRequest .surveyRead
                ((nextEvent s).setSurvey
                  { s.survey with
                    live := some
                      { mode := .spares, first := f, count := s.array.lineCount - 4096 - f, start := f
                        limit := s.array.lineCount - 4096, excluded := [], next := f
                        phase := .reading
                          { ala := f, depth := 0, step := 0
                            age := { event := s.ids.event + 1, direct := false, order := s.ids.nextId }, granted := false }
                        startTick := s.tick, counts := zero, firstUncorrectable := none, endRequested := none } })) ∧
    f = s.map.fence.getD 0 ∧
     portTakes s seq 32 (mode :: arg24 first ++ arg24 count) check = true ∧
         s.start.op = .running ∧
      s.survey.live = none ∧
      mode = 1 ∧
      s.map.fence = some f ∧
      s.map.range = none ∧
        s.map.marks = [] ∧
      s.map.poolBuilt = true ∧
      f < s.array.lineCount - 4096 ∧
      calm t = true) ∧
    (∃ (s : State) (seq mode : Byte) (first count : Addr24) (check : BitVec 16) (f : Nat) (zero : SurveyCounts) (t : State),
    zero = { linesRead := 0, skipped := 0, cleanAfterRetry := 0, corrected := 0, retriedCorrected := 0, uncorrectable := 0,
             markedDead := 0 } ∧
    f = s.map.fence.getD 0 ∧
     portTakes s seq 33 [] check = true ∧
      s.survey.live = none) ∧
    (∃ (s : State) (seq mode : Byte) (first count : Addr24) (check : BitVec 16) (f : Nat) (zero : SurveyCounts) (t : State)
        (l : LiveSurvey) (waiting : List ArbReq),
    zero = { linesRead := 0, skipped := 0, cleanAfterRetry := 0, corrected := 0, retriedCorrected := 0, uncorrectable := 0,
             markedDead := 0 } ∧
           (∃ units, l.phase = .gap units ∧ waiting = s.array.waiting) ∧
          t = answered { seq, status := .ok, results := [0] }
                ((((nextEvent s).setArray { s.array with waiting }).setSurvey
                  { live := none
                    report := some
                      { mode := l.mode, first := l.first, count := l.count, startTick := l.startTick, endTick := s.tick
                        outcome := .stopped, next := l.next, counts := l.counts
                        firstUncorrectable := l.firstUncorrectable } }).setAlert
                  { s.alert with causes := s.alert.causes ||| AlertCause.surveyEnd.bit }) ∧
    f = s.map.fence.getD 0 ∧
     portTakes s seq 33 [] check = true ∧
      s.survey.live = some l ∧
      l.endRequested = none ∧
      calm t = true) ∧
    (∃ (s : State) (seq mode : Byte) (first count : Addr24) (check : BitVec 16) (f : Nat) (zero : SurveyCounts) (t : State)
        (l : LiveSurvey) (waiting : List ArbReq),
    zero = { linesRead := 0, skipped := 0, cleanAfterRetry := 0, corrected := 0, retriedCorrected := 0, uncorrectable := 0,
             markedDead := 0 } ∧
           (∃ d, l.phase = .reading d ∧ d.granted = false ∧
              waiting = s.array.waiting.filter (·.body != .surveyRead)) ∧
          t = answered { seq, status := .ok, results := [0] }
                ((((nextEvent s).setArray { s.array with waiting }).setSurvey
                  { live := none
                    report := some
                      { mode := l.mode, first := l.first, count := l.count, startTick := l.startTick, endTick := s.tick
                        outcome := .stopped, next := l.next, counts := l.counts
                        firstUncorrectable := l.firstUncorrectable } }).setAlert
                  { s.alert with causes := s.alert.causes ||| AlertCause.surveyEnd.bit }) ∧
    f = s.map.fence.getD 0 ∧
     portTakes s seq 33 [] check = true ∧
      s.survey.live = some l ∧
      l.endRequested = none ∧
      calm t = true) ∧
    (∃ (s : State) (seq mode : Byte) (first count : Addr24) (check : BitVec 16) (f : Nat) (zero : SurveyCounts) (t : State)
        (l : LiveSurvey) (d : _),
    zero = { linesRead := 0, skipped := 0, cleanAfterRetry := 0, corrected := 0, retriedCorrected := 0, uncorrectable := 0,
             markedDead := 0 } ∧
          t = answered { seq, status := .ok, results := [2] }
                ((nextEvent s).setSurvey { s.survey with live := some { l with endRequested := some .stopped } }) ∧
    f = s.map.fence.getD 0 ∧
     portTakes s seq 33 [] check = true ∧
      s.survey.live = some l ∧
      l.endRequested = none ∧
      l.phase = .reading d ∧
      d.granted = true ∧
      calm t = true) ∧
    (∃ (s : State) (seq mode : Byte) (first count : Addr24) (check : BitVec 16) (f : Nat) (zero : SurveyCounts) (t : State)
        (l : LiveSurvey),
    zero = { linesRead := 0, skipped := 0, cleanAfterRetry := 0, corrected := 0, retriedCorrected := 0, uncorrectable := 0,
             markedDead := 0 } ∧
      t = answered { seq, status := .ok, results := [2] } (nextEvent s) ∧
    f = s.map.fence.getD 0 ∧
     portTakes s seq 33 [] check = true ∧
      s.survey.live = some l ∧
         l.endRequested ≠ none ∧
      calm t = true) :=
  ⟨⟨State.reset, 1, 0, 0, 0, commandCheck 1 32 (0 :: arg24 0 ++ arg24 0), 0, _, run, .state, rfl, by decide +kernel⟩,
    ⟨surveying (live 9 (.gap 16) none) run, 1, 0, 0, 0, commandCheck 1 32 (0 :: arg24 0 ++ arg24 0), 257024, _, run, .state,
     rfl, by decide +kernel⟩,
    ⟨run, 1, 2, 0, 0, commandCheck 1 32 (2 :: arg24 0 ++ arg24 0), 257024, _, run, .range, rfl, by decide +kernel⟩,
    ⟨run, 1, 0, 257024, 0, commandCheck 1 32 (0 :: arg24 257024 ++ arg24 0), 257024, _, run, .range, rfl, by decide +kernel⟩,
    ⟨run, 1, 0, 257023, 0, commandCheck 1 32 (0 :: arg24 257023 ++ arg24 0), 257024, _, _, 257024, rfl, rfl, by decide +kernel⟩,
    ⟨run, 1, 1, 0, 0, commandCheck 1 32 (1 :: arg24 0 ++ arg24 0), 257024, _, _, rfl, rfl, by decide +kernel⟩,
    ⟨run, 1, 0, 0, 0, commandCheck 1 33 ([]), 257024, _, run, rfl, by decide +kernel⟩,
    ⟨surveying (live 9 (.gap 16) none) run, 1, 0, 0, 0, commandCheck 1 33 ([]), 257024, _, _, live 9 (.gap 16) none, [], rfl,
     ⟨16, rfl, rfl⟩, rfl, by decide +kernel⟩,
    ⟨ask [.surveyRead] (surveying (live 9 (.reading (lad 9 0 false)) none) run), 1, 0, 0, 0, commandCheck 1 33 ([]), 257024,
     _, _, live 9 (.reading (lad 9 0 false)) none, [], rfl, ⟨lad 9 0 false, rfl, rfl, by decide +kernel⟩, rfl,
     by decide +kernel⟩,
    ⟨surveying (live 9 (.reading (lad 9 0 true)) none) run, 1, 0, 0, 0, commandCheck 1 33 ([]), 257024, _, _,
     live 9 (.reading (lad 9 0 true)) none, lad 9 0 true, rfl, rfl, by decide +kernel⟩,
    ⟨surveying (live 9 (.reading (lad 9 0 true)) (some .reset)) run, 1, 0, 0, 0, commandCheck 1 33 ([]), 257024, _, _,
     live 9 (.reading (lad 9 0 true)) (some .reset), rfl, rfl, by decide +kernel⟩⟩

theorem meets_fenceAdjustChecked :
    (∃ (s : State) (seq : Byte) (expected new : Addr24) (check : BitVec 16) (f top : Nat) (t : State) (status : Status)
        (results : List Byte),
    f = s.map.fence.getD 0 ∧
      top = s.array.lineCount - 4096 ∧
    portTakes s seq 64 (arg24 expected ++ arg24 new) check = true ∧
        s.guard.state = .open ∧
      ((s.start.op ≠ .running ∧ status = .state ∧ results = []) ∨
        (s.start.op = .running ∧ s.jour.state = .stalled ∧ status = .journalFault ∧ results = []) ∨
        (s.start.op = .running ∧ s.jour.state ≠ .stalled ∧ expected.toNat ≠ f ∧ status = .stale ∧ results = enc24 f) ∨
        (s.start.op = .running ∧ s.jour.state ≠ .stalled ∧ expected.toNat = f ∧ new.toNat = f ∧ status = .ok ∧
          results = enc24 f ++ enc24 (if s.map.fence = none then 0 else top - f)) ∨
        (s.start.op = .running ∧ s.jour.state ≠ .stalled ∧ expected.toNat = f ∧ new.toNat ≠ f ∧
          (top < new.toNat + 64 ∨ new.toNat + 8192 < top) ∧ status = .range ∧ results = []) ∨
        (s.start.op = .running ∧ s.jour.state ≠ .stalled ∧ expected.toNat = f ∧ new.toNat ≠ f ∧
          new.toNat + 64 ≤ top ∧ top ≤ new.toNat + 8192 ∧ s.survey.live ≠ none ∧ status = .state ∧ results = []))) ∧
    (∃ (s : State) (seq : Byte) (expected new : Addr24) (check : BitVec 16) (f top : Nat) (t : State) (status : Status)
        (results : List Byte),
    f = s.map.fence.getD 0 ∧
      top = s.array.lineCount - 4096 ∧
    portTakes s seq 64 (arg24 expected ++ arg24 new) check = true ∧
        s.guard.state = .open ∧
      ((s.start.op ≠ .running ∧ status = .state ∧ results = []) ∨
        (s.start.op = .running ∧ s.jour.state = .stalled ∧ status = .journalFault ∧ results = []) ∨
        (s.start.op = .running ∧ s.jour.state ≠ .stalled ∧ expected.toNat ≠ f ∧ status = .stale ∧ results = enc24 f) ∨
        (s.start.op = .running ∧ s.jour.state ≠ .stalled ∧ expected.toNat = f ∧ new.toNat = f ∧ status = .ok ∧
          results = enc24 f ++ enc24 (if s.map.fence = none then 0 else top - f)) ∨
        (s.start.op = .running ∧ s.jour.state ≠ .stalled ∧ expected.toNat = f ∧ new.toNat ≠ f ∧
          (top < new.toNat + 64 ∨ new.toNat + 8192 < top) ∧ status = .range ∧ results = []) ∨
        (s.start.op = .running ∧ s.jour.state ≠ .stalled ∧ expected.toNat = f ∧ new.toNat ≠ f ∧
          new.toNat + 64 ≤ top ∧ top ≤ new.toNat + 8192 ∧ s.survey.live ≠ none ∧ status = .state ∧ results = []))) ∧
    (∃ (s : State) (seq : Byte) (expected new : Addr24) (check : BitVec 16) (f top : Nat) (t : State) (status : Status)
        (results : List Byte),
    f = s.map.fence.getD 0 ∧
      top = s.array.lineCount - 4096 ∧
    portTakes s seq 64 (arg24 expected ++ arg24 new) check = true ∧
        s.guard.state = .open ∧
      ((s.start.op ≠ .running ∧ status = .state ∧ results = []) ∨
        (s.start.op = .running ∧ s.jour.state = .stalled ∧ status = .journalFault ∧ results = []) ∨
        (s.start.op = .running ∧ s.jour.state ≠ .stalled ∧ expected.toNat ≠ f ∧ status = .stale ∧ results = enc24 f) ∨
        (s.start.op = .running ∧ s.jour.state ≠ .stalled ∧ expected.toNat = f ∧ new.toNat = f ∧ status = .ok ∧
          results = enc24 f ++ enc24 (if s.map.fence = none then 0 else top - f)) ∨
        (s.start.op = .running ∧ s.jour.state ≠ .stalled ∧ expected.toNat = f ∧ new.toNat ≠ f ∧
          (top < new.toNat + 64 ∨ new.toNat + 8192 < top) ∧ status = .range ∧ results = []) ∨
        (s.start.op = .running ∧ s.jour.state ≠ .stalled ∧ expected.toNat = f ∧ new.toNat ≠ f ∧
          new.toNat + 64 ≤ top ∧ top ≤ new.toNat + 8192 ∧ s.survey.live ≠ none ∧ status = .state ∧ results = []))) ∧
    (∃ (s : State) (seq : Byte) (expected new : Addr24) (check : BitVec 16) (f top : Nat) (t : State) (status : Status)
        (results : List Byte),
    f = s.map.fence.getD 0 ∧
      top = s.array.lineCount - 4096 ∧
    portTakes s seq 64 (arg24 expected ++ arg24 new) check = true ∧
        s.guard.state = .open ∧
      ((s.start.op ≠ .running ∧ status = .state ∧ results = []) ∨
        (s.start.op = .running ∧ s.jour.state = .stalled ∧ status = .journalFault ∧ results = []) ∨
        (s.start.op = .running ∧ s.jour.state ≠ .stalled ∧ expected.toNat ≠ f ∧ status = .stale ∧ results = enc24 f) ∨
        (s.start.op = .running ∧ s.jour.state ≠ .stalled ∧ expected.toNat = f ∧ new.toNat = f ∧ status = .ok ∧
          results = enc24 f ++ enc24 (if s.map.fence = none then 0 else top - f)) ∨
        (s.start.op = .running ∧ s.jour.state ≠ .stalled ∧ expected.toNat = f ∧ new.toNat ≠ f ∧
          (top < new.toNat + 64 ∨ new.toNat + 8192 < top) ∧ status = .range ∧ results = []) ∨
        (s.start.op = .running ∧ s.jour.state ≠ .stalled ∧ expected.toNat = f ∧ new.toNat ≠ f ∧
          new.toNat + 64 ≤ top ∧ top ≤ new.toNat + 8192 ∧ s.survey.live ≠ none ∧ status = .state ∧ results = []))) ∧
    (∃ (s : State) (seq : Byte) (expected new : Addr24) (check : BitVec 16) (f top : Nat) (t : State) (status : Status)
        (results : List Byte),
    f = s.map.fence.getD 0 ∧
      top = s.array.lineCount - 4096 ∧
    portTakes s seq 64 (arg24 expected ++ arg24 new) check = true ∧
        s.guard.state = .open ∧
      ((s.start.op ≠ .running ∧ status = .state ∧ results = []) ∨
        (s.start.op = .running ∧ s.jour.state = .stalled ∧ status = .journalFault ∧ results = []) ∨
        (s.start.op = .running ∧ s.jour.state ≠ .stalled ∧ expected.toNat ≠ f ∧ status = .stale ∧ results = enc24 f) ∨
        (s.start.op = .running ∧ s.jour.state ≠ .stalled ∧ expected.toNat = f ∧ new.toNat = f ∧ status = .ok ∧
          results = enc24 f ++ enc24 (if s.map.fence = none then 0 else top - f)) ∨
        (s.start.op = .running ∧ s.jour.state ≠ .stalled ∧ expected.toNat = f ∧ new.toNat ≠ f ∧
          (top < new.toNat + 64 ∨ new.toNat + 8192 < top) ∧ status = .range ∧ results = []) ∨
        (s.start.op = .running ∧ s.jour.state ≠ .stalled ∧ expected.toNat = f ∧ new.toNat ≠ f ∧
          new.toNat + 64 ≤ top ∧ top ≤ new.toNat + 8192 ∧ s.survey.live ≠ none ∧ status = .state ∧ results = []))) ∧
    (∃ (s : State) (seq : Byte) (expected new : Addr24) (check : BitVec 16) (f top : Nat) (t : State) (status : Status)
        (results : List Byte),
    f = s.map.fence.getD 0 ∧
      top = s.array.lineCount - 4096 ∧
    portTakes s seq 64 (arg24 expected ++ arg24 new) check = true ∧
        s.guard.state = .open ∧
      ((s.start.op ≠ .running ∧ status = .state ∧ results = []) ∨
        (s.start.op = .running ∧ s.jour.state = .stalled ∧ status = .journalFault ∧ results = []) ∨
        (s.start.op = .running ∧ s.jour.state ≠ .stalled ∧ expected.toNat ≠ f ∧ status = .stale ∧ results = enc24 f) ∨
        (s.start.op = .running ∧ s.jour.state ≠ .stalled ∧ expected.toNat = f ∧ new.toNat = f ∧ status = .ok ∧
          results = enc24 f ++ enc24 (if s.map.fence = none then 0 else top - f)) ∨
        (s.start.op = .running ∧ s.jour.state ≠ .stalled ∧ expected.toNat = f ∧ new.toNat ≠ f ∧
          (top < new.toNat + 64 ∨ new.toNat + 8192 < top) ∧ status = .range ∧ results = []) ∨
        (s.start.op = .running ∧ s.jour.state ≠ .stalled ∧ expected.toNat = f ∧ new.toNat ≠ f ∧
          new.toNat + 64 ≤ top ∧ top ≤ new.toNat + 8192 ∧ s.survey.live ≠ none ∧ status = .state ∧ results = []))) ∧
    (∃ (s : State) (seq : Byte) (expected new : Addr24) (check : BitVec 16) (f top : Nat) (t : State) (status : Status)
        (results : List Byte),
    f = s.map.fence.getD 0 ∧
      top = s.array.lineCount - 4096 ∧
    portTakes s seq 64 (arg24 expected ++ arg24 new) check = true ∧
        s.guard.state = .open ∧
      ((s.start.op ≠ .running ∧ status = .state ∧ results = []) ∨
        (s.start.op = .running ∧ s.jour.state = .stalled ∧ status = .journalFault ∧ results = []) ∨
        (s.start.op = .running ∧ s.jour.state ≠ .stalled ∧ expected.toNat ≠ f ∧ status = .stale ∧ results = enc24 f) ∨
        (s.start.op = .running ∧ s.jour.state ≠ .stalled ∧ expected.toNat = f ∧ new.toNat = f ∧ status = .ok ∧
          results = enc24 f ++ enc24 (if s.map.fence = none then 0 else top - f)) ∨
        (s.start.op = .running ∧ s.jour.state ≠ .stalled ∧ expected.toNat = f ∧ new.toNat ≠ f ∧
          (top < new.toNat + 64 ∨ new.toNat + 8192 < top) ∧ status = .range ∧ results = []) ∨
        (s.start.op = .running ∧ s.jour.state ≠ .stalled ∧ expected.toNat = f ∧ new.toNat ≠ f ∧
          new.toNat + 64 ≤ top ∧ top ≤ new.toNat + 8192 ∧ s.survey.live ≠ none ∧ status = .state ∧ results = []))) ∧
    (∃ (s : State) (seq : Byte) (expected new : Addr24) (check : BitVec 16) (f top : Nat) (t : State) (a : Nat) (kind : Byte),
        (∀ b, f ≤ b → b < a → spareStateOf s b = some .free) ∧
    f = s.map.fence.getD 0 ∧
      top = s.array.lineCount - 4096 ∧
    portTakes s seq 64 (arg24 expected ++ arg24 new) check = true ∧
        s.guard.state = .open ∧
         s.start.op = .running ∧
      s.jour.state ≠ .stalled ∧
      expected.toNat = f ∧
          new.toNat + 64 ≤ top ∧
      top ≤ new.toNat + 8192 ∧
      s.survey.live = none ∧
      f < new.toNat ∧
      f ≤ a ∧
      a < new.toNat ∧
        ((spareStateOf s a = some .held ∧ kind = 0) ∨ (spareStateOf s a = some .bound ∧ kind = 1) ∨
          (spareStateOf s a = some .dead ∧ kind = 2))) ∧
    (∃ (s : State) (seq : Byte) (expected new : Addr24) (check : BitVec 16) (f top : Nat) (t : State) (a : Nat) (kind : Byte),
        (∀ b, f ≤ b → b < a → spareStateOf s b = some .free) ∧
    f = s.map.fence.getD 0 ∧
      top = s.array.lineCount - 4096 ∧
    portTakes s seq 64 (arg24 expected ++ arg24 new) check = true ∧
        s.guard.state = .open ∧
         s.start.op = .running ∧
      s.jour.state ≠ .stalled ∧
      expected.toNat = f ∧
          new.toNat + 64 ≤ top ∧
      top ≤ new.toNat + 8192 ∧
      s.survey.live = none ∧
      f < new.toNat ∧
      f ≤ a ∧
      a < new.toNat ∧
        ((spareStateOf s a = some .held ∧ kind = 0) ∨ (spareStateOf s a = some .bound ∧ kind = 1) ∨
          (spareStateOf s a = some .dead ∧ kind = 2))) ∧
    (∃ (s : State) (seq : Byte) (expected new : Addr24) (check : BitVec 16) (f top : Nat) (t : State) (a : Nat) (kind : Byte),
        (∀ b, f ≤ b → b < a → spareStateOf s b = some .free) ∧
    f = s.map.fence.getD 0 ∧
      top = s.array.lineCount - 4096 ∧
    portTakes s seq 64 (arg24 expected ++ arg24 new) check = true ∧
        s.guard.state = .open ∧
         s.start.op = .running ∧
      s.jour.state ≠ .stalled ∧
      expected.toNat = f ∧
          new.toNat + 64 ≤ top ∧
      top ≤ new.toNat + 8192 ∧
      s.survey.live = none ∧
      f < new.toNat ∧
      f ≤ a ∧
      a < new.toNat ∧
        ((spareStateOf s a = some .held ∧ kind = 0) ∨ (spareStateOf s a = some .bound ∧ kind = 1) ∨
          (spareStateOf s a = some .dead ∧ kind = 2))) ∧
    (∃ (s : State) (seq : Byte) (expected new : Addr24) (check : BitVec 16) (f top : Nat) (t : State) (a : Nat) (kind : Byte),
        (∀ b, new.toNat ≤ b → b < a → entryOf s b = none ∧ isPending s b = false ∧
          (∀ e ∈ s.buf.entries, e.hla ≠ b) ∧ ∀ r ∈ s.host.order, r.hla ≠ b) ∧
    f = s.map.fence.getD 0 ∧
      top = s.array.lineCount - 4096 ∧
    portTakes s seq 64 (arg24 expected ++ arg24 new) check = true ∧
        s.guard.state = .open ∧
         s.start.op = .running ∧
      s.jour.state ≠ .stalled ∧
      expected.toNat = f ∧
          new.toNat + 64 ≤ top ∧
      top ≤ new.toNat + 8192 ∧
      s.survey.live = none ∧
      new.toNat ≤ a ∧
      a < f ∧
        ((entryOf s a ≠ none ∧ kind = 3) ∨ (entryOf s a = none ∧ isPending s a = true ∧ kind = 4) ∨
          (entryOf s a = none ∧ isPending s a = false ∧ (∃ e ∈ s.buf.entries, e.hla = a) ∧ kind = 5) ∨
          (entryOf s a = none ∧ isPending s a = false ∧ (∀ e ∈ s.buf.entries, e.hla ≠ a) ∧
            (∃ r ∈ s.host.order, r.hla = a) ∧ kind = 6))) ∧
    (∃ (s : State) (seq : Byte) (expected new : Addr24) (check : BitVec 16) (f top : Nat) (t : State) (a : Nat) (kind : Byte),
        (∀ b, new.toNat ≤ b → b < a → entryOf s b = none ∧ isPending s b = false ∧
          (∀ e ∈ s.buf.entries, e.hla ≠ b) ∧ ∀ r ∈ s.host.order, r.hla ≠ b) ∧
    f = s.map.fence.getD 0 ∧
      top = s.array.lineCount - 4096 ∧
    portTakes s seq 64 (arg24 expected ++ arg24 new) check = true ∧
        s.guard.state = .open ∧
         s.start.op = .running ∧
      s.jour.state ≠ .stalled ∧
      expected.toNat = f ∧
          new.toNat + 64 ≤ top ∧
      top ≤ new.toNat + 8192 ∧
      s.survey.live = none ∧
      new.toNat ≤ a ∧
      a < f ∧
        ((entryOf s a ≠ none ∧ kind = 3) ∨ (entryOf s a = none ∧ isPending s a = true ∧ kind = 4) ∨
          (entryOf s a = none ∧ isPending s a = false ∧ (∃ e ∈ s.buf.entries, e.hla = a) ∧ kind = 5) ∨
          (entryOf s a = none ∧ isPending s a = false ∧ (∀ e ∈ s.buf.entries, e.hla ≠ a) ∧
            (∃ r ∈ s.host.order, r.hla = a) ∧ kind = 6))) ∧
    (∃ (s : State) (seq : Byte) (expected new : Addr24) (check : BitVec 16) (f top : Nat) (t : State) (a : Nat) (kind : Byte),
        (∀ b, new.toNat ≤ b → b < a → entryOf s b = none ∧ isPending s b = false ∧
          (∀ e ∈ s.buf.entries, e.hla ≠ b) ∧ ∀ r ∈ s.host.order, r.hla ≠ b) ∧
    f = s.map.fence.getD 0 ∧
      top = s.array.lineCount - 4096 ∧
    portTakes s seq 64 (arg24 expected ++ arg24 new) check = true ∧
        s.guard.state = .open ∧
         s.start.op = .running ∧
      s.jour.state ≠ .stalled ∧
      expected.toNat = f ∧
          new.toNat + 64 ≤ top ∧
      top ≤ new.toNat + 8192 ∧
      s.survey.live = none ∧
      new.toNat ≤ a ∧
      a < f ∧
        ((entryOf s a ≠ none ∧ kind = 3) ∨ (entryOf s a = none ∧ isPending s a = true ∧ kind = 4) ∨
          (entryOf s a = none ∧ isPending s a = false ∧ (∃ e ∈ s.buf.entries, e.hla = a) ∧ kind = 5) ∨
          (entryOf s a = none ∧ isPending s a = false ∧ (∀ e ∈ s.buf.entries, e.hla ≠ a) ∧
            (∃ r ∈ s.host.order, r.hla = a) ∧ kind = 6))) ∧
    (∃ (s : State) (seq : Byte) (expected new : Addr24) (check : BitVec 16) (f top : Nat) (t : State) (a : Nat) (kind : Byte),
        (∀ b, new.toNat ≤ b → b < a → entryOf s b = none ∧ isPending s b = false ∧
          (∀ e ∈ s.buf.entries, e.hla ≠ b) ∧ ∀ r ∈ s.host.order, r.hla ≠ b) ∧
    f = s.map.fence.getD 0 ∧
      top = s.array.lineCount - 4096 ∧
    portTakes s seq 64 (arg24 expected ++ arg24 new) check = true ∧
        s.guard.state = .open ∧
         s.start.op = .running ∧
      s.jour.state ≠ .stalled ∧
      expected.toNat = f ∧
          new.toNat + 64 ≤ top ∧
      top ≤ new.toNat + 8192 ∧
      s.survey.live = none ∧
      new.toNat ≤ a ∧
      a < f ∧
        ((entryOf s a ≠ none ∧ kind = 3) ∨ (entryOf s a = none ∧ isPending s a = true ∧ kind = 4) ∨
          (entryOf s a = none ∧ isPending s a = false ∧ (∃ e ∈ s.buf.entries, e.hla = a) ∧ kind = 5) ∨
          (entryOf s a = none ∧ isPending s a = false ∧ (∀ e ∈ s.buf.entries, e.hla ≠ a) ∧
            (∃ r ∈ s.host.order, r.hla = a) ∧ kind = 6))) ∧
    (∃ (s : State) (seq : Byte) (expected new : Addr24) (check : BitVec 16) (f top : Nat) (t : State) (range : FenceRange),
         (f < new.toNat ∧ (∀ a, f ≤ a → a < new.toNat → spareStateOf s a = some .free) ∧
            range = { kind := .withdrawal, lo := f, hi := new.toNat, kept := false }) ∧
        t = (((nextEvent s).setMap { s.map with range := some range }).setPort
              { s.port with command := some { seq, command := .fenceAdjust new.toNat } }).setJour
              { s.jour with queue := s.jour.queue ++ [.fence new.toNat] } ∧
    f = s.map.fence.getD 0 ∧
      top = s.array.lineCount - 4096 ∧
    portTakes s seq 64 (arg24 expected ++ arg24 new) check = true ∧
        s.guard.state = .open ∧
         s.start.op = .running ∧
      s.jour.state ≠ .stalled ∧
      expected.toNat = f ∧
          new.toNat + 64 ≤ top ∧
      top ≤ new.toNat + 8192 ∧
      s.survey.live = none ∧
        s.jour.queue.length < 16) ∧
    (∃ (s : State) (seq : Byte) (expected new : Addr24) (check : BitVec 16) (f top : Nat) (t : State) (range : FenceRange),
          (new.toNat < f ∧
            (∀ a, new.toNat ≤ a → a < f → entryOf s a = none ∧ isPending s a = false ∧
              (∀ e ∈ s.buf.entries, e.hla ≠ a) ∧ ∀ r ∈ s.host.order, r.hla ≠ a) ∧
            range = { kind := .closing, lo := new.toNat, hi := f, kept := false }) ∧
        t = (((nextEvent s).setMap { s.map with range := some range }).setPort
              { s.port with command := some { seq, command := .fenceAdjust new.toNat } }).setJour
              { s.jour with queue := s.jour.queue ++ [.fence new.toNat] } ∧
    f = s.map.fence.getD 0 ∧
      top = s.array.lineCount - 4096 ∧
    portTakes s seq 64 (arg24 expected ++ arg24 new) check = true ∧
        s.guard.state = .open ∧
         s.start.op = .running ∧
      s.jour.state ≠ .stalled ∧
      expected.toNat = f ∧
          new.toNat + 64 ≤ top ∧
      top ≤ new.toNat + 8192 ∧
      s.survey.live = none ∧
        s.jour.queue.length < 16) :=
  ⟨⟨held .noJournal, 1, 0, 0, commandCheck 1 64 (arg24 0 ++ arg24 0), 0, 258048, run, .state, [], by decide +kernel⟩,
    ⟨journal .stalled run, 1, 0, 0, commandCheck 1 64 (arg24 0 ++ arg24 0), 257024, 258048, run, .journalFault, [],
     by decide +kernel⟩,
    ⟨run, 1, 257023, 0, commandCheck 1 64 (arg24 257023 ++ arg24 0), 257024, 258048, run, .stale, enc24 257024,
     by decide +kernel⟩,
    ⟨run, 1, 257024, 257024, commandCheck 1 64 (arg24 257024 ++ arg24 257024), 257024, 258048, run, .ok,
     enc24 257024 ++ enc24 1024, by decide +kernel⟩,
    ⟨run, 1, 257024, 257985, commandCheck 1 64 (arg24 257024 ++ arg24 257985), 257024, 258048, run, .range, [],
     by decide +kernel⟩,
    ⟨run, 1, 257024, 249855, commandCheck 1 64 (arg24 257024 ++ arg24 249855), 257024, 258048, run, .range, [],
     by decide +kernel⟩,
    ⟨surveying (live 9 (.gap 16) none) run, 1, 257024, 249856, commandCheck 1 64 (arg24 257024 ++ arg24 249856), 257024,
     258048, run, .state, [], by decide +kernel⟩,
    ⟨marked 257024 .held, 1, 257024, 257025, commandCheck 1 64 (arg24 257024 ++ arg24 257025), 257024, 258048, run, 257024,
     0, (fun b h1 h2 => absurd h2 (Nat.not_lt.mpr h1)), by decide +kernel⟩,
    ⟨marked 257024 .bound, 1, 257024, 257025, commandCheck 1 64 (arg24 257024 ++ arg24 257025), 257024, 258048, run, 257024,
     1, (fun b h1 h2 => absurd h2 (Nat.not_lt.mpr h1)), by decide +kernel⟩,
    ⟨marked 257024 .dead, 1, 257024, 257025, commandCheck 1 64 (arg24 257024 ++ arg24 257025), 257024, 258048, run, 257024,
     2, (fun b h1 h2 => absurd h2 (Nat.not_lt.mpr h1)), by decide +kernel⟩,
    ⟨{ run with map := { run.map with table := [{ home := 257023, spare := some 257024, target := none, cause := none, boundTick := none }] } },
     1, 257024, 257023, commandCheck 1 64 (arg24 257024 ++ arg24 257023), 257024, 258048, run, 257023, 3,
     (fun b h1 h2 => absurd h2 (Nat.not_lt.mpr h1)), by decide +kernel⟩,
    ⟨pends [257023] run, 1, 257024, 257023, commandCheck 1 64 (arg24 257024 ++ arg24 257023), 257024, 258048, run, 257023, 4,
     (fun b h1 h2 => absurd h2 (Nat.not_lt.mpr h1)), by decide +kernel⟩,
    ⟨bufs [ent 1 257023 1 .waiting] run, 1, 257024, 257023, commandCheck 1 64 (arg24 257024 ++ arg24 257023), 257024, 258048,
     run, 257023, 5, (fun b h1 h2 => absurd h2 (Nat.not_lt.mpr h1)), by decide +kernel⟩,
    ⟨reqs [req 8 257023 .queued] run, 1, 257024, 257023, commandCheck 1 64 (arg24 257024 ++ arg24 257023), 257024, 258048,
     run, 257023, 6, (fun b h1 h2 => absurd h2 (Nat.not_lt.mpr h1)), by decide +kernel⟩,
    ⟨fenced 257983, 1, 257983, 257984, commandCheck 1 64 (arg24 257983 ++ arg24 257984), 257983, 258048, _, _,
     ⟨by decide, (fun a h1 h2 => by
      obtain rfl : a = 257983 := by have h3 : 257983 ≤ a := h1; have h4 : a < 257984 := h2; omega
      decide +kernel), rfl⟩,
     rfl, by decide +kernel⟩,
    ⟨fenced 249857, 1, 249857, 249856, commandCheck 1 64 (arg24 249857 ++ arg24 249856), 249857, 258048, _, _,
     ⟨by decide, (fun a h1 h2 => by
      obtain rfl : a = 249856 := by have h3 : 249856 ≤ a := h1; have h4 : a < 249857 := h2; omega
      decide +kernel), rfl⟩,
     rfl, by decide +kernel⟩⟩

theorem meets_lineRetireChecked :
    (∃ (s : State) (seq : Byte) (hla : Addr24) (check : BitVec 16) (t : State) (status : Status),
    portTakes s seq 65 (arg24 hla) check = true ∧
        s.guard.state = .open ∧
      ((s.start.op ≠ .running ∧ status = .state) ∨
        (s.start.op = .running ∧ s.jour.state = .stalled ∧ status = .journalFault) ∨
        (s.start.op = .running ∧ s.jour.state ≠ .stalled ∧ s.map.fence.getD 0 ≤ hla.toNat ∧ status = .range) ∨
        (s.start.op = .running ∧ s.jour.state ≠ .stalled ∧ hla.toNat < s.map.fence.getD 0 ∧
          isPending s hla.toNat = true ∧ status = .pending) ∨
        (s.start.op = .running ∧ s.jour.state ≠ .stalled ∧ hla.toNat < s.map.fence.getD 0 ∧
          isPending s hla.toNat = false ∧ relocationInProgress s hla.toNat = true ∧ status = .alreadyMoving))) ∧
    (∃ (s : State) (seq : Byte) (hla : Addr24) (check : BitVec 16) (t : State) (status : Status),
    portTakes s seq 65 (arg24 hla) check = true ∧
        s.guard.state = .open ∧
      ((s.start.op ≠ .running ∧ status = .state) ∨
        (s.start.op = .running ∧ s.jour.state = .stalled ∧ status = .journalFault) ∨
        (s.start.op = .running ∧ s.jour.state ≠ .stalled ∧ s.map.fence.getD 0 ≤ hla.toNat ∧ status = .range) ∨
        (s.start.op = .running ∧ s.jour.state ≠ .stalled ∧ hla.toNat < s.map.fence.getD 0 ∧
          isPending s hla.toNat = true ∧ status = .pending) ∨
        (s.start.op = .running ∧ s.jour.state ≠ .stalled ∧ hla.toNat < s.map.fence.getD 0 ∧
          isPending s hla.toNat = false ∧ relocationInProgress s hla.toNat = true ∧ status = .alreadyMoving))) ∧
    (∃ (s : State) (seq : Byte) (hla : Addr24) (check : BitVec 16) (t : State) (status : Status),
    portTakes s seq 65 (arg24 hla) check = true ∧
        s.guard.state = .open ∧
      ((s.start.op ≠ .running ∧ status = .state) ∨
        (s.start.op = .running ∧ s.jour.state = .stalled ∧ status = .journalFault) ∨
        (s.start.op = .running ∧ s.jour.state ≠ .stalled ∧ s.map.fence.getD 0 ≤ hla.toNat ∧ status = .range) ∨
        (s.start.op = .running ∧ s.jour.state ≠ .stalled ∧ hla.toNat < s.map.fence.getD 0 ∧
          isPending s hla.toNat = true ∧ status = .pending) ∨
        (s.start.op = .running ∧ s.jour.state ≠ .stalled ∧ hla.toNat < s.map.fence.getD 0 ∧
          isPending s hla.toNat = false ∧ relocationInProgress s hla.toNat = true ∧ status = .alreadyMoving))) ∧
    (∃ (s : State) (seq : Byte) (hla : Addr24) (check : BitVec 16) (t : State) (status : Status),
    portTakes s seq 65 (arg24 hla) check = true ∧
        s.guard.state = .open ∧
      ((s.start.op ≠ .running ∧ status = .state) ∨
        (s.start.op = .running ∧ s.jour.state = .stalled ∧ status = .journalFault) ∨
        (s.start.op = .running ∧ s.jour.state ≠ .stalled ∧ s.map.fence.getD 0 ≤ hla.toNat ∧ status = .range) ∨
        (s.start.op = .running ∧ s.jour.state ≠ .stalled ∧ hla.toNat < s.map.fence.getD 0 ∧
          isPending s hla.toNat = true ∧ status = .pending) ∨
        (s.start.op = .running ∧ s.jour.state ≠ .stalled ∧ hla.toNat < s.map.fence.getD 0 ∧
          isPending s hla.toNat = false ∧ relocationInProgress s hla.toNat = true ∧ status = .alreadyMoving))) ∧
    (∃ (s : State) (seq : Byte) (hla : Addr24) (check : BitVec 16) (t : State) (status : Status),
    portTakes s seq 65 (arg24 hla) check = true ∧
        s.guard.state = .open ∧
      ((s.start.op ≠ .running ∧ status = .state) ∨
        (s.start.op = .running ∧ s.jour.state = .stalled ∧ status = .journalFault) ∨
        (s.start.op = .running ∧ s.jour.state ≠ .stalled ∧ s.map.fence.getD 0 ≤ hla.toNat ∧ status = .range) ∨
        (s.start.op = .running ∧ s.jour.state ≠ .stalled ∧ hla.toNat < s.map.fence.getD 0 ∧
          isPending s hla.toNat = true ∧ status = .pending) ∨
        (s.start.op = .running ∧ s.jour.state ≠ .stalled ∧ hla.toNat < s.map.fence.getD 0 ∧
          isPending s hla.toNat = false ∧ relocationInProgress s hla.toNat = true ∧ status = .alreadyMoving))) ∧
    (∃ (s : State) (seq : Byte) (hla : Addr24) (check : BitVec 16) (t : State),
        t = placeRequest (.retireRead s.ids.nextId)
              ((takeId ((nextEvent s).setPort
                  { s.port with command := some { seq, command := .lineRetire hla.toNat false } })).setReloc
                { s.reloc with
                  reserved := some hla.toNat
                  retireReads := s.reloc.retireReads ++
                    [{ id := s.ids.nextId, home := hla.toNat, live := true
                       ladder :=
                         { ala := servingPlace s hla.toNat, depth := s.policy.active.retryDepth, step := 0
                           age := { event := s.ids.event + 1, direct := false, order := s.ids.nextId + 1 }
                           granted := false } }] }) ∧
    portTakes s seq 65 (arg24 hla) check = true ∧
        s.guard.state = .open ∧
         s.start.op = .running ∧
      s.jour.state ≠ .stalled ∧
      hla.toNat < s.map.fence.getD 0 ∧
        isPending s hla.toNat = false ∧
      relocationInProgress s hla.toNat = false ∧
      slotFree s = true ∧
      s.reloc.queue = []) ∧
    (∃ (s : State) (seq : Byte) (hla : Addr24) (check : BitVec 16) (t : State),
        t = ((nextEvent s).setPort
              { s.port with command := some { seq, command := .lineRetire hla.toNat false } }).setReloc
              { s.reloc with queue := s.reloc.queue ++ [.reservation hla.toNat] } ∧
    portTakes s seq 65 (arg24 hla) check = true ∧
        s.guard.state = .open ∧
         s.start.op = .running ∧
      s.jour.state ≠ .stalled ∧
      hla.toNat < s.map.fence.getD 0 ∧
        isPending s hla.toNat = false ∧
      relocationInProgress s hla.toNat = false ∧
       (slotFree s = false ∨ s.reloc.queue ≠ [])) :=
  ⟨⟨held .noArray, 1, 0, commandCheck 1 65 (arg24 0), run, .state, by decide +kernel⟩,
    ⟨journal .stalled run, 1, 0, commandCheck 1 65 (arg24 0), run, .journalFault, by decide +kernel⟩,
    ⟨run, 1, 257024, commandCheck 1 65 (arg24 257024), run, .range, by decide +kernel⟩,
    ⟨pends [257023] run, 1, 257023, commandCheck 1 65 (arg24 257023), run, .pending, by decide +kernel⟩,
    ⟨moving .writing false 1, 1, 0, commandCheck 1 65 (arg24 0), run, .alreadyMoving, by decide +kernel⟩,
    ⟨run, 1, 257023, commandCheck 1 65 (arg24 257023), _, rfl, by decide +kernel⟩,
    ⟨{ run with reloc := { run.reloc with queue := [.reservation 5] } }, 1, 0, commandCheck 1 65 (arg24 0), _, rfl,
     by decide +kernel⟩⟩

theorem meets_longCommandsAccepted :
    (∃ (s : State) (seq : Byte) (check : BitVec 16) (t : State),
     portTakes s seq 66 [] check = true ∧
        s.guard.state = .open ∧
        s.start.op ≠ .running) ∧
    (∃ (s : State) (seq : Byte) (check : BitVec 16) (t : State),
     portTakes s seq 66 [] check = true ∧
        s.guard.state = .open ∧
         s.start.op = .running ∧
       s.jour.state = .stalled) ∧
    (∃ (s : State) (seq : Byte) (check : BitVec 16) (t : State),
        t = ((nextEvent s).setPort { s.port with command := some { seq, command := .policyExchange } }).setJour
              { s.jour with queue := s.jour.queue ++ [.policy s.policy.staged] } ∧
     portTakes s seq 66 [] check = true ∧
        s.guard.state = .open ∧
         s.start.op = .running ∧
      s.jour.state ≠ .stalled ∧
        s.jour.queue.length < 16) ∧
    (∃ (s : State) (seq : Byte) (check : BitVec 16) (t : State) (fence : Option Addr24) (f : Nat),
      portTakes s seq 68 ((fence.map arg24).getD []) check = true ∧
        s.guard.state = .open ∧
       s.start.op ≠ .held .noJournal) ∧
    (∃ (s : State) (seq : Byte) (check : BitVec 16) (t : State) (fence : Option Addr24) (f : Nat) (new : _),
      portTakes s seq 68 ((fence.map arg24).getD []) check = true ∧
        s.guard.state = .open ∧
       s.start.op = .held .noJournal ∧
      fence = some new ∧
          (s.array.lineCount - 4096 < new.toNat + 64 ∨ new.toNat + 8192 < s.array.lineCount - 4096)) ∧
    (∃ (s : State) (seq : Byte) (check : BitVec 16) (t : State) (fence : Option Addr24) (f : Nat) (new : _),
      portTakes s seq 68 ((fence.map arg24).getD []) check = true ∧
        s.guard.state = .open ∧
       s.start.op = .held .noJournal ∧
      fence = some new ∧
          (s.array.lineCount - 4096 < new.toNat + 64 ∨ new.toNat + 8192 < s.array.lineCount - 4096)) ∧
    (∃ (s : State) (seq : Byte) (check : BitVec 16) (t : State) (fence : Option Addr24) (f : Nat),
          t = placeRequest (.journalWrite .format (s.array.lineCount - 2048) (journalLine 0 .b false false [.fence f]))
                (((nextEvent s).setPort { s.port with command := some { seq, command := .journalFormat } }).setStart
                  { s.start with format := some { fence := f, index := 0 } }) ∧
      portTakes s seq 68 ((fence.map arg24).getD []) check = true ∧
        s.guard.state = .open ∧
       s.start.op = .held .noJournal ∧
          (fence = none ∧ f = s.array.lineCount - 4096 - 1024)) ∧
    (∃ (s : State) (seq : Byte) (check : BitVec 16) (t : State) (fence : Option Addr24) (f : Nat),
           (∃ new, fence = some new ∧ f = new.toNat ∧ f + 64 ≤ s.array.lineCount - 4096 ∧
              s.array.lineCount - 4096 ≤ f + 8192) ∧
          t = placeRequest (.journalWrite .format (s.array.lineCount - 2048) (journalLine 0 .b false false [.fence f]))
                (((nextEvent s).setPort { s.port with command := some { seq, command := .journalFormat } }).setStart
                  { s.start with format := some { fence := f, index := 0 } }) ∧
      portTakes s seq 68 ((fence.map arg24).getD []) check = true ∧
        s.guard.state = .open ∧
       s.start.op = .held .noJournal) ∧
    (∃ (s : State) (seq : Byte) (check : BitVec 16) (t : State),
     portTakes s seq 69 [] check = true ∧
        s.guard.state = .open ∧
        s.start.op ≠ .running) ∧
    (∃ (s : State) (seq : Byte) (check : BitVec 16) (t : State),
     portTakes s seq 69 [] check = true ∧
        s.guard.state = .open ∧
         s.start.op = .running ∧
       s.jour.state = .stalled) ∧
    (∃ (s : State) (seq : Byte) (check : BitVec 16) (t : State),
        t = ((nextEvent s).setPort { s.port with command := some { seq, command := .bridgeRestart } }).setStart
              { s.start with op := .quiescing } ∧
     portTakes s seq 69 [] check = true ∧
        s.guard.state = .open ∧
         s.start.op = .running ∧
      s.jour.state ≠ .stalled ∧
      s.survey.live = none) ∧
    (∃ (s : State) (seq : Byte) (check : BitVec 16) (t : State),
     portTakes s seq 37 [] check = true ∧
      (s.start.op ≠ .running ∨ s.jour.state = .compacting)) ∧
    (∃ (s : State) (seq : Byte) (check : BitVec 16) (t : State),
     portTakes s seq 37 [] check = true ∧
      (s.start.op ≠ .running ∨ s.jour.state = .compacting)) ∧
    (∃ (s : State) (seq : Byte) (check : BitVec 16) (t : State),
        t = (nextEvent s).setPort { s.port with command := some { seq, command := .journalCompact } } ∧
     portTakes s seq 37 [] check = true ∧
         s.start.op = .running ∧
        (s.jour.state = .ready ∨ s.jour.state = .appending)) ∧
    (∃ (s : State) (seq : Byte) (check : BitVec 16) (t : State),
        t = (nextEvent s).setPort { s.port with command := some { seq, command := .journalCompact } } ∧
     portTakes s seq 37 [] check = true ∧
         s.start.op = .running ∧
       s.jour.state = .stalled) :=
  ⟨⟨held .noJournal, 1, commandCheck 1 66 ([]), run, by decide +kernel⟩,
    ⟨journal .stalled run, 1, commandCheck 1 66 ([]), run, by decide +kernel⟩,
    ⟨{ run with jour := { run.jour with queue := List.replicate 15 (.dead 257030) } }, 1, commandCheck 1 66 ([]), _, rfl,
     by decide +kernel⟩,
    ⟨run, 1, commandCheck 1 68 ([]), run, none, 0, by decide +kernel⟩,
    ⟨held .noJournal, 1, commandCheck 1 68 (arg24 257985), run, some 257985, 0, 257985, by decide +kernel⟩,
    ⟨held .noJournal, 1, commandCheck 1 68 (arg24 249855), run, some 249855, 0, 249855, by decide +kernel⟩,
    ⟨held .noJournal, 1, commandCheck 1 68 ([]), _, none, 257024, rfl, by decide +kernel⟩,
    ⟨held .noJournal, 1, commandCheck 1 68 (arg24 257984), _, some 257984, 257984,
     ⟨257984, rfl, by decide +kernel, by decide +kernel, by decide +kernel⟩, rfl, by decide +kernel⟩,
    ⟨held .noJournal, 1, commandCheck 1 69 ([]), run, by decide +kernel⟩,
    ⟨journal .stalled run, 1, commandCheck 1 69 ([]), run, by decide +kernel⟩,
    ⟨run, 1, commandCheck 1 69 ([]), _, rfl, by decide +kernel⟩,
    ⟨held .noJournal, 1, commandCheck 1 37 ([]), run, by decide +kernel⟩,
    ⟨journal .compacting run, 1, commandCheck 1 37 ([]), run, by decide +kernel⟩,
    ⟨journal .appending run, 1, commandCheck 1 37 ([]), _, rfl, by decide +kernel⟩,
    ⟨journal .stalled run, 1, commandCheck 1 37 ([]), _, rfl, by decide +kernel⟩⟩

theorem meets_internalRowsAct :
    (∃ (s t : State) (r : HostReq) (others : List HostReq),
      t = responded (readAnswer r.tag .poison none)
            (((nextEvent s).setReloc
              { s.reloc with
                pendingList := s.reloc.pendingList.map fun p =>
                  if p.hla = r.hla then { p with hits := if p.hits = 255 then 255 else p.hits + 1 } else p }).setHost
              { s.host with
                order := s.host.order.filter (·.id != r.id), tags := s.host.tags.filter (· != r.tag) }) ∧
      s.host.order = r :: others ∧
       r.stage = .queued ∧
      r.write = none ∧
      r.live = true ∧
      (∀ e ∈ s.buf.entries, e.hla ≠ r.hla) ∧
      isMoving s r.hla = false ∧
      isPending s r.hla = true) ∧
    (∃ (s t : State) (id : Nat) (r : HostReq) (data : LineData) (mask : Mask),
      t = responded (reportingAnswer .write r.tag .done s)
            (((takeId (nextEvent s)).setHost
              { s.host with
                roomWait := [], order := s.host.order.filter (·.id != r.id), tags := s.host.tags.filter (· != r.tag)
                reports := s.host.reports.drop 1, epochCount := s.host.epochCount + 1 }).setBuf
              { s.buf with
                entries := s.buf.entries ++
                  [{ id := s.ids.nextId, hla := r.hla, data, mask, phase := .waiting, epoch := some (s.host.epochCount + 1)
                     place := r.hla, ladder := none }] }) ∧
      s.host.roomWait = [id] ∧
    findReq s id = some r ∧
      r.write = some (data, mask) ∧
      r.live = true ∧
      s.buf.entries.length < 8 ∧
      (∀ e ∈ s.buf.entries, e.hla ≠ r.hla)) ∧
    (∃ (s t : State) (id home spare : Nat) (cause : RelocCause) (e : Item),
      t = (beginRelocation e.hla spare cause e.data e.epoch []
            (setMark spare .held ((nextEvent s).setReloc { s.reloc with queue := [] }))).setBuf
            { s.buf with entries := s.buf.entries.filter (·.id != id) } ∧
      s.reloc.queue = [.request (.entry id) home cause] ∧
      slotFree s = true ∧
      reservationFor s home = false ∧
        findItem s (.entry id) = some e ∧
      e.hla < fenceValue s ∧
      isMoving s e.hla = false ∧
          lowestFree s = some spare ∧
      (∀ r ∈ s.host.order, r.stage ≠ .waitEntry id)) ∧
    (∃ (s t : State) (r : Record),
      t = (nextEvent s).setJour { s.jour with queue := s.jour.queue ++ [r], wait := [] } ∧
      s.jour.wait = [r] ∧
        s.jour.queue.length < 16) ∧
    (∃ (s t : State),
      t = { nextEvent s with
            host := { s.host with reports := [], barriers := [] }
            map := { table := [], marks := [], poolBuilt := false, cursor := 0, fence := none, range := none }
            array :=
              { lineCount := 0, inFlight := [{ op := .ident, owner := .ident, step := 0, timedOut := false }], waiting := [] }
            reloc := { s.reloc with pendingList := [], watch := [], held := [], retireReads := [] }
            jour :=
              { s.jour with
                state := .ready, active := none, nextLine := 0, queue := [], wait := [], line := none, compaction := none
                faulted := [] }
            start := { op := .starting, phase := .ident, format := none }
            survey := { s.survey with report := none }
            alert := { s.alert with causes := s.alert.causes &&& levelCauses }
            policy := { active := .default, staged := .default }
            out := { s.out with array := s.out.array ++ [.linkReset, .ident] } } ∧
      s.start.op = .quiescing ∧
      s.host.tags = [] ∧
      s.host.order = [] ∧
      s.host.roomWait = [] ∧
      s.buf.entries = [] ∧
      s.buf.direct = [] ∧
      s.reloc.slots = [] ∧
      s.reloc.reserved = none ∧
      s.reloc.queue = [] ∧
      s.survey.live = none ∧
      s.jour.state = .ready ∧
      s.jour.queue = [] ∧
      s.jour.wait = []) :=
  ⟨⟨pends [257023] (reqs [req 8 257023 .queued] run), _, req 8 257023 .queued, [], rfl, by decide +kernel⟩,
    ⟨bufs ((List.range 7).map fun i => ent (i + 10) (i + 100) 1 .relocating) { run with host := { run.host with order := [{ req 8 5 .waitRoom with write := some (0, 1) }], tags := [3], roomWait := [8] } },
     _, 8, { req 8 5 .waitRoom with write := some (0, 1) }, 0, 1, rfl, by decide +kernel⟩,
    ⟨bufs [ent 1 0 (BitVec.allOnes 64) .relocating] { run with reloc := { run.reloc with queue := [.request (.entry 1) 0 .writeFault] } },
     _, 1, 0, 257024, .writeFault, ent 1 0 (BitVec.allOnes 64) .relocating, rfl, by decide +kernel⟩,
    ⟨{ run with jour := { run.jour with wait := [.dead 5], queue := List.replicate 15 (.dead 6) } }, _, .dead 5, rfl,
     by decide +kernel⟩,
    ⟨{ run with start := { run.start with op := .quiescing } }, _, rfl, by decide +kernel⟩⟩

theorem meets_eventEnds :
    (∃ (s : State),
      calm s = true) ∧
    (∃ (s : State),
      steady s = true) ∧
    (∃ (s : State) (t : State),
      s.reloc.queue = [] ∧
        s.reloc.held = [] ∧
      s.host.roomWait = [] ∧
      (∀ r ∈ s.host.order, r.stage ≠ .queued) ∧
      s.jour.wait = [] ∧
      decideNext s = some t ∧
      steady t = true) ∧
    (∃ (s : State) (i : _),
         i ≠ 0 ∧
      i ≠ 2) :=
  ⟨⟨run, by decide +kernel⟩,
    ⟨bufs [ent 1 0 (BitVec.allOnes 64) .waiting] run, by decide +kernel⟩,
    ⟨queued, (decideNext queued).getD run, by decide +kernel⟩,
    ⟨run, 3, by decide +kernel⟩⟩

theorem meets_allocationTakesLowest :
    (∃ (s : State) (a : Nat) (t : State),
      allocate s = (some a, t)) ∧
    (∃ (s : State) (a : Nat) (t : State) (b : _),
      allocate s = (some a, t) ∧
      b < a ∧
      spareStateOf s b = some .free) ∧
    (∃ (s : State) (t : State),
      allocate s = (none, t)) ∧
    (∃ (s : State) (t : State) (b : _),
      allocate s = (none, t) ∧
      spareStateOf s b = some .free) ∧
    (∃ (s : State) (a : _),
            (∀ f, s.map.fence = some f → f ≤ a → s.array.lineCount - 4096 ≤ a)) ∧
    (∃ (s : State) (a : _),
            (∀ f, s.map.fence = some f → f ≤ a → s.array.lineCount - 4096 ≤ a)) ∧
    (∃ (s : State) (f a : _) (m : _),
      mapLaw s.map ∧
      s.map.fence = some f ∧
      f ≤ a ∧
      a < s.array.lineCount - 4096 ∧
             m ∈ s.map.marks ∧
      m.ala = a) ∧
    (∃ (s : State) (f a : _),
      s.map.fence = some f ∧
      f ≤ a ∧
      a < s.array.lineCount - 4096 ∧
         (∀ m ∈ s.map.marks, m.ala ≠ a)) ∧
    (∃ (s : State) (f a : _),
      s.map.fence = some f ∧
      f ≤ a ∧
      a < s.array.lineCount - 4096 ∧
         (∀ m ∈ s.map.marks, m.ala ≠ a)) ∧
    (∃ (s : State) (home spare : Nat) (cause : RelocCause) (data : LineData) (epoch : Option Nat) (writes : List WaitingWrite)
        (entry : RemapEntry),
          (entryOf s home = none ∧
            entry = { home, spare := none, target := some spare, cause := some cause, boundTick := none })) ∧
    (∃ (s : State) (home spare : Nat) (cause : RelocCause) (data : LineData) (epoch : Option Nat) (writes : List WaitingWrite)
        (entry : RemapEntry),
         (∃ e, entryOf s home = some e ∧ entry = { e with target := some spare, cause := some cause })) ∧
    (∃ (s : State) (home : _),
      home < fenceValue s ∧
      isMoving s home = false) ∧
    (∃ (s : State) (home : _),
         (fenceValue s ≤ home ∨ isMoving s home = true)) ∧
    (∃ (s : State) (home : _),
         (fenceValue s ≤ home ∨ isMoving s home = true)) :=
  ⟨⟨run, 257024, (allocate (run)).2, by decide +kernel⟩,
    ⟨{ run with map := { run.map with range := some ⟨.withdrawal, 257024, 257025, false⟩ } }, 257025,
     (allocate ({ run with map := { run.map with range := some ⟨.withdrawal, 257024, 257025, false⟩ } })).2, 257024,
     by decide +kernel⟩,
    ⟨State.reset, (allocate (State.reset)).2, by decide +kernel⟩,
    ⟨{ run with map := { run.map with range := some ⟨.withdrawal, 257024, 258048, false⟩ } },
     (allocate ({ run with map := { run.map with range := some ⟨.withdrawal, 257024, 258048, false⟩ } })).2, 258047,
     by decide +kernel⟩,
    ⟨run, 257023, (fun f hf h => by cases hf; exact absurd h (by decide))⟩,
    ⟨run, 258048, (fun f hf h => by cases hf; decide)⟩,
    ⟨bound, 257024, 257024, { ala := 257024, state := .bound }, by unfold mapLaw; decide, by decide +kernel⟩,
    ⟨bound, 257024, 257025, by decide +kernel⟩,
    ⟨bound, 257024, 258047, by decide +kernel⟩,
    ⟨run, 0, 257024, .watch, 0, none, [], _, ⟨rfl, rfl⟩⟩,
    ⟨bound, 4, 257025, .pendingWrite, 0, some 1, [{ tag := 3, live := true }], _, ⟨_, rfl, rfl⟩⟩,
    ⟨run, 257023, by decide +kernel⟩,
    ⟨run, 257024, by decide +kernel⟩,
    ⟨moving .writing false 1, 0, by decide +kernel⟩⟩

theorem meets_pendingAndWatchRows :
    (∃ (s : State) (hla : Nat) (origin : PendingOrigin) (data : LineData) (counts : Bool),
      (counts = true ↔ origin = .hostRead ∨ origin = .spareRead) ∧
       isMoving s hla = true) ∧
    (∃ (s : State) (hla : Nat) (origin : PendingOrigin) (data : LineData) (counts : Bool),
      (counts = true ↔ origin = .hostRead ∨ origin = .spareRead) ∧
       isMoving s hla = false ∧
      isPending s hla = true) ∧
    (∃ (s : State) (hla : Nat) (origin : PendingOrigin) (data : LineData) (counts : Bool),
      (counts = true ↔ origin = .hostRead ∨ origin = .spareRead) ∧
       isMoving s hla = false ∧
      isPending s hla = true) ∧
    (∃ (s : State) (hla : Nat) (origin : PendingOrigin) (data : LineData) (counts : Bool),
      (counts = true ↔ origin = .hostRead ∨ origin = .spareRead) ∧
       isMoving s hla = false ∧
      isPending s hla = false ∧
          32 ≤ s.reloc.pendingList.length) ∧
    (∃ (s : State) (hla : Nat) (origin : PendingOrigin) (data : LineData) (counts : Bool),
      (counts = true ↔ origin = .hostRead ∨ origin = .spareRead) ∧
       isMoving s hla = false ∧
      isPending s hla = false ∧
      s.reloc.pendingList.length < 32) ∧
    (∃ (s : State) (hla : Nat) (origin : PendingOrigin) (data : LineData) (counts : Bool),
      (counts = true ↔ origin = .hostRead ∨ origin = .spareRead) ∧
       (isPending s hla = true ∨ isMoving s hla = true)) ∧
    (∃ (s : State) (hla : Nat) (origin : PendingOrigin) (data : LineData) (counts : Bool),
      (counts = true ↔ origin = .hostRead ∨ origin = .spareRead) ∧
       (isPending s hla = true ∨ isMoving s hla = true)) ∧
    (∃ (s : State) (hla : Nat) (origin : PendingOrigin) (data : LineData) (counts : Bool) (count : Nat),
      (counts = true ↔ origin = .hostRead ∨ origin = .spareRead) ∧
      isPending s hla = false ∧
       isMoving s hla = false ∧
            ((∀ w ∈ s.reloc.watch, w.hla ≠ hla) ∧ count = 1) ∧
           count < s.policy.active.watchLimit) ∧
    (∃ (s : State) (hla : Nat) (origin : PendingOrigin) (data : LineData) (counts : Bool) (count : Nat),
           (∃ w, s.reloc.watch.find? (·.hla == hla) = some w ∧ count = min (w.count + 1) 15) ∧
      (counts = true ↔ origin = .hostRead ∨ origin = .spareRead) ∧
      isPending s hla = false ∧
       isMoving s hla = false ∧
           count < s.policy.active.watchLimit) ∧
    (∃ (s : State) (hla : Nat) (origin : PendingOrigin) (data : LineData) (counts : Bool) (count : Nat),
           (∃ w, s.reloc.watch.find? (·.hla == hla) = some w ∧ count = min (w.count + 1) 15) ∧
      (counts = true ↔ origin = .hostRead ∨ origin = .spareRead) ∧
      isPending s hla = false ∧
       isMoving s hla = false ∧
           s.policy.active.watchLimit ≤ count) ∧
    (∃ (s : State) (hla : Nat) (origin : PendingOrigin) (data : LineData) (counts : Bool) (count : Nat),
           (∃ w, s.reloc.watch.find? (·.hla == hla) = some w ∧ count = min (w.count + 1) 15) ∧
      (counts = true ↔ origin = .hostRead ∨ origin = .spareRead) ∧
      isPending s hla = false ∧
       isMoving s hla = false ∧
           s.policy.active.watchLimit ≤ count) ∧
    (∃ (s : State) (home : Nat) (cause : RelocCause) (data : LineData) (again : State → State),
      (∀ x, again x = x.setReloc
        { s.reloc with
          watch := { hla := home, count := s.policy.active.watchLimit, last := s.tick } ::
            (s.reloc.watch.filter (·.hla != home)).take 63
          deferred := if s.reloc.deferred = 65535 then 65535 else s.reloc.deferred + 1 }) ∧
       (isPending s home = true ∨ isMoving s home = true ∨ reservationFor s home = true ∨
          ∃ ref c, QueueItem.request ref home c ∈ s.reloc.queue)) ∧
    (∃ (s : State) (home : Nat) (cause : RelocCause) (data : LineData) (again : State → State),
      (∀ x, again x = x.setReloc
        { s.reloc with
          watch := { hla := home, count := s.policy.active.watchLimit, last := s.tick } ::
            (s.reloc.watch.filter (·.hla != home)).take 63
          deferred := if s.reloc.deferred = 65535 then 65535 else s.reloc.deferred + 1 }) ∧
       (isPending s home = true ∨ isMoving s home = true ∨ reservationFor s home = true ∨
          ∃ ref c, QueueItem.request ref home c ∈ s.reloc.queue)) ∧
    (∃ (s : State) (home : Nat) (cause : RelocCause) (data : LineData) (again : State → State),
      (∀ x, again x = x.setReloc
        { s.reloc with
          watch := { hla := home, count := s.policy.active.watchLimit, last := s.tick } ::
            (s.reloc.watch.filter (·.hla != home)).take 63
          deferred := if s.reloc.deferred = 65535 then 65535 else s.reloc.deferred + 1 }) ∧
       (isPending s home = true ∨ isMoving s home = true ∨ reservationFor s home = true ∨
          ∃ ref c, QueueItem.request ref home c ∈ s.reloc.queue)) ∧
    (∃ (s : State) (home : Nat) (cause : RelocCause) (data : LineData) (again : State → State),
      (∀ x, again x = x.setReloc
        { s.reloc with
          watch := { hla := home, count := s.policy.active.watchLimit, last := s.tick } ::
            (s.reloc.watch.filter (·.hla != home)).take 63
          deferred := if s.reloc.deferred = 65535 then 65535 else s.reloc.deferred + 1 }) ∧
       (isPending s home = true ∨ isMoving s home = true ∨ reservationFor s home = true ∨
          ∃ ref c, QueueItem.request ref home c ∈ s.reloc.queue)) ∧
    (∃ (s : State) (home : Nat) (cause : RelocCause) (data : LineData) (again : State → State) (spare : _),
      (∀ x, again x = x.setReloc
        { s.reloc with
          watch := { hla := home, count := s.policy.active.watchLimit, last := s.tick } ::
            (s.reloc.watch.filter (·.hla != home)).take 63
          deferred := if s.reloc.deferred = 65535 then 65535 else s.reloc.deferred + 1 }) ∧
        (∀ ref c, QueueItem.request ref home c ∉ s.reloc.queue) ∧
      isPending s home = false ∧
      isMoving s home = false ∧
      reservationFor s home = false ∧
      slotFree s = true ∧
      home < fenceValue s ∧
          lowestFree s = some spare) ∧
    (∃ (s : State) (home : Nat) (cause : RelocCause) (data : LineData) (again : State → State),
      (∀ x, again x = x.setReloc
        { s.reloc with
          watch := { hla := home, count := s.policy.active.watchLimit, last := s.tick } ::
            (s.reloc.watch.filter (·.hla != home)).take 63
          deferred := if s.reloc.deferred = 65535 then 65535 else s.reloc.deferred + 1 }) ∧
        (∀ ref c, QueueItem.request ref home c ∉ s.reloc.queue) ∧
      isPending s home = false ∧
      isMoving s home = false ∧
      reservationFor s home = false ∧
      slotFree s = true ∧
      home < fenceValue s ∧
      lowestFree s = none) ∧
    (∃ (s : State) (home : Nat) (cause : RelocCause) (data : LineData) (again : State → State),
      (∀ x, again x = x.setReloc
        { s.reloc with
          watch := { hla := home, count := s.policy.active.watchLimit, last := s.tick } ::
            (s.reloc.watch.filter (·.hla != home)).take 63
          deferred := if s.reloc.deferred = 65535 then 65535 else s.reloc.deferred + 1 }) ∧
        (∀ ref c, QueueItem.request ref home c ∉ s.reloc.queue) ∧
      isPending s home = false ∧
      isMoving s home = false ∧
      reservationFor s home = false ∧
      slotFree s = false) ∧
    (∃ (s : State) (home : Nat) (cause : RelocCause) (data : LineData) (again : State → State) (reason : ReportReason),
      (∀ x, again x = x.setReloc
        { s.reloc with
          watch := { hla := home, count := s.policy.active.watchLimit, last := s.tick } ::
            (s.reloc.watch.filter (·.hla != home)).take 63
          deferred := if s.reloc.deferred = 65535 then 65535 else s.reloc.deferred + 1 }) ∧
         s.host.reports.length < 4) ∧
    (∃ (s : State) (home : Nat) (cause : RelocCause) (data : LineData) (again : State → State) (reason : ReportReason),
      (∀ x, again x = x.setReloc
        { s.reloc with
          watch := { hla := home, count := s.policy.active.watchLimit, last := s.tick } ::
            (s.reloc.watch.filter (·.hla != home)).take 63
          deferred := if s.reloc.deferred = 65535 then 65535 else s.reloc.deferred + 1 }) ∧
         4 ≤ s.host.reports.length) :=
  ⟨⟨moving .writing false 1, 0, .survey, 0, false, by decide +kernel⟩,
    ⟨pends [0] run, 0, .spareRead, 0, true, by decide +kernel⟩,
    ⟨pends [0] run, 0, .survey, 0, false, by decide +kernel⟩,
    ⟨pends (List.range 32) run, 32, .hostRead, 0, true, by decide +kernel⟩,
    ⟨pends (List.range 31) run, 31, .writeFault, 0, false, by decide +kernel⟩,
    ⟨pends [0] run, 0, .survey, 0, false, by decide +kernel⟩,
    ⟨moving .writing false 1, 0, .survey, 0, false, by decide +kernel⟩,
    ⟨run, 0, .survey, 0, false, 1, by decide +kernel⟩,
    ⟨watching [⟨0, 1, 0⟩], 0, .survey, 0, false, 2, ⟨⟨0, 1, 0⟩, by decide +kernel, by decide +kernel⟩, by decide +kernel⟩,
    ⟨watching [⟨0, 2, 0⟩], 0, .survey, 0, false, 3, ⟨⟨0, 2, 0⟩, by decide +kernel, by decide +kernel⟩, by decide +kernel⟩,
    ⟨watching [⟨0, 15, 0⟩], 0, .survey, 0, false, 15, ⟨⟨0, 15, 0⟩, by decide +kernel, by decide +kernel⟩, by decide +kernel⟩,
    ⟨pends [0] run, 0, .watch, 0, _, (fun _ => rfl), .inl rfl⟩,
    ⟨moving .writing false 1, 0, .watch, 0, _, (fun _ => rfl), .inr (.inl rfl)⟩,
    ⟨{ run with reloc := { run.reloc with reserved := some 0 } }, 0, .watch, 0, _, (fun _ => rfl), .inr (.inr (.inl rfl))⟩,
    ⟨{ run with reloc := { run.reloc with queue := [.request (.entry 1) 0 .writeFault] } }, 0, .watch, 0, _, (fun _ => rfl),
     .inr (.inr (.inr ⟨_, _, List.mem_singleton.mpr rfl⟩))⟩,
    ⟨run, 257023, .watch, 0, _, 257024, (fun _ => rfl), (fun ref c h => (nomatch h)), by decide +kernel⟩,
    ⟨dry run, 0, .watch, 0, _, (fun _ => rfl), (fun ref c h => (nomatch h)), by decide +kernel⟩,
    ⟨{ run with reloc := { run.reloc with slots := List.replicate 4 { home := 0, data := 0xCD, state := .writing, dirty := false, attempts := 1, epoch := none, waiting := [] } } },
     9, .watch, 0, _, (fun _ => rfl), (fun ref c h => (nomatch h)), by decide +kernel⟩,
    ⟨{ run with host := { run.host with reports := List.replicate 3 { hla := 0, reason := .noSpare } } }, 0, .watch, 0, _,
     .dataLost, (fun _ => rfl), by decide +kernel⟩,
    ⟨{ run with host := { run.host with reports := List.replicate 4 { hla := 0, reason := .noSpare } } }, 0, .watch, 0, _,
     .dataLost, (fun _ => rfl), by decide +kernel⟩⟩

theorem meets_faultRecordWritten :
    (∃ (s : State) (kind : FaultKind) (hla ala step : Option Nat) (r : FaultRecord),
    r = { seq := s.log.next, kind, tick := s.tick, hla, ala, step, trace := s.log.trace } ∧
     s.log.records.length < 16) ∧
    (∃ (s : State) (kind : FaultKind) (hla ala step : Option Nat) (r : FaultRecord) (oldest second : FaultRecord) (others :
        List FaultRecord),
    r = { seq := s.log.next, kind, tick := s.tick, hla, ala, step, trace := s.log.trace } ∧
      s.log.records = oldest :: second :: others ∧
      16 ≤ s.log.records.length ∧
       s.log.cursor ≠ oldest.seq) ∧
    (∃ (s : State) (kind : FaultKind) (hla ala step : Option Nat) (r : FaultRecord) (oldest second : FaultRecord) (others :
        List FaultRecord),
    r = { seq := s.log.next, kind, tick := s.tick, hla, ala, step, trace := s.log.trace } ∧
      s.log.records = oldest :: second :: others ∧
      16 ≤ s.log.records.length ∧
       s.log.cursor = oldest.seq) :=
  ⟨⟨{ run with log := { run.log with records := (List.range' 1 15).map frec } }, .protocol, none, none, none, _, rfl,
     by decide +kernel⟩,
    ⟨logged 17, .protocol, none, none, none, _, frec 1, frec 2, (List.range' 3 14).map frec, rfl, by decide +kernel⟩,
    ⟨logged 1, .protocol, none, none, none, _, frec 1, frec 2, (List.range' 3 14).map frec, rfl, by decide +kernel⟩⟩

theorem meets_lineCheckerClasses :
    (∃ (ala place : Nat) (written : LineData) (data : LineData),
      place ≠ ala) ∧
    (∃ (ala place : Nat) (written : LineData) (i j : Nat) (x y : Byte),
      i < j ∧
      j < 64 ∧
      x ≠ 0 ∧
      y ≠ 0) ∧
    (∃ (ala place : Nat) (written : LineData) (data : LineData) (flips : BitVec 64) (check : CheckBytes),
      3 ≤ differingBytes written data + defectiveCheckBytes flips ∧
      (check = .damaged ala written flips ∨ (flips = 0 ∧ check = .code ala written))) ∧
    (∃ (ala place : Nat) (written : LineData) (data : LineData) (flips : BitVec 64) (check : CheckBytes),
      3 ≤ differingBytes written data + defectiveCheckBytes flips ∧
      (check = .damaged ala written flips ∨ (flips = 0 ∧ check = .code ala written))) ∧
    (∃ (ala place : Nat) (written : LineData) (i j : Nat) (x y : Byte) (flips : BitVec 64) (m : Nat) (a : Byte) (data : LineData),
         flips = a.setWidth 64 <<< (8 * m) ∧
      i < j ∧
      j < 64 ∧
      x ≠ 0 ∧
      y ≠ 0 ∧
      m < 8 ∧
      a ≠ 0 ∧
      place ≠ ala) ∧
    (∃ (ala place : Nat) (written : LineData) (i j : Nat) (x y : Byte) (flips : BitVec 64) (m : Nat) (a : Byte),
         flips = a.setWidth 64 <<< (8 * m) ∧
      i < j ∧
      j < 64 ∧
      x ≠ 0 ∧
      y ≠ 0 ∧
      m < 8 ∧
      a ≠ 0) ∧
    (∃ (ala place : Nat) (written : LineData) (i j : Nat) (x y : Byte) (flips : BitVec 64) (m : Nat) (a : Byte) (k : Nat),
         flips = a.setWidth 64 <<< (8 * m) ∧
      i < j ∧
      j < 64 ∧
      x ≠ 0 ∧
      y ≠ 0 ∧
      m < 8 ∧
      a ≠ 0 ∧
      k < 64) ∧
    (∃ (ala place : Nat) (written : LineData) (i j : Nat) (x y : Byte) (flips : BitVec 64) (m : Nat) (a : Byte) (n : Nat) (b :
        Byte),
          flips = (a.setWidth 64 <<< (8 * m)) ^^^ (b.setWidth 64 <<< (8 * n)) ∧
      i < j ∧
      j < 64 ∧
      x ≠ 0 ∧
      y ≠ 0 ∧
      m < 8 ∧
      a ≠ 0 ∧
      m < n ∧
      n < 8 ∧
      b ≠ 0) :=
  ⟨⟨0, 1, 0, 0, by decide +kernel⟩,
    ⟨0, 0, 0, 0, 63, 255, 1, by decide +kernel⟩,
    ⟨0, 0, 0, 0xFF00FF00FF, 0, .code 0 0, by decide +kernel⟩,
    ⟨0, 0, 0, 0, 0x0101010000000000, .damaged 0 0 0x0101010000000000, by decide +kernel⟩,
    ⟨0, 1, 0, 0, 1, 1, 1, _, 7, 255, 0, rfl, by decide +kernel⟩,
    ⟨0, 0, 0, 0, 1, 1, 1, _, 7, 255, rfl, by decide +kernel⟩,
    ⟨0, 0, 0, 0, 1, 1, 1, _, 7, 255, 63, rfl, by decide +kernel⟩,
    ⟨0, 0, 0, 0, 1, 1, 1, _, 0, 1, 7, 255, rfl, by decide +kernel⟩⟩

theorem meets_journalLineRoundTrip :
    (∃ (seq : Seq32) (bank : Bank) (image commit : Bool) (records : List Record),
    1 ≤ records.length ∧
      records.length ≤ 6 ∧
      (∀ r ∈ records, recordFits r = true)) :=
  ⟨0xFFFFFFFF, .b, true, true,
     [.fence 16777215, .bind 16777215 0, .dead 0, .policy .default, .policy ⟨0, 1, 0, 1, false, 0⟩,
         .policy ⟨4, 15, 1024, 32, true, 255⟩],
     by decide +kernel⟩

theorem meets_journalDecides :
    (∃ (s : State) (bank : Bank),
      (∀ c, s.port.command = some c → c.command ≠ .journalCompact) ∧
      s.jour.state = .ready ∧
       (s.start.op = .running ∨ s.start.op = .quiescing) ∧
      s.jour.active = some bank ∧
     s.jour.nextLine ≤ 1984 ∧
      s.jour.queue = []) ∧
    (∃ (s : State) (bank : Bank),
      (∀ c, s.port.command = some c → c.command ≠ .journalCompact) ∧
      s.jour.state = .ready ∧
       (s.start.op = .running ∨ s.start.op = .quiescing) ∧
      s.jour.active = some bank ∧
     s.jour.nextLine ≤ 1984 ∧
       s.jour.queue ≠ []) ∧
    (∃ (s : State) (bank : Bank) (records : List Record),
      records =
        [.fence (s.map.fence.getD 0), .policy s.policy.active] ++
          ((s.map.marks.filter (·.state == .dead)).map fun m => Record.dead m.ala) ++
          ((s.map.table.filter fun e => isFinishing s e.home).filterMap fun e => e.spare.map Record.dead) ++
          (s.map.table.filterMap fun e =>
            (if isFinishing s e.home then e.target else e.spare).map (Record.bind e.home)) ∧
      s.jour.state = .ready ∧
       (s.start.op = .running ∨ s.start.op = .quiescing) ∧
      s.jour.active = some bank) ∧
    (∃ (s : State) (bank : Bank) (records : List Record),
      records =
        [.fence (s.map.fence.getD 0), .policy s.policy.active] ++
          ((s.map.marks.filter (·.state == .dead)).map fun m => Record.dead m.ala) ++
          ((s.map.table.filter fun e => isFinishing s e.home).filterMap fun e => e.spare.map Record.dead) ++
          (s.map.table.filterMap fun e =>
            (if isFinishing s e.home then e.target else e.spare).map (Record.bind e.home)) ∧
      s.jour.state = .ready ∧
       (s.start.op = .running ∨ s.start.op = .quiescing) ∧
      s.jour.active = some bank ∧
        1984 < s.jour.nextLine) ∧
    (∃ (s : State) (bank : Bank) (records : List Record),
      records =
        [.fence (s.map.fence.getD 0), .policy s.policy.active] ++
          ((s.map.marks.filter (·.state == .dead)).map fun m => Record.dead m.ala) ++
          ((s.map.table.filter fun e => isFinishing s e.home).filterMap fun e => e.spare.map Record.dead) ++
          (s.map.table.filterMap fun e =>
            (if isFinishing s e.home then e.target else e.spare).map (Record.bind e.home)) ∧
      (∃ c, s.port.command = some c ∧ c.command = .journalCompact) ∧
      s.jour.state = .ready ∧
       (s.start.op = .running ∨ s.start.op = .quiescing) ∧
      s.jour.active = some bank) :=
  ⟨⟨{ run with jour := { run.jour with nextLine := 1984, queue := [] } }, .a, (fun c h => nomatch h), by decide +kernel⟩,
    ⟨{ run with jour := { run.jour with nextLine := 1984, queue := [.dead 5] } }, .a, (fun c h => nomatch h),
     by decide +kernel⟩,
    ⟨run, .a, _, rfl, by decide +kernel⟩,
    ⟨{ run with jour := { run.jour with nextLine := 1985, queue := [] } }, .a, _, rfl, by decide +kernel⟩,
    ⟨cmd .journalCompact run, .a, _, rfl, ⟨_, rfl, rfl⟩, by decide +kernel⟩⟩

end Sys2Proof.Tests
end

section
/-! The level causes SPARES_LOW and PENDING_HIGH hold after reset and are kept by every step (O8; R13, R109). The idea: a command
either ends in the rest of an event (`settle`), whose last act evaluates both causes, or it changes nothing that the law reads: not
the operating state, the free count, the Active policy, the Pending List or the two causes. -/

namespace Sys2Proof.Machine

/-! ### Resets and events -/

/-- After a reset the part is STARTING and the Pending List is empty, so both level causes are clear (R128, R162). -/
theorem reset_levelLaw : levelLaw State.reset := by
  unfold levelLaw
  decide

theorem resetPart_levelLaw (s : State) : levelLaw (resetPart s) := reset_levelLaw

theorem event_levelLaw (effect : State → State) (s : State) : levelLaw (event effect s) := settle_levelLaw _

theorem internalEvent_levelLaw {s : State} {next : State → Option State} (h : levelLaw s) :
    levelLaw (internalEvent next s) := by
  unfold internalEvent
  split
  · exact settle_levelLaw _
  · exact h

theorem answerEvent_levelLaw {s : State} {accepts : Owner → Bool} {effect : Flight → State → State} (h : levelLaw s) :
    levelLaw (answerEvent accepts effect s) := by
  unfold answerEvent
  split
  · exact h
  · split
    · exact event_levelLaw _ _
    · exact h

theorem timeoutEvent_levelLaw {s : State} (h : levelLaw s) : levelLaw (timeoutEvent s) := by
  unfold timeoutEvent
  split
  · exact h
  · exact event_levelLaw _ _

theorem lateEvent_levelLaw {s : State} (h : levelLaw s) : levelLaw (lateEvent s) := by
  unfold lateEvent
  split
  · exact h
  · split
    · exact event_levelLaw _ _
    · exact h

/-! ### Queries: the map cursor and the fault cursor are not read by the law -/

theorem runLookup_levelLaw {s : State} {seq : Byte} {hla : Nat} (h : levelLaw s) : levelLaw (runLookup seq hla s) := by
  unfold runLookup
  split
  · exact completeCommand_levelLaw h
  · split <;> exact completeCommand_levelLaw h

theorem runMapNext_levelLaw {s : State} {seq : Byte} (h : levelLaw s) : levelLaw (runMapNext seq s) := by
  unfold runMapNext
  split
  · exact completeCommand_levelLaw h
  · split <;> exact completeCommand_levelLaw h

theorem runListRead_levelLaw {s : State} {seq list index : Byte} (h : levelLaw s) :
    levelLaw (runListRead seq list index s) := by
  unfold runListRead
  split
  · exact completeCommand_levelLaw h
  · split
    · exact completeCommand_levelLaw h
    · split <;> exact completeCommand_levelLaw h

theorem runFaultNext_levelLaw {s : State} {seq : Byte} (h : levelLaw s) : levelLaw (runFaultNext seq s) := by
  unfold runFaultNext
  split <;> exact completeCommand_levelLaw h

theorem runPolicyRead_levelLaw {s : State} {seq set : Byte} (h : levelLaw s) : levelLaw (runPolicyRead seq set s) := by
  unfold runPolicyRead
  split
  · exact completeCommand_levelLaw h
  · split <;> exact completeCommand_levelLaw h

/-! ### Operational commands -/

/-- A set of causes from which an ALERT_ACK takes its named latched causes keeps every level cause (R164). -/
theorem levelCause_of_ack {i : Nat} (hi : levelCauses.getLsbD i = true) (causes named : BitVec 10) :
    (causes &&& ~~~(named &&& ~~~levelCauses)).getLsbD i = causes.getLsbD i := by
  simp only [BitVec.getLsbD_and, BitVec.getLsbD_not, hi, BitVec.lt_of_getLsbD hi, decide_true, Bool.not_true,
    Bool.and_false, Bool.not_false, Bool.and_true]

/-- ALERT_ACK clears latched causes only, so both level causes stay as their conditions have them (R164). -/
theorem runAlertAck_levelLaw {s : State} {seq : Byte} {set : BitVec 16} (h : levelLaw s) :
    levelLaw (runAlertAck seq set s) := by
  obtain ⟨hlow, hhigh⟩ := h
  rw [← levelCause_of_ack (i := 0) (by decide) s.alert.causes (namedCauses set)] at hlow
  rw [← levelCause_of_ack (i := 2) (by decide) s.alert.causes (namedCauses set)] at hhigh
  exact completeCommand_levelLaw ⟨hlow, hhigh⟩

theorem runSurveyStart_levelLaw {s : State} {seq mode : Byte} {first count : Nat} (h : levelLaw s) :
    levelLaw (runSurveyStart seq mode first count s) := by
  unfold runSurveyStart
  split
  · exact completeCommand_levelLaw h
  · exact settle_levelLaw _

theorem runSurveyStop_levelLaw {s : State} {seq : Byte} (h : levelLaw s) : levelLaw (runSurveyStop seq s) := by
  unfold runSurveyStop
  split
  · exact completeCommand_levelLaw h
  · exact settle_levelLaw _

/-- POLICY_STAGE sets the Staged policy; the law reads the Active one (R181). -/
theorem runPolicyStage_levelLaw {s : State} {seq : Byte} {packed : List Byte} (h : levelLaw s) :
    levelLaw (runPolicyStage seq packed s) := by
  unfold runPolicyStage
  split
  · exact completeCommand_levelLaw h
  · split <;> exact completeCommand_levelLaw h

theorem runJournalCompact_levelLaw {s : State} {seq : Byte} (h : levelLaw s) : levelLaw (runJournalCompact seq s) := by
  unfold runJournalCompact
  split
  · exact completeCommand_levelLaw h
  · split
    · exact completeCommand_levelLaw h
    all_goals exact settle_levelLaw _

/-! ### Guarded commands and Guard commands -/

theorem runFenceAdjust_levelLaw {s : State} {seq : Byte} {expected new : Nat} (h : levelLaw s) :
    levelLaw (runFenceAdjust seq expected new s) := by
  unfold runFenceAdjust
  split
  · exact completeCommand_levelLaw h
  · exact settle_levelLaw _

theorem runLineRetire_levelLaw {s : State} {seq : Byte} {hla : Nat} (h : levelLaw s) :
    levelLaw (runLineRetire seq hla s) := by
  unfold runLineRetire
  split
  · exact completeCommand_levelLaw h
  · exact settle_levelLaw _

theorem runPolicyExchange_levelLaw {s : State} {seq : Byte} (h : levelLaw s) : levelLaw (runPolicyExchange seq s) := by
  unfold runPolicyExchange
  split
  · exact completeCommand_levelLaw h
  · split
    · exact completeCommand_levelLaw h
    · exact settle_levelLaw _

theorem runJournalFormat_levelLaw {s : State} {seq : Byte} {fence : Option Nat} (h : levelLaw s) :
    levelLaw (runJournalFormat seq fence s) := by
  unfold runJournalFormat
  split
  · exact completeCommand_levelLaw h
  · split
    · exact completeCommand_levelLaw h
    · exact settle_levelLaw _

theorem runBridgeRestart_levelLaw {s : State} {seq : Byte} (h : levelLaw s) : levelLaw (runBridgeRestart seq s) := by
  unfold runBridgeRestart
  split
  · exact completeCommand_levelLaw h
  · split
    · exact completeCommand_levelLaw h
    · exact settle_levelLaw _

theorem runGuardLock_levelLaw {s : State} {seq : Byte} {word : BitVec 32} (h : levelLaw s) :
    levelLaw (runGuardLock seq word s) := by
  unfold runGuardLock
  split <;> exact completeCommand_levelLaw h

/-! ### The Service Link -/

/-- Every command code keeps the level causes; a case per code, in the order of R192. -/
theorem runByCode_levelLaw {s : State} {seq code : Byte} {args : List Byte} (h : levelLaw s) :
    levelLaw (runByCode seq code args s) := by
  unfold runByCode
  dsimp only
  split
  · exact completeCommand_levelLaw h
  · exact completeCommand_levelLaw h
  · exact runLookup_levelLaw h
  · exact completeCommand_levelLaw h
  · exact runMapNext_levelLaw h
  · exact runListRead_levelLaw h
  · exact runFaultNext_levelLaw h
  · exact completeCommand_levelLaw h
  · exact completeCommand_levelLaw h
  · exact runPolicyRead_levelLaw h
  · exact completeCommand_levelLaw h
  · exact runSurveyStart_levelLaw h
  · exact runSurveyStop_levelLaw h
  · exact runAlertAck_levelLaw h
  · exact completeCommand_levelLaw h
  · exact runPolicyStage_levelLaw h
  · exact runJournalCompact_levelLaw h
  · exact runFenceAdjust_levelLaw h
  · exact runLineRetire_levelLaw h
  · exact runPolicyExchange_levelLaw h
  · exact completeCommand_levelLaw h
  · exact runJournalFormat_levelLaw h
  · exact runBridgeRestart_levelLaw h
  · exact runGuardLock_levelLaw h
  · exact completeCommand_levelLaw h
  · exact completeCommand_levelLaw h
  · exact completeCommand_levelLaw h

theorem runCommand_levelLaw {s : State} {seq code : Byte} {args : List Byte} (h : levelLaw s) :
    levelLaw (runCommand seq code args s) := by
  unfold runCommand
  split
  · exact completeCommand_levelLaw h
  · exact runByCode_levelLaw h

theorem takeCommand_levelLaw {s : State} {seq code : Byte} {args : List Byte} (h : levelLaw s) :
    levelLaw (takeCommand seq code args s) := by
  have hrun : levelLaw (runCommand seq code args (nextEvent s)) := runCommand_levelLaw h
  unfold takeCommand
  split
  · split
    · exact h
    · exact readyResponse_levelLaw _ h
  · split
    · split
      · exact readyResponse_levelLaw _ h
      · exact hrun
    · exact hrun

theorem takeFrame_levelLaw {s : State} {frame : List Byte} (h : levelLaw s) : levelLaw (takeFrame frame s) := by
  unfold takeFrame
  dsimp only
  split
  · split
    · exact h
    · split
      · exact h
      · exact takeCommand_levelLaw h
  · exact h

theorem setReceiver_levelLaw {s : State} (r : Receiver) (h : levelLaw s) : levelLaw (setReceiver r s) := h

theorem collect_levelLaw {s : State} {bytes : List Byte} {b : Byte} (h : levelLaw s) : levelLaw (collect bytes b s) := by
  unfold collect
  split
  · split
    · exact setReceiver_levelLaw _ h
    · exact beginTransmit_levelLaw (setReceiver_levelLaw _ h)
  · dsimp only
    split
    · exact setReceiver_levelLaw _ h
    · exact beginTransmit_levelLaw (takeFrame_levelLaw (setReceiver_levelLaw _ h))

theorem byteArrival_levelLaw {s : State} {b : Byte} (h : levelLaw s) : levelLaw (byteArrival b s) := by
  unfold byteArrival
  split
  · exact h
  · split
    · split
      · exact setReceiver_levelLaw _ h
      · exact h
    · exact collect_levelLaw h

theorem receiveFrame_levelLaw {s : State} {seq code : Byte} {args : List Byte} {check : BitVec 16} (h : levelLaw s) :
    levelLaw (receiveFrame seq code args check s) :=
  foldl_keeps (fun _ _ hs => byteArrival_levelLaw hs) _ _ h

theorem frameTimeout_levelLaw {s : State} (h : levelLaw s) : levelLaw (frameTimeout s) := by
  unfold frameTimeout
  split
  · exact h
  · exact beginTransmit_levelLaw (setReceiver_levelLaw _ h)

theorem transmitEnd_levelLaw {s : State} (h : levelLaw s) : levelLaw (transmitEnd s) := by
  unfold transmitEnd
  split
  · exact h
  · exact beginTransmit_levelLaw h

/-! ### Commands and steps -/

theorem setTick_levelLaw {s : State} (tick : Tick) (h : levelLaw s) : levelLaw (s.setTick tick) := h

theorem setPending_levelLaw {s : State} (queue : List Instr) (h : levelLaw s) : levelLaw (s.setPending queue) := h

/-- Every command keeps the level causes: the cases are grouped by how the row's meaning is built. -/
theorem exec_levelLaw {s t : State} (c : Instr) (h : levelLaw s) (ht : exec c s = .next t) : levelLaw t := by
  cases c with
  | powerOnReset | resetInput => exact next_keeps rfl ht (resetPart_levelLaw s)
  | hostRead | hostWrite | barrier | hrst => exact next_keeps rfl ht (event_levelLaw _ _)
  | nonRequestTransfer => exact next_keeps rfl ht h
  | uptimeTick => exact next_keeps rfl ht (setTick_levelLaw _ h)
  | requestPresentation | bufferRoomEntry | arbiterGrant | surveyGapExpiry | slotHandoff | journalRecordJoin
  | quiesceEnd => exact next_keeps rfl ht (internalEvent_levelLaw h)
  | identAnswer | journalLineReadAnswer | hostReadAttemptAnswer | rmwReadAnswer | lineRetireReadAnswer
  | surveyReadAnswer | drainWriteAnswer | inPlaceWriteAnswer | targetWriteAnswer | finishingWriteAnswer
  | fallbackWriteAnswer | logLineWriteAnswer | imageLineWriteAnswer | formatLineWriteAnswer =>
    exact next_keeps rfl ht (answerEvent_levelLaw h)
  | arrayOpTimeout => exact next_keeps rfl ht (timeoutEvent_levelLaw h)
  | lateAnswer => exact next_keeps rfl ht (lateEvent_levelLaw h)
  | frameByteTimeout => exact next_keeps rfl ht (frameTimeout_levelLaw h)
  | responseTransmitEnd => exact next_keeps rfl ht (transmitEnd_levelLaw h)
  | serviceLinkByteArrival => exact next_keeps rfl ht (byteArrival_levelLaw h)
  | unknownCommand | identify | status | lookupLine | mapSeek | mapNext | listRead | faultNext | faultRewind
  | surveyReport | policyRead | alertRead | surveyStart | surveyStop | alertAck | alertMask | policyStage
  | journalCompact | fenceAdjust | lineRetire | policyExchange | faultClear | journalFormat | bridgeRestart
  | guardLock | guardUnlock | guardFreeze => exact next_keeps rfl ht (receiveFrame_levelLaw h)

/-- A step takes the front command off the queue, which the law does not read, and runs it (log 1). -/
theorem step_levelLaw {s t : State} (h : levelLaw s) (ht : step s = .next t) : levelLaw t := by
  unfold step at ht
  split at ht
  · cases ht
    exact h
  · next c rest _ => exact exec_levelLaw c (setPending_levelLaw rest h) ht

/-- Settles O8: the level causes hold after reset, and every command either evaluates them last or leaves what they read. -/
theorem levelCausesTrue : Obligations.LevelCausesTrue :=
  ⟨reset_levelLaw, fun _ _ => step_levelLaw⟩

end Sys2Proof.Machine
end

section
/-! A READ of a pending line is answered POISON where it is presented (O15; R41 row 4, R44). The idea: with no buffer entry and no
MOVING entry the route is `poison` in whatever state the READ is presented, so one lemma about the presentation serves both a READ
that waited in its line's order and one presented in its arrival event. -/

namespace Sys2Proof.Machine

/-! ### The route and the presentation -/

/-- Only a MOVING line has a slot that a READ may be answered from (R40). -/
theorem movingSlot_none {s : State} {home : Nat} (h : isMoving s home = false) : movingSlot s home = none := by
  simp [movingSlot, h]

/-- Row 4 of R41: no buffer entry, not MOVING, pending. -/
theorem readRoute_poison {s : State} {hla : Nat} (he : ∀ e ∈ s.buf.entries, e.hla ≠ hla) (hm : isMoving s hla = false)
    (hp : isPending s hla = true) : readRoute s hla = .poison := by
  unfold readRoute
  rw [newestEntry_none he, movingSlot_none hm]
  exact if_pos hp

/-- The presentation counts the hit and answers; it places no request with the arbiter (R44). -/
theorem presentRead_poison {r : HostReq} {s : State} (he : ∀ e ∈ s.buf.entries, e.hla ≠ r.hla)
    (hm : isMoving s r.hla = false) (hp : isPending s r.hla = true) :
    presentRead r s = answerReq r .read .poison none (hitPending r.hla s) := by
  unfold presentRead
  rw [readRoute_poison he hm hp]

/-- The answer of a READ whose tag is outstanding: it takes no deferred report (R35), its tag is released (R23) and it leaves its
line's order (R26). -/
theorem answerReq_read_live {r : HostReq} (h : r.live = true) (status : HostStatus) (data : Option LineData) (s : State) :
    answerReq r .read status data s =
      responded (readAnswer r.tag status data)
        (s.setHost
          { s.host with order := s.host.order.filter (·.id != r.id), tags := s.host.tags.filter (· != r.tag) }) := by
  unfold answerReq
  rw [h]
  rfl

/-! ### The statement's two parts -/

/-- R44 at any presentation of a READ. -/
theorem presentRead_pending {s : State} {r : HostReq} (he : ∀ e ∈ s.buf.entries, e.hla ≠ r.hla)
    (hm : isMoving s r.hla = false) (hp : isPending s r.hla = true) (hlive : r.live = true) :
    presentRead r s =
      responded (readAnswer r.tag .poison none)
        ((hitPending r.hla s).setHost
          { s.host with order := s.host.order.filter (·.id != r.id), tags := s.host.tags.filter (· != r.tag) }) := by
  rw [presentRead_poison he hm hp, answerReq_read_live hlive]
  rfl

/-- R44 in the arrival event: the READ joins an order that holds nothing of its line, so its answer leaves the order and the
outstanding tags as they were before it arrived. -/
theorem present_joined_pending {s : State} {tag : Tag} {hla : Nat} (hnow : presentedAtOnce s tag hla = true)
    (he : ∀ e ∈ s.buf.entries, e.hla ≠ hla) (hm : isMoving s hla = false) (hp : isPending s hla = true) :
    present (newRequest tag hla none s) (joined .read tag hla none s) =
      responded (readAnswer tag .poison none) (hitPending hla (takeId (arrived .read tag (some hla) s))) := by
  have hroute : present (newRequest tag hla none s) (joined .read tag hla none s) =
      answerReq (newRequest tag hla none s) .read .poison none (hitPending hla (joined .read tag hla none s)) :=
    presentRead_poison (r := newRequest tag hla none s) (s := joined .read tag hla none s) he hm hp
  rw [hroute, answerReq_new hnow rfl rfl]
  rfl

/-- Settles O15: the route of such a READ is `poison` at every presentation (`presentRead_poison`); one presented at arrival joins,
is answered and leaves again, and nothing is left of its event but the level causes. -/
theorem pendingReadAnsweredPoison : Obligations.PendingReadAnsweredPoison := by
  intro s hla hits he hm hp hhits
  subst hhits
  refine ⟨fun r hr hlive => ?_, fun tag t hnow ht hcalm => ?_⟩
  · rw [← hr] at he hm hp ⊢
    rw [presentRead_pending he hm hp hlive, hitPending_eq]
  · have hpresent := present_joined_pending hnow he hm hp
    rw [hitPending_eq] at hpresent
    exact congrArg Host.Outcome.next (event_presented_calm hnow (hpresent.trans ht.symm) hcalm)

end Sys2Proof.Machine
end

section
/-! A late answer frees the place of the timed-out operation and nothing else (O35; R57, R59). The idea: the meaning of LATE_ANSWER
does not take the answer, and the one effect of its event is that the oldest operation leaves the list; and with all 8 places held no
grant is possible, so the arbiter's event is none. -/

namespace Sys2Proof.Machine

/-! ### The late answer (R59) -/

/-- The content is discarded: the same event follows whatever is answered. -/
theorem exec_lateAnswer (answer : ArrayAnswer) (s : State) : exec (.lateAnswer answer) s = .next (lateEvent s) := by
  rfl

/-- The oldest operation, timed out, leaves its place, and only the rest of the event follows. -/
theorem lateEvent_timedOut {s : State} {f : Flight} {rest : List Flight} (h : s.array.inFlight = f :: rest)
    (ht : f.timedOut = true) : lateEvent s = settle (answerTaken rest s) := by
  unfold lateEvent
  rw [h]
  exact if_pos ht

/-! ### The places (R57, R62) -/

/-- A grant needs a free place and a request that waits. -/
theorem grantPossible_iff (s : State) : grantPossible s = true ↔ s.array.inFlight.length < 8 ∧ s.array.waiting ≠ [] := by
  unfold grantPossible
  rw [Bool.and_eq_true, decide_eq_true_iff]
  simp [Config.flightLimit]

theorem grantNext_full {s : State} (h : 8 ≤ s.array.inFlight.length) : grantNext s = none := by
  have hfull : ¬ grantPossible s = true := fun hp => Nat.not_lt.mpr h ((grantPossible_iff s).mp hp).1
  exact if_neg hfull

/-- While all 8 places are held, ARBITER_GRANT changes nothing: the start of the event leaves the places as they are. -/
theorem arbiterGrant_full {s : State} (h : 8 ≤ s.array.inFlight.length) : exec .arbiterGrant s = .next s := by
  have hnone : grantNext (nextEvent s) = none := grantNext_full h
  exact congrArg Host.Outcome.next (internalEvent_none hnone)

/-- Settles O35: the late answer's event takes the timed-out operation off the list and settles; a full list leaves the arbiter
nothing to grant. -/
theorem lateAnswerFreesPlace : Obligations.LateAnswerFreesPlace := by
  intro s answer
  refine ⟨fun f rest hflight hlate => ?_, arbiterGrant_full⟩
  rw [exec_lateAnswer, lateEvent_timedOut hflight hlate]
  exact ⟨rfl, next_settle_calm rfl⟩

end Sys2Proof.Machine
end

section
/-! ALERT_READ answers the set causes, the mask and the ALERT output (O45; R165). The idea: the output, which the model computes from
the set bits that the mask lets through, is asserted exactly when one of the ten causes is both set and enabled (R163); the command
answers in the event it runs, so only the port changes. -/

namespace Sys2Proof.Machine

/-! ### The ALERT output (R163) -/

/-- A vector is nonzero when one of its bits is set. -/
theorem ne_zero_iff_bit {w : Nat} (x : BitVec w) : x ≠ 0#w ↔ ∃ i, i < w ∧ x.getLsbD i = true := by
  simp [BitVec.eq_of_getLsbD_eq_iff]

theorem alertOut_iff (s : State) :
    s.alertOut = true ↔ ∃ i, i < 10 ∧ s.alert.causes.getLsbD i = true ∧ s.alert.mask.getLsbD i = true := by
  unfold State.alertOut
  simp only [bne_iff_ne, ne_zero_iff_bit, BitVec.getLsbD_and, Bool.and_eq_true]

/-- Settles O45: the port takes the frame and runs ALERT_READ, which answers from the state it meets; the Boolean with the property
that `alertOut_iff` gives the output is the output. -/
theorem alertReadReturns : Obligations.AlertReadReturns := by
  intro s seq check asserted htakes hasserted
  have hout : s.alertOut = asserted := Bool.eq_iff_iff.mpr ((alertOut_iff s).trans hasserted.symm)
  subst hout
  exact next_replied htakes (by simp) rfl (runCommand_alertRead seq [] (nextEvent s)) rfl

end Sys2Proof.Machine
end

section
/-! A fault record joins the Fault Log (O57; R154, R155, R158). The idea: two independent questions decide the outcome. Which records
stay depends on the room alone (`recordsKept`); what becomes of the cursor and of LOG_WRAP depends on whether a record leaves that the
cursor names (`overwritesUnread`). One lemma for each answer to the second question; the statement's cases put the two together. -/

namespace Sys2Proof.Machine

/-! ### The records that stay (R155) -/

/-- The records that stay when one more is written: all of them, or all but the oldest of a full log. -/
def recordsKept (s : State) : List FaultRecord :=
  if Config.faultLimit ≤ s.log.records.length then s.log.records.drop 1 else s.log.records

theorem recordsKept_room {s : State} (h : s.log.records.length < Config.faultLimit) : recordsKept s = s.log.records :=
  if_neg (Nat.not_le.mpr h)

theorem recordsKept_full {s : State} {oldest : FaultRecord} {rest : List FaultRecord} (hrecords : s.log.records = oldest :: rest)
    (h : Config.faultLimit ≤ s.log.records.length) : recordsKept s = rest := by
  unfold recordsKept
  rw [if_pos h, hrecords]
  rfl

/-! ### Does an unread record leave (R158)? -/

theorem overwritesUnread_room {s : State} (h : s.log.records.length < Config.faultLimit) : overwritesUnread s = false := by
  unfold overwritesUnread
  rw [decide_eq_false (Nat.not_le.mpr h), Bool.false_and]

/-- From a full log an unread record leaves exactly when the cursor names the oldest. -/
theorem overwritesUnread_full {s : State} {oldest : FaultRecord} {rest : List FaultRecord}
    (hrecords : s.log.records = oldest :: rest) (h : Config.faultLimit ≤ s.log.records.length) :
    overwritesUnread s = true ↔ s.log.cursor = oldest.seq := by
  unfold overwritesUnread
  rw [decide_eq_true h, hrecords, Bool.true_and, beq_iff_eq]
  exact Option.some_inj.trans eq_comm

/-! ### The log after a record -/

/-- With no unread record lost, the log alone changes, and its cursor stays. -/
theorem writeFault_keepsCursor {s : State} (h : overwritesUnread s = false) (kind : FaultKind) (hla ala step : Option Nat) :
    writeFault kind hla ala step s =
      s.setLog
        { s.log with
          records := recordsKept s ++ [newRecord kind hla ala step s], next := s.log.next + 1
          count := if s.log.count = 65535 then 65535 else s.log.count + 1 } := by
  rw [← saturate16_eq]
  simp only [writeFault, h, Bool.false_eq_true, if_false, recordsKept]

/-- An unread record lost latches LOG_WRAP, and the cursor moves to the oldest record left. -/
theorem writeFault_wraps {s : State} (h : overwritesUnread s = true) {second : FaultRecord} {others : List FaultRecord}
    (hkept : recordsKept s = second :: others) (kind : FaultKind) (hla ala step : Option Nat) :
    writeFault kind hla ala step s =
      (latch .logWrap s).setLog
        { s.log with
          records := second :: others ++ [newRecord kind hla ala step s], next := s.log.next + 1, cursor := second.seq
          count := if s.log.count = 65535 then 65535 else s.log.count + 1 } := by
  rw [← saturate16_eq]
  unfold recordsKept at hkept
  simp only [writeFault, h, if_true, hkept, List.cons_append, List.head?_cons, Option.map_some, Option.getD_some]

/-- Settles O57: a log with room keeps every record and loses none unread; from a full log the oldest leaves, unread when the cursor
names it. -/
theorem faultRecordWritten : Obligations.FaultRecordWritten := by
  rintro s kind hla ala step r rfl
  refine ⟨fun hroom => ?_, fun oldest second others hrecords hfull => ⟨fun hread => ?_, fun hunread => ?_⟩⟩
  · rw [writeFault_keepsCursor (overwritesUnread_room hroom), recordsKept_room hroom]
    rfl
  · have hkeeps : overwritesUnread s = false :=
      Bool.eq_false_iff.mpr fun h => hread ((overwritesUnread_full hrecords hfull).mp h)
    rw [writeFault_keepsCursor hkeeps, recordsKept_full hrecords hfull]
    rfl
  · exact writeFault_wraps ((overwritesUnread_full hrecords hfull).mpr hunread) (recordsKept_full hrecords hfull) kind hla ala step

end Sys2Proof.Machine
end

section
/-! A tag field counts by its low four bits, and a transfer of another kind is discarded whole (O13; R189). The idea: a request's
meaning reads its tag field through `tagOf` alone, and `tagOf` is the field modulo 16; so two fields that agree modulo 16 make the same
request. The decoder asks for the kind before it reads anything else of the transfer. -/

namespace Sys2Proof.Machine

/-! ### The tag field -/

theorem tagOf_eq_ofNat_mod (field : Byte) : tagOf field = BitVec.ofNat 4 (field.toNat % 16) := by
  refine BitVec.eq_of_toNat_eq ?_
  calc (tagOf field).toNat
      _ = field.toNat % 16 := BitVec.toNat_setWidth 4 field
      _ = field.toNat % 16 % 16 := (Nat.mod_mod field.toNat 16).symm
      _ = (BitVec.ofNat 4 (field.toNat % 16)).toNat := (BitVec.toNat_ofNat (field.toNat % 16) 4).symm

/-- A field above 15 names the tag that its remainder by 16, sent in its place, names. -/
theorem tagOf_lowFour (field : Byte) : tagOf (BitVec.ofNat 8 (field.toNat % 16)) = tagOf field := by
  have hfits : (BitVec.ofNat 8 (field.toNat % 16)).toNat = field.toNat % 16 := by
    rw [BitVec.toNat_ofNat]
    omega
  rw [tagOf_eq_ofNat_mod, tagOf_eq_ofNat_mod field, hfits, Nat.mod_mod]

/-! ### Requests read the field through `tagOf` alone -/

theorem exec_hostRead_congr {a b : Byte} (h : tagOf a = tagOf b) (hla : Addr24) (s : State) :
    exec (.hostRead a hla) s = exec (.hostRead b hla) s := by
  change execHostRead a hla s = execHostRead b hla s
  unfold execHostRead
  rw [h]

theorem exec_hostWrite_congr {a b : Byte} (h : tagOf a = tagOf b) (hla : Addr24) (mask : Mask) (data : LineData) (s : State) :
    exec (.hostWrite a hla mask data) s = exec (.hostWrite b hla mask data) s := by
  change execHostWrite a hla mask data s = execHostWrite b hla mask data s
  unfold execHostWrite
  rw [h]

theorem exec_barrier_congr {a b : Byte} (h : tagOf a = tagOf b) (s : State) : exec (.barrier a) s = exec (.barrier b) s := by
  change execBarrier a s = execBarrier b s
  unfold execBarrier
  rw [h]

/-! ### Transfers that are no request -/

theorem notRequestKind_iff (kind : Byte) : notRequestKind kind = true ↔ kind ≠ 0 ∧ kind ≠ 1 ∧ kind ≠ 2 := by
  unfold notRequestKind
  simp only [Bool.and_eq_true, bne_iff_ne, and_assoc]

/-- Whatever bytes follow the kind, the decoder reads none of them. -/
theorem decodeTransfer_notRequest {kind : Byte} (h : notRequestKind kind = true) (rest : List Byte) :
    decodeTransfer (kind :: rest) = some (.nonRequestTransfer kind) := by
  unfold decodeTransfer
  exact if_pos h

theorem exec_nonRequestTransfer (kind : Byte) (s : State) : exec (.nonRequestTransfer kind) s = .next s := by
  rfl

/-- Settles O13: the field and its remainder by 16 name one tag, so they make one request; the decoder reads a transfer of another
kind as one that is no request, and its meaning is no effect. -/
theorem tagBitsAndNonRequests : Obligations.TagBitsAndNonRequests := by
  refine ⟨tagOf_eq_ofNat_mod, fun s tag hla mask data => ?_, fun kind rest h0 h1 h2 => ?_, fun kind s _ _ _ => ?_⟩
  · have hsame := (tagOf_lowFour tag).symm
    exact ⟨exec_hostRead_congr hsame hla s, exec_hostWrite_congr hsame hla mask data s, exec_barrier_congr hsame s⟩
  · exact decodeTransfer_notRequest ((notRequestKind_iff kind).mpr ⟨h0, h1, h2⟩) rest
  · exact exec_nonRequestTransfer kind s

end Sys2Proof.Machine
end

section
/-! The laws that every step keeps (O5, O6, O7, O9, O10), and two facts about what no command reaches (O11, O12). The idea: the closure
lemmas of Sys2Proof/Laws ask of a predicate one field for each update that the part is built from; a predicate that does not read the
map is asked for no operation on table and pool, and for an update of a module that it does not read there is nothing to show. -/

namespace Sys2Proof.Machine

-- One theorem after another, as in the laws (see `Quiet`): the memory of the check does not hold all their threads at once.
set_option Elab.async false

/-- The alert causes after a fault record has been written: LOG_WRAP latches when an unread record leaves (R158). -/
def alertAfterFault (s : State) : Alert := (if overwritesUnread s then latch .logWrap s else s).alert

/-- The cursor after a fault record has been written (R158). -/
def cursorAfterFault (r : FaultRecord) (s : State) : Seq32 :=
  if overwritesUnread s then ((recordsKept s ++ [r]).head?.map (·.seq)).getD s.log.next else s.log.cursor

/-- A fault record changes the Alert Unit and the Fault Log alone. -/
theorem writeFault_sets (kind : FaultKind) (hla ala step : Option Nat) (s : State) :
    writeFault kind hla ala step s =
      (s.setAlert (alertAfterFault s)).setLog
        { s.log with
          records := recordsKept s ++ [newRecord kind hla ala step s]
          cursor := cursorAfterFault (newRecord kind hla ala step s) s
          next := s.log.next + 1, count := saturate16 s.log.count } := by
  unfold writeFault alertAfterFault cursorAfterFault recordsKept
  cases overwritesUnread s <;> rfl

/-- A predicate that does not read the map is closed under the part's updates as soon as it is closed under those of the modules it
reads; the defaults serve the modules that it does not read. -/
theorem Quiet.ofMapBlind {P : State → Prop}
    (map : ∀ s v, P s → P (s.setMap v) := by intros; assumption)
    (host : ∀ {s v}, v.tags.Sublist s.host.tags → v.reports.length ≤ max Config.reportLimit s.host.reports.length →
      (v.order.map (·.id)).Sublist (s.host.order.map (·.id)) → P s → P (s.setHost v) := by intros; assumption)
    (join : ∀ {s tag hla write}, P s → P (joinOrder tag hla write s) := by intros; assumption)
    (accept : ∀ {s t}, t ∉ s.host.tags → P s → P (s.setHost { s.host with tags := s.host.tags ++ [t] }) := by
      intros; assumption)
    (array : ∀ {s v}, v.inFlight.length ≤ max Config.flightLimit s.array.inFlight.length → P s → P (s.setArray v) := by
      intros; assumption)
    (buf : ∀ {s v}, v.entries.length ≤ max Config.bufferEntries s.buf.entries.length → P s → P (s.setBuf v) := by
      intros; assumption)
    (reloc : ∀ {s v}, v.pendingList.length ≤ max Config.pendingLimit s.reloc.pendingList.length →
      v.watch.length ≤ max Config.watchEntries s.reloc.watch.length → v.busy ≤ max Config.slotCount s.reloc.busy → P s →
      P (s.setReloc v) := by intros; assumption)
    (jour : ∀ {s v}, v.queue.length ≤ max Config.queueLimit s.jour.queue.length → P s → P (s.setJour v) := by
      intros; assumption)
    (start : ∀ s v, P s → P (s.setStart v) := by intros; assumption)
    (survey : ∀ s v, P s → P (s.setSurvey v) := by intros; assumption)
    (alert : ∀ s v, P s → P (s.setAlert v) := by intros; assumption)
    (port : ∀ s v, P s → P (s.setPort v) := by intros; assumption)
    (out : ∀ s v, P s → P (s.setOut v) := by intros; assumption)
    (ids : ∀ {s v}, s.ids.nextId ≤ v.nextId → P s → P (s.setIds v) := by intros; assumption)
    (trace : ∀ s kind tag hla, P s → P (addTrace kind tag hla s) := by intros; assumption)
    (fault : ∀ s kind hla ala step, P s → P (writeFault kind hla ala step s) := by
      intros; rw [writeFault_sets]; assumption)
    (policyDefault : ∀ s, P s → P (s.setPolicy { active := .default, staged := .default }) := by intros; assumption)
    (policySwap : ∀ s, P s → P (s.setPolicy { active := s.policy.staged, staged := s.policy.active }) := by
      intros; assumption)
    (policyReplay : ∀ {s p}, inRanges p → P s → P (s.setPolicy { active := p, staged := p }) := by intros; assumption) :
    Quiet P where
  host := host
  join := join
  accept := accept
  mapSame _ _ _ _ := map _ _
  begin _ _ _ := map _ _
  retarget _ h := by obtain ⟨v, hv⟩ := retarget_map; rw [hv]; exact map _ v h
  bind h := by obtain ⟨v, hv⟩ := bindTarget_map; rw [hv]; exact map _ v h
  revert _ _ h := by obtain ⟨v, hv⟩ := dropTarget_map; rw [hv]; exact map _ _ (map _ v h)
  drop _ _ h := by obtain ⟨v, hv⟩ := dropTarget_map; rw [hv]; exact map _ v h
  kill _ := map _ _
  replayBind _ _ h := by obtain ⟨v, hv⟩ := replayBind_map; rw [hv]; exact map _ v h
  replayDead _ _ _ := map _ _
  fence _ _ := map _ _
  built _ := map _ _
  rebuild h := start _ _ (map _ _ h)
  array _ := array
  ident _ := array
  buf := buf
  reloc := reloc
  jour := jour
  start _ := start _ _
  survey := survey _ _
  alert := alert _ _
  port := port _ _
  out := out _ _
  ids := ids
  trace := trace _ _ _ _
  fault := fault _ _ _ _ _
  policyDefault := policyDefault _
  policySwap := policySwap _
  policyReplay := policyReplay

/-! ### The uptime tick (O11) and the Guard from outside the Service Link (O12) -/

/-- Nothing but a reset and UPTIME_TICK writes the tick. -/
theorem tick_closed (k : Tick) : Closed (fun s => s.tick = k) where
  toQuiet := Quiet.ofMapBlind
  cursorNext _ h := h
  cursorOldest h := h
  logClear h := h
  policyStage _ h := h
  lock _ h := h
  unlock h := h
  freeze h := h

/-- Settles O11: UPTIME_TICK is the addition, which wraps because the tick has 32 bits; a reset starts from the reset state; every
other command is built from updates that leave the tick. -/
theorem tickCounts : Obligations.TickCounts := by
  refine ⟨fun _ => rfl, fun s h => by rw [h]; rfl, fun c s t ht => ⟨?_, fun hpower hinput htick => ?_⟩⟩
  · rintro (rfl | rfl) <;> exact next_keeps (P := fun s => s.tick = 0) rfl ht rfl
  · exact exec_keeps (tick_closed s.tick) c (fun hc => absurd hc (by simp [hpower, hinput])) (fun hc => absurd hc htick) rfl ht

/-- No update that a command outside the Service Link leads to writes the Guard. -/
theorem guard_quiet (g : Guard) : Quiet (fun s => s.guard = g) := Quiet.ofMapBlind

/-- Settles O12. -/
theorem guardOutOfReach : Obligations.GuardOutOfReach := fun c s _ hc hpower hinput ht =>
  exec_keeps_quiet (guard_quiet s.guard) c hc (fun h => absurd h (by simp [hpower, hinput])) (fun _ h => h) rfl ht

/-! ### The Guard's law and the policy ranges (O5) -/

theorem unlock_guardLaw {g : Guard} (word : BitVec 32) (h : guardLaw g = true) : guardLaw (unlock word g).2 = true := by
  unfold unlock
  split
  · exact h
  · exact h
  · rename_i hlocked
    split
    · exact h
    · split
      · rfl
      · rw [guardLaw_iff] at h ⊢
        obtain ⟨hattempts, _, hword⟩ := h
        exact ⟨by dsimp only; omega, by simp [hlocked], hword⟩

theorem freeze_guardLaw {g : Guard} (h : guardLaw g = true) : guardLaw { g with state := .frozen, word := none } = true := by
  rw [guardLaw_iff] at h ⊢
  exact ⟨h.1, by simp, by simp⟩

theorem guardLaw_closed : Closed (fun s => guardLaw s.guard = true) where
  toQuiet := Quiet.ofMapBlind
  cursorNext _ h := h
  cursorOldest h := h
  logClear h := h
  policyStage _ h := h
  lock _ _ := rfl
  unlock := unlock_guardLaw _
  freeze := freeze_guardLaw

theorem policyLaw_iff (p : PolicySets) : policyLaw p = true ↔ inRanges p.active = true ∧ inRanges p.staged = true := by
  simp [policyLaw]

theorem policyLaw_closed : Closed (fun s => policyLaw s.policy = true) where
  toQuiet := Quiet.ofMapBlind
    (policyDefault := fun _ _ => rfl)
    (policySwap := fun s h => by
      rw [policyLaw_iff] at h ⊢
      exact h.symm)
    (policyReplay := fun hp _ => (policyLaw_iff _).mpr ⟨hp, hp⟩)
  cursorNext _ h := h
  cursorOldest h := h
  logClear h := h
  policyStage hp h := (policyLaw_iff _).mpr ⟨((policyLaw_iff _).mp h).1, hp⟩
  lock _ h := h
  unlock h := h
  freeze h := h

/-- Settles O5: both laws are closed under every update, and a reset restores the values of power-on. -/
theorem guardAndPolicyLawsKept : Obligations.GuardAndPolicyLawsKept :=
  ⟨fun _ _ => step_keeps guardLaw_closed (fun _ _ => rfl) (fun _ h => h) (fun _ _ h => h),
    fun _ _ => step_keeps policyLaw_closed (fun _ _ => rfl) (fun _ h => h) (fun _ _ h => h)⟩

end Sys2Proof.Machine
end

section
/-! The Fault Log's law (O6), the capacities (O7), tags and identities (O9), and the laws of table and pool (O10) are closed under the
part's updates. The idea of the Fault Log's part: a record written takes the next sequence, so the held sequences stay those that end
just before it, and a cursor that loses its record moves to the oldest one left. -/

namespace Sys2Proof.Machine

-- One theorem after another, as in the laws (see `Quiet`): the memory of the check does not hold all their threads at once.
set_option Elab.async false

/-! ### The Fault Log's law (O6) -/

/-- The sequences of the records that stay are the last ones before the next sequence. -/
theorem recordsKept_seqs {s : State} (h : s.log.records.map (·.seq) = sequencesBefore s.log.next s.log.records.length) :
    (recordsKept s).map (·.seq) = sequencesBefore s.log.next (recordsKept s).length := by
  unfold recordsKept
  split
  · cases hr : s.log.records with
    | nil => rfl
    | cons r rest =>
      rw [hr] at h
      exact (List.cons.inj h).2
  · exact h

theorem recordsKept_length {s : State} (h : s.log.records.length ≤ 16) : (recordsKept s).length ≤ 15 := by
  unfold recordsKept
  split
  · rw [List.length_drop]; omega
  · rename_i hroom
    simp only [Config.faultLimit] at hroom
    omega

/-- A cursor whose record does not leave unread goes on naming a record that stays, or the next sequence. -/
theorem cursor_kept {s : State} (hcursor : s.log.cursor ∈ s.log.records.map (·.seq) ∨ s.log.cursor = s.log.next)
    (hkeep : overwritesUnread s = false) : s.log.cursor ∈ (recordsKept s).map (·.seq) ∨ s.log.cursor = s.log.next := by
  refine hcursor.imp_left fun hmem => ?_
  unfold recordsKept
  split
  · rename_i hfull
    cases hr : s.log.records with
    | nil => rw [hr] at hmem; cases hmem
    | cons oldest rest =>
      have hread : s.log.cursor ≠ oldest.seq := fun h =>
        Bool.eq_false_iff.mp hkeep ((overwritesUnread_full hr hfull).mpr h)
      rw [hr, List.map_cons, List.mem_cons] at hmem
      exact hmem.resolve_left hread
  · exact hmem

/-- After a record, the cursor names a held record: the oldest left, the one it named, or the new one. -/
theorem cursorAfterFault_mem {s : State} {r : FaultRecord} (hr : r.seq = s.log.next)
    (hcursor : s.log.cursor ∈ s.log.records.map (·.seq) ∨ s.log.cursor = s.log.next) :
    cursorAfterFault r s ∈ (recordsKept s ++ [r]).map (·.seq) := by
  unfold cursorAfterFault
  split
  · cases recordsKept s <;> simp
  · rename_i hkeep
    rw [List.map_append, List.mem_append]
    refine (cursor_kept hcursor (Bool.eq_false_iff.mpr hkeep)).imp_right fun h => ?_
    simp [h, hr]

theorem writeFault_logLaw {s : State} (kind : FaultKind) (hla ala step : Option Nat) (h : logLaw s.log = true) :
    logLaw (writeFault kind hla ala step s).log = true := by
  rw [writeFault_sets]
  rw [logLaw_iff] at h ⊢
  obtain ⟨hcount, hseqs, hcursor, htrace⟩ := h
  have hkept := recordsKept_length hcount
  refine ⟨?_, ?_, .inl (cursorAfterFault_mem rfl hcursor), htrace⟩
  · dsimp only [State.setLog_log]
    rw [List.length_append, List.length_singleton]
    omega
  · dsimp only [State.setLog_log]
    rw [List.map_append, recordsKept_seqs hseqs, List.length_append, List.length_singleton]
    exact seqBefore_snoc _ _

theorem addTrace_logLaw {s : State} (kind : ReqKind) (tag : Tag) (hla : Option Nat) (h : logLaw s.log = true) :
    logLaw (addTrace kind tag hla s).log = true := by
  rw [logLaw_iff] at h ⊢
  obtain ⟨hcount, hseqs, hcursor, htrace⟩ := h
  refine ⟨hcount, hseqs, hcursor, ?_⟩
  unfold addTrace
  dsimp only [State.setLog_log]
  rw [List.length_append, List.length_singleton]
  split
  · rename_i hroom
    exact hroom
  · rw [List.length_drop]; omega

theorem logLaw_closed : Closed (fun s => logLaw s.log = true) where
  toQuiet := Quiet.ofMapBlind (trace := fun _ kind tag hla => addTrace_logLaw kind tag hla)
    (fault := fun _ kind hla ala step => writeFault_logLaw kind hla ala step)
  cursorNext {s r} hr h := by
    rw [logLaw_iff] at h ⊢
    obtain ⟨hcount, hseqs, _, htrace⟩ := h
    have hmem : r.seq ∈ sequencesBefore s.log.next s.log.records.length :=
      hseqs ▸ List.mem_map_of_mem (List.mem_of_find?_eq_some hr)
    refine ⟨hcount, hseqs, ?_, htrace⟩
    dsimp only [State.setLog_log]
    rw [hseqs]
    exact seqBefore_next _ _ _ hmem
  cursorOldest {s} h := by
    rw [logLaw_iff] at h ⊢
    obtain ⟨hcount, hseqs, _, htrace⟩ := h
    refine ⟨hcount, hseqs, ?_, htrace⟩
    unfold oldestSeq
    dsimp only [State.setLog_log]
    cases s.log.records <;> simp
  logClear {s} h := by
    rw [logLaw_iff] at h ⊢
    exact ⟨Nat.zero_le _, rfl, .inr rfl, h.2.2.2⟩
  policyStage _ h := h
  lock _ h := h
  unlock h := h
  freeze h := h

/-- Settles O6. -/
theorem faultLogLawKept : Obligations.FaultLogLawKept := fun _ _ =>
  step_keeps logLaw_closed (fun _ _ => rfl) (fun _ h => h) (fun _ _ h => h)

/-! ### The capacities (O7) -/

/-- The closure lemmas give each list's new length as at most its capacity or its length before. -/
theorem capacityLaw_closed : Closed (fun s => capacityLaw s = true) where
  toQuiet := Quiet.ofMapBlind
    (host := fun _ hreports _ h => by
      rw [capacityLaw_iff] at h ⊢
      exact ⟨Nat.le_trans hreports (Nat.max_le.mpr ⟨Nat.le_refl 4, h.1⟩), h.2⟩)
    (array := fun hflight h => by
      rw [capacityLaw_iff] at h ⊢
      obtain ⟨hreports, hentries, hpending, hwatch, hqueue, hold, hbusy⟩ := h
      exact ⟨hreports, hentries, hpending, hwatch, hqueue,
        Nat.le_trans hflight (Nat.max_le.mpr ⟨Nat.le_refl 8, hold⟩), hbusy⟩)
    (buf := fun hnew h => by
      rw [capacityLaw_iff] at h ⊢
      obtain ⟨hreports, hentries, hrest⟩ := h
      exact ⟨hreports, Nat.le_trans hnew (Nat.max_le.mpr ⟨Nat.le_refl 8, hentries⟩), hrest⟩)
    (reloc := fun hp hw hb h => by
      rw [capacityLaw_iff] at h ⊢
      obtain ⟨hreports, hentries, hpending, hwatch, hqueue, hflight, hbusy⟩ := h
      exact ⟨hreports, hentries, Nat.le_trans hp (Nat.max_le.mpr ⟨Nat.le_refl 32, hpending⟩),
        Nat.le_trans hw (Nat.max_le.mpr ⟨Nat.le_refl 64, hwatch⟩), hqueue, hflight,
        Nat.le_trans hb (Nat.max_le.mpr ⟨Nat.le_refl 4, hbusy⟩)⟩)
    (jour := fun hnew h => by
      rw [capacityLaw_iff] at h ⊢
      obtain ⟨hreports, hentries, hpending, hwatch, hqueue, hrest⟩ := h
      exact ⟨hreports, hentries, hpending, hwatch, Nat.le_trans hnew (Nat.max_le.mpr ⟨Nat.le_refl 16, hqueue⟩), hrest⟩)
  cursorNext _ h := h
  cursorOldest h := h
  logClear h := h
  policyStage _ h := h
  lock _ h := h
  unlock h := h
  freeze h := h

/-- Settles O7. -/
theorem capacitiesKept : Obligations.CapacitiesKept := fun _ _ =>
  step_keeps capacityLaw_closed (fun _ _ => rfl) (fun _ h => h) (fun _ _ h => h)

/-! ### Tags and identities (O9) -/

theorem tagLaw_closed : Closed (fun s => tagLaw s.host) where
  toQuiet := Quiet.ofMapBlind
    (host := fun htags _ _ h => h.sublist htags)
    (accept := fun hnew h => List.nodup_append.mpr ⟨h, List.nodup_singleton _, fun a ha b hb => by
      rw [List.mem_singleton] at hb
      rintro rfl
      exact hnew (hb ▸ ha)⟩)
  cursorNext _ h := h
  cursorOldest h := h
  logClear h := h
  policyStage _ h := h
  lock _ h := h
  unlock h := h
  freeze h := h

/-- A request joins with the next identity, which no request of the order bears. -/
theorem joinOrder_idLaw {s : State} (tag : Tag) (hla : Nat) (write : Option (LineData × Mask)) (h : idLaw s) :
    idLaw (joinOrder tag hla write s) := by
  obtain ⟨hnodup, hbelow⟩ := h
  unfold joinOrder idLaw
  dsimp only [takeId, State.setIds_host, State.setHost_host, State.setIds_ids, State.setHost_ids]
  refine ⟨?_, fun r hr => ?_⟩
  · rw [List.map_append]
    refine List.nodup_append.mpr ⟨hnodup, List.nodup_singleton _, fun a ha b hb => ?_⟩
    obtain ⟨r, hr, rfl⟩ := List.mem_map.mp ha
    rw [List.map_singleton, List.mem_singleton] at hb
    exact hb ▸ Nat.ne_of_lt (hbelow r hr)
  · rcases List.mem_append.mp hr with hr | hr
    · exact Nat.lt_succ_of_lt (hbelow r hr)
    · rw [List.mem_singleton.mp hr]
      exact Nat.lt_succ_self _

theorem idLaw_closed : Closed idLaw where
  toQuiet := Quiet.ofMapBlind
    (host := fun _ _ hids ⟨hnodup, hbelow⟩ => ⟨hnodup.sublist hids, fun r hr => by
      obtain ⟨q, hq, hid⟩ := List.mem_map.mp (hids.subset (List.mem_map_of_mem hr))
      exact hid ▸ hbelow q hq⟩)
    (join := joinOrder_idLaw _ _ _)
    (ids := fun hnext ⟨hnodup, hbelow⟩ => ⟨hnodup, fun r hr => Nat.lt_of_lt_of_le (hbelow r hr) hnext⟩)
  cursorNext _ h := h
  cursorOldest h := h
  logClear h := h
  policyStage _ h := h
  lock _ h := h
  unlock h := h
  freeze h := h

/-- Settles O9: a request is accepted only with a tag that is not outstanding, and with an identity above all before. -/
theorem tagsAndIdentitiesKept : Obligations.TagsAndIdentitiesKept :=
  ⟨fun _ _ => step_keeps tagLaw_closed (fun _ _ => List.nodup_nil) (fun _ h => h) (fun _ _ h => h),
    fun _ _ => step_keeps idLaw_closed (fun _ _ => ⟨List.nodup_nil, fun _ hr => nomatch hr⟩) (fun _ h => h) (fun _ _ h => h)⟩

end Sys2Proof.Machine
end

section
/-! The order of the Remap Table and of the Spare Pool's marks, and the whole law of the two (O10). The idea: the laws of
Sys2Proof/Laws/Places give each operation on table and pool; what is left are the updates that change nothing the law reads, or that
empty table and pool. -/

namespace Sys2Proof.Machine

-- One theorem after another, as in the laws (see `Quiet`): the memory of the check does not hold all their threads at once.
set_option Elab.async false

/-! ### The order alone -/

theorem dropTarget_mapLaw {s : State} {home : Nat} {e : RemapEntry} (h : mapLaw s.map) : mapLaw (dropTarget home e s).map := by
  unfold dropTarget
  split
  · exact mapLaw_entry h _
  · exact ⟨h.1.sublist (List.filter_sublist.map _), h.2⟩

theorem retarget_mapLaw {s : State} {home next : Nat} (h : mapLaw s.map) : mapLaw (retarget home next s).map := by
  unfold retarget
  split
  · split
    · exact mapLaw_entry (mapLaw_mark (mapLaw_mark h _ _) _ _) _
    · exact h
  · exact h

theorem bindTarget_mapLaw {s : State} {home : Nat} (h : mapLaw s.map) : mapLaw (bindTarget home s).map := by
  unfold bindTarget
  split
  · split
    · dsimp only
      split
      · exact mapLaw_mark (mapLaw_insert h _ _ _) _ _
      · exact mapLaw_insert h _ _ _
    · exact h
  · exact h

theorem replayBind_mapLaw {s : State} {home spare : Nat} (h : mapLaw s.map) : mapLaw (replayBind home spare s).map := by
  unfold replayBind
  dsimp only
  split
  · split
    · exact mapLaw_insert h _ _ _
    · exact mapLaw_mark (mapLaw_insert h _ _ _) _ _
  · exact mapLaw_insert h _ _ _

theorem mapLaw_closed : Closed (fun s => mapLaw s.map) where
  host _ _ _ h := h
  join h := h
  accept _ h := h
  mapSame ht hm _ _ h := ⟨ht ▸ h.1, hm ▸ h.2⟩
  begin _ _ _ h := mapLaw_insert h _ _ _
  retarget _ := retarget_mapLaw
  bind := bindTarget_mapLaw
  revert _ _ h := mapLaw_mark (dropTarget_mapLaw h) _ _
  drop _ _ := dropTarget_mapLaw
  kill _ h := mapLaw_mark h _ _
  replayBind _ _ := replayBind_mapLaw
  replayDead _ _ _ h := mapLaw_mark h _ _
  fence _ _ h := h
  built _ h := h
  rebuild _ := ⟨List.Pairwise.nil, List.Pairwise.nil⟩
  array _ _ h := h
  ident _ _ h := h
  buf _ h := h
  reloc _ _ _ h := h
  jour _ h := h
  start _ h := h
  survey h := h
  alert h := h
  port h := h
  out h := h
  ids _ h := h
  trace h := h
  fault h := by rw [writeFault_sets]; exact h
  policyDefault h := h
  policySwap h := h
  policyReplay _ h := h
  cursorNext _ h := h
  cursorOldest h := h
  logClear h := h
  policyStage _ h := h
  lock _ h := h
  unlock h := h
  freeze h := h

/-! ### The whole law of table and pool -/

/-- The law reads the table, the marks, the fence, whether the pool is built, C and the phase of start-up, and nothing else. -/
theorem PlacesLaw.congr {s t : State} (h : PlacesLaw s) (htable : t.map.table = s.map.table) (hmarks : t.map.marks = s.map.marks)
    (hfence : t.map.fence = s.map.fence) (hbuilt : t.map.poolBuilt = s.map.poolBuilt)
    (hcount : t.array.lineCount = s.array.lineCount) (hphase : t.start.phase = s.start.phase) : PlacesLaw t := by
  have hvalue : fenceValue t = fenceValue s := by rw [fenceValue, hfence, fenceValue]
  have hreserve : ∀ a, inReserve t a = inReserve s a := fun a => by
    unfold inReserve reserveEnd
    rw [hfence, hcount]
  have hbounds : ∀ f, fenceInBounds t f = fenceInBounds s f := fun f => by
    unfold fenceInBounds reserveEnd
    rw [hcount]
  exact
    { ordered := ⟨htable ▸ h.ordered.1, hmarks ▸ h.ordered.2⟩
      homesBelow := by rw [htable, hvalue]; exact h.homesBelow
      namedOnce := by rw [htable]; exact h.namedOnce
      spareBound := by rw [htable, hmarks]; exact h.spareBound
      targetHeld := by rw [htable, hmarks]; exact h.targetHeld
      boundNamed := by rw [htable, hmarks]; exact h.boundNamed
      heldNamed := by rw [htable, hmarks]; exact h.heldNamed
      marked := by rw [hmarks]; intro a state; rw [hreserve]; exact h.marked a state
      bounds := by rw [hfence]; intro f; rw [hbounds]; exact h.bounds f
      building := by rw [htable, hbuilt]; exact h.building
      starting := by rw [hphase, hbuilt]; exact h.starting
      counting := by rw [hphase, htable, hmarks, hfence]; exact h.counting }

/-- A table and a pool with nothing in them and the fence cleared meet the law, in every phase in which nothing has been built. -/
theorem PlacesLaw.empty {s : State} (htable : s.map.table = []) (hmarks : s.map.marks = []) (hfence : s.map.fence = none)
    (hbuilt : s.map.poolBuilt = false) : PlacesLaw s where
  ordered := by unfold mapLaw; rw [htable, hmarks]; exact ⟨List.Pairwise.nil, List.Pairwise.nil⟩
  homesBelow := by simp [htable]
  namedOnce := by simp [htable]
  spareBound := by simp [htable]
  targetHeld := by simp [htable]
  boundNamed := by simp [hmarks, markOf]
  heldNamed := by simp [hmarks, markOf]
  marked := by simp [hmarks, markOf]
  bounds := by simp [hfence]
  building := by simp [htable]
  starting _ := hbuilt
  counting _ := ⟨htable, hmarks, hfence⟩

/-- Start-up may go on reading the journal, or end; it does not wait for IDENT again. -/
theorem PlacesLaw.setStart {s : State} (h : PlacesLaw s) {v : StartUp}
    (hv : v.phase = s.start.phase ∨ v.phase = .idle ∨ (s.start.phase ≠ .idle ∧ v.phase ≠ .ident)) :
    PlacesLaw (s.setStart v) := by
  rcases hv with hsame | hidle | ⟨hreading, hnot⟩
  · exact h.congr rfl rfl rfl rfl rfl hsame
  · exact
      { ordered := h.ordered, homesBelow := h.homesBelow, namedOnce := h.namedOnce, spareBound := h.spareBound
        targetHeld := h.targetHeld, boundNamed := h.boundNamed, heldNamed := h.heldNamed, marked := h.marked
        bounds := h.bounds, building := h.building, starting := fun hp => absurd hidle hp
        counting := fun hp => by rw [State.setStart_start, hidle] at hp; cases hp }
  · exact
      { ordered := h.ordered, homesBelow := h.homesBelow, namedOnce := h.namedOnce, spareBound := h.spareBound
        targetHeld := h.targetHeld, boundNamed := h.boundNamed, heldNamed := h.heldNamed, marked := h.marked
        bounds := h.bounds, building := h.building, starting := fun _ => h.starting hreading
        counting := fun hp => absurd hp hnot }

/-- Once start-up has ended the pool may be built (R132). -/
theorem PlacesLaw.build {s : State} (h : PlacesLaw s) (hidle : s.start.phase = .idle) :
    PlacesLaw (s.setMap { s.map with poolBuilt := true }) where
  ordered := h.ordered
  homesBelow := h.homesBelow
  namedOnce := h.namedOnce
  spareBound := h.spareBound
  targetHeld := h.targetHeld
  boundNamed := h.boundNamed
  heldNamed := h.heldNamed
  marked := h.marked
  bounds := h.bounds
  building := fun hfalse => nomatch hfalse
  starting := fun hp => absurd hidle hp
  counting := h.counting

/-- While start-up waits for IDENT, any line count keeps the law: there is nothing in table and pool (R60, R128). -/
theorem PlacesLaw.setArray_ident {s : State} (h : PlacesLaw s) (hident : s.start.phase = .ident) (v : ArrayLink) :
    PlacesLaw (s.setArray v) := by
  obtain ⟨htable, hmarks, hfence⟩ := h.counting hident
  exact .empty htable hmarks hfence (h.starting (by rw [hident]; simp))

theorem placesLaw_closed : Closed PlacesLaw where
  host _ _ _ h := h.congr rfl rfl rfl rfl rfl rfl
  join h := h.congr rfl rfl rfl rfl rfl rfl
  accept _ h := h.congr rfl rfl rfl rfl rfl rfl
  mapSame ht hm hf hb h := h.congr ht hm hf hb rfl rfl
  begin hh hm hf h := h.begin hh hm hf
  retarget hf h := h.retarget hf
  bind h := h.bind
  revert he ht h := h.revert he ht
  drop he ht h := h.drop he ht
  kill hf h := h.killFree hf
  replayBind hp hb h := h.replayBind hp hb
  replayDead hp hr hm h := h.replayDead hp hr hm
  fence hp hf h := h.fence hp hf
  built hp h := h.build hp
  rebuild _ := .empty rfl rfl rfl rfl
  array hc _ h := h.congr rfl rfl rfl rfl hc rfl
  ident hp _ h := h.setArray_ident hp _
  buf _ h := h.congr rfl rfl rfl rfl rfl rfl
  reloc _ _ _ h := h.congr rfl rfl rfl rfl rfl rfl
  jour _ h := h.congr rfl rfl rfl rfl rfl rfl
  start hv h := h.setStart hv
  survey h := h.congr rfl rfl rfl rfl rfl rfl
  alert h := h.congr rfl rfl rfl rfl rfl rfl
  port h := h.congr rfl rfl rfl rfl rfl rfl
  out h := h.congr rfl rfl rfl rfl rfl rfl
  ids _ h := h.congr rfl rfl rfl rfl rfl rfl
  trace h := h.congr rfl rfl rfl rfl rfl rfl
  fault h := by rw [writeFault_sets]; exact h.congr rfl rfl rfl rfl rfl rfl
  policyDefault h := h.congr rfl rfl rfl rfl rfl rfl
  policySwap h := h.congr rfl rfl rfl rfl rfl rfl
  policyReplay _ h := h.congr rfl rfl rfl rfl rfl rfl
  cursorNext _ h := h.congr rfl rfl rfl rfl rfl rfl
  cursorOldest h := h.congr rfl rfl rfl rfl rfl rfl
  logClear h := h.congr rfl rfl rfl rfl rfl rfl
  policyStage _ h := h.congr rfl rfl rfl rfl rfl rfl
  lock _ h := h.congr rfl rfl rfl rfl rfl rfl
  unlock h := h.congr rfl rfl rfl rfl rfl rfl
  freeze h := h.congr rfl rfl rfl rfl rfl rfl

/-- Settles O10: a reset empties table and pool; every other command is built from operations that keep both laws. -/
theorem mapOrderKept : Obligations.MapOrderKept :=
  ⟨fun _ _ => step_keeps mapLaw_closed (fun _ _ => ⟨List.Pairwise.nil, List.Pairwise.nil⟩) (fun _ h => h) (fun _ _ h => h),
    fun _ _ => step_keeps placesLaw_closed (fun _ _ => .empty rfl rfl rfl rfl) (fun _ h => h.congr rfl rfl rfl rfl rfl rfl)
      (fun _ _ h => h.congr rfl rfl rfl rfl rfl rfl)⟩

/-! ### The reset values (O2, O4), the resets (O3) and the front of the queue (O1) -/

/-- Settles O1: `step` is `exec` of the front command, by its definition. -/
theorem stepRunsFrontCommand : Obligations.StepRunsFrontCommand := fun s =>
  ⟨fun c rest h => by unfold step; rw [h], fun h => by unfold step; rw [h]⟩

/-- Settles O2: each value is the field of `State.reset`. -/
theorem resetStateValues : Obligations.ResetStateValues := by
  unfold Obligations.ResetStateValues
  repeat' apply And.intro
  all_goals rfl

/-- Settles O3: both resets are `resetPart`. -/
theorem resetCommandsRestart : Obligations.ResetCommandsRestart := by
  rintro s t rfl
  exact ⟨rfl, rfl⟩

/-- Settles O4: nothing is listed after reset, and the Guard and both policy sets have their values of power-on. -/
theorem lawsHoldAtReset : Obligations.LawsHoldAtReset :=
  ⟨rfl, rfl, rfl, rfl, List.nodup_nil, ⟨List.nodup_nil, fun _ hr => nomatch hr⟩, .empty rfl rfl rfl rfl⟩

end Sys2Proof.Machine
end

section
/-! The Guard commands (O40; R173 to R176). The idea: what each command does to the Guard is a function of the Guard and the word alone;
the answer reports the Guard after it. -/

namespace Sys2Proof.Machine

-- One theorem after another, as in the laws (see `Quiet`): the memory of the check does not hold all their threads at once.
set_option Elab.async false

/-- A command frame that the port takes and whose command completes in its event is answered so (R168, R170); the commands of
sections 10.4 and 10.5 are the arrival of their frames (log 22). -/
theorem exec_replied {c : Instr} {s t : State} {seq code : Byte} {args : List Byte} {check : BitVec 16} {status : Status}
    {results : List Byte} (htakes : portTakes s seq code args check = true)
    (hrun : runCommand seq code args (nextEvent s) = completeCommand seq status results t)
    (hc : exec c s = .next (receiveFrame seq code args check s) := by rfl) (ht : t.port = s.port := by rfl)
    (ha : args.length ≤ 7 := by simp [arg24, enc16, enc32]) (hl : argLengthAllowed code args.length = true := by rfl) :
    exec c s = replied seq status results t := by
  rw [hc]
  exact next_replied htakes ha hl hrun ht

theorem runCommand_lock (seq : Byte) (word : BitVec 32) (s : State) :
    runCommand seq 96 (enc32 word) s = runGuardLock seq word s := by
  rw [runCommand_guardLock, List.take_of_length_le (Nat.le_refl 4), bigEndian32_enc32]

theorem runCommand_unlock (seq : Byte) (word : BitVec 32) (s : State) :
    runCommand seq 97 (enc32 word) s = runGuardUnlock seq word s := by
  rw [runCommand_guardUnlock, List.take_of_length_le (Nat.le_refl 4), bigEndian32_enc32]

/-- R174: OPEN takes the word and 5 attempts; LOCKED and FROZEN refuse. -/
theorem runGuardLock_eq {s : State} (seq : Byte) {word : BitVec 32} {status : Status} {g : Guard}
    (h : (s.guard.state = .open ∧ status = .ok ∧ g = { state := .locked, attempts := 5, word := some word }) ∨
      (s.guard.state ≠ .open ∧ status = .refusedGuard ∧ g = s.guard)) :
    runGuardLock seq word s = completeCommand seq status (enc8 g.state.code ++ enc8 g.attempts) (s.setGuard g) := by
  unfold runGuardLock
  rcases h with ⟨hopen, rfl, rfl⟩ | ⟨hclosed, rfl, rfl⟩
  · rw [hopen]
    rfl
  · split
    · next hopen => exact absurd hopen hclosed
    · rfl
    · rfl

/-- R175, row by row. -/
theorem unlock_eq {g g' : Guard} {word : BitVec 32} {status : Status}
    (h : (g.state = .open ∧ status = .ok ∧ g' = g) ∨ (g.state = .frozen ∧ status = .refusedGuard ∧ g' = g) ∨
      (g.state = .locked ∧ g.attempts = 0 ∧ status = .attempts ∧ g' = g) ∨
      (g.state = .locked ∧ g.attempts ≠ 0 ∧ g.word = some word ∧ status = .ok ∧
        g' = { state := .open, attempts := 5, word := none }) ∨
      (g.state = .locked ∧ g.attempts ≠ 0 ∧ g.word ≠ some word ∧ status = .mismatch ∧
        g' = { g with attempts := g.attempts - 1 })) :
    unlock word g = (status, g') := by
  unfold unlock
  rcases h with ⟨hg, rfl, rfl⟩ | ⟨hg, rfl, rfl⟩ | ⟨hg, hn, rfl, rfl⟩ | ⟨hg, hn, hw, rfl, rfl⟩ | ⟨hg, hn, hw, rfl, rfl⟩
  · simp only [hg]
  · simp only [hg]
  · simp only [hg, hn, if_true]
  · simp only [hg, hn, hw, if_true, if_false, Config.unlockAttempts]
  · simp only [hg, hn, hw, if_false]

/-- Settles O40: each command in each of the three Guard states. -/
theorem guardCommandsAct : Obligations.GuardCommandsAct := by
  intro s seq word check status g
  refine ⟨fun htakes hcase => ?_, fun htakes hcase => ?_, fun htakes hg => ?_⟩
  · exact exec_replied htakes ((runCommand_lock seq word _).trans (runGuardLock_eq (s := nextEvent s) seq hcase))
  · have hunlock : unlock word (nextEvent s).guard = (status, g) := unlock_eq hcase
    refine exec_replied htakes ((runCommand_unlock seq word _).trans ?_)
    unfold runGuardUnlock
    rw [hunlock]
    rfl
  · subst hg
    exact exec_replied htakes (runCommand_guardFreeze seq [] _)

end Sys2Proof.Machine
end

section
/-! The queries and the operational commands that complete in their event (O41, O42, O43, O44, O46, O47, O48). The idea: each is taken by
the port and run (`exec_replied`), so what is left is the answer and the state it leaves; the lemmas below say what the lists of result
fields come to as bytes in their order, and what a search by cursor finds. -/

namespace Sys2Proof.Machine

-- One theorem after another, as in the laws (see `Quiet`): the memory of the check does not hold all their threads at once.
set_option Elab.async false

/-! ### Values the answers report -/

/-- S, spelt out (R49). -/
theorem spareCount_eq (s : State) :
    spareCount s = if s.map.fence = none then 0 else s.array.lineCount - 4096 - s.map.fence.getD 0 := by
  unfold spareCount
  cases s.map.fence <;> rfl

theorem heldReason_eq {op : OpState} {held : Option HeldReason} (h : ∀ r, held = some r ↔ op = .held r) : heldReason op = held := by
  refine Option.ext fun r => ?_
  rw [h]
  cases op <;> simp [heldReason]

theorem surveyCounts_bytes (c : SurveyCounts) :
    c.bytes = [c.linesRead, c.skipped, c.cleanAfterRetry, c.corrected, c.retriedCorrected, c.uncorrectable,
      c.markedDead].flatMap enc24 := rfl

theorem tablesShown_iff (s : State) : tablesShown s = true ↔ s.start.op = .running ∨ s.start.op = .quiescing := by
  simp [tablesShown]

theorem argLine_one (v : Addr24) : argLine (arg24 v) 0 = v.toNat := argLine_arg24 v []

/-! ### IDENTIFY, STATUS, SURVEY_REPORT (O41) -/

theorem identifyResults_eq (s : State) :
    identifyResults s =
      enc16 3162 ++ enc16 1568 ++ [Config.siliconRevision] ++ enc24 s.array.lineCount ++ enc24 4096 ++ enc24 (fenceValue s) ++
        enc24 (spareCount s) ++ [8192, 4, 3, 32, 64, 8, 4, 16, 8, 16, 6, 2048, 16, 4, 5].flatMap enc16 := by
  unfold identifyResults encAll fenceResults
  simp only [List.flatten_cons, List.flatten_nil, List.flatMap_cons, List.flatMap_nil, List.append_assoc, List.append_nil]
  rfl

theorem statusResults_eq (s : State) :
    statusResults s =
      enc8 s.start.op.code ++ encOpt (fun r => enc8 r.code) (heldReason s.start.op) ++ enc8 s.guard.state.code ++
        enc8 s.guard.attempts ++ enc24 (fenceValue s) ++ enc24 (spareCount s) ++
        [freeCount s, countMarks s .held, countMarks s .bound, countMarks s .dead, s.map.table.length].flatMap enc16 ++
        [movingCount s, s.reloc.pendingList.length, s.reloc.watch.length, s.buf.entries.length, s.jour.state.code].flatMap enc8 ++
        encOpt (fun k => enc8 k.code) s.jour.active ++ enc16 s.jour.nextLine ++ enc8 (surveyState s).code ++
        [s.log.count.toNat, s.host.protocolCount.toNat, s.reloc.deferred.toNat].flatMap enc16 ++ enc32 s.tick := by
  unfold statusResults encAll fenceResults guardResults
  simp only [List.flatten_cons, List.flatten_nil, List.flatMap_cons, List.flatMap_nil, List.append_assoc, List.append_nil]

/-- R150's fields in their order, with the counts as they are sent. -/
theorem surveyReport_bytes {counted : SurveyCounts → List Byte} (h : ∀ c, c.bytes = counted c) (r : SurveyReport) :
    r.bytes =
      enc8 r.mode.code ++ enc24 r.first ++ enc24 r.count ++ enc32 r.startTick ++ enc32 r.endTick ++ enc8 r.outcome.code ++
        enc24 r.next ++ counted r.counts ++ encOpt enc24 r.firstUncorrectable := by
  simp only [SurveyReport.bytes, encAll, List.flatten_cons, List.flatten_nil, List.append_assoc, List.append_nil, h]

theorem liveSurvey_bytes {counted : SurveyCounts → List Byte} (h : ∀ c, c.bytes = counted c) (l : LiveSurvey) :
    l.bytes =
      enc8 l.mode.code ++ enc24 l.first ++ enc24 l.count ++ enc32 l.startTick ++ enc24 l.next ++ enc8 l.phase.code ++
        counted l.counts := by
  simp only [LiveSurvey.bytes, encAll, List.flatten_cons, List.flatten_nil, List.append_assoc, List.append_nil, h]

theorem surveyResults_eq {counted : SurveyCounts → List Byte} (h : ∀ c, c.bytes = counted c) (s : State) :
    surveyResults s =
      enc8 (surveyState s).code ++
        encOpt
          (fun r => enc8 r.mode.code ++ enc24 r.first ++ enc24 r.count ++ enc32 r.startTick ++ enc32 r.endTick ++
            enc8 r.outcome.code ++ enc24 r.next ++ counted r.counts ++ encOpt enc24 r.firstUncorrectable)
          s.survey.report ++
        encOpt
          (fun l => enc8 l.mode.code ++ enc24 l.first ++ enc24 l.count ++ enc32 l.startTick ++ enc24 l.next ++
            enc8 l.phase.code ++ counted l.counts)
          s.survey.live := by
  unfold surveyResults encAll
  rw [funext (surveyReport_bytes h), funext (liveSurvey_bytes h)]
  simp only [List.flatten_cons, List.flatten_nil, List.append_assoc, List.append_nil]

/-- Settles O41: the answers read the state that the event began in, and nothing but the port changes. -/
theorem identifyStatusReport : Obligations.IdentifyStatusReport := by
  intro s seq check f spares held counted hcounted hf hspares hheld
  have hcount : spareCount s = spares := by rw [spareCount_eq, hspares, hf]
  have hfence : fenceValue s = f := hf.symm
  refine ⟨fun htakes => ?_, fun htakes => ?_, fun htakes => ?_⟩
  · have hresults := identifyResults_eq s
    rw [hcount, hfence] at hresults
    rw [← hresults]
    exact exec_replied htakes (runCommand_identify seq [] _)
  · have hresults := statusResults_eq s
    rw [hcount, hfence, heldReason_eq hheld, freeCount, hcount, movingCount] at hresults
    rw [← hresults]
    exact exec_replied htakes (runCommand_status seq [] _)
  · have hbytes : ∀ c : SurveyCounts, c.bytes = counted c := fun c => (surveyCounts_bytes c).trans (hcounted c).symm
    rw [← surveyResults_eq hbytes s]
    exact exec_replied htakes (runCommand_surveyReport seq [] _)

/-! ### POLICY_READ (O47) -/

/-- Settles O47: the set the argument names is answered packed. -/
theorem policyReadAnswers : Obligations.PolicyReadAnswers := by
  intro s seq set check p htakes
  have hrun := runCommand_policyRead seq [set] (nextEvent s)
  unfold runPolicyRead at hrun
  rw [List.getD_cons_zero] at hrun
  refine ⟨?_, fun h0 h1 => ?_⟩
  · rintro (⟨rfl, rfl⟩ | ⟨rfl, rfl⟩)
    · exact exec_replied htakes hrun
    · exact exec_replied htakes hrun
  · rw [if_neg h0, if_neg h1] at hrun
    exact exec_replied htakes hrun

/-! ### LOOKUP_LINE and LIST_READ (O42) -/

theorem lookupResults_eq (s : State) (hla : Nat) :
    lookupResults s hla =
      encOpt RemapEntry.bytes (entryOf s hla) ++ encBool (isPending s hla) ++
        encOpt (fun w => enc8 w.count) (s.reloc.watch.find? (·.hla == hla)) ++
        encBool (s.buf.entries.any (·.hla == hla)) ++ encBool (decide (s.map.fence.getD 0 ≤ hla)) ++
        encOpt (fun x => enc8 x.code) (spareStateOf s hla) := by
  simp only [lookupResults, encAll, List.flatten_cons, List.flatten_nil, List.append_assoc, List.append_nil]
  rfl

/-- What LIST_READ answers when it finds an item (R113). -/
theorem runListRead_found {s : State} {list index : Byte} {bytes : List Byte} (hshown : tablesShown s = true)
    (hitem : listItem s list index = some (some bytes)) (seq : Byte) :
    runListRead seq list index s = completeCommand seq .ok bytes s := by
  unfold runListRead
  simp only [hitem, hshown, Bool.not_true, Bool.false_eq_true, if_false]

/-- What LIST_READ answers past the end of its list (R113). -/
theorem runListRead_past {s : State} {list index : Byte} (hshown : tablesShown s = true)
    (hitem : listItem s list index = some none) (seq : Byte) :
    runListRead seq list index s = completeCommand seq .empty [] s := by
  unfold runListRead
  simp only [hitem, hshown, Bool.not_true, Bool.false_eq_true, if_false]

theorem listItem_pending (s : State) (index : Byte) :
    listItem s 0 index = some (s.reloc.pendingList[index.toNat]?.map PendingEntry.bytes) := rfl

theorem listItem_watch (s : State) (index : Byte) :
    listItem s 1 index = some (s.reloc.watch[index.toNat]?.map WatchEntry.bytes) := rfl

/-- Settles O42: the checks in their order, then the answer. -/
theorem lineAndListQueries : Obligations.LineAndListQueries := by
  intro s seq hla list index check shown hshown
  have hshows : tablesShown (nextEvent s) = true ↔ shown := (tablesShown_iff s).trans hshown.symm
  refine ⟨fun htakes => ?_, fun htakes => ?_⟩
  · have hrun := runCommand_lookup seq (arg24 hla) (nextEvent s)
    rw [argLine_one] at hrun
    unfold runLookup at hrun
    refine ⟨fun hhidden => ?_, fun hvisible hbeyond => ?_, fun hvisible hinside => ?_⟩
    · rw [Bool.eq_false_iff.mpr (fun h => hhidden (hshows.mp h))] at hrun
      exact exec_replied htakes hrun
    · rw [hshows.mpr hvisible, if_neg (by simp), if_pos (show reserveEnd (nextEvent s) ≤ hla.toNat from hbeyond)] at hrun
      exact exec_replied htakes hrun
    · rw [hshows.mpr hvisible, if_neg (by simp),
        if_neg (show ¬ reserveEnd (nextEvent s) ≤ hla.toNat from Nat.not_le.mpr hinside), lookupResults_eq] at hrun
      exact exec_replied htakes hrun
  · have hrun := runCommand_listRead seq [list, index] (nextEvent s)
    rw [List.getD_cons_zero, List.getD_cons_succ, List.getD_cons_zero] at hrun
    refine ⟨fun h0 h1 => ?_, fun hlist hhidden => ?_, fun hvisible hlist p hp => ?_, fun hvisible hlist w hw => ?_,
      fun hvisible hpast => ?_⟩
    · rw [runListRead, listItem, if_neg h0, if_neg h1] at hrun
      exact exec_replied htakes hrun
    · have hhide : tablesShown (nextEvent s) = false := Bool.eq_false_iff.mpr (fun h => hhidden (hshows.mp h))
      rw [runListRead] at hrun
      rcases hlist with rfl | rfl
      · rw [listItem_pending] at hrun
        dsimp only at hrun
        rw [hhide] at hrun
        exact exec_replied htakes hrun
      · rw [listItem_watch] at hrun
        dsimp only at hrun
        rw [hhide] at hrun
        exact exec_replied htakes hrun
    · subst hlist
      have hitem := listItem_pending (nextEvent s) index
      rw [show (nextEvent s).reloc = s.reloc from rfl, hp] at hitem
      exact exec_replied htakes (hrun.trans (runListRead_found (hshows.mpr hvisible) hitem seq))
    · subst hlist
      have hitem := listItem_watch (nextEvent s) index
      rw [show (nextEvent s).reloc = s.reloc from rfl, hw] at hitem
      exact exec_replied htakes (hrun.trans (runListRead_found (hshows.mpr hvisible) hitem seq))
    · have hitem : listItem (nextEvent s) list index = some none := by
        rcases hpast with ⟨rfl, hlen⟩ | ⟨rfl, hlen⟩
        · rw [listItem_pending, List.getElem?_eq_none (by exact hlen), Option.map_none]
        · rw [listItem_watch, List.getElem?_eq_none (by exact hlen), Option.map_none]
      exact exec_replied htakes (hrun.trans (runListRead_past (hshows.mpr hvisible) hitem seq))

end Sys2Proof.Machine
end

section
/-! The cursors, the alert words and the staged policy (O43, O44, O46, O48). The idea: the table is ordered by home and the log by
sequence, so what a cursor finds is the one entry or record that the statement names; a policy set is taken whole or not at all. -/

namespace Sys2Proof.Machine

-- One theorem after another, as in the laws (see `Quiet`): the memory of the check does not hold all their threads at once.
set_option Elab.async false

/-! ### The map cursor (O43; R16, R17) -/

/-- In a table by rising home, the first entry at or above the cursor is the lowest there is. -/
theorem find_lowest_home {table : List RemapEntry} (hsorted : (table.map (·.home)).Pairwise (· < ·)) {cursor : Nat} {e : RemapEntry}
    (he : e ∈ table) (hcursor : cursor ≤ e.home) (hlowest : ∀ x ∈ table, cursor ≤ x.home → e.home ≤ x.home) :
    (table.find? fun x => decide (cursor ≤ x.home)) = some e := by
  induction table with
  | nil => cases he
  | cons x xs ih =>
    rw [List.map_cons, List.pairwise_cons] at hsorted
    obtain ⟨hx, hxs⟩ := hsorted
    rw [List.find?_cons]
    rcases List.mem_cons.mp he with rfl | hmem
    · rw [decide_eq_true hcursor]
    · have hlt : x.home < e.home := hx _ (List.mem_map_of_mem hmem)
      have hbelow : ¬ cursor ≤ x.home := fun h =>
        Nat.not_lt.mpr (hlowest x List.mem_cons_self h) hlt
      rw [decide_eq_false hbelow]
      exact ih hxs hmem fun y hy => hlowest y (List.mem_cons_of_mem _ hy)

theorem remapEntry_bytes (e : RemapEntry) :
    e.bytes =
      enc24 e.home ++ encOpt enc24 e.spare ++ encOpt enc24 e.target ++ [if e.target.isSome then 0 else 1] ++
        encOpt (fun c => enc8 c.code) e.cause ++ encOpt enc32 e.boundTick := by
  have hstate : enc8 (if e.target.isSome then 0 else 1) = [if e.target.isSome then (0 : Byte) else 1] := by
    cases e.target <;> rfl
  simp only [RemapEntry.bytes, encAll, List.flatten_cons, List.flatten_nil, List.append_assoc, List.append_nil, hstate]

theorem runMapNext_hidden {s : State} (h : tablesShown s = false) (seq : Byte) :
    runMapNext seq s = completeCommand seq .state [] s := by
  unfold runMapNext
  rw [h]
  rfl

theorem runMapNext_found {s : State} (h : tablesShown s = true) {e : RemapEntry} (he : entryAtCursor s = some e) (seq : Byte) :
    runMapNext seq s = completeCommand seq .ok e.bytes (s.setMap { s.map with cursor := e.home + 1 }) := by
  unfold runMapNext
  simp only [h, he, Bool.not_true, Bool.false_eq_true, if_false]

theorem runMapNext_past {s : State} (h : tablesShown s = true) (he : entryAtCursor s = none) (seq : Byte) :
    runMapNext seq s = completeCommand seq .empty [] s := by
  unfold runMapNext
  simp only [h, he, Bool.not_true, Bool.false_eq_true, if_false]

/-- Settles O43: the walk finds the lowest home at or above the cursor because the table is in order (O10). -/
theorem mapCursorWalks : Obligations.MapCursorWalks := by
  intro s seq hla check
  refine ⟨fun htakes => ?_, fun htakes => ⟨fun hnotRunning hnotQuiescing => ?_, fun hop hlaw => ⟨fun hpast => ?_,
    fun e he hcursor hlowest => ?_⟩⟩⟩
  · have hrun := runCommand_mapSeek seq (arg24 hla) (nextEvent s)
    rw [argLine_one] at hrun
    exact exec_replied htakes hrun
  · have hhidden : tablesShown (nextEvent s) = false := by
      rw [Bool.eq_false_iff, Ne, tablesShown_iff, not_or]
      exact ⟨hnotRunning, hnotQuiescing⟩
    exact exec_replied htakes ((runCommand_mapNext seq [] _).trans (runMapNext_hidden hhidden seq))
  · have hnone : entryAtCursor (nextEvent s) = none := by
      refine List.find?_eq_none.mpr fun e he => ?_
      exact fun h => Nat.not_le.mpr (hpast e he) (of_decide_eq_true h)
    exact exec_replied htakes
      ((runCommand_mapNext seq [] _).trans (runMapNext_past (s := nextEvent s) ((tablesShown_iff _).mpr hop) hnone seq))
  · have hfound : entryAtCursor (nextEvent s) = some e := find_lowest_home hlaw.1 he hcursor hlowest
    rw [← remapEntry_bytes]
    exact exec_replied htakes
      ((runCommand_mapNext seq [] _).trans (runMapNext_found (s := nextEvent s) ((tablesShown_iff _).mpr hop) hfound seq))

/-! ### The fault cursor (O44; R157 to R161) -/

theorem traceItem_bytes :
    TraceItem.bytes = fun i => enc8 i.kind.code ++ enc8 i.tag.toNat ++ encOpt enc24 i.hla ++ enc32 i.tick := by
  funext i
  simp only [TraceItem.bytes, encAll, List.flatten_cons, List.flatten_nil, List.append_assoc, List.append_nil]

theorem faultRecord_bytes (r : FaultRecord) :
    r.bytes =
      enc32 r.seq ++ enc8 r.kind.code ++ enc32 r.tick ++ encOpt enc24 r.hla ++ encOpt enc24 r.ala ++ encOpt enc8 r.step ++
        enc8 r.trace.length ++
        r.trace.flatMap fun i => enc8 i.kind.code ++ enc8 i.tag.toNat ++ encOpt enc24 i.hla ++ enc32 i.tick := by
  unfold FaultRecord.bytes
  rw [traceItem_bytes]
  simp only [encAll, List.flatten_cons, List.flatten_nil, List.append_assoc, List.append_nil]

theorem runFaultNext_found {s : State} {r : FaultRecord} (h : recordAtCursor s = some r) (seq : Byte) :
    runFaultNext seq s = completeCommand seq .ok r.bytes (s.setLog { s.log with cursor := r.seq + 1 }) := by
  unfold runFaultNext
  simp only [h]

theorem runFaultNext_end {s : State} (h : recordAtCursor s = none) (seq : Byte) :
    runFaultNext seq s = completeCommand seq .empty [] s := by
  unfold runFaultNext
  simp only [h]

/-- The records held have distinct sequences, and none has the next one (R155). -/
theorem records_distinct {l : FaultLog} (h : logLaw l = true) : (l.records.map (·.seq)).Nodup ∧ l.next ∉ l.records.map (·.seq) := by
  obtain ⟨hlength, hseqs, -, -⟩ := (logLaw_iff l).mp h
  rw [hseqs]
  exact sequencesBefore_nodup _ _ hlength

/-- Settles O44: the record the cursor names is the one of its sequence, because the sequences are consecutive (O6). -/
theorem faultLogCommands : Obligations.FaultLogCommands := by
  intro s seq check hlaw
  obtain ⟨hnodup, hnext⟩ := records_distinct hlaw
  refine ⟨fun htakes => ⟨fun r hr hcursor => ?_, fun hcursor => ?_⟩, fun htakes => ⟨fun hempty => ?_,
    fun oldest others hrecords => ?_⟩, fun htakes hopen => ?_⟩
  · have hfound : recordAtCursor (nextEvent s) = some r := find_record hnodup hr hcursor
    have hrun := (runCommand_faultNext seq [] _).trans (runFaultNext_found hfound seq)
    rw [hcursor, faultRecord_bytes] at hrun
    exact exec_replied htakes hrun
  · have hnone : recordAtCursor (nextEvent s) = none := by
      refine List.find?_eq_none.mpr fun r hr => ?_
      have hne : r.seq ≠ s.log.cursor := fun h => hnext (hcursor ▸ h ▸ List.mem_map_of_mem hr)
      exact fun h => hne (beq_iff_eq.mp h)
    exact exec_replied htakes ((runCommand_faultNext seq [] _).trans (runFaultNext_end hnone seq))
  · have hrun := runCommand_faultRewind seq [] (nextEvent s)
    unfold runFaultRewind oldestSeq at hrun
    rw [show (nextEvent s).log = s.log from rfl, hempty] at hrun
    rw [← hempty] at hrun
    exact exec_replied htakes (hrun.trans (by rw [hempty]; rfl))
  · have hrun := runCommand_faultRewind seq [] (nextEvent s)
    unfold runFaultRewind oldestSeq at hrun
    have hold : (nextEvent s).log.records = oldest :: others := hrecords
    rw [hold] at hrun
    exact exec_replied htakes hrun
  · exact exec_replied htakes (runCommand_faultClear seq [] (nextEvent s) hopen)

/-! ### The alert words (O46; R163, R164) -/

/-- The level causes are SPARES_LOW, bit 0, and PENDING_HIGH, bit 2 (R162). -/
theorem levelCauses_bit : ∀ i, i < 10 → levelCauses.getLsbD i = (i == 0 || i == 2) := by decide

/-- Settles O46: both commands are read bit by bit. -/
theorem alertAckAndMask : Obligations.AlertAckAndMask := by
  intro s seq set check after
  have htwo : ∀ v : BitVec 16, bigEndian 16 ((enc16 v.toNat).take 2) = v := fun v => by
    rw [List.take_of_length_le (Nat.le_of_eq (enc16_length _)), bigEndian16_enc16]
  refine ⟨fun htakes hafter => ?_, fun htakes hafter => ?_⟩
  · have hcauses : s.alert.causes &&& ~~~(namedCauses set &&& ~~~levelCauses) = after := by
      refine BitVec.eq_of_getLsbD_eq fun i hi => ?_
      rw [hafter i hi]
      simp only [namedCauses, BitVec.getLsbD_and, BitVec.getLsbD_not, BitVec.getLsbD_setWidth, hi, decide_true, Bool.true_and,
        levelCauses_bit i hi, Bool.not_or, bne, Bool.and_assoc]
    have hrun := runCommand_alertAck seq (enc16 set.toNat) (nextEvent s)
    unfold runAlertAck at hrun
    rw [htwo, show (nextEvent s).alert = s.alert from rfl, hcauses] at hrun
    exact exec_replied htakes hrun
  · have hmask : namedCauses set = after := by
      refine BitVec.eq_of_getLsbD_eq fun i hi => ?_
      rw [hafter i hi]
      simp only [namedCauses, BitVec.getLsbD_setWidth, hi, decide_true, Bool.true_and]
    have hrun := runCommand_alertMask seq (enc16 set.toNat) (nextEvent s)
    unfold runAlertMask at hrun
    rw [htwo, hmask] at hrun
    exact exec_replied htakes hrun

/-! ### POLICY_STAGE (O48; R180, R181) -/

theorem byteOf_byte (b : Byte) : byteOf b.toNat 0 = b := by
  simp [byteOf]

/-- The seven bytes of a staged set, read as R180's values. -/
theorem unpackPolicy_args (retryDepth watchLimit : Byte) (spareLow : BitVec 16) (pendingHigh posting surveyGap : Byte) :
    unpackPolicy ([retryDepth, watchLimit] ++ enc16 spareLow.toNat ++ [pendingHigh, posting, surveyGap]) =
      policyOf retryDepth.toNat watchLimit.toNat spareLow.toNat pendingHigh.toNat posting.toNat surveyGap.toNat := by
  have h := bytes16_toNat spareLow
  show policyOf _ _ ((byteOf spareLow.toNat 1).toNat * 256 + (byteOf spareLow.toNat 0).toNat) _ _ _ = _
  rw [h]
  rfl

/-- The first value out of its range is the one refused (R180). -/
theorem policyOf_error {retryDepth watchLimit spareLow pendingHigh posting surveyGap : Nat} {field : PolicyField}
    (h : (4 < retryDepth ∧ field = .retryDepth) ∨
      (retryDepth ≤ 4 ∧ (watchLimit < 1 ∨ 15 < watchLimit) ∧ field = .watchLimit) ∨
      (retryDepth ≤ 4 ∧ 1 ≤ watchLimit ∧ watchLimit ≤ 15 ∧ 1024 < spareLow ∧ field = .spareLow) ∨
      (retryDepth ≤ 4 ∧ 1 ≤ watchLimit ∧ watchLimit ≤ 15 ∧ spareLow ≤ 1024 ∧ (pendingHigh < 1 ∨ 32 < pendingHigh) ∧
        field = .pendingHigh) ∨
      (retryDepth ≤ 4 ∧ 1 ≤ watchLimit ∧ watchLimit ≤ 15 ∧ spareLow ≤ 1024 ∧ 1 ≤ pendingHigh ∧ pendingHigh ≤ 32 ∧
        1 < posting ∧ field = .posting)) :
    policyOf retryDepth watchLimit spareLow pendingHigh posting surveyGap = .error field := by
  unfold policyOf
  simp only [Bool.or_eq_true, decide_eq_true_eq]
  rcases h with ⟨hd, rfl⟩ | ⟨hd, hw, rfl⟩ | ⟨hd, hw1, hw2, hl, rfl⟩ | ⟨hd, hw1, hw2, hl, hp, rfl⟩ |
    ⟨hd, hw1, hw2, hl, hp1, hp2, hq, rfl⟩
  · rw [if_pos hd]
  · rw [if_neg (by omega), if_pos hw]
  · rw [if_neg (by omega), if_neg (by omega), if_pos hl]
  · rw [if_neg (by omega), if_neg (by omega), if_neg (by omega), if_pos hp]
  · rw [if_neg (by omega), if_neg (by omega), if_neg (by omega), if_neg (by omega), if_pos hq]

theorem policyOf_ok {retryDepth watchLimit spareLow pendingHigh posting surveyGap : Nat} (hd : retryDepth ≤ 4)
    (hw1 : 1 ≤ watchLimit) (hw2 : watchLimit ≤ 15) (hl : spareLow ≤ 1024) (hp1 : 1 ≤ pendingHigh) (hp2 : pendingHigh ≤ 32)
    (hq : posting ≤ 1) (hg : surveyGap ≤ 255) :
    policyOf retryDepth watchLimit spareLow pendingHigh posting surveyGap =
      .ok { retryDepth, watchLimit, spareLow, pendingHigh, posting := posting == 1, surveyGap } := by
  unfold policyOf
  simp only [Bool.or_eq_true, decide_eq_true_eq]
  rw [if_neg (by omega), if_neg (by omega), if_neg (by omega), if_neg (by omega), if_neg (by omega), if_neg (by omega)]

/-- A byte that says yes or no is sent as it came. -/
theorem encBool_byte {b : Byte} (h : b.toNat ≤ 1) : encBool (b == 1) = [b] ∧ (b.toNat == 1) = (b == 1) := by
  have hb : b = 0 ∨ b = 1 := by
    rcases Nat.le_one_iff_eq_zero_or_eq_one.mp h with h0 | h1
    · exact .inl (BitVec.eq_of_toNat_eq h0)
    · exact .inr (BitVec.eq_of_toNat_eq h1)
  rcases hb with rfl | rfl <;> exact ⟨rfl, rfl⟩

theorem runPolicyStage_error {s : State} (hop : s.start.op = .running) {packed : List Byte} {field : PolicyField}
    (h : unpackPolicy packed = .error field) (seq : Byte) :
    runPolicyStage seq packed s = completeCommand seq .range [Config.fieldCode field] s := by
  unfold runPolicyStage
  rw [if_neg (not_not_intro hop)]
  simp only [h]

theorem runPolicyStage_ok {s : State} (hop : s.start.op = .running) {packed : List Byte} {set : PolicySet}
    (h : unpackPolicy packed = .ok set) (seq : Byte) :
    runPolicyStage seq packed s = completeCommand seq .ok set.pack (s.setPolicy { s.policy with staged := set }) := by
  unfold runPolicyStage
  rw [if_neg (not_not_intro hop)]
  simp only [h]

/-- Settles O48: the first field out of range ends the checks of R180. -/
theorem policyStageWrites : Obligations.PolicyStageWrites := by
  intro s seq retryDepth watchLimit spareLow pendingHigh posting surveyGap check args hargs htakes
  have hunpack := unpackPolicy_args retryDepth watchLimit spareLow pendingHigh posting surveyGap
  rw [← hargs] at hunpack
  have hlength : args.length = 7 := by rw [hargs]; rfl
  have hexec : exec (.policyStage seq retryDepth watchLimit spareLow pendingHigh posting surveyGap check) s =
      .next (receiveFrame seq 36 args check s) := by rw [hargs]; rfl
  have hstage := runCommand_policyStage seq args (nextEvent s)
  have hallowed : argLengthAllowed 36 args.length = true := by rw [hlength]; rfl
  refine ⟨fun hop => ?_, fun hop => ⟨fun field hfield => ?_, fun hd hw1 hw2 hl hp1 hp2 hq => ?_⟩⟩
  · unfold runPolicyStage at hstage
    rw [if_pos (show (nextEvent s).start.op ≠ .running from hop)] at hstage
    exact exec_replied htakes hstage hexec rfl (Nat.le_of_eq hlength) hallowed
  · have herror := hunpack.trans (policyOf_error hfield)
    exact exec_replied htakes (hstage.trans (runPolicyStage_error (s := nextEvent s) hop herror seq)) hexec rfl (Nat.le_of_eq hlength) hallowed
  · have hok := hunpack.trans (policyOf_ok hd hw1 hw2 hl hp1 hp2 hq (Nat.le_of_lt_succ surveyGap.isLt))
    obtain ⟨hposting, hone⟩ := encBool_byte hq
    rw [hone] at hok
    have hrun := hstage.trans (runPolicyStage_ok (s := nextEvent s) hop hok seq)
    have hpack : (PolicySet.mk retryDepth.toNat watchLimit.toNat spareLow.toNat pendingHigh.toNat (posting == 1)
        surveyGap.toNat).pack = args := by
      rw [hargs]
      simp only [PolicySet.pack, enc8, byteOf_byte, hposting, List.cons_append, List.nil_append, List.append_assoc]
    rw [hpack] at hrun
    exact exec_replied htakes hrun hexec rfl (Nat.le_of_eq hlength) hallowed

end Sys2Proof.Machine
end

section
/-! The bytes of the Service Link and the checks of a frame (O38, O39). The idea: what one byte does is `byteArrival` by the receiver's
state; a whole frame comes to the taking of that frame (`receiveFrame_whole`), and that is the checks of R168 in their order. -/

namespace Sys2Proof.Machine

-- One theorem after another, as in the laws (see `Quiet`): the memory of the check does not hold all their threads at once.
set_option Elab.async false

/-! ### One byte (O38) -/

theorem byteArrival_sending {s : State} (h : s.port.sending.isSome = true) (b : Byte) : byteArrival b s = s := by
  unfold byteArrival
  rw [if_pos h]

theorem byteArrival_hunting {s : State} (hs : s.port.sending = none) (hr : s.port.receiver = .hunting) (b : Byte) :
    byteArrival b s = if b = 165 then setReceiver (.receiving []) s else s := by
  unfold byteArrival
  simp only [hs, hr, Option.isSome_none, Bool.false_eq_true, if_false, Config.startMarker]
  rfl

theorem byteArrival_receiving {s : State} {got : List Byte} (hs : s.port.sending = none) (hr : s.port.receiver = .receiving got)
    (b : Byte) : byteArrival b s = collect got b s := by
  unfold byteArrival
  simp only [hs, hr, Option.isSome_none, Bool.false_eq_true, if_false]

theorem lengthAllowed_iff (b : Byte) : lengthAllowed b = true ↔ 4 ≤ b.toNat ∧ b.toNat ≤ 11 := by
  simp [lengthAllowed]

/-- A byte that does not complete its frame is collected (R167). -/
theorem collect_inside {n : Byte} {got : List Byte} (h : got.length + 1 < n.toNat) (b : Byte) (s : State) :
    collect (n :: got) b s = setReceiver (.receiving (n :: got ++ [b])) s := by
  unfold collect
  exact if_pos (by simp only [List.length_append, List.length_cons, List.length_nil]; omega)

/-- The byte that completes its frame leads to the taking of the frame (R167). -/
theorem collect_last {n : Byte} {got : List Byte} (h : got.length + 1 = n.toNat) (b : Byte) (s : State) :
    collect (n :: got) b s = beginTransmit (takeFrame (n :: got ++ [b]) (setReceiver .hunting s)) := by
  unfold collect
  exact if_neg (by simp only [List.length_append, List.length_cons, List.length_nil]; omega)

/-- With the transmitter idle and the receiver HUNTING, the oldest waiting response begins, if there is one (R171). -/
theorem beginTransmit_head {s : State} (hs : s.port.sending = none) (hr : s.port.receiver = .hunting) :
    beginTransmit s =
      s.setPort { s.port with sending := s.port.waiting.head?, waiting := s.port.waiting.drop 1 } := by
  obtain ⟨host, map, array, buf, reloc, jour, start, survey, log, alert, port, guard, policy, tick, out, ids, pending⟩ := s
  obtain ⟨receiver, sending, waiting, command, stored⟩ := port
  subst hs hr
  cases waiting <;> rfl

/-- The bytes of a command frame from its length byte on come to the taking of that frame. -/
theorem receiveFrame_taken {s : State} (hs : s.port.sending = none) (hr : s.port.receiver = .hunting) (seq code : Byte)
    {args : List Byte} (check : BitVec 16) (ha : args.length ≤ 7) :
    receiveFrame seq code args check s =
      beginTransmit (takeFrame (BitVec.ofNat 8 (args.length + 4) :: seq :: code :: args ++ enc16 check.toNat) s) := by
  have hlen := frame_length ha
  refine receive_whole hs hr ((lengthAllowed_iff _).mpr ?_) ?_
  · show 4 ≤ (BitVec.ofNat 8 (args.length + 4) : Byte).toNat ∧ _
    rw [show (BitVec.ofNat 8 ((seq :: code :: args).length + 2) : Byte).toNat = args.length + 4 from hlen]
    omega
  · rw [show (BitVec.ofNat 8 ((seq :: code :: args).length + 2) : Byte).toNat = args.length + 4 from hlen]
    simp [enc16_length]

/-- The last byte of a frame is the taking of the whole frame (R167, R168). -/
theorem byteArrival_lastByte {s : State} {seq code b : Byte} {args got : List Byte} {check : BitVec 16} (ha : args.length ≤ 7)
    (hs : s.port.sending = none) (hr : s.port.receiver = .receiving got)
    (hgot : got ++ [b] = BitVec.ofNat 8 (args.length + 4) :: seq :: code :: args ++ enc16 check.toNat) :
    byteArrival b s = receiveFrame seq code args check (s.setPort { s.port with receiver := .hunting }) := by
  rw [byteArrival_receiving hs hr,
    receiveFrame_taken (s := s.setPort { s.port with receiver := .hunting }) hs rfl seq code check ha, ← hgot]
  cases got with
  | nil => cases hgot
  | cons n rest =>
    have hn : n = BitVec.ofNat 8 (args.length + 4) := (List.cons.inj hgot).1
    have hlength : rest.length + 1 = args.length + 4 := by
      have := congrArg List.length hgot
      simp only [List.length_append, List.length_cons, List.length_nil, enc16_length] at this
      omega
    exact collect_last (by rw [hn, frame_length ha, hlength]) b s

/-- Settles O38: each byte by what the receiver is doing. -/
theorem serviceLinkBytes : Obligations.ServiceLinkBytes := by
  refine ⟨fun s b => ⟨fun hs => congrArg Host.Outcome.next (byteArrival_sending hs b), fun hs => ⟨fun hr hb => ?_, fun hr hb => ?_,
    fun hr hmin hmax => ?_, fun hr hout hw => ?_, fun n got hr hlen => ?_⟩⟩, fun s => ⟨fun hr => ?_, fun bytes hr hs => ?_,
    fun hs => ?_, fun r hs hr => ?_⟩, fun s seq code b args got check ha hs hr hgot =>
      congrArg Host.Outcome.next (byteArrival_lastByte ha hs hr hgot)⟩
  · exact congrArg Host.Outcome.next ((byteArrival_hunting hs hr b).trans (if_pos hb))
  · exact congrArg Host.Outcome.next ((byteArrival_hunting hs hr b).trans (if_neg hb))
  · refine congrArg Host.Outcome.next ((byteArrival_receiving hs hr b).trans ?_)
    exact if_pos ((lengthAllowed_iff b).mpr ⟨hmin, hmax⟩)
  · refine congrArg Host.Outcome.next ((byteArrival_receiving hs hr b).trans ((if_neg ?_).trans (beginTransmit_empty hw)))
    rw [lengthAllowed_iff]
    omega
  · exact congrArg Host.Outcome.next ((byteArrival_receiving hs hr b).trans (collect_inside hlen b s))
  · show Host.Outcome.next (frameTimeout s) = _
    unfold frameTimeout
    rw [hr]
  · show Host.Outcome.next (frameTimeout s) = _
    unfold frameTimeout
    rw [hr]
    exact congrArg Host.Outcome.next (beginTransmit_head (s := setReceiver .hunting s) hs rfl)
  · show Host.Outcome.next (transmitEnd s) = _
    unfold transmitEnd
    rw [hs]
  · show Host.Outcome.next (transmitEnd s) = _
    unfold transmitEnd
    rw [hs]
    exact congrArg Host.Outcome.next (beginTransmit_head rfl hr)

/-! ### The checks of a frame (O39) -/

theorem argLengthAllowed_iff (code : Byte) (n : Nat) :
    argLengthAllowed code n = true ↔ ∀ lengths, argLengths code = some lengths → n ∈ lengths := by
  unfold argLengthAllowed
  cases argLengths code with
  | none => simp
  | some lengths => simp

/-- A frame whose check and argument length pass is handed to the port (R168, checks 3 to 7). -/
theorem receiveFrame_passed {s : State} {seq code : Byte} {args : List Byte} {check : BitVec 16} (ha : args.length ≤ 7)
    (hs : s.port.sending = none) (hr : s.port.receiver = .hunting) (hcheck : check = commandCheck seq code args)
    (hlengths : ∀ lengths, argLengths code = some lengths → args.length ∈ lengths) :
    receiveFrame seq code args check s = beginTransmit (takeCommand seq code args s) := by
  rw [receiveFrame_whole hs hr seq code check ha, if_neg (not_not_intro hcheck.symm),
    (argLengthAllowed_iff code _).mpr hlengths]
  rfl

/-- A code outside the catalogue is no code of R192, so it is no guarded one either. -/
theorem runCommand_unknown {code : Byte} (h : argLengths code = none) (seq : Byte) (args : List Byte) (s : State) :
    runCommand seq code args s = completeCommand seq .unknown [] s := by
  have hcode : ∀ n ∈ [1, 2, 3, 4, 5, 6, 7, 8, 9, 10, 11, 32, 33, 34, 35, 36, 37, 64, 65, 66, 67, 68, 69, 96, 97, 98],
      code.toNat ≠ n := by
    intro n hn heq
    have hb : code = BitVec.ofNat 8 n := by
      rw [← heq]
      exact (BitVec.ofNat_toNat 8 code ▸ BitVec.setWidth_eq code).symm
    have hall : ∀ m ∈ [1, 2, 3, 4, 5, 6, 7, 8, 9, 10, 11, 32, 33, 34, 35, 36, 37, 64, 65, 66, 67, 68, 69, 96, 97, 98],
        argLengths (BitVec.ofNat 8 m) ≠ none := by decide
    exact hall n hn (hb ▸ h)
  rw [runCommand_byCode (.inl ?_)]
  · unfold runByCode
    split
    case h_27 => rfl
    all_goals next hn => exact absurd hn (hcode _ (by decide))
  · have h64 := hcode 64 (by decide)
    have h65 := hcode 65 (by decide)
    have h66 := hcode 66 (by decide)
    have h67 := hcode 67 (by decide)
    have h68 := hcode 68 (by decide)
    have h69 := hcode 69 (by decide)
    unfold isGuarded
    simp only [Bool.and_eq_false_iff, decide_eq_false_iff_not]
    omega

theorem runCommand_refused {s : State} {code : Byte} (hlow : 64 ≤ code.toNat) (hhigh : code.toNat ≤ 69) (hguard : s.guard.state ≠ .open)
    (seq : Byte) (args : List Byte) : runCommand seq code args s = completeCommand seq .refusedGuard [] s := by
  unfold runCommand
  refine if_pos ⟨?_, hguard⟩
  simp [isGuarded, hlow, hhigh]

/-- A response made ready while the port is idle is transmitted, and then nothing waits. -/
theorem transmits_ready {s : State} (hs : s.port.sending = none) (hr : s.port.receiver = .hunting) (hw : s.port.waiting = [])
    (r : Response) : beginTransmit (readyResponse r s) = s.setPort { s.port with sending := some r } := by
  rw [readyResponse_idle hs hr hw]
  exact beginTransmit_sending rfl

theorem takeCommand_inProgress {s : State} {c : InProgress} (hc : s.port.command = some c) (seq code : Byte) (args : List Byte) :
    takeCommand seq code args s =
      if c.seq = seq then s else readyResponse { seq, status := .busy, results := [c.command.code] } s := by
  unfold takeCommand
  simp only [hc]

theorem takeCommand_repeated {s : State} {r : Response} (hc : s.port.command = none) (hstored : s.port.stored = some r) {seq : Byte}
    (h : r.seq = seq) (code : Byte) (args : List Byte) : takeCommand seq code args s = readyResponse r s := by
  unfold takeCommand
  simp only [hc, hstored, if_pos h]

/-- Settles O39: the checks of R168, each with the ones before it passed. -/
theorem commandFramesChecked : Obligations.CommandFramesChecked := by
  refine ⟨fun s seq a b u v f set word p q r t check => ⟨rfl, rfl, rfl, rfl, rfl, rfl, rfl, rfl, rfl, rfl, rfl, rfl, rfl, rfl,
    rfl, rfl, rfl, rfl, rfl, rfl, rfl, rfl, rfl, rfl, rfl, rfl, rfl⟩, fun s seq code args check ha =>
    ⟨fun hs => receiveFrame_sending hs seq code args check, fun hs hr hw => ⟨fun hcheck => ?_, fun lengths hlengths hout => ?_,
      fun hcheck hlengths => ⟨fun c hc hseq => ?_, fun c hc hseq => ?_, fun r hc hstored hseq => ?_, fun hready =>
        ⟨fun hunknown => ?_, fun hlow hhigh hguard => ?_⟩⟩⟩⟩⟩
  · rw [receiveFrame_whole hs hr seq code check ha, if_pos (Ne.symm hcheck), beginTransmit_empty hw]
  · have hbad : argLengthAllowed code args.length = false := by
      rw [Bool.eq_false_iff, Ne, argLengthAllowed_iff]
      exact fun h => hout (h lengths hlengths)
    rw [receiveFrame_whole hs hr seq code check ha, hbad]
    simp only [Bool.not_false, if_true, ite_self]
    exact beginTransmit_empty hw
  · rw [receiveFrame_passed ha hs hr hcheck hlengths, takeCommand_inProgress hc, if_pos hseq, beginTransmit_empty hw]
  · rw [receiveFrame_passed ha hs hr hcheck hlengths, takeCommand_inProgress hc, if_neg hseq, transmits_ready hs hr hw]
  · rw [receiveFrame_passed ha hs hr hcheck hlengths, takeCommand_repeated hc hstored hseq, transmits_ready hs hr hw]
  · have htakes : portTakes s seq code args check = true := by simp [portTakes, hready, hcheck]
    exact exec_replied htakes (runCommand_unknown hunknown seq args _) rfl rfl ha
      ((argLengthAllowed_iff code _).mpr hlengths)
  · have htakes : portTakes s seq code args check = true := by simp [portTakes, hready, hcheck]
    exact receiveFrame_answers htakes ha ((argLengthAllowed_iff code _).mpr hlengths)
      (runCommand_refused (s := nextEvent s) hlow hhigh hguard seq args) rfl

end Sys2Proof.Machine
end

section
/-! SURVEY_START and SURVEY_STOP (O49). The idea: each runs as one event, so once the answer and the state it leaves are known the rest
of the event is the level causes (`exec_runs_calm`); what is shown here is which check ends a start, and that an accepted one reads its
first line. -/

namespace Sys2Proof.Machine

-- One theorem after another, as in the laws (see `Quiet`): the memory of the check does not hold all their threads at once.
set_option Elab.async false

/-! ### Commands whose run is an event -/

/-- A command frame that the port takes and whose run is an event. -/
theorem exec_runs {c : Instr} {s t : State} {seq code : Byte} {args : List Byte} {check : BitVec 16}
    (htakes : portTakes s seq code args check = true) (hrun : runCommand seq code args (nextEvent s) = settle t)
    (hc : exec c s = .next (receiveFrame seq code args check s) := by rfl)
    (ha : args.length ≤ 7 := by simp [arg24, enc16, enc32]) (hl : argLengthAllowed code args.length = true := by rfl) :
    exec c s = .next (beginTransmit (settle t)) := by
  rw [hc, receiveFrame_runs htakes ha hl, hrun]

/-- The same for an event that leaves nothing to follow and no response waiting. -/
theorem exec_runs_calm {c : Instr} {s t : State} {seq code : Byte} {args : List Byte} {check : BitVec 16}
    (htakes : portTakes s seq code args check = true) (hrun : runCommand seq code args (nextEvent s) = settle t)
    (hcalm : calm t = true) (hwaiting : t.port.waiting = [])
    (hc : exec c s = .next (receiveFrame seq code args check s) := by rfl)
    (ha : args.length ≤ 7 := by simp [arg24, enc16, enc32]) (hl : argLengthAllowed code args.length = true := by rfl) :
    exec c s = .next (evalLevels t) := by
  rw [hc]
  exact next_runs_calm htakes ha hl hrun hcalm hwaiting

/-- A command that is answered in an event of its own, which leaves nothing to follow. -/
theorem exec_answers_calm {c : Instr} {s t u : State} {seq code : Byte} {args : List Byte} {check : BitVec 16} {status : Status}
    {results : List Byte} (htakes : portTakes s seq code args check = true)
    (hrun : runCommand seq code args (nextEvent s) = settle (completeCommand seq status results u))
    (ht : t = answered { seq, status, results } u) (hcalm : calm t = true) (hport : u.port = s.port := by rfl)
    (hc : exec c s = .next (receiveFrame seq code args check s) := by rfl)
    (ha : args.length ≤ 7 := by simp [arg24, enc16, enc32]) (hl : argLengthAllowed code args.length = true := by rfl) :
    exec c s = .next (evalLevels t) := by
  obtain ⟨-, -, hwaiting, -⟩ := portTakes_idle htakes
  rw [completeCommand_portTakes htakes _ _ _ hport, ← ht] at hrun
  refine exec_runs_calm htakes hrun hcalm ?_ hc ha hl
  rw [ht]
  exact (congrArg ServicePort.waiting hport).trans hwaiting

/-! ### SURVEY_START -/

/-- The check that ends a SURVEY_START (R140). -/
theorem surveyStartCheck_error {s : State} {mode : Byte} {first : Nat} {status : Status}
    (h : (s.start.op ≠ .running ∧ status = .state) ∨
      (s.start.op = .running ∧ s.survey.live ≠ none ∧ status = .state) ∨
      (s.start.op = .running ∧ s.survey.live = none ∧ mode ≠ 0 ∧ mode ≠ 1 ∧ status = .range) ∨
      (s.start.op = .running ∧ s.survey.live = none ∧ mode = 0 ∧ s.map.fence.getD 0 ≤ first ∧ status = .range)) :
    surveyStartCheck mode first s = .error status := by
  unfold surveyStartCheck
  rcases h with ⟨hop, rfl⟩ | ⟨hop, hlive, rfl⟩ | ⟨hop, hlive, h0, h1, rfl⟩ | ⟨hop, hlive, rfl, hfirst, rfl⟩
  · rw [if_pos hop]
  · rw [if_neg (not_not_intro hop), if_pos (Option.isSome_iff_ne_none.mpr hlive)]
  · have hmode : surveyModeOf mode = none := by
      unfold surveyModeOf
      rw [if_neg h0, if_neg h1]
    simp only [hop, hlive, hmode, Option.isSome_none, Bool.false_eq_true, if_false, not_true_eq_false, ne_eq]
  · have hmode : surveyModeOf 0 = some .span := rfl
    have hfence : fenceValue s ≤ first := hfirst
    simp only [hop, hlive, hmode, hfence, Option.isSome_none, Bool.false_eq_true, if_false, if_true, not_true_eq_false, ne_eq]

theorem surveyStartCheck_span {s : State} {first : Nat} (hop : s.start.op = .running) (hlive : s.survey.live = none)
    (hfirst : first < fenceValue s) : surveyStartCheck 0 first s = .ok .span := by
  unfold surveyStartCheck
  have hmode : surveyModeOf 0 = some .span := rfl
  have hfence : ¬ fenceValue s ≤ first := Nat.not_le.mpr hfirst
  simp only [hop, hlive, hmode, hfence, Option.isSome_none, Bool.false_eq_true, if_false, not_true_eq_false, ne_eq]

theorem surveyStartCheck_spares {s : State} (first : Nat) (hop : s.start.op = .running) (hlive : s.survey.live = none) :
    surveyStartCheck 1 first s = .ok .spares := by
  unfold surveyStartCheck
  have hmode : surveyModeOf 1 = some .spares := rfl
  simp only [hop, hlive, hmode, Option.isSome_none, Bool.false_eq_true, if_false, not_true_eq_false, ne_eq]

/-- A survey whose next line is not skipped reads it (R142). -/
theorem examine_reads {s : State} {l : LiveSurvey} (hlimit : l.next < l.limit) (hskips : skipsLine s l = false) :
    examine l s = placeSurveyRead l s := by
  unfold examine examineLines
  rw [if_neg (Nat.not_le.mpr hlimit), hskips]
  rfl

theorem skipsLine_span {s : State} {l : LiveSurvey} (hmode : l.mode = .span) (hpending : isPending s l.next = false)
    (hmoving : isMoving s l.next = false) (hentries : ∀ e ∈ s.buf.entries, e.hla ≠ l.next)
    (hdirect : ∀ e ∈ s.buf.direct, e.hla ≠ l.next) : skipsLine s l = false := by
  unfold skipsLine
  simp only [hmode, hpending, hmoving, Bool.false_or, Bool.or_eq_false_iff, List.any_eq_false, beq_iff_eq]
  exact ⟨hentries, hdirect⟩

theorem runSurveyStart_ok {s : State} {mode : Byte} {first : Nat} {m : SurveyMode} (h : surveyStartCheck mode first s = .ok m)
    (seq : Byte) (count : Nat) :
    runSurveyStart seq mode first count s =
      settle (completeCommand seq .ok
        (enc8 m.code ++ enc24 (fixSurvey s m first count).first ++ enc24 (fixSurvey s m first count).count)
        (examine (fixSurvey s m first count) s)) := by
  unfold runSurveyStart
  rw [h]

theorem runSurveyStart_error {s : State} {mode : Byte} {first : Nat} {status : Status}
    (h : surveyStartCheck mode first s = .error status) (seq : Byte) (count : Nat) :
    runSurveyStart seq mode first count s = completeCommand seq status [] s := by
  unfold runSurveyStart
  rw [h]

theorem runCommand_surveyStart_args (seq mode : Byte) (first count : Addr24) (s : State) :
    runCommand seq 32 (mode :: arg24 first ++ arg24 count) s = runSurveyStart seq mode first.toNat count.toNat s := by
  rw [runCommand_surveyStart, argLine_at1, argLine_at4]
  rfl

/-- The survey a SPAN start fixes (R141). -/
theorem fixSurvey_span (s : State) (first count limit : Nat)
    (hlimit : limit = if count = 0 then fenceValue s else min (first + count) (fenceValue s)) :
    fixSurvey s .span first count =
      { mode := .span, first, count := limit - first, start := first, limit, excluded := [], next := first, phase := .gap 0
        startTick := s.tick, counts := .zero, firstUncorrectable := none, endRequested := none } := by
  subst hlimit
  rfl

/-- The survey a SPARES start fixes in a reserve that is all FREE (R141). -/
theorem fixSurvey_spares {s : State} {f : Nat} (hfence : s.map.fence = some f) (hrange : s.map.range = none)
    (hmarks : s.map.marks = []) (hbelow : f < reserveEnd s) (first count : Nat) :
    fixSurvey s .spares first count =
      { mode := .spares, first := f, count := reserveEnd s - f, start := f, limit := reserveEnd s, excluded := [], next := f
        phase := .gap 0, startTick := s.tick, counts := .zero, firstUncorrectable := none, endRequested := none } := by
  have hfrom : sparesFrom s = f := by
    unfold sparesFrom
    rw [hfence, hrange]
  have hexcluded : excludedSpares s = [] := by
    unfold excludedSpares
    rw [hmarks]
    rfl
  have hnext : nextVisit [] (reserveEnd s) f = f := Nat.min_eq_right (Nat.le_of_lt hbelow)
  unfold fixSurvey
  simp only [hfrom, hexcluded, hnext, fenceValue, hfence, Option.getD_some, List.filter_nil, List.length_nil, Nat.sub_zero]

theorem spareStateOf_unmarked {s : State} {f : Nat} (hfence : s.map.fence = some f) (hmarks : s.map.marks = [])
    (hbuilt : s.map.poolBuilt = true) (hbelow : f < reserveEnd s) : spareStateOf s f = some .free := by
  unfold spareStateOf inReserve markOf
  simp [hfence, hmarks, hbuilt, hbelow]

/-! ### SURVEY_STOP -/

theorem runSurveyStop_live {s : State} {l : LiveSurvey} (h : s.survey.live = some l) (seq : Byte) :
    runSurveyStop seq s =
      settle (completeCommand seq .ok
        (enc8 (surveyState (if l.endRequested.isNone then stopSurvey .stopped l s else s)).code)
        (if l.endRequested.isNone then stopSurvey .stopped l s else s)) := by
  unfold runSurveyStop
  rw [h]

/-- A survey with no read in the array ends at once (R148). -/
theorem stopSurvey_now {s : State} {l : LiveSurvey} {waiting : List ArbReq} (outcome : SurveyOutcome)
    (h : (∃ units, l.phase = .gap units ∧ waiting = s.array.waiting) ∨
      ∃ d, l.phase = .reading d ∧ d.granted = false ∧ waiting = s.array.waiting.filter (·.body != .surveyRead)) :
    stopSurvey outcome l s = endSurvey outcome l (s.setArray { s.array with waiting }) := by
  unfold stopSurvey
  rcases h with ⟨units, hphase, rfl⟩ | ⟨d, hphase, hgranted, rfl⟩
  · simp only [hphase]
    rfl
  · simp only [hphase, hgranted, Bool.false_eq_true, if_false]
    rfl

theorem stopSurvey_granted {s : State} {l : LiveSurvey} {d : Ladder} (outcome : SurveyOutcome) (hphase : l.phase = .reading d)
    (hgranted : d.granted = true) : stopSurvey outcome l s = setLive (some { l with endRequested := some outcome }) s := by
  unfold stopSurvey
  simp only [hphase, hgranted, if_true]

theorem surveyState_stopping {s : State} {l : LiveSurvey} (h : s.survey.live = some l) (hend : l.endRequested ≠ none) :
    surveyState s = .stopping := by
  unfold surveyState
  rw [h]
  exact if_neg fun hnone => hend (Option.isNone_iff_eq_none.mp hnone)

/-- A range of lines that the fence clips holds its first line (R141). -/
theorem clipped_above {first count fence : Nat} (h : first < fence) :
    first < if count = 0 then fence else min (first + count) fence := by
  split <;> omega

/-- Settles O49: the checks of each command, then the first read or the end of the survey. -/
theorem surveyStartAndStop : Obligations.SurveyStartAndStop := by
  intro s seq mode first count check f zero t hf hzero
  subst hzero
  refine ⟨fun htakes => ⟨fun status hcase => ?_, fun limit hop hlive hmode hfirst hlimit hpending hmoving hentries hdirect ht hcalm =>
    ?_, fun hop hlive hmode hfence hrange hmarks hbuilt hbelow ht hcalm => ?_⟩, fun htakes => ⟨fun hlive => ?_, fun l hlive =>
    ⟨fun waiting hend hphase ht hcalm => ?_, fun d hend hphase hgranted ht hcalm => ?_, fun hend ht hcalm => ?_⟩⟩⟩
  · subst hf
    have herror : surveyStartCheck mode first.toNat (nextEvent s) = .error status := surveyStartCheck_error hcase
    exact exec_replied htakes
      ((runCommand_surveyStart_args seq mode first count _).trans (runSurveyStart_error herror seq _))
  · subst hmode hf
    have hcount : limit =
        if count.toNat = 0 then fenceValue (nextEvent s) else min (first.toNat + count.toNat) (fenceValue (nextEvent s)) :=
      hlimit.trans (if_congr BitVec.toNat_inj.symm rfl rfl)
    have hbelow : first.toNat < limit := hcount ▸ clipped_above hfirst
    have hskips := skipsLine_span (s := nextEvent s)
      (l := fixSurvey (nextEvent s) .span first.toNat count.toNat) rfl hpending hmoving hentries hdirect
    have hrun := (runCommand_surveyStart_args seq 0 first count (nextEvent s)).trans
      (runSurveyStart_ok (surveyStartCheck_span (s := nextEvent s) hop hlive hfirst) seq _)
    rw [fixSurvey_span _ _ _ limit hcount] at hrun hskips
    rw [examine_reads hbelow hskips] at hrun
    exact exec_answers_calm htakes hrun ht hcalm
  · subst hmode
    have hbelow' : f < reserveEnd (nextEvent s) := hbelow
    have hrun := (runCommand_surveyStart_args seq 1 first count (nextEvent s)).trans
      (runSurveyStart_ok (surveyStartCheck_spares (s := nextEvent s) _ hop hlive) seq _)
    rw [fixSurvey_spares (s := nextEvent s) hfence hrange hmarks hbelow' _ _] at hrun
    have hfree : spareStateOf (nextEvent s) f = some .free := spareStateOf_unmarked hfence hmarks hbuilt hbelow'
    rw [examine_reads (s := nextEvent s) hbelow' (by simp only [skipsLine, hfree, bne_self_eq_false])] at hrun
    exact exec_answers_calm htakes hrun ht hcalm
  · have hrun := runCommand_surveyStop seq [] (nextEvent s)
    unfold runSurveyStop at hrun
    rw [show (nextEvent s).survey.live = none from hlive] at hrun
    exact exec_replied htakes hrun
  · have hrun := (runCommand_surveyStop seq [] _).trans (runSurveyStop_live (s := nextEvent s) hlive seq)
    rw [hend, Option.isNone_none, if_pos rfl, stopSurvey_now (s := nextEvent s) .stopped hphase] at hrun
    exact exec_answers_calm htakes hrun ht hcalm
  · have hrun := (runCommand_surveyStop seq [] _).trans (runSurveyStop_live (s := nextEvent s) hlive seq)
    rw [hend, Option.isNone_none, if_pos rfl, stopSurvey_granted .stopped hphase hgranted] at hrun
    exact exec_answers_calm htakes hrun ht hcalm
  · have hrun := (runCommand_surveyStop seq [] _).trans (runSurveyStop_live (s := nextEvent s) hlive seq)
    rw [if_neg fun h => hend (Option.isNone_iff_eq_none.mp h), surveyState_stopping (s := nextEvent s) hlive hend] at hrun
    exact exec_answers_calm htakes hrun ht hcalm

end Sys2Proof.Machine
end

section
/-! FENCE_ADJUST, LINE_RETIRE and the other commands that stay in progress (O50, O51, O52). The idea: each has a list of checks, and the
statement names the check that ends the command; one that passes them all begins as an event (`exec_runs`). -/

namespace Sys2Proof.Machine

-- One theorem after another, as in the laws (see `Quiet`): the memory of the check does not hold all their threads at once.
set_option Elab.async false

/-! ### FENCE_ADJUST (O50; R50 to R52) -/

theorem runFenceAdjust_ended {s : State} {expected new : Nat} {status : Status} {results : List Byte}
    (h : fenceCheck expected new s = some (status, results)) (seq : Byte) :
    runFenceAdjust seq expected new s = completeCommand seq status results s := by
  unfold runFenceAdjust
  rw [h]

theorem runFenceAdjust_accepted {s : State} {expected new : Nat} (h : fenceCheck expected new s = none) (seq : Byte) :
    runFenceAdjust seq expected new s =
      settle (offerRecord (.fence new)
        (beginCommand seq (.fenceAdjust new) (s.setMap { s.map with range := some (moveRange s new) }))) := by
  unfold runFenceAdjust
  rw [h]

theorem runCommand_fenceAdjust_args {s : State} (h : s.guard.state = .open) (seq : Byte) (expected new : Addr24) :
    runCommand seq 64 (arg24 expected ++ arg24 new) s = runFenceAdjust seq expected.toNat new.toNat s := by
  rw [runCommand_fenceAdjust _ _ _ h, argLine_arg24, argLine_second]

/-- S for a fence of `f`, as FENCE_ADJUST answers it. -/
theorem fenceResults_eq {s : State} {f top : Nat} (hf : f = s.map.fence.getD 0) (htop : top = s.array.lineCount - 4096) :
    fenceResults s = enc24 f ++ enc24 (if s.map.fence = none then 0 else top - f) := by
  unfold fenceResults fenceValue
  rw [spareCount_eq, ← hf, ← htop]

/-- The check that ends a FENCE_ADJUST before any line is looked at (R50, checks 1 to 6). -/
theorem fenceCheck_early {s : State} {expected new f top : Nat} {status : Status} {results : List Byte}
    (hf : f = s.map.fence.getD 0) (htop : top = s.array.lineCount - 4096)
    (h : (s.start.op ≠ .running ∧ status = .state ∧ results = []) ∨
      (s.start.op = .running ∧ s.jour.state = .stalled ∧ status = .journalFault ∧ results = []) ∨
      (s.start.op = .running ∧ s.jour.state ≠ .stalled ∧ expected ≠ f ∧ status = .stale ∧ results = enc24 f) ∨
      (s.start.op = .running ∧ s.jour.state ≠ .stalled ∧ expected = f ∧ new = f ∧ status = .ok ∧
        results = enc24 f ++ enc24 (if s.map.fence = none then 0 else top - f)) ∨
      (s.start.op = .running ∧ s.jour.state ≠ .stalled ∧ expected = f ∧ new ≠ f ∧ (top < new + 64 ∨ new + 8192 < top) ∧
        status = .range ∧ results = []) ∨
      (s.start.op = .running ∧ s.jour.state ≠ .stalled ∧ expected = f ∧ new ≠ f ∧ new + 64 ≤ top ∧ top ≤ new + 8192 ∧
        s.survey.live ≠ none ∧ status = .state ∧ results = [])) :
    fenceCheck expected new s = some (status, results) := by
  have hfence : fenceValue s = f := hf.symm
  have hbounds := fenceInBounds_iff s new top htop.symm
  unfold fenceCheck
  rw [hfence]
  rcases h with ⟨hop, rfl, rfl⟩ | ⟨hop, hst, rfl, rfl⟩ | ⟨hop, hst, he, rfl, rfl⟩ | ⟨hop, hst, he, hn, rfl, rfl⟩ |
    ⟨hop, hst, he, hn, hout, rfl, rfl⟩ | ⟨hop, hst, he, hn, hin1, hin2, hlive, rfl, rfl⟩
  · rw [if_pos hop]
  · rw [if_neg (not_not_intro hop), if_pos hst]
  · rw [if_neg (not_not_intro hop), if_neg hst, if_pos he]
  · rw [if_neg (not_not_intro hop), if_neg hst, if_neg (not_not_intro he), if_pos hn, fenceResults_eq hf htop]
  · have hbad : fenceInBounds s new = false := by
      rw [Bool.eq_false_iff, Ne, hbounds]
      omega
    rw [if_neg (not_not_intro hop), if_neg hst, if_neg (not_not_intro he), if_neg hn, hbad]
    rfl
  · rw [if_neg (not_not_intro hop), if_neg hst, if_neg (not_not_intro he), if_neg hn, hbounds.mpr ⟨hin1, hin2⟩,
      if_neg (by simp), if_pos (Option.isSome_iff_ne_none.mpr hlive)]

/-- Past those checks the lines between the old and the new fence decide (R50, checks 7 and 8). -/
theorem fenceCheck_lines {s : State} {expected new top : Nat} (hop : s.start.op = .running) (hst : s.jour.state ≠ .stalled)
    (hexpected : expected = fenceValue s) (hnew : new ≠ fenceValue s) (htop : top = s.array.lineCount - 4096)
    (hlow : new + 64 ≤ top) (hhigh : top ≤ new + 8192) (hlive : s.survey.live = none) :
    fenceCheck expected new s = (fenceBlocker s new).map fun b => (.blocked, enc24 b.1 ++ enc8 b.2.code) := by
  unfold fenceCheck
  rw [if_neg (not_not_intro hop), if_neg hst, if_neg (not_not_intro hexpected), if_neg hnew,
    (fenceInBounds_iff s new top htop.symm).mpr ⟨hlow, hhigh⟩, hlive]
  rfl

/-- The lowest line of a raise that is not FREE blocks it (R51). -/
theorem raiseBlocker_first {s : State} {old new a : Nat} {k : Blocker} (hlow : old ≤ a) (hhigh : a < new)
    (hfree : ∀ b, old ≤ b → b < a → spareStateOf s b = some .free)
    (hblocks : (spareStateOf s a = some .held ∧ k = .held) ∨ (spareStateOf s a = some .bound ∧ k = .bound) ∨
      (spareStateOf s a = some .dead ∧ k = .dead)) : raiseBlocker s old new = some (a, k) := by
  refine range_findSome_first _ a (a, k) ?_ _ old hlow (by omega) fun b hb1 hb2 => ?_
  · rcases hblocks with ⟨ha, rfl⟩ | ⟨ha, rfl⟩ | ⟨ha, rfl⟩ <;> simp only [ha]
  · simp only [hfree b hb1 hb2]

theorem raiseBlocker_none {s : State} {old new : Nat} (hfree : ∀ b, old ≤ b → b < new → spareStateOf s b = some .free) :
    raiseBlocker s old new = none :=
  range_findSome_none _ _ _ fun b hb1 hb2 => by simp only [hfree b hb1 (by omega)]

/-- A host line blocks a lowering for nothing (R52). -/
theorem lineBlocker_none {s : State} {b : Nat} (h : entryOf s b = none ∧ isPending s b = false ∧ (∀ e ∈ s.buf.entries, e.hla ≠ b) ∧
    ∀ r ∈ s.host.order, r.hla ≠ b) : lineBlocker s b = none := by
  obtain ⟨hentry, hpending, hbuf, horder⟩ := h
  have h1 : s.buf.entries.any (·.hla == b) = false := by simpa using hbuf
  have h2 : s.host.order.any (·.hla == b) = false := by simpa using horder
  unfold lineBlocker
  rw [hentry, hpending, h1, h2]
  rfl

/-- The first kind that applies names the blocker of a host line (R52). -/
theorem lineBlocker_some {s : State} {a : Nat} {k : Blocker}
    (h : (entryOf s a ≠ none ∧ k = .entry) ∨ (entryOf s a = none ∧ isPending s a = true ∧ k = .pending) ∨
      (entryOf s a = none ∧ isPending s a = false ∧ (∃ e ∈ s.buf.entries, e.hla = a) ∧ k = .buffered) ∨
      (entryOf s a = none ∧ isPending s a = false ∧ (∀ e ∈ s.buf.entries, e.hla ≠ a) ∧ (∃ r ∈ s.host.order, r.hla = a) ∧
        k = .request)) : lineBlocker s a = some k := by
  unfold lineBlocker
  rcases h with ⟨he, rfl⟩ | ⟨he, hp, rfl⟩ | ⟨he, hp, hb, rfl⟩ | ⟨he, hp, hb, hr, rfl⟩
  · rw [if_pos (Option.isSome_iff_ne_none.mpr he)]
  · rw [he, hp]
    rfl
  · have hany : s.buf.entries.any (·.hla == a) = true := by simpa using hb
    rw [he, hp, hany]
    rfl
  · have hany : s.buf.entries.any (·.hla == a) = false := by simpa using hb
    have hwaits : s.host.order.any (·.hla == a) = true := by simpa using hr
    rw [he, hp, hany, hwaits]
    rfl

/-- The lowest line of a lowering that has a kind blocks it (R52). -/
theorem loweringBlocker_first {s : State} {new old a : Nat} {k : Blocker} (hlow : new ≤ a) (hhigh : a < old)
    (hbelow : ∀ b, new ≤ b → b < a → lineBlocker s b = none) (hblocks : lineBlocker s a = some k) :
    loweringBlocker s new old = some (a, k) := by
  refine range_findSome_first _ a (a, k) ?_ _ new hlow (by omega) fun b hb1 hb2 => ?_
  · simp only [hblocks, Option.map_some]
  · simp only [hbelow b hb1 hb2, Option.map_none]

theorem loweringBlocker_none {s : State} {new old : Nat} (h : ∀ b, new ≤ b → b < old → lineBlocker s b = none) :
    loweringBlocker s new old = none :=
  range_findSome_none _ _ _ fun b hb1 hb2 => by simp only [h b hb1 (by omega), Option.map_none]

/-- Settles O50: the early checks, then the search for the lowest blocking line, from below. -/
theorem fenceAdjustChecked : Obligations.FenceAdjustChecked := by
  intro s seq expected new check f top t hf htop htakes hopen
  have hargs := runCommand_fenceAdjust_args (s := nextEvent s) hopen seq expected new
  refine ⟨fun status results hcase => ?_, fun hop hst hexpected hlow hhigh hlive => ?_⟩
  · have hcheck : fenceCheck expected.toNat new.toNat (nextEvent s) = some (status, results) := fenceCheck_early hf htop hcase
    exact exec_replied htakes (hargs.trans (runFenceAdjust_ended hcheck seq))
  have hfence : fenceValue (nextEvent s) = f := hf.symm
  have hlines : new.toNat ≠ f → fenceCheck expected.toNat new.toNat (nextEvent s) =
      (fenceBlocker (nextEvent s) new.toNat).map fun b => (.blocked, enc24 b.1 ++ enc8 b.2.code) := fun hne =>
    fenceCheck_lines (s := nextEvent s) hop hst (hexpected.trans hfence.symm) (hfence.symm ▸ hne) htop hlow hhigh hlive
  have hraise : f < new.toNat → fenceBlocker (nextEvent s) new.toNat = raiseBlocker (nextEvent s) f new.toNat := fun h => by
    rw [← hfence] at h ⊢
    exact if_pos h
  have hlower : new.toNat < f → fenceBlocker (nextEvent s) new.toNat = loweringBlocker (nextEvent s) new.toNat f := fun h => by
    rw [← hfence] at h ⊢
    exact if_neg (Nat.not_lt.mpr (Nat.le_of_lt h))
  refine ⟨fun a kind hrise ha1 ha2 hfree hblocks => ?_, fun a kind ha1 ha2 hbelow hblocks => ?_, fun range hrange hroom ht => ?_⟩
  · obtain ⟨k, hk, hcode⟩ : ∃ k : Blocker, ((spareStateOf s a = some .held ∧ k = .held) ∨ (spareStateOf s a = some .bound ∧
        k = .bound) ∨ (spareStateOf s a = some .dead ∧ k = .dead)) ∧ enc8 k.code = [kind] := by
      rcases hblocks with ⟨ha, rfl⟩ | ⟨ha, rfl⟩ | ⟨ha, rfl⟩
      · exact ⟨.held, .inl ⟨ha, rfl⟩, rfl⟩
      · exact ⟨.bound, .inr (.inl ⟨ha, rfl⟩), rfl⟩
      · exact ⟨.dead, .inr (.inr ⟨ha, rfl⟩), rfl⟩
    have hcheck := hlines (Nat.ne_of_gt hrise)
    rw [hraise hrise, raiseBlocker_first (s := nextEvent s) ha1 ha2 hfree hk, Option.map_some, hcode] at hcheck
    exact exec_replied htakes (hargs.trans (runFenceAdjust_ended hcheck seq))
  · obtain ⟨k, hk, hcode⟩ : ∃ k : Blocker, lineBlocker s a = some k ∧ enc8 k.code = [kind] := by
      rcases hblocks with ⟨he, rfl⟩ | ⟨he, hp, rfl⟩ | ⟨he, hp, hb, rfl⟩ | ⟨he, hp, hb, hr, rfl⟩
      · exact ⟨.entry, lineBlocker_some (.inl ⟨he, rfl⟩), rfl⟩
      · exact ⟨.pending, lineBlocker_some (.inr (.inl ⟨he, hp, rfl⟩)), rfl⟩
      · exact ⟨.buffered, lineBlocker_some (.inr (.inr (.inl ⟨he, hp, hb, rfl⟩))), rfl⟩
      · exact ⟨.request, lineBlocker_some (.inr (.inr (.inr ⟨he, hp, hb, hr, rfl⟩))), rfl⟩
    have hfall : new.toNat < f := Nat.lt_of_le_of_lt ha1 ha2
    have hcheck := hlines (Nat.ne_of_lt hfall)
    rw [hlower hfall, loweringBlocker_first (s := nextEvent s) ha1 ha2 (fun b hb1 hb2 => lineBlocker_none (hbelow b hb1 hb2)) hk,
      Option.map_some, hcode] at hcheck
    exact exec_replied htakes (hargs.trans (runFenceAdjust_ended hcheck seq))
  · obtain ⟨hcheck, hmove⟩ : fenceCheck expected.toNat new.toNat (nextEvent s) = none ∧ moveRange (nextEvent s) new.toNat = range := by
      rcases hrange with ⟨hrise, hfree, rfl⟩ | ⟨hfall, hbelow, rfl⟩
      · refine ⟨?_, ?_⟩
        · rw [hlines (Nat.ne_of_gt hrise), hraise hrise, raiseBlocker_none (s := nextEvent s) hfree, Option.map_none]
        · rw [← hfence] at hrise ⊢
          exact if_pos hrise
      · refine ⟨?_, ?_⟩
        · rw [hlines (Nat.ne_of_lt hfall), hlower hfall,
            loweringBlocker_none (s := nextEvent s) fun b hb1 hb2 => lineBlocker_none (hbelow b hb1 hb2), Option.map_none]
        · rw [← hfence] at hfall ⊢
          exact if_neg (Nat.not_lt.mpr (Nat.le_of_lt hfall))
    have hrun := hargs.trans (runFenceAdjust_accepted hcheck seq)
    rw [hmove, offerRecord_room _ _ (by exact hroom)] at hrun
    subst ht
    exact exec_runs htakes hrun

/-! ### LINE_RETIRE (O51; R112) -/

/-- The check that ends a LINE_RETIRE (R112). -/
theorem retireCheck_some {s : State} {hla : Nat} {status : Status}
    (h : (s.start.op ≠ .running ∧ status = .state) ∨
      (s.start.op = .running ∧ s.jour.state = .stalled ∧ status = .journalFault) ∨
      (s.start.op = .running ∧ s.jour.state ≠ .stalled ∧ fenceValue s ≤ hla ∧ status = .range) ∨
      (s.start.op = .running ∧ s.jour.state ≠ .stalled ∧ hla < fenceValue s ∧ isPending s hla = true ∧ status = .pending) ∨
      (s.start.op = .running ∧ s.jour.state ≠ .stalled ∧ hla < fenceValue s ∧ isPending s hla = false ∧
        relocationInProgress s hla = true ∧ status = .alreadyMoving)) : retireCheck hla s = some status := by
  unfold retireCheck
  rcases h with ⟨hop, rfl⟩ | ⟨hop, hst, rfl⟩ | ⟨hop, hst, hout, rfl⟩ | ⟨hop, hst, hin, hp, rfl⟩ | ⟨hop, hst, hin, hp, hm, rfl⟩
  · rw [if_pos hop]
  · rw [if_neg (not_not_intro hop), if_pos hst]
  · rw [if_neg (not_not_intro hop), if_neg hst, if_pos hout]
  · rw [if_neg (not_not_intro hop), if_neg hst, if_neg (Nat.not_le.mpr hin), if_pos hp]
  · rw [if_neg (not_not_intro hop), if_neg hst, if_neg (Nat.not_le.mpr hin), hp, if_neg Bool.false_ne_true, if_pos hm]

theorem retireCheck_none {s : State} {hla : Nat} (hop : s.start.op = .running) (hst : s.jour.state ≠ .stalled)
    (hin : hla < fenceValue s) (hp : isPending s hla = false) (hm : relocationInProgress s hla = false) :
    retireCheck hla s = none := by
  unfold retireCheck
  rw [if_neg (not_not_intro hop), if_neg hst, if_neg (Nat.not_le.mpr hin), hp, if_neg Bool.false_ne_true, hm,
    if_neg Bool.false_ne_true]

theorem runLineRetire_ended {s : State} {hla : Nat} {status : Status} (h : retireCheck hla s = some status) (seq : Byte) :
    runLineRetire seq hla s = completeCommand seq status [] s := by
  unfold runLineRetire
  rw [h]

theorem runLineRetire_accepted {s : State} {hla : Nat} (h : retireCheck hla s = none) (seq : Byte) :
    runLineRetire seq hla s = settle (reserveSlot hla (beginCommand seq (.lineRetire hla false) s)) := by
  unfold runLineRetire
  rw [h]

theorem reserveSlot_now {s : State} (hfree : slotFree s = true) (hqueue : s.reloc.queue = []) (hla : Nat) :
    reserveSlot hla s = takeReservation hla s := by
  unfold reserveSlot
  rw [hfree, hqueue]
  rfl

theorem reserveSlot_waits {s : State} (h : slotFree s = false ∨ s.reloc.queue ≠ []) (hla : Nat) :
    reserveSlot hla s = s.setReloc { s.reloc with queue := s.reloc.queue ++ [.reservation hla] } := by
  unfold reserveSlot
  refine if_neg fun hc => ?_
  obtain ⟨hfree, hempty⟩ := Bool.and_eq_true_iff.mp hc
  rcases h with h | h
  · exact Bool.false_ne_true (h.symm.trans hfree)
  · exact h (List.isEmpty_iff.mp hempty)

/-- Settles O51: the checks, then a reservation that takes its slot now or waits. -/
theorem lineRetireChecked : Obligations.LineRetireChecked := by
  intro s seq hla check t htakes hopen
  have hargs : runCommand seq 65 (arg24 hla) (nextEvent s) = runLineRetire seq hla.toNat (nextEvent s) := by
    rw [runCommand_lineRetire _ _ _ (by exact hopen), argLine_one]
  refine ⟨fun status hcase => ?_, fun hop hst hin hp hm => ?_⟩
  · have hcheck : retireCheck hla.toNat (nextEvent s) = some status := retireCheck_some hcase
    exact exec_replied htakes (hargs.trans (runLineRetire_ended hcheck seq))
  have hcheck : retireCheck hla.toNat (nextEvent s) = none := retireCheck_none hop hst hin hp hm
  have hrun := hargs.trans (runLineRetire_accepted hcheck seq)
  refine ⟨fun hfree hqueue ht => ?_, fun hwaits ht => ?_⟩
  · rw [reserveSlot_now (by exact hfree) (by exact hqueue)] at hrun
    subst ht
    exact exec_runs htakes hrun
  · rw [reserveSlot_waits (by exact hwaits)] at hrun
    subst ht
    exact exec_runs htakes hrun

/-! ### The other long commands (O52; R126, R133, R134, R182) -/

/-- POLICY_EXCHANGE once its checks have passed (R182). -/
theorem runPolicyExchange_accepted {s : State} (hop : s.start.op = .running) (hst : s.jour.state ≠ .stalled) (seq : Byte) :
    runPolicyExchange seq s = settle (offerRecord (.policy s.policy.staged) (beginCommand seq .policyExchange s)) := by
  unfold runPolicyExchange
  rw [if_neg (not_not_intro hop), if_neg hst]

/-- BRIDGE_RESTART once its checks have passed, with no survey to stop (R134). -/
theorem runBridgeRestart_accepted {s : State} (hop : s.start.op = .running) (hst : s.jour.state ≠ .stalled)
    (hlive : s.survey.live = none) (seq : Byte) :
    runBridgeRestart seq s = settle (beginCommand seq .bridgeRestart (s.setStart { s.start with op := .quiescing })) := by
  unfold runBridgeRestart
  rw [if_neg (not_not_intro hop), if_neg hst]
  refine congrArg settle ?_
  unfold resetSurvey
  rw [show (beginCommand seq .bridgeRestart (s.setStart { s.start with op := .quiescing })).survey.live = none from hlive]

theorem runCommand_journalFormat_args {s : State} (h : s.guard.state = .open) (seq : Byte) (fence : Option Addr24) :
    runCommand seq 68 ((fence.map arg24).getD []) s = runJournalFormat seq (fence.map BitVec.toNat) s := by
  rw [runCommand_journalFormat _ _ _ h]
  cases fence with
  | none => rfl
  | some new => exact congrArg (fun n => runJournalFormat seq (some n) s) (argLine_one new)

/-- The first line of a format is line 0 of bank B (R133). -/
theorem placeFormatLine_first (f : Nat) (s : State) :
    placeFormatLine { fence := f, index := 0 } s =
      placeRequest (.journalWrite .format (s.array.lineCount - 2048) (journalLine 0 .b false false [.fence f]))
        (s.setStart { s.start with format := some { fence := f, index := 0 } }) := by
  have hplace : formatPlace 0 = (.b, 0) := if_pos (by decide)
  have hline : formatLine f 0 = journalLine 0 .b false false [.fence f] := by
    unfold formatLine
    rw [if_pos (by decide), hplace]
  have hala : journalAla s .b 0 = s.array.lineCount - 2048 := Nat.add_zero _
  unfold placeFormatLine
  rw [hplace, hline, hala]

/-- JOURNAL_FORMAT once its checks have passed (R133). -/
theorem runJournalFormat_accepted {s : State} {fence : Option Nat} (hop : s.start.op = .held .noJournal)
    (hbounds : ∀ f, fence = some f → fenceInBounds s f = true) (seq : Byte) :
    runJournalFormat seq fence s =
      settle (placeFormatLine { fence := formatFence fence s, index := 0 } (beginCommand seq .journalFormat s)) := by
  unfold runJournalFormat
  rw [if_neg (not_not_intro hop), if_neg]
  cases fence with
  | none => exact Bool.false_ne_true
  | some f => simp [hbounds f rfl]

theorem runJournalFormat_range {s : State} {f : Nat} (hop : s.start.op = .held .noJournal) (hbounds : fenceInBounds s f = false)
    (seq : Byte) : runJournalFormat seq (some f) s = completeCommand seq .range [] s := by
  unfold runJournalFormat
  rw [if_neg (not_not_intro hop), if_pos]
  simp [hbounds]

/-- Settles O52: the four commands one by one, each refused by its checks or begun. -/
theorem longCommandsAccepted : Obligations.LongCommandsAccepted := by
  intro s seq check t
  refine ⟨fun htakes hopen => ?_, fun fence f htakes hopen => ?_, fun htakes hopen => ?_, fun htakes => ?_⟩
  · have hargs := runCommand_policyExchange seq [] (nextEvent s) hopen
    refine ⟨fun hop => ?_, fun hop hst => ?_, fun hop hst hroom ht => ?_⟩
    · exact exec_replied htakes (hargs.trans (if_pos hop))
    · exact exec_replied htakes (hargs.trans ((if_neg (not_not_intro hop)).trans (if_pos hst)))
    · have hrun := hargs.trans (runPolicyExchange_accepted (s := nextEvent s) hop hst seq)
      rw [offerRecord_room _ _ (by exact hroom)] at hrun
      subst ht
      exact exec_runs htakes hrun
  · have hargs := runCommand_journalFormat_args (s := nextEvent s) hopen seq fence
    have hlength : ((fence.map arg24).getD []).length ≤ 7 ∧ argLengthAllowed 68 ((fence.map arg24).getD []).length = true := by
      cases fence <;> exact ⟨by simp [arg24], rfl⟩
    refine ⟨fun hop => ?_, fun hop => ⟨fun new hnew hout => ?_, fun hfence ht => ?_⟩⟩
    · exact exec_replied htakes (hargs.trans (if_pos hop)) rfl rfl hlength.1 hlength.2
    · have hbad : fenceInBounds (nextEvent s) new.toNat = false := by
        rw [Bool.eq_false_iff, Ne, fenceInBounds_iff (nextEvent s) _ (s.array.lineCount - 4096) rfl]
        omega
      rw [hnew] at hargs
      subst hnew
      exact exec_replied htakes (hargs.trans (runJournalFormat_range (s := nextEvent s) hop hbad seq)) rfl rfl hlength.1 hlength.2
    · have hbounds : ∀ n, fence.map BitVec.toNat = some n → fenceInBounds (nextEvent s) n = true := by
        intro n hn
        rcases hfence with ⟨rfl, -⟩ | ⟨new, rfl, rfl, hlow, hhigh⟩
        · cases hn
        · cases hn
          exact (fenceInBounds_iff (nextEvent s) _ (s.array.lineCount - 4096) rfl).mpr ⟨hlow, hhigh⟩
      have hgiven : formatFence (fence.map BitVec.toNat) (nextEvent s) = f := by
        rcases hfence with ⟨rfl, hf⟩ | ⟨new, rfl, rfl, -, -⟩
        · rw [hf, Option.map_none, formatFence, Option.getD_none]
          rfl
        · rw [Option.map_some, formatFence, Option.getD_some]
      have hrun := hargs.trans (runJournalFormat_accepted (s := nextEvent s) hop hbounds seq)
      rw [hgiven, placeFormatLine_first] at hrun
      subst ht
      exact exec_runs htakes hrun rfl hlength.1 hlength.2
  · have hargs := runCommand_bridgeRestart seq [] (nextEvent s) hopen
    refine ⟨fun hop => ?_, fun hop hst => ?_, fun hop hst hlive ht => ?_⟩
    · exact exec_replied htakes (hargs.trans (if_pos hop))
    · exact exec_replied htakes (hargs.trans ((if_neg (not_not_intro hop)).trans (if_pos hst)))
    · have hrun := hargs.trans (runBridgeRestart_accepted (s := nextEvent s) hop hst hlive seq)
      subst ht
      exact exec_runs htakes hrun
  · have hargs := runCommand_journalCompact seq [] (nextEvent s)
    unfold runJournalCompact at hargs
    refine ⟨fun hcase => ?_, fun hop ht => ?_⟩
    · by_cases hop : s.start.op = .running
      · have hst : (nextEvent s).jour.state = .compacting := hcase.resolve_left (not_not_intro hop)
        rw [if_neg (by exact not_not_intro hop), hst] at hargs
        exact exec_replied htakes hargs
      · exact exec_replied htakes (hargs.trans (if_pos hop))
    · rw [if_neg (by exact not_not_intro hop)] at hargs
      subst ht
      refine ⟨fun hst => ?_, fun hst => ?_⟩
      · rcases hst with hst | hst
        · rw [show (nextEvent s).jour.state = .ready from hst] at hargs
          exact exec_runs htakes hargs
        · rw [show (nextEvent s).jour.state = .appending from hst] at hargs
          exact exec_runs htakes hargs
      · rw [show (nextEvent s).jour.state = .stalled from hst] at hargs
        exact exec_runs htakes hargs

end Sys2Proof.Machine
end

section
/-! Host requests: discarded, refused, or presented in their arrival event (O14, O16, O17, O18, O19), and the host link reset (O21). The
idea: an arrival event comes either to a response at the refusal checks (`arrive_clash`, `arrive_refused`, `arrive_accepted`) or to the
presentation of the new request (`event_presented_calm`), and what a presentation does is the route of R41 or R46 that its line takes. -/

namespace Sys2Proof.Machine

-- One theorem after another, as in the laws (see `Quiet`): the memory of the check does not hold all their threads at once.
set_option Elab.async false

/-! ### Discarded and refused requests (O14) -/

/-- A tag clash, spelt out (R24). -/
theorem protocolFault_arrived (kind : ReqKind) (tag : Tag) (line : Option Nat) (s : State) :
    protocolFault line (arrived kind tag line s) =
      writeFault .protocol line none none
        (((arrived kind tag line s).setHost
          { s.host with
            protocolCount := if s.host.protocolCount = 65535 then 65535 else s.host.protocolCount + 1 }).setAlert
          { s.alert with causes := s.alert.causes ||| AlertCause.protocol.bit }) := by
  rw [← saturate16_eq]
  rfl

theorem refusal_notReady {s : State} (h : s.start.op ≠ .running) (line : Option Nat) : refusal s line = some .notReady := by
  unfold refusal
  exact if_pos h

theorem inRange_iff (s : State) (kind : RangeKind) (line : Nat) :
    inRange s kind line = true ↔ ∃ r, s.map.range = some r ∧ r.kind = kind ∧ r.lo ≤ line ∧ line < r.hi := by
  unfold inRange
  cases s.map.range with
  | none => simp
  | some r => simp [and_assoc]

theorem refusal_beyond {s : State} {line : Nat} (hop : s.start.op = .running)
    (h : fenceValue s ≤ line ∨ inRange s .closing line = true) : refusal s (some line) = some .beyond := by
  unfold refusal
  rw [if_neg (not_not_intro hop)]
  dsimp only
  rcases h with h | h
  · rw [if_pos h]
  · rw [if_pos h, ite_self]

theorem refusal_none {s : State} {line : Nat} (hop : s.start.op = .running) (hbelow : line < fenceValue s)
    (hclosing : inRange s .closing line = false) : refusal s (some line) = none := by
  unfold refusal
  rw [if_neg (not_not_intro hop)]
  dsimp only
  rw [if_neg (Nat.not_le.mpr hbelow), hclosing, if_neg Bool.false_ne_true]

/-- Settles O14: a clash ends an arrival before the checks, and each check refuses when those before it pass. -/
theorem requestsDiscardedOrRefused : Obligations.RequestsDiscardedOrRefused := by
  refine ⟨fun s tag hla mask data kind line t htag hline ht => ?_, fun s tag hla mask data kind line reason t htag hline hcase ht => ?_⟩
  · have heffect : ∀ accepted, arrive kind (tagOf tag) line accepted (nextEvent s) = t := fun accepted => by
      rw [arrive_clash htag, protocolFault_arrived, ht]
    subst hline
    refine ⟨?_, ?_, ?_⟩
    · rintro rfl
      exact congrArg (fun u => Host.Outcome.next (settle u)) (heffect (acceptRead (tagOf tag) hla.toNat))
    · rintro rfl
      exact congrArg (fun u => Host.Outcome.next (settle u)) (heffect (acceptWrite (tagOf tag) hla.toNat mask data))
    · rintro rfl
      exact congrArg (fun u => Host.Outcome.next (settle u)) (heffect (acceptBarrier (tagOf tag)))
  · have hnew : tagOf tag ∉ s.host.tags := by simpa using htag
    have hrefused : refusal s line = some reason := by
      rcases hcase with ⟨hop, rfl⟩ | ⟨hop, hkind, rfl, hbeyond⟩
      · exact refusal_notReady hop line
      · rw [hline, if_neg hkind]
        refine refusal_beyond hop (hbeyond.imp (fun h => h) fun hclosing => ?_)
        exact (inRange_iff s .closing hla.toNat).mpr hclosing
    have heffect : ∀ accepted, arrive kind (tagOf tag) line accepted (nextEvent s) = t := fun accepted => by
      rw [arrive_refused hnew hrefused, ht]
    subst hline
    refine ⟨?_, ?_, ?_⟩
    · rintro rfl
      exact congrArg (fun u => Host.Outcome.next (settle u)) (heffect (acceptRead (tagOf tag) hla.toNat))
    · rintro rfl
      exact congrArg (fun u => Host.Outcome.next (settle u)) (heffect (acceptWrite (tagOf tag) hla.toNat mask data))
    · rintro rfl
      exact congrArg (fun u => Host.Outcome.next (settle u)) (heffect (acceptBarrier (tagOf tag)))

/-! ### READ routes (O16) -/

theorem readRoute_full {s : State} {hla : Nat} {e : Item} (he : newestEntry s hla = some e) (hmask : e.mask = fullMask) :
    readRoute s hla = .fromEntry e.data := by
  unfold readRoute
  simp only [he, hmask, if_true]

theorem readRoute_masked {s : State} {hla : Nat} {e : Item} (he : newestEntry s hla = some e) (hmask : e.mask ≠ fullMask) :
    readRoute s hla = .waitOn e.id := by
  unfold readRoute
  simp only [he, hmask, if_false]

theorem movingSlot_some {s : State} {hla : Nat} {q : Slot} (hmoving : isMoving s hla = true) (hq : findSlot s hla = some q) :
    movingSlot s hla = some q := by
  unfold movingSlot
  rw [if_pos hmoving, hq]

theorem readRoute_slot {s : State} {hla : Nat} {q : Slot} (he : ∀ e ∈ s.buf.entries, e.hla ≠ hla) (hmoving : isMoving s hla = true)
    (hq : findSlot s hla = some q) : readRoute s hla = .fromSlot q.data := by
  unfold readRoute
  simp only [newestEntry_none he, movingSlot_some hmoving hq]

theorem readRoute_array {s : State} {hla : Nat} (he : ∀ e ∈ s.buf.entries, e.hla ≠ hla) (hmoving : isMoving s hla = false)
    (hpending : isPending s hla = false) : readRoute s hla = .toArray (servingPlace s hla) := by
  unfold readRoute
  simp only [newestEntry_none he, movingSlot_none hmoving, hpending, Bool.false_eq_true, if_false]

/-- A READ of data the bridge holds is answered OK with it (R43). -/
theorem presentRead_held {s : State} {r : HostReq} {data : LineData}
    (h : readRoute s r.hla = .fromEntry data ∨ readRoute s r.hla = .fromSlot data) :
    presentRead r s = answerReq r .read .ok (some data) s := by
  unfold presentRead
  rcases h with h | h <;> rw [h]

theorem presentRead_waits {s : State} {r : HostReq} {entry : Nat} (h : readRoute s r.hla = .waitOn entry) :
    presentRead r s = setStage r.id (.waitEntry entry) s := by
  unfold presentRead
  rw [h]

theorem presentRead_array {s : State} {r : HostReq} {ala : Nat} (h : readRoute s r.hla = .toArray ala) :
    presentRead r s = placeRequest (.hostRead r.id) (setStage r.id (.inArray (newLadder s ala)) s) := by
  unfold presentRead
  rw [h]

/-- Settles O16: each route of R41 and what presentation makes of it. -/
theorem readAnsweredByState : Obligations.ReadAnsweredByState := by
  refine ⟨fun s tag hla data t hnow hheld ht hcalm => ?_, fun s tag hla t hnow => ⟨fun e he hmask ht hcalm => ?_,
    fun age he hmoving hpending hage ht hcalm => ?_⟩⟩
  · have hroute : readRoute s hla.toNat = .fromEntry data ∨ readRoute s hla.toNat = .fromSlot data := by
      rcases hheld with ⟨e, he, hmask, rfl⟩ | ⟨he, hmoving, q, hq, rfl⟩
      · exact .inl (readRoute_full he hmask)
      · exact .inr (readRoute_slot he hmoving hq)
    have hpresent : present (newRequest (tagOf tag) hla.toNat none s) (joined .read (tagOf tag) hla.toNat none s) = t := by
      rw [ht]
      refine (presentRead_held (r := newRequest (tagOf tag) hla.toNat none s)
        (s := joined .read (tagOf tag) hla.toNat none s) hroute).trans ?_
      rw [answerReq_new hnow rfl rfl]
      rfl
    exact congrArg Host.Outcome.next (event_presented_calm hnow hpresent hcalm)
  · have hpresent : present (newRequest (tagOf tag) hla.toNat none s) (joined .read (tagOf tag) hla.toNat none s) = t := by
      rw [ht]
      refine (presentRead_waits (r := newRequest (tagOf tag) hla.toNat none s)
        (s := joined .read (tagOf tag) hla.toNat none s) (readRoute_masked he hmask)).trans ?_
      exact setStage_new hnow rfl
    exact congrArg Host.Outcome.next (event_presented_calm hnow hpresent hcalm)
  · have hpresent : present (newRequest (tagOf tag) hla.toNat none s) (joined .read (tagOf tag) hla.toNat none s) = t := by
      rw [ht, hage]
      refine (presentRead_array (r := newRequest (tagOf tag) hla.toNat none s)
        (s := joined .read (tagOf tag) hla.toNat none s) (readRoute_array he hmoving hpending)).trans ?_
      refine (congrArg (placeRequest (.hostRead s.ids.nextId)) (setStage_new hnow rfl)).trans ?_
      rfl
    exact congrArg Host.Outcome.next (event_presented_calm hnow hpresent hcalm)

/-! ### WRITE routes (O17, O18, O19) -/

theorem writeRoute_poisonHit {s : State} {hla : Nat} {mask : Mask} (hmask : mask ≠ fullMask) (he : newestEntry s hla = none)
    (hpending : isPending s hla = true) (posted : Bool) : writeRoute s hla mask posted = .poisonHit := by
  unfold writeRoute
  simp only [he, hmask, hpending, Option.isSome_none, Bool.not_false, ne_eq, not_false_eq_true, and_self, if_true]

/-- A WRITE to a line that has a buffer entry, or is neither MOVING nor, when masked, pending, is held by the buffer or the direct
path (R46 rows 2 and 4). -/
theorem writeRoute_held {s : State} {hla : Nat} {mask : Mask} (posted : Bool)
    (h : (newestEntry s hla).isSome = true ∨ (isMoving s hla = false ∧ (isPending s hla = false ∨ mask = fullMask))) :
    writeRoute s hla mask posted = if posted then .buffer else .direct := by
  unfold writeRoute
  rcases h with he | ⟨hmoving, hline⟩
  · simp only [he, Bool.not_true, Bool.false_eq_true, and_false, if_false, if_true]
  · have hpoison : ¬ (mask ≠ fullMask ∧ isPending s hla = true ∧ (!(newestEntry s hla).isSome) = true) := by
      rintro ⟨hmask, hpending, -⟩
      exact hline.elim (fun h => Bool.false_ne_true (h.symm.trans hpending)) hmask
    rw [if_neg hpoison, movingSlot_none hmoving]
    simp only [Option.isSome_none, Bool.false_eq_true, if_false, ite_self]

theorem writeRoute_slot {s : State} {hla : Nat} {mask : Mask} (posted : Bool) (he : newestEntry s hla = none)
    (hslot : (movingSlot s hla).isSome = true) (hline : isPending s hla = false ∨ mask = fullMask) :
    writeRoute s hla mask posted = .slot := by
  have hpoison : ¬ (mask ≠ fullMask ∧ isPending s hla = true ∧ (!(newestEntry s hla).isSome) = true) := by
    rintro ⟨hmask, hpending, -⟩
    exact hline.elim (fun h => Bool.false_ne_true (h.symm.trans hpending)) hmask
  unfold writeRoute
  rw [if_neg hpoison, he]
  simp only [Option.isSome_none, Bool.false_eq_true, if_false, hslot, if_true]

/-- A WRITE that is not empty joins its line's order when it is accepted (R25). -/
theorem acceptWrite_joins {mask : Mask} (h : mask ≠ 0) (tag : Tag) (hla : Nat) (data : LineData) :
    acceptWrite tag hla mask data = joinOrder tag hla (some (data, mask)) := by
  funext s
  exact if_neg h

/-- A WRITE that is presented in its arrival event and leaves nothing to follow. -/
theorem exec_write_calm {s t : State} {tag : Byte} {hla : Addr24} {mask : Mask} {data : LineData} (hmask : mask ≠ 0)
    (hnow : presentedAtOnce s (tagOf tag) hla.toNat = true)
    (hpresent : presentWrite (newRequest (tagOf tag) hla.toNat (some (data, mask)) s) data mask
      (joined .write (tagOf tag) hla.toNat (some (data, mask)) s) = t) (hcalm : calm t = true) :
    exec (.hostWrite tag hla mask data) s = .next (evalLevels t) := by
  show Host.Outcome.next (event (arrive .write (tagOf tag) (some hla.toNat) (acceptWrite (tagOf tag) hla.toNat mask data)) s) = _
  rw [acceptWrite_joins hmask]
  exact congrArg Host.Outcome.next (event_presented_calm hnow hpresent hcalm)

/-- A WRITE that is presented in its arrival event and leaves drain requests to follow. -/
theorem exec_write_steady {s t : State} {tag : Byte} {hla : Addr24} {mask : Mask} {data : LineData} (hmask : mask ≠ 0)
    (hnow : presentedAtOnce s (tagOf tag) hla.toNat = true)
    (hpresent : presentWrite (newRequest (tagOf tag) hla.toNat (some (data, mask)) s) data mask
      (joined .write (tagOf tag) hla.toNat (some (data, mask)) s) = t) (hsteady : steady t = true) :
    exec (.hostWrite tag hla mask data) s = .next (evalLevels (placeDrains t)) := by
  show Host.Outcome.next (event (arrive .write (tagOf tag) (some hla.toNat) (acceptWrite (tagOf tag) hla.toNat mask data)) s) = _
  rw [acceptWrite_joins hmask]
  exact congrArg Host.Outcome.next (event_presented_steady hnow hpresent hsteady)

theorem presentWrite_poisonHit {s : State} {r : HostReq} {mask : Mask} (h : writeRoute s r.hla mask s.policy.active.posting = .poisonHit)
    (data : LineData) : presentWrite r data mask s = answerReq r .write .poisonHit none s := by
  unfold presentWrite
  simp only [h]

theorem presentWrite_buffer {s : State} {r : HostReq} {mask : Mask} (h : writeRoute s r.hla mask s.policy.active.posting = .buffer)
    (data : LineData) : presentWrite r data mask s = toBuffer r data mask s := by
  unfold presentWrite
  simp only [h]

theorem presentWrite_direct {s : State} {r : HostReq} {mask : Mask} (h : writeRoute s r.hla mask s.policy.active.posting = .direct)
    (data : LineData) : presentWrite r data mask s = toDirect r data mask s := by
  unfold presentWrite
  simp only [h]

theorem presentWrite_slot {s : State} {r : HostReq} {mask : Mask} (h : writeRoute s r.hla mask s.policy.active.posting = .slot)
    (data : LineData) : presentWrite r data mask s = toSlot r data mask s.policy.active.posting s := by
  unfold presentWrite
  simp only [h]

/-- The arrival of a request that is accepted (R25). -/
theorem arrive_accepted {kind : ReqKind} {tag : Tag} {hla : Option Nat} {accepted : State → State} {s : State}
    (h : tag ∉ s.host.tags) (hr : refusal s hla = none) :
    arrive kind tag hla accepted (nextEvent s) =
      accepted ((arrived kind tag hla s).setHost { s.host with tags := s.host.tags ++ [tag] }) := by
  unfold arrive
  have hclash : ¬ (addTrace kind tag hla (nextEvent s)).host.tags.contains tag = true := by
    show ¬ s.host.tags.contains tag = true
    simpa using h
  have hpasses : refusal
      ((addTrace kind tag hla (nextEvent s)).setHost
        { (addTrace kind tag hla (nextEvent s)).host with tags := (addTrace kind tag hla (nextEvent s)).host.tags ++ [tag] })
      hla = none := hr
  rw [if_neg hclash]
  dsimp only
  rw [hpasses]
  rfl

/-- Settles O17: an empty write ends at its arrival; the others by the rows of R46. -/
theorem writesOutsideBuffer : Obligations.WritesOutsideBuffer := by
  refine ⟨fun s tag hla mask data t => ⟨fun hmask hop htag hbelow hclosing ht => ?_, fun hmask hpartial hnow he hpending ht hcalm =>
    ?_⟩, fun s tag hla mask data t hmask hposting hnow hline ht hsteady => ?_⟩
  · have hnew : tagOf tag ∉ s.host.tags := by simpa using htag
    have heffect : arrive .write (tagOf tag) (some hla.toNat) (acceptWrite (tagOf tag) hla.toNat mask data) (nextEvent s) = t := by
      rw [arrive_accepted hnew (refusal_none hop hbelow hclosing), ht, acceptWrite, if_pos hmask]
      simp only [sendResponse, State.setHost_host, release_new hnew]
      rfl
    exact congrArg (fun u => Host.Outcome.next (settle u)) heffect
  · refine exec_write_calm hmask hnow ?_ hcalm
    rw [ht]
    refine (presentWrite_poisonHit (s := joined .write (tagOf tag) hla.toNat (some (data, mask)) s)
      (r := newRequest (tagOf tag) hla.toNat (some (data, mask)) s)
      (writeRoute_poisonHit hpartial (newestEntry_none he) hpending _) data).trans ?_
    rw [answerReq_new hnow rfl rfl]
    rfl
  · refine exec_write_steady hmask hnow ?_ hsteady
    rw [ht]
    have hroute : writeRoute s hla.toNat mask s.policy.active.posting = .direct := by
      rw [writeRoute_held _ hline, hposting]
      rfl
    refine (presentWrite_direct (s := joined .write (tagOf tag) hla.toNat (some (data, mask)) s)
      (r := newRequest (tagOf tag) hla.toNat (some (data, mask)) s) hroute data).trans ?_
    exact setStage_new hnow rfl

/-- A posted WRITE makes a new entry where the line has none and there is room (R76). -/
theorem toBuffer_new {s : State} {r : HostReq} (he : newestEntry s r.hla = none) (hroom : s.buf.entries.length < 8)
    (data : LineData) (mask : Mask) :
    toBuffer r data mask s = answerReq r .write .done none (newEntry r.hla data mask (riseEpoch s)) := by
  unfold toBuffer enterBuffer
  simp only [he, if_pos (show s.buf.entries.length < Config.bufferEntries from hroom)]

/-- A posted WRITE merges into a WAITING newest entry (R76). -/
theorem toBuffer_merges {s : State} {r : HostReq} {e : Item} (he : newestEntry s r.hla = some e) (hphase : e.phase = .waiting)
    (data : LineData) (mask : Mask) :
    toBuffer r data mask s = answerReq r .write .done none (mergeEntry e.id data mask (riseEpoch s)) := by
  unfold toBuffer enterBuffer
  simp only [he, hphase, if_true]

/-- Settles O18: the buffer route, with a new entry or a merge. -/
theorem postedWriteEntersBuffer : Obligations.PostedWriteEntersBuffer := by
  intro s tag hla mask data t hmask hposting hnow
  have hheld : (newestEntry s hla.toNat).isSome = true ∨
      (isMoving s hla.toNat = false ∧ (isPending s hla.toNat = false ∨ mask = fullMask)) →
      writeRoute s hla.toNat mask s.policy.active.posting = .buffer := fun h => by
    rw [writeRoute_held _ h, hposting]
    rfl
  refine ⟨fun he hmoving hline hroom ht hsteady => ?_, fun e he hphase ht hsteady => ?_⟩
  · refine exec_write_steady hmask hnow ?_ hsteady
    rw [ht]
    refine (presentWrite_buffer (s := joined .write (tagOf tag) hla.toNat (some (data, mask)) s)
      (r := newRequest (tagOf tag) hla.toNat (some (data, mask)) s) (hheld (.inr ⟨hmoving, hline⟩)) data).trans ?_
    refine (toBuffer_new (s := joined .write (tagOf tag) hla.toNat (some (data, mask)) s)
      (r := newRequest (tagOf tag) hla.toNat (some (data, mask)) s) (newestEntry_none he) hroom data mask).trans ?_
    rw [answerReq_new hnow rfl rfl]
    rfl
  · refine exec_write_steady hmask hnow ?_ hsteady
    rw [ht]
    refine (presentWrite_buffer (s := joined .write (tagOf tag) hla.toNat (some (data, mask)) s)
      (r := newRequest (tagOf tag) hla.toNat (some (data, mask)) s) (hheld (.inl (Option.isSome_of_mem he))) data).trans ?_
    refine (toBuffer_merges (s := joined .write (tagOf tag) hla.toNat (some (data, mask)) s)
      (r := newRequest (tagOf tag) hla.toNat (some (data, mask)) s) he hphase data mask).trans ?_
    rw [answerReq_new hnow rfl rfl]
    rfl

theorem lowerEpoch_some (e : Option Nat) (n : Nat) :
    lowerEpoch e (some n) = some (match e with | some m => min m n | none => n) := by
  cases e <;> rfl

theorem lowerEpoch_none (e : Option Nat) : lowerEpoch e none = e := by
  cases e <;> rfl

/-- A merge into a slot, as the slots it leaves (R97, R100). -/
theorem mergeSlot_eq (home : Nat) (data : LineData) (mask : Mask) (epoch : Option Nat) (writes : List WaitingWrite) (s : State) :
    mergeSlot home data mask epoch writes s =
      s.setReloc
        { s.reloc with
          slots := s.reloc.slots.map fun q =>
            if q.home == home then
              { q with
                data := mergeLine q.data data mask
                dirty := q.dirty || slotWriteInFlight s home || q.state == .journaling
                epoch := lowerEpoch q.epoch epoch
                waiting := q.waiting ++ writes }
            else q } := rfl

theorem toSlot_posted {posted : Bool} {r : HostReq} (h : posted = true) (data : LineData) (mask : Mask) (s : State) :
    toSlot r data mask posted s =
      answerReq r .write .done none (mergeSlot r.hla data mask (some (s.host.epochCount + 1)) [] (riseEpoch s)) := by
  subst h
  rfl

theorem toSlot_unposted {posted : Bool} {r : HostReq} (h : posted = false) (data : LineData) (mask : Mask) (s : State) :
    toSlot r data mask posted s = dropReq r.id (mergeSlot r.hla data mask none [{ tag := r.tag, live := r.live }] s) := by
  subst h
  rfl

/-- Settles O19: the slot route, posted or unposted. -/
theorem writeMergesIntoSlot : Obligations.WriteMergesIntoSlot := by
  intro s tag hla mask data t posted hmask hposting hnow he hmoving hslot hline
  obtain ⟨q, hq⟩ := Option.isSome_iff_exists.mp hslot
  have hroute : writeRoute s hla.toNat mask s.policy.active.posting = .slot :=
    writeRoute_slot _ (newestEntry_none he) (Option.isSome_of_mem (movingSlot_some hmoving hq)) hline
  have hpresent := presentWrite_slot (s := joined .write (tagOf tag) hla.toNat (some (data, mask)) s)
    (r := newRequest (tagOf tag) hla.toNat (some (data, mask)) s) hroute data
  refine ⟨fun hyes ht hcalm => ?_, fun hno ht hcalm => ?_⟩
  · refine exec_write_calm hmask hnow (hpresent.trans ((toSlot_posted (hposting.trans hyes) data mask _).trans ?_)) hcalm
    rw [answerReq_new hnow rfl rfl, ht]
    simp only [mergeSlot_eq, lowerEpoch_some, List.append_nil]
    rfl
  · refine exec_write_calm hmask hnow (hpresent.trans ((toSlot_unposted (hposting.trans hno) data mask _).trans ?_)) hcalm
    have hdrop := drop_new hnow (some (data, mask))
    rw [ht]
    simp only [mergeSlot_eq, lowerEpoch_none]
    exact congrArg
      (fun order => (((takeId (arrived .write (tagOf tag) (some hla.toNat) s)).setHost
        { s.host with tags := s.host.tags ++ [tagOf tag], order }).setReloc
        { s.reloc with slots := _ })) hdrop

/-! ### The host link reset (O21) -/

theorem droppedAtHrst_iff (r : HostReq) :
    droppedAtHrst r = true ↔ r.stage = .queued ∨ r.stage = .waitRoom ∨ (∃ e, r.stage = .waitEntry e) ∨
      ∃ l, r.stage = .inArray l ∧ l.granted = false := by
  unfold droppedAtHrst
  cases r.stage <;> simp

/-- Settles O21: what the reset drops is written out by stage (`droppedAtHrst_iff`). -/
theorem hostLinkResetReleasesTags : Obligations.HostLinkResetReleasesTags := by
  intro s t drops hdrops ht
  have heq : drops = droppedAtHrst := by
    funext r
    exact Bool.eq_iff_iff.mpr ((hdrops r).trans (droppedAtHrst_iff r).symm)
  subst heq
  have hreset : hostLinkReset (nextEvent s) = t := by
    rw [ht]
    unfold hostLinkReset
    simp only [List.contains_eq_any_beq, List.any_map]
    rfl
  exact congrArg (fun u => Host.Outcome.next (settle u)) hreset

end Sys2Proof.Machine
end

section
/-! What the shared operations leave unchanged, said once. The idea: a fault record reaches the Fault Log and the alert alone
(`writeFault_sets`), a deferred report the queue of reports and the alert, and what a read's outcome does to the tables reaches no
module of the host's, the journal's or the Service Port's side (`TablesOnly`). -/

namespace Sys2Proof.Machine

-- One theorem after another, as in the laws (see `Quiet`): the memory of the check does not hold all their threads at once.
set_option Elab.async false

/-! ### Fault records -/

section
variable (kind : FaultKind) (hla ala step : Option Nat) (s : State)

@[simp] theorem writeFault_host : (writeFault kind hla ala step s).host = s.host := by rw [writeFault_sets]; rfl
@[simp] theorem writeFault_map : (writeFault kind hla ala step s).map = s.map := by rw [writeFault_sets]; rfl
@[simp] theorem writeFault_array : (writeFault kind hla ala step s).array = s.array := by rw [writeFault_sets]; rfl
@[simp] theorem writeFault_buf : (writeFault kind hla ala step s).buf = s.buf := by rw [writeFault_sets]; rfl
@[simp] theorem writeFault_reloc : (writeFault kind hla ala step s).reloc = s.reloc := by rw [writeFault_sets]; rfl
@[simp] theorem writeFault_jour : (writeFault kind hla ala step s).jour = s.jour := by rw [writeFault_sets]; rfl
@[simp] theorem writeFault_survey : (writeFault kind hla ala step s).survey = s.survey := by rw [writeFault_sets]; rfl
@[simp] theorem writeFault_port : (writeFault kind hla ala step s).port = s.port := by rw [writeFault_sets]; rfl
@[simp] theorem writeFault_policy : (writeFault kind hla ala step s).policy = s.policy := by rw [writeFault_sets]; rfl
@[simp] theorem writeFault_tick : (writeFault kind hla ala step s).tick = s.tick := by rw [writeFault_sets]; rfl
@[simp] theorem writeFault_out : (writeFault kind hla ala step s).out = s.out := by rw [writeFault_sets]; rfl
@[simp] theorem writeFault_ids : (writeFault kind hla ala step s).ids = s.ids := by rw [writeFault_sets]; rfl
end

/-! ### Deferred reports -/

/-- A report reaches the queue of reports and the alert causes alone (R34). -/
theorem queueReport_sets (hla : Nat) (reason : ReportReason) (s : State) :
    ∃ reports alert, queueReport hla reason s = (s.setHost { s.host with reports }).setAlert alert := by
  unfold queueReport latch
  split
  · exact ⟨_, _, rfl⟩
  · exact ⟨s.host.reports, _, rfl⟩

section
variable (hla : Nat) (reason : ReportReason) (s : State)

@[simp] theorem queueReport_order : (queueReport hla reason s).host.order = s.host.order := by
  obtain ⟨reports, alert, h⟩ := queueReport_sets hla reason s
  rw [h]
  rfl

@[simp] theorem queueReport_barriers : (queueReport hla reason s).host.barriers = s.host.barriers := by
  obtain ⟨reports, alert, h⟩ := queueReport_sets hla reason s
  rw [h]
  rfl

@[simp] theorem queueReport_buf : (queueReport hla reason s).buf = s.buf := by
  obtain ⟨reports, alert, h⟩ := queueReport_sets hla reason s
  rw [h]
  rfl

@[simp] theorem queueReport_port : (queueReport hla reason s).port = s.port := by
  obtain ⟨reports, alert, h⟩ := queueReport_sets hla reason s
  rw [h]
  rfl
end

/-! ### Journal records -/

/-- An offered record reaches the Journal Controller alone (R119). -/
theorem offerRecord_sets (r : Record) (s : State) : ∃ jour, offerRecord r s = s.setJour jour := by
  unfold offerRecord
  split
  · exact ⟨_, rfl⟩
  · exact ⟨_, rfl⟩

section
variable (r : Record) (s : State)

@[simp] theorem offerRecord_map : (offerRecord r s).map = s.map := by
  obtain ⟨jour, h⟩ := offerRecord_sets r s
  rw [h]
  rfl

@[simp] theorem offerRecord_reloc : (offerRecord r s).reloc = s.reloc := by
  obtain ⟨jour, h⟩ := offerRecord_sets r s
  rw [h]
  rfl

@[simp] theorem offerRecord_survey : (offerRecord r s).survey = s.survey := by
  obtain ⟨jour, h⟩ := offerRecord_sets r s
  rw [h]
  rfl

@[simp] theorem offerRecord_policy : (offerRecord r s).policy = s.policy := by
  obtain ⟨jour, h⟩ := offerRecord_sets r s
  rw [h]
  rfl
end

/-! ### What a read's outcome reaches -/

/-- The two states differ in the tables (the map and the Relocation Engine), the arbiter, the log, the alert and the identities
alone. -/
structure TablesOnly (s t : State) : Prop where
  host : t.host = s.host
  buf : t.buf = s.buf
  jour : t.jour = s.jour
  start : t.start = s.start
  survey : t.survey = s.survey
  port : t.port = s.port
  policy : t.policy = s.policy
  tick : t.tick = s.tick
  out : t.out = s.out

theorem TablesOnly.refl (s : State) : TablesOnly s s := ⟨rfl, rfl, rfl, rfl, rfl, rfl, rfl, rfl, rfl⟩

theorem TablesOnly.trans {s t u : State} (h : TablesOnly s t) (k : TablesOnly t u) : TablesOnly s u :=
  ⟨k.host.trans h.host, k.buf.trans h.buf, k.jour.trans h.jour, k.start.trans h.start, k.survey.trans h.survey,
    k.port.trans h.port, k.policy.trans h.policy, k.tick.trans h.tick, k.out.trans h.out⟩

theorem TablesOnly.setMap (s : State) (v : MapState) : TablesOnly s (s.setMap v) := ⟨rfl, rfl, rfl, rfl, rfl, rfl, rfl, rfl, rfl⟩

theorem TablesOnly.setReloc (s : State) (v : Retirement) : TablesOnly s (s.setReloc v) :=
  ⟨rfl, rfl, rfl, rfl, rfl, rfl, rfl, rfl, rfl⟩

theorem TablesOnly.latch (c : AlertCause) (s : State) : TablesOnly s (latch c s) := ⟨rfl, rfl, rfl, rfl, rfl, rfl, rfl, rfl, rfl⟩

theorem TablesOnly.placeRequest (body : ReqBody) (s : State) : TablesOnly s (placeRequest body s) :=
  ⟨rfl, rfl, rfl, rfl, rfl, rfl, rfl, rfl, rfl⟩

theorem TablesOnly.writeFault (kind : FaultKind) (hla ala step : Option Nat) (s : State) :
    TablesOnly s (writeFault kind hla ala step s) := by
  rw [writeFault_sets]
  exact ⟨rfl, rfl, rfl, rfl, rfl, rfl, rfl, rfl, rfl⟩

theorem TablesOnly.pendingAdd (hla : Nat) (origin : PendingOrigin) (s : State) : TablesOnly s (pendingAdd hla origin s) := by
  unfold Machine.pendingAdd
  split
  · exact .refl s
  split
  · split
    · exact .setReloc s _
    · exact .refl s
  split
  · exact (TablesOnly.latch .pendingFull s).trans (.writeFault ..)
  · exact (TablesOnly.setReloc s _).trans (.setReloc _ _)

theorem TablesOnly.allocateFor (home : Nat) (s : State) : TablesOnly s (allocateFor home s).2 := by
  unfold Machine.allocateFor allocate
  split
  · split
    · exact .setMap s _
    · exact .latch .sparesOut s
  · exact .refl s

theorem TablesOnly.beginRelocation (home spare : Nat) (cause : RelocCause) (data : LineData) (epoch : Option Nat)
    (writes : List WaitingWrite) (s : State) : TablesOnly s (beginRelocation home spare cause data epoch writes s) := by
  unfold Machine.beginRelocation
  refine TablesOnly.trans ?_ (.placeRequest _ _)
  dsimp only
  split
  · exact ((TablesOnly.setMap s _).trans (.setReloc _ _)).trans ((TablesOnly.setReloc _ _).trans (.setReloc _ _))
  · exact ((TablesOnly.setMap s _).trans (.setReloc _ _)).trans (.setReloc _ _)

theorem TablesOnly.offerRead (cause : RelocCause) (home : Nat) (data : LineData) (s : State) :
    TablesOnly s (offerRead cause home data s) := by
  have halloc := TablesOnly.allocateFor home s
  unfold Machine.offerRead
  split
  · exact .refl s
  split
  · split
    · next spare t h =>
      rw [h] at halloc
      exact halloc.trans (.beginRelocation ..)
    · next t h =>
      rw [h] at halloc
      exact halloc.trans (.setReloc _ _)
  · exact .setReloc s _

theorem TablesOnly.watchUpdate (hla : Nat) (data : LineData) (s : State) : TablesOnly s (watchUpdate hla data s) := by
  unfold Machine.watchUpdate
  split
  · exact .refl s
  · dsimp only
    split
    · exact (TablesOnly.setReloc s _).trans (.offerRead ..)
    · exact .setReloc s _

/-- What a read's final outcome does reaches the tables alone (R67, R68). -/
theorem TablesOnly.dispatchRead (hla ala step : Nat) (origin : PendingOrigin) (outcome : Classification) (s : State) :
    TablesOnly s (dispatchRead hla ala step origin outcome s) := by
  have hunwatch : TablesOnly s (unwatch hla s) := .setReloc s _
  unfold Machine.dispatchRead
  cases outcome with
  | clean data =>
    dsimp only
    split
    · exact .refl s
    · exact .watchUpdate ..
  | corrected data =>
    dsimp only
    split
    · exact .watchUpdate ..
    · exact (hunwatch.trans (.offerRead ..)).trans (.writeFault ..)
  | uncorrectable => exact (hunwatch.trans (.writeFault ..)).trans (.pendingAdd ..)

end Sys2Proof.Machine
end

section
/-! BARRIERs (O20; R31 to R33, R78, R85). The idea: what a waiting BARRIER is answered is a matter of what it covers (`barrierVerdict`);
with one BARRIER waiting, settling is that verdict, and an event in which nothing else is due ends with it. -/

namespace Sys2Proof.Machine

-- One theorem after another, as in the laws (see `Quiet`): the memory of the check does not hold all their threads at once.
set_option Elab.async false

/-! ### What a BARRIER covers -/

theorem coveredBy_iff (b : Barrier) (epoch : Option Nat) : coveredBy b epoch = true ↔ ∃ n, epoch = some n ∧ n ≤ b.epoch := by
  cases epoch <;> simp [coveredBy]

theorem coveredBy_false (b : Barrier) (epoch : Option Nat) : coveredBy b epoch = false ↔ ∀ n, epoch = some n → b.epoch < n := by
  cases epoch <;> simp [coveredBy]

theorem coversSomething_iff (s : State) (b : Barrier) :
    coversSomething s b = true ↔ (∃ e ∈ s.buf.entries, ∃ n, e.epoch = some n ∧ n ≤ b.epoch) ∨
      ∃ q ∈ s.reloc.slots, ∃ n, q.epoch = some n ∧ n ≤ b.epoch := by
  simp only [coversSomething, Bool.or_eq_true, List.any_eq_true, coveredBy_iff]

theorem coversSomething_none {s : State} {b : Barrier} (he : ∀ e ∈ s.buf.entries, ∀ n, e.epoch = some n → b.epoch < n)
    (hq : ∀ q ∈ s.reloc.slots, ∀ n, q.epoch = some n → b.epoch < n) : coversSomething s b = false := by
  simp only [coversSomething, Bool.or_eq_false_iff, List.any_eq_false, Bool.not_eq_true, coveredBy_false]
  exact ⟨he, hq⟩

theorem waitsForSlot_iff (s : State) (id : Nat) :
    waitsForSlot s id = true ↔ ∃ home cause, QueueItem.request (.entry id) home cause ∈ s.reloc.queue := by
  unfold waitsForSlot
  rw [List.any_eq_true]
  constructor
  · rintro ⟨q, hq, hmatch⟩
    split at hmatch
    · next e home cause =>
      rw [beq_iff_eq] at hmatch
      subst hmatch
      exact ⟨home, cause, hq⟩
    · cases hmatch
  · rintro ⟨home, cause, hq⟩
    exact ⟨_, hq, beq_self_eq_true id⟩

theorem coversSlotData_iff (s : State) (b : Barrier) :
    coversSlotData s b = true ↔ (∃ q ∈ s.reloc.slots, ∃ n, q.epoch = some n ∧ n ≤ b.epoch) ∨
      ∃ e ∈ s.buf.entries, ∃ n home cause, e.epoch = some n ∧ n ≤ b.epoch ∧
        QueueItem.request (.entry e.id) home cause ∈ s.reloc.queue := by
  simp only [coversSlotData, Bool.or_eq_true, List.any_eq_true, Bool.and_eq_true, coveredBy_iff, waitsForSlot_iff]
  refine or_congr_right (exists_congr fun e => and_congr_right fun _ => ?_)
  constructor
  · rintro ⟨⟨n, hn, hle⟩, home, cause, hq⟩
    exact ⟨n, home, cause, hn, hle, hq⟩
  · rintro ⟨n, home, cause, hn, hle, hq⟩
    exact ⟨⟨n, hn, hle⟩, home, cause, hq⟩

theorem coversSlotData_none {s : State} {b : Barrier} (h : coversSomething s b = false) : coversSlotData s b = false := by
  rw [Bool.eq_false_iff, Ne, coversSlotData_iff]
  rw [Bool.eq_false_iff, Ne, coversSomething_iff, not_or] at h
  obtain ⟨hentries, hslots⟩ := h
  rintro (hslot | ⟨e, he, n, home, cause, hn, hle, hq⟩)
  · exact hslots hslot
  · exact hentries ⟨e, he, n, hn, hle⟩

theorem barrierVerdict_done {s : State} {b : Barrier} (h : coversSomething s b = false) : barrierVerdict s b = some .done := by
  unfold barrierVerdict
  rw [if_neg (fun hc => Bool.false_ne_true ((coversSlotData_none h).symm.trans hc.2)), h, if_neg Bool.false_ne_true]

theorem barrierVerdict_incomplete {s : State} {b : Barrier} (hst : s.jour.state = .stalled) (h : coversSlotData s b = true) :
    barrierVerdict s b = some .incomplete := by
  unfold barrierVerdict
  exact if_pos ⟨hst, h⟩

theorem barrierVerdict_waits {s : State} {b : Barrier} (h : coversSomething s b = true)
    (hst : s.jour.state ≠ .stalled ∨ coversSlotData s b = false) : barrierVerdict s b = none := by
  unfold barrierVerdict
  rw [if_neg, if_pos h]
  rintro ⟨hstalled, hslot⟩
  exact hst.elim (fun hne => hne hstalled) fun hfalse => Bool.false_ne_true (hfalse.symm.trans hslot)

/-! ### One waiting BARRIER -/

/-- The state in which the one waiting BARRIER has been answered: it carries the oldest deferred report (R35). -/
def barrierAnswered (b : Barrier) (status : HostStatus) (s : State) : State :=
  responded (reportingAnswer .barrier b.tag status s)
    (s.setHost
      { s.host with barriers := [], tags := s.host.tags.filter (· != b.tag), reports := s.host.reports.drop 1 })

theorem answerBarriers_one {s : State} {b : Barrier} (hb : s.host.barriers = [b]) {verdict : Barrier → Option HostStatus}
    {status : HostStatus} (h : verdict b = some status) : answerBarriers verdict s = barrierAnswered b status s := by
  unfold answerBarriers
  simp only [hb, List.filter_cons, List.filter_nil, h, Option.isSome_some, Option.isNone_some, if_true, Bool.false_eq_true, if_false,
    List.length_cons, List.length_nil, freeOrder, List.foldl_cons, List.foldl_nil]
  rfl

theorem answerBarriers_waits {s : State} {b : Barrier} (hb : s.host.barriers = [b]) {verdict : Barrier → Option HostStatus}
    (h : verdict b = none) : answerBarriers verdict s = s := by
  unfold answerBarriers
  simp only [hb, List.filter_cons, List.filter_nil, h, Option.isSome_none, Option.isNone_none, if_true, Bool.false_eq_true, if_false,
    List.length_nil, freeOrder, List.foldl_nil]
  rw [← hb]
  rfl

theorem failCovered_one {s : State} {b : Barrier} (hb : s.host.barriers = [b]) {n : Nat} (h : n ≤ b.epoch) :
    failCovered (some n) s = barrierAnswered b .incomplete s :=
  answerBarriers_one hb (if_pos ((coveredBy_iff b (some n)).mpr ⟨n, rfl, h⟩))

/-! ### Events in which nothing but the BARRIER is due -/

/-- No internal step is due when nothing waits for one. -/
theorem microStep_none {s : State} (hqueue : s.reloc.queue = []) (hheld : heldNext s = none) (hroom : s.host.roomWait = [])
    (hwait : s.jour.wait = []) (horder : ∀ r ∈ s.host.order, r.stage ≠ .queued) (hdecide : decideNext s = none) :
    microStep s = none := by
  have hhandoff : handoffNext s = none := by
    unfold handoffNext
    rw [hqueue]
    split <;> rfl
  have hentry : roomEntryNext s = none := by
    unfold roomEntryNext
    rw [hroom]
  have hpresent : presentNext s = none := by
    unfold presentNext
    rw [firstReady_none _ _ horder]
    rfl
  have hjoin : joinNext s = none := by
    unfold joinNext
    rw [hwait]
  unfold microStep
  rw [hheld, hhandoff, hentry, hpresent, hjoin, hdecide]
  rfl

/-- An event that leaves the BARRIERs alone to settle. -/
theorem settle_barriers {u t : State} (hstep : microStep u = none) (hdrained : drained u = true) (hbarriers : settleBarriers u = t)
    (hquiesce : quiesceNext t = none) : settle u = evalLevels t := by
  have hloop : settleLoop (settleFuel u) u = u := by
    unfold settleFuel
    rw [settleLoop, hstep]
  unfold settle
  rw [hloop, placeDrains_drained hdrained, hbarriers]
  unfold settleQuiesce
  rw [hquiesce]
  rfl

/-- The same where the state that the BARRIERs' answers leave is calm: they reach the host's side alone. -/
theorem settle_barriers_calm {u t : State} (hbarriers : settleBarriers u = t) (hcalm : calm t = true)
    (hout : ∃ host out, t = (u.setHost host).setOut out ∧ host.order = u.host.order ∧ host.roomWait = u.host.roomWait) :
    settle u = evalLevels t := by
  obtain ⟨hsteady, hdrained⟩ := (calm_iff t).mp hcalm
  obtain ⟨hqueue, hheld, hroom, hwait, -, horder, hdecide, hquiesce⟩ := (steady_iff t).mp hsteady
  obtain ⟨host, out, ht, hsame, hrooms⟩ := hout
  refine settle_barriers (microStep_none ?_ ?_ ?_ ?_ ?_ ?_) ?_ hbarriers hquiesce
  · rw [ht] at hqueue
    exact hqueue
  · rw [heldNext_none_iff, ht] at hheld
    exact (heldNext_none_iff u).mpr hheld
  · rw [ht] at hroom
    exact hrooms ▸ hroom
  · rw [ht] at hwait
    exact hwait
  · rw [ht] at horder
    exact hsame ▸ horder
  · rw [decideNext_none_iff, ht] at hdecide
    exact (decideNext_none_iff u).mpr hdecide
  · rw [ht] at hdrained
    exact hdrained

/-- An arrived BARRIER, before it is answered (R31, R78). -/
def barrierWaiting (tag : Tag) (s : State) : State :=
  (arrived .barrier tag none s).setHost
    { s.host with tags := s.host.tags ++ [tag], barriers := [{ tag, epoch := s.host.epochCount }] }

theorem exec_barrier_waiting {s : State} {tag : Byte} (hop : s.start.op = .running) (hnew : tagOf tag ∉ s.host.tags)
    (hnone : s.host.barriers = []) : exec (.barrier tag) s = .next (settle (barrierWaiting (tagOf tag) s)) := by
  have hrefusal : refusal s none = none := by
    unfold refusal
    rw [if_neg (not_not_intro hop)]
  have heffect : arrive .barrier (tagOf tag) none (acceptBarrier (tagOf tag)) (nextEvent s) = barrierWaiting (tagOf tag) s := by
    rw [arrive_accepted hnew hrefusal]
    unfold acceptBarrier
    simp only [State.setHost_host, hnone, List.nil_append]
    rfl
  exact congrArg (fun u => Host.Outcome.next (settle u)) heffect

/-- A BARRIER that arrives where nothing is due. -/
theorem settle_barrierWaiting {s t : State} {tag : Tag} (hop : s.start.op = .running) (hcalm : calm s = true)
    (hbarriers : settleBarriers (barrierWaiting tag s) = t) (hstart : t.start = s.start) :
    settle (barrierWaiting tag s) = evalLevels t := by
  obtain ⟨hsteady, hdrained⟩ := (calm_iff s).mp hcalm
  obtain ⟨hqueue, hheld, hroom, hwait, -, horder, hdecide, -⟩ := (steady_iff s).mp hsteady
  refine settle_barriers (microStep_none hqueue ?_ hroom hwait horder ?_) hdrained hbarriers (quiesceNext_none ?_)
  · exact (heldNext_none_iff (barrierWaiting tag s)).mpr ((heldNext_none_iff s).mp hheld)
  · exact (decideNext_none_iff (barrierWaiting tag s)).mpr ((decideNext_none_iff s).mp hdecide)
  · rw [hstart, hop]
    exact nofun

/-! ### Writes that end a covered entry -/

theorem findItem_answerTaken (rest : List Flight) (s : State) (ref : ItemRef) :
    findItem (answerTaken rest s) ref = findItem s ref := by
  cases ref <;> rfl

/-- A drain write's answer is taken by its item (R56, R70). -/
theorem exec_drainWriteAnswer {s : State} {ala step : Nat} {data : LineData} {ref : ItemRef} {rest : List Flight}
    (hflight : s.array.inFlight = inFlightNow (.write ala data) (.drainWrite ref) step :: rest) (answer : WriteAnswer) :
    exec (.drainWriteAnswer answer) s = .next (settle (drainOutcome ref answer (answerTaken rest s))) := by
  have htaken := answerEvent_taken (accepts := Owner.isDrainWrite) (effect := takeWrite answer) hflight rfl rfl
  refine congrArg Host.Outcome.next (htaken.trans (congrArg settle ?_))
  rfl

theorem drainOutcome_done {s : State} {ref : ItemRef} {item : Item} (h : findItem s ref = some item) :
    drainOutcome ref .done s = drainDone ref item s := by
  unfold drainOutcome
  rw [h]

theorem drainOutcome_fault {s : State} {ref : ItemRef} {item : Item} (h : findItem s ref = some item) :
    drainOutcome ref .fault s = drainFault ref item s := by
  unfold drainOutcome
  rw [h]

/-- An in-place write's answer is taken by its item (R56, R95). -/
theorem exec_inPlaceWriteAnswer {s : State} {ala step : Nat} {data : LineData} {ref : ItemRef} {rest : List Flight}
    (hflight : s.array.inFlight = inFlightNow (.write ala data) (.inPlace ref) step :: rest) (answer : WriteAnswer) :
    exec (.inPlaceWriteAnswer answer) s = .next (settle (inPlaceOutcome ref answer (answerTaken rest s))) := by
  have htaken := answerEvent_taken (accepts := Owner.isInPlace) (effect := takeWrite answer) hflight rfl rfl
  refine congrArg Host.Outcome.next (htaken.trans (congrArg settle ?_))
  rfl

theorem inPlaceOutcome_done {s : State} {ref : ItemRef} {item : Item} (h : findItem s ref = some item) :
    inPlaceOutcome ref .done s = completeItem ref (unpend item.hla s) := by
  unfold inPlaceOutcome
  rw [h]

theorem inPlaceOutcome_fault {s : State} {ref : ItemRef} {item : Item} (h : findItem s ref = some item) :
    inPlaceOutcome ref .fault s = inPlaceFault ref item s := by
  unfold inPlaceOutcome
  rw [h]

/-- An entry on which no READ waits leaves the buffer (R81). -/
theorem leaveItem_entry {s : State} {id : Nat} (h : ∀ r ∈ s.host.order, r.stage ≠ .waitEntry id) :
    leaveItem (.entry id) s = s.setBuf { s.buf with entries := s.buf.entries.filter (·.id != id) } := by
  show requeueWaiters id (s.setBuf { s.buf with entries := s.buf.entries.filter (·.id != id) }) = _
  unfold requeueWaiters
  rw [State.setBuf_host, requeue_none h]
  rfl

/-- An entry leaves, and the READs that wait on it are routed again (R42, R81). -/
theorem leaveItem_requeues (id : Nat) (s : State) :
    leaveItem (.entry id) s =
      (s.setBuf { s.buf with entries := s.buf.entries.filter (·.id != id) }).setHost
        { s.host with
          order := s.host.order.map fun r => if r.stage = .waitEntry id then { r with stage := .queued } else r } := rfl

/-- Settles O20: one waiting BARRIER is answered by its verdict, and the events that end covered data lead to that verdict. -/
theorem barrierAnsweredOrWaits : Obligations.BarrierAnsweredOrWaits := by
  refine ⟨fun s tag covered t hop htag hcalm hcovered => ?_, fun s b answer hb hanswer => ?_⟩
  · have hnew : tagOf tag ∉ s.host.tags := by simpa using htag
    have hnone : s.host.barriers = [] := by
      obtain ⟨hsteady, -⟩ := (calm_iff s).mp hcalm
      obtain ⟨-, -, -, -, hbarriers, -⟩ := (steady_iff s).mp hsteady
      exact hbarriers
    have hexec := exec_barrier_waiting hop hnew hnone
    have hcovers : coversSomething (barrierWaiting (tagOf tag) s) { tag := tagOf tag, epoch := s.host.epochCount } = covered := by
      rw [hcovered, Bool.eq_iff_iff, coversSomething_iff, Bool.or_eq_true, List.any_eq_true, List.any_eq_true]
      simp only [decide_eq_true_eq]
      rfl
    refine ⟨fun hfalse ht => ?_, fun htrue hst ht => ?_⟩
    · have hsettled : settleBarriers (barrierWaiting (tagOf tag) s) = t := by
        rw [ht]
        refine (answerBarriers_one rfl (barrierVerdict_done (hcovers.trans hfalse))).trans ?_
        unfold barrierAnswered
        rw [← hnone]
        simp only [barrierWaiting, State.setHost_host, release_new hnew]
        rfl
      rw [hexec, settle_barrierWaiting hop hcalm hsettled (by rw [ht]; rfl)]
    · have hsettled : settleBarriers (barrierWaiting (tagOf tag) s) = t := by
        rw [ht]
        exact answerBarriers_waits rfl (barrierVerdict_waits (hcovers.trans htrue) (.inl hst))
      rw [hexec, settle_barrierWaiting hop hcalm hsettled (by rw [ht]; rfl)]
  · have hanswer' : ∀ status x, answer status x = barrierAnswered b status x := hanswer
    refine ⟨fun he hq => ?_, fun hst hcovers => ?_, fun hcovers hnoslot => ?_, fun hcovers hst => ?_, ?_, fun n => ⟨fun hle => ?_,
      fun hlt => ?_⟩, fun id ala step data rest e t he hwaiters => ⟨fun hflight hmoving hothers hslots ht hcalm => ?_,
      fun n v hflight hn hle hv ht => ?_⟩⟩
    · rw [hanswer']
      exact answerBarriers_one hb (barrierVerdict_done (coversSomething_none he hq))
    · rw [hanswer']
      exact answerBarriers_one hb (barrierVerdict_incomplete hst ((coversSlotData_iff s b).mpr hcovers))
    · refine answerBarriers_waits hb (barrierVerdict_waits ((coversSomething_iff s b).mpr (.inl hcovers)) ?_)
      refine hnoslot.imp_right fun ⟨hslots, hqueue⟩ => ?_
      rw [Bool.eq_false_iff, Ne, coversSlotData_iff]
      rintro (⟨q, hq, n, hn, hle⟩ | ⟨x, -, n, home, cause, -, -, hmem⟩)
      · exact Nat.not_le.mpr (hslots q hq n hn) hle
      · rw [hqueue] at hmem
        cases hmem
    · exact answerBarriers_waits hb (barrierVerdict_waits ((coversSomething_iff s b).mpr (.inr hcovers)) (.inl hst))
    · exact answerBarriers_waits hb rfl
    · rw [hanswer']
      exact failCovered_one hb hle
    · refine answerBarriers_waits hb (if_neg ?_)
      rw [(coveredBy_false b (some n)).mpr fun m hm => Option.some.inj hm ▸ hlt]
      exact Bool.false_ne_true
    · rw [exec_drainWriteAnswer hflight, drainOutcome_done ((findItem_answerTaken rest s _).trans he)]
      refine congrArg Host.Outcome.next ?_
      have hdone : drainDone (.entry id) e (answerTaken rest s) =
          ((answerTaken rest s).setReloc
            { s.reloc with pendingList := s.reloc.pendingList.filter (·.hla != e.hla) }).setBuf
            { s.buf with entries := s.buf.entries.filter (·.id != id) } := by
        unfold drainDone
        rw [show isMoving (answerTaken rest s) e.hla = false from hmoving, if_neg Bool.false_ne_true]
        exact leaveItem_entry (s := unpend e.hla (answerTaken rest s)) hwaiters
      rw [hdone]
      rw [hanswer'] at ht
      refine settle_barriers_calm ?_ hcalm ⟨_, _, ht, rfl, rfl⟩
      rw [ht]
      refine answerBarriers_one (by exact hb) (barrierVerdict_done (coversSomething_none (fun x hx => ?_) (by exact hslots)))
      obtain ⟨hmem, hid⟩ := List.mem_filter.mp hx
      exact hothers x hmem (by simpa using hid)
    · rw [exec_inPlaceWriteAnswer hflight, inPlaceOutcome_fault ((findItem_answerTaken rest s _).trans he)]
      refine congrArg (fun u => Host.Outcome.next (settle u)) ?_
      have hleft : leaveItem (.entry id) v = v.setBuf { s.buf with entries := s.buf.entries.filter (·.id != id) } := by
        have horder : v.host.order = s.host.order := by rw [hv, queueReport_order, writeFault_host]; rfl
        have hbuf : v.buf = s.buf := by rw [hv, queueReport_buf, writeFault_buf]; rfl
        rw [leaveItem_entry (by rw [horder]; exact hwaiters), hbuf]
      have hbarriers : v.host.barriers = [b] := by rw [hv, queueReport_barriers, writeFault_host]; exact hb
      show failCovered e.epoch (leaveItem (.entry id)
        (queueReport e.hla .noSpare (writeFault .homeWriteFault (some e.hla) (some e.place) none (answerTaken rest s)))) = t
      rw [← hv, hleft, ht, hanswer', hn]
      exact failCovered_one (by exact hbarriers) hle

end Sys2Proof.Machine
end

section
/-! Reads that the array answers (O23, O24, O25) and the timeout of one (O34). The idea: an answer comes to the outcome that its requester
takes (`exec_hostReadAnswer` and the like); a ladder below its depth places its next step, and one that has ended is dispatched. -/

namespace Sys2Proof.Machine

-- One theorem after another, as in the laws (see `Quiet`): the memory of the check does not hold all their threads at once.
set_option Elab.async false

/-! ### The dispatch (O23) -/

/-- Settles O23: the five rows are the branches of `dispatchRead`. -/
theorem readOutcomeDispatch : Obligations.ReadOutcomeDispatch := by
  intro s hla ala step origin data
  exact ⟨rfl, fun hstep => if_neg hstep, rfl, fun hstep => if_neg hstep, rfl⟩

/-! ### Host reads (O24, O34) -/

theorem exec_hostReadAnswer {s : State} {id ala step : Nat} {rest : List Flight}
    (hflight : s.array.inFlight = inFlightNow (.read ala) (.hostRead id) step :: rest) (line : ArrayLine) :
    exec (.hostReadAttemptAnswer line) s = .next (settle (hostReadOutcome id (classify ala line) (answerTaken rest s))) := by
  have htaken := answerEvent_taken (accepts := Owner.isHostRead) (effect := takeRead line) hflight rfl rfl
  refine congrArg Host.Outcome.next (htaken.trans (congrArg settle ?_))
  rfl

/-- Below the sampled depth the next step waits with the age of step 0 (R66). -/
theorem hostReadOutcome_retries {s : State} {id : Nat} {r : HostReq} {l : Ladder} (hr : findReq s id = some r)
    (hstage : r.stage = .inArray l) (hstep : l.step < l.depth) :
    hostReadOutcome id .uncorrectable s =
      placeAged (.hostRead id) l.age (setStage id (.inArray { l with step := l.step + 1 }) s) := by
  unfold hostReadOutcome
  simp only [hr, hstage, hstep, and_self, if_true]

theorem hostReadOutcome_ends {s : State} {id : Nat} {r : HostReq} {l : Ladder} {c : Classification} (hr : findReq s id = some r)
    (hstage : r.stage = .inArray l) (hend : c = .uncorrectable → l.depth ≤ l.step) :
    hostReadOutcome id c s = hostReadEnd r l c s := by
  have hlast : ¬ (c = .uncorrectable ∧ l.step < l.depth) := fun h => Nat.not_lt.mpr (hend h.1) h.2
  unfold hostReadOutcome
  simp only [hr, hstage, if_neg hlast]

/-- The READ is answered by the class of its last attempt (R67). -/
theorem hostReadEnd_answers {r : HostReq} {l : Ladder} {c : Classification} {status : HostStatus} {data : Option LineData} {u : State}
    (s : State) (hpoison : c = .uncorrectable → status = .poison ∧ data = none) (hclean : ∀ d, c = .clean d → status = .ok ∧ data = some d)
    (hcorrected : ∀ d, c = .corrected d → status = .corrected ∧ data = some d)
    (hu : u = dispatchRead r.hla l.ala l.step (if l.ala = r.hla then .hostRead else .spareRead) c s) :
    hostReadEnd r l c s = answerReq r .read status data u := by
  unfold hostReadEnd
  cases c with
  | clean d =>
    obtain ⟨rfl, rfl⟩ := hclean d rfl
    rw [hu]
  | corrected d =>
    obtain ⟨rfl, rfl⟩ := hcorrected d rfl
    rw [hu]
  | uncorrectable =>
    obtain ⟨rfl, rfl⟩ := hpoison rfl
    rw [hu]

/-- Settles O24: the ladder retries or ends, and its end answers the READ if its tag is outstanding. -/
theorem hostReadAttemptAnswered : Obligations.HostReadAttemptAnswered := by
  intro s id ala step line rest r l t hflight hr hstage
  have hexec := exec_hostReadAnswer hflight line
  have hr' : findReq (answerTaken rest s) id = some r := hr
  refine ⟨fun hclass hstep ht => ?_, fun u status data hend hpoison hclean hcorrected hu => ?_⟩
  · rw [hexec, hclass, hostReadOutcome_retries hr' hstage hstep, ht]
    rfl
  · have hended := (hostReadOutcome_ends hr' hstage hend).trans (hostReadEnd_answers _ hpoison hclean hcorrected hu)
    refine ⟨fun hlive ht => ?_, fun hdead ht => ?_⟩
    · rw [hexec, hended, answerReq_read_live hlive, ht]
    · have hdrops : answerReq r .read status data u = dropReq r.id u := by
        unfold answerReq
        rw [hdead]
        rfl
      rw [hexec, hended, hdrops, ht]
      rfl

/-- Settles O34: the oldest operation not timed out is the one after the late ones (`markOldest_append`). -/
theorem hostReadTimesOut : Obligations.HostReadTimesOut := by
  intro s id ala step late rest r l t hlate hflight hr hstage hstep ht
  have hmark : markOldest s.array.inFlight =
      some (inFlightNow (.read ala) (.hostRead id) step,
        late ++ { op := .read ala, owner := .hostRead id, step, timedOut := true } :: rest) := by
    rw [hflight]
    exact markOldest_append late hlate _ rfl rest
  have hevent : timeoutEvent s =
      settle (hostReadOutcome id .uncorrectable
        (answerTaken (late ++ { op := .read ala, owner := .hostRead id, step, timedOut := true } :: rest) s)) := by
    unfold timeoutEvent
    rw [hmark]
    refine congrArg settle ?_
    rfl
  refine congrArg Host.Outcome.next (hevent.trans (congrArg settle ?_))
  rw [hostReadOutcome_retries (by exact hr) hstage hstep, ht]
  rfl

/-! ### Read halves (O25, first part; R84) -/

theorem exec_rmwReadAnswer {s : State} {ref : ItemRef} {ala step : Nat} {rest : List Flight}
    (hflight : s.array.inFlight = inFlightNow (.read ala) (.rmwRead ref) step :: rest) (line : ArrayLine) :
    exec (.rmwReadAnswer line) s = .next (settle (readHalfOutcome ref (classify ala line) (answerTaken rest s))) := by
  have htaken := answerEvent_taken (accepts := Owner.isReadHalf) (effect := takeRead line) hflight rfl rfl
  refine congrArg Host.Outcome.next (htaken.trans (congrArg settle ?_))
  rfl

theorem readHalfOutcome_retries {s : State} {ref : ItemRef} {item : Item} {l : Ladder} (hitem : findItem s ref = some item)
    (hladder : item.ladder = some l) (hstep : l.step < l.depth) :
    readHalfOutcome ref .uncorrectable s =
      placeAged (.rmwRead ref) l.age (updateItem ref (fun e => { e with ladder := some { l with step := l.step + 1 } }) s) := by
  unfold readHalfOutcome
  simp only [hitem, hladder, hstep, and_self, if_true]

theorem readHalfOutcome_ends {s : State} {ref : ItemRef} {item : Item} {l : Ladder} {c : Classification}
    (hitem : findItem s ref = some item) (hladder : item.ladder = some l) (hend : c = .uncorrectable → l.depth ≤ l.step) :
    readHalfOutcome ref c s = readHalfEnd ref item l c s := by
  have hlast : ¬ (c = .uncorrectable ∧ l.step < l.depth) := fun h => Nat.not_lt.mpr (hend h.1) h.2
  unfold readHalfOutcome
  simp only [hitem, hladder, if_neg hlast]

theorem readHalfEnd_assembles {ref : ItemRef} {item : Item} {l : Ladder} {c : Classification} {data : LineData}
    (hc : c = .clean data ∨ c = .corrected data) (s : State) :
    readHalfEnd ref item l c s = assemble ref data (dispatchRead item.hla l.ala l.step .mergeRead c s) := by
  rcases hc with rfl | rfl <;> rfl

/-! ### LINE_RETIRE reads (O25, second part; R112) -/

theorem exec_retireReadAnswer {s : State} {id ala step : Nat} {rest : List Flight}
    (hflight : s.array.inFlight = inFlightNow (.read ala) (.retireRead id) step :: rest) (line : ArrayLine) :
    exec (.lineRetireReadAnswer line) s = .next (settle (retireReadOutcome id (classify ala line) (answerTaken rest s))) := by
  have htaken := answerEvent_taken (accepts := Owner.isRetireRead) (effect := takeRead line) hflight rfl rfl
  refine congrArg Host.Outcome.next (htaken.trans (congrArg settle ?_))
  rfl

theorem retireReadOutcome_retries {s : State} {id : Nat} {r : RetireRead} (hr : findRetireRead s id = some r)
    (hstep : r.ladder.step < r.ladder.depth) :
    retireReadOutcome id .uncorrectable s =
      placeAged (.retireRead id) r.ladder.age
        (updateRetireRead id (fun q => { q with ladder := { q.ladder with step := q.ladder.step + 1 } }) s) := by
  unfold retireReadOutcome
  simp only [hr, hstep, and_self, if_true]

theorem retireReadOutcome_ends {s : State} {id : Nat} {r : RetireRead} {c : Classification} (hr : findRetireRead s id = some r)
    (hend : c = .uncorrectable → r.ladder.depth ≤ r.ladder.step) : retireReadOutcome id c s = retireReadEnd r c s := by
  have hlast : ¬ (c = .uncorrectable ∧ r.ladder.step < r.ladder.depth) := fun h => Nat.not_lt.mpr (hend h.1) h.2
  unfold retireReadOutcome
  simp only [hr, if_neg hlast]

/-- The state in which a LINE_RETIRE read has left its list. -/
def retireReadGone (r : RetireRead) (s : State) : State :=
  s.setReloc { s.reloc with retireReads := s.reloc.retireReads.filter (·.id != r.id) }

theorem retireReadEnd_data {r : RetireRead} {c : Classification} {data : LineData} (hc : c = .clean data ∨ c = .corrected data)
    (s : State) :
    retireReadEnd r c s = if reservationStands r s then retireData r.home data (retireReadGone r s) else retireReadGone r s := by
  rcases hc with rfl | rfl <;> rfl

theorem retireReadEnd_uncorrectable (r : RetireRead) (s : State) :
    retireReadEnd r .uncorrectable s =
      if reservationStands r s then
        endRetire .pending
          (pendingAdd r.home .service
            (writeFault .uncorrectableRead (some r.home) (some r.ladder.ala) (some r.ladder.step) (retireReadGone r s)))
      else
        pendingAdd r.home .service
          (writeFault .uncorrectableRead (some r.home) (some r.ladder.ala) (some r.ladder.step) (retireReadGone r s)) := rfl

theorem reservationStands_false {r : RetireRead} {s : State} (h : r.live = false ∨ s.reloc.reserved ≠ some r.home) :
    reservationStands r s = false := by
  rw [Bool.eq_false_iff, Ne, reservationStands_iff]
  rintro ⟨hlive, hreserved⟩
  exact h.elim (fun hdead => Bool.false_ne_true (hdead.symm.trans hlive)) fun hne => hne hreserved

theorem endRetire_eq {s : State} {c : InProgress} (hc : s.port.command = some c) (status : Status) :
    endRetire status s = completeCommand c.seq status [] (releaseReservation s) := by
  unfold endRetire completeCurrent
  rw [show (releaseReservation s).port.command = some c from hc]

/-- With no FREE spare an allocation latches SPARES_OUT (R9). -/
theorem allocateFor_none {s : State} {home : Nat} (hbelow : home < fenceValue s) (hmoving : isMoving s home = false)
    (hfree : lowestFree s = none) : allocateFor home s = (none, latch .sparesOut s) := by
  unfold allocateFor allocate
  rw [if_pos (by simp [hbelow, hmoving]), hfree]

/-- With a FREE spare the lowest becomes HELD (R8). -/
theorem allocateFor_free {s : State} {home spare : Nat} (hbelow : home < fenceValue s) (hmoving : isMoving s home = false)
    (hfree : lowestFree s = some spare) : allocateFor home s = (some spare, setMark spare .held s) := by
  unfold allocateFor allocate
  rw [if_pos (by simp [hbelow, hmoving]), hfree]

theorem retireData_pending {s : State} {home : Nat} (h : isPending s home = true) (data : LineData) :
    retireData home data s = endRetire .pending s := if_pos h

theorem retireData_exhausted {s : State} {home : Nat} (hpending : isPending s home = false) (hbelow : home < fenceValue s)
    (hmoving : isMoving s home = false) (hfree : lowestFree s = none) (data : LineData) :
    retireData home data s = endRetire .exhausted (latch .sparesOut s) := by
  unfold retireData
  rw [hpending, if_neg Bool.false_ne_true, allocateFor_none hbelow hmoving hfree]

theorem retireData_moves {s : State} {home spare : Nat} (hpending : isPending s home = false) (hbelow : home < fenceValue s)
    (hmoving : isMoving s home = false) (hfree : lowestFree s = some spare) (data : LineData) :
    retireData home data s = retireMoves home (beginService home spare data (setMark spare .held s)) := by
  unfold retireData
  rw [hpending, if_neg Bool.false_ne_true, allocateFor_free hbelow hmoving hfree]

theorem retireMoves_eq {s : State} {c : InProgress} (hc : s.port.command = some c) (home : Nat) :
    retireMoves home s = s.setPort { s.port with command := some { seq := c.seq, command := .lineRetire home true } } := by
  unfold retireMoves
  rw [hc]

theorem beginRelocation_service_queue (home spare : Nat) (data : LineData) (s : State) :
    (beginRelocation home spare .service data none [] s).reloc.queue = s.reloc.queue := rfl

theorem beginService_alone {s : State} {home : Nat} (h : ∀ ref h cause, QueueItem.request ref h cause ∈ s.reloc.queue → h ≠ home)
    (spare : Nat) (data : LineData) : beginService home spare data s = beginRelocation home spare .service data none [] s := by
  have hnone : waitingRequest (beginRelocation home spare .service data none [] s) home = none := by
    unfold waitingRequest
    rw [beginRelocation_service_queue, List.findSome?_eq_none_iff]
    intro q hq
    cases q with
    | reservation _ => rfl
    | request ref h' cause =>
      have hne := h ref h' cause hq
      simp only [beq_iff_eq, hne, if_false]
  unfold beginService
  simp only [hnone]

theorem beginService_merges {s : State} {home : Nat} {ref : ItemRef} {cause : RelocCause} {e : Item}
    (hqueue : s.reloc.queue = [.request ref home cause]) (he : findItem s ref = some e) (spare : Nat) (data : LineData) :
    beginService home spare data s =
      mergeItem ref e
        ((beginRelocation home spare .service data none [] s).setReloc
          { (beginRelocation home spare .service data none [] s).reloc with queue := [] }) := by
  have hwaits : waitingRequest (beginRelocation home spare .service data none [] s) home = some ref := by
    unfold waitingRequest
    rw [beginRelocation_service_queue, hqueue]
    simp
  have hitem : ∀ r, findItem ((beginRelocation home spare .service data none [] s).setReloc r) ref = some e := fun r => by
    rw [← he]
    cases ref <;> rfl
  unfold beginService
  simp only [hwaits, hitem, beginRelocation_service_queue, hqueue, List.filter_cons, List.filter_nil, bne_self_eq_false,
    Bool.false_eq_true, if_false]

/-- What becomes of an item does not depend on the Service Port. -/
theorem mergeItem_setPort (ref : ItemRef) (e : Item) (p : ServicePort) (s : State) :
    mergeItem ref e (s.setPort p) = (mergeItem ref e s).setPort p := by
  cases ref <;> rfl

theorem mergeItem_port (ref : ItemRef) (e : Item) (s : State) : (mergeItem ref e s).port = s.port := by
  cases ref <;> rfl

/-- Settles O25: a read half assembles or discards its entry; a LINE_RETIRE read is taken while its reservation stands. -/
theorem rmwAndRetireReadsDeliver : Obligations.RmwAndRetireReadsDeliver := by
  refine ⟨fun s id ala step line rest e l u t hflight he hl hu => ?_, fun s id ala step line rest r c released u t hflight hr hc
    hreleased hu => ?_⟩
  · have hexec := exec_rmwReadAnswer hflight line
    have he' : findItem (answerTaken rest s) (.entry id) = some e := he
    refine ⟨fun data hclass ht => ?_, fun hclass hstep ht => ?_, fun hclass hdepth v hv ht => ?_⟩
    · have hend : classify ala line = .uncorrectable → l.depth ≤ l.step := fun hbad => by
        rcases hclass with h | h <;> rw [h] at hbad <;> cases hbad
      rw [hexec, readHalfOutcome_ends he' hl hend, readHalfEnd_assembles hclass, ← hu, ht]
      rfl
    · rw [hexec, hclass, readHalfOutcome_retries he' hl hstep, ht]
      rfl
    · rw [hexec, readHalfOutcome_ends he' hl (fun _ => hdepth), ht, hv, hu, hclass]
      rfl
  · have hexec := exec_retireReadAnswer hflight line
    have hr' : findRetireRead (answerTaken rest s) id = some r := hr
    have hgone : retireReadGone r (answerTaken rest s) = u := hu.symm
    have hrelease : ∀ x, releaseReservation x = released x := fun x => by
      rw [hreleased]
      rfl
    have hcu : u.port.command = some c := by rw [hu]; exact hc
    refine ⟨fun data hclass hlive hreserved => ?_, fun data hclass hgoneReservation => ?_, fun hclass hstep ht => ?_,
      fun v hclass hdepth hv => ⟨fun hlive hreserved ht => ?_, fun hgoneReservation => ?_⟩⟩
    · have hend : classify ala line = .uncorrectable → r.ladder.depth ≤ r.ladder.step := fun hbad => by
        rcases hclass with h | h <;> rw [h] at hbad <;> cases hbad
      have hstands : reservationStands r (answerTaken rest s) = true := reservationStands_iff.mpr ⟨hlive, hreserved⟩
      have htaken : retireReadOutcome id (classify ala line) (answerTaken rest s) = retireData r.home data u := by
        rw [retireReadOutcome_ends hr' hend, retireReadEnd_data hclass, if_pos hstands, hgone]
      rw [hexec, htaken]
      refine ⟨fun hpending ht => ?_, fun hpending hbelow hmoving hfree ht => ?_, fun spare v hpending hbelow hmoving hfree hv =>
        ⟨fun halone => ?_, fun ref cause e hqueue he ht => ?_⟩⟩
      · have hpu : isPending u r.home = true := by rw [hu]; exact hpending
        rw [retireData_pending hpu, endRetire_eq hcu, hrelease, ht]
      · have hlatched : latch .sparesOut u =
            u.setAlert { s.alert with causes := s.alert.causes ||| AlertCause.sparesOut.bit } := by
          rw [hu]
          rfl
        rw [retireData_exhausted (by rw [hu]; exact hpending) (by rw [hu]; exact hbelow) (by rw [hu]; exact hmoving)
          (by rw [hu]; exact hfree), hlatched, endRetire_eq (c := c) (by exact hcu), hrelease, ht]
      · have hqueue' : ∀ ref h cause, QueueItem.request ref h cause ∈ (setMark spare .held u).reloc.queue → h ≠ r.home := by
          rw [hu]
          exact halone
        rw [retireData_moves (by rw [hu]; exact hpending) (by rw [hu]; exact hbelow) (by rw [hu]; exact hmoving)
          (by rw [hu]; exact hfree), beginService_alone hqueue', retireMoves_eq (c := c) (by exact hcu), hv, hu]
        rfl
      · have hqueue' : (setMark spare .held u).reloc.queue = [.request ref r.home cause] := by
          rw [hu]
          exact hqueue
        have he' : findItem (setMark spare .held u) ref = some e := by
          rw [← he, hu]
          cases ref <;> rfl
        rw [retireData_moves (by rw [hu]; exact hpending) (by rw [hu]; exact hbelow) (by rw [hu]; exact hmoving)
          (by rw [hu]; exact hfree), beginService_merges hqueue' he',
          retireMoves_eq (c := c) (by rw [mergeItem_port]; exact hcu), mergeItem_port, ← mergeItem_setPort, ht, hv, hu]
        rfl
    · have hend : classify ala line = .uncorrectable → r.ladder.depth ≤ r.ladder.step := fun hbad => by
        rcases hclass with h | h <;> rw [h] at hbad <;> cases hbad
      have hstands : reservationStands r (answerTaken rest s) = false := reservationStands_false hgoneReservation
      rw [hexec, retireReadOutcome_ends hr' hend, retireReadEnd_data hclass, hstands, if_neg Bool.false_ne_true, hgone]
    · rw [hexec, hclass, retireReadOutcome_retries hr' hstep, ht]
      rfl
    · have hstands : reservationStands r (answerTaken rest s) = true := reservationStands_iff.mpr ⟨hlive, hreserved⟩
      have hcv : v.port.command = some c := by
        rw [hv, (TablesOnly.pendingAdd ..).port, writeFault_port]
        exact hcu
      rw [hexec, retireReadOutcome_ends hr' (fun _ => hdepth), hclass, retireReadEnd_uncorrectable, if_pos hstands, hgone, ← hv,
        endRetire_eq hcv, hrelease, ht]
    · have hstands : reservationStands r (answerTaken rest s) = false := reservationStands_false hgoneReservation
      rw [hexec, retireReadOutcome_ends hr' (fun _ => hdepth), hclass, retireReadEnd_uncorrectable, hstands,
        if_neg Bool.false_ne_true, hgone, ← hv]

end Sys2Proof.Machine
end

section
/-! Survey reads and gaps (O26; R139 to R150). The idea: a survey read's final outcome is dispatched and counted, and then the survey ends
or goes on (`surveyGoesOn`); where the worklist goes next is `nextVisit`, which passes the excluded lines. -/

namespace Sys2Proof.Machine

-- One theorem after another, as in the laws (see `Quiet`): the memory of the check does not hold all their threads at once.
set_option Elab.async false

/-! ### The next line of the worklist (R141, log 31) -/

theorem passExcluded_ge (excluded : List Nat) : ∀ fuel line, line ≤ passExcluded excluded fuel line := by
  intro fuel
  induction fuel with
  | zero => exact fun line => Nat.le_refl line
  | succ n ih =>
    intro line
    rw [passExcluded]
    split
    · exact Nat.le_trans (Nat.le_succ line) (ih (line + 1))
    · exact Nat.le_refl line

/-- Excluded lines are passed one by one. -/
theorem passExcluded_skips (excluded : List Nat) :
    ∀ k fuel line, k ≤ fuel → (∀ x, line ≤ x → x < line + k → x ∈ excluded) →
      passExcluded excluded fuel line = passExcluded excluded (fuel - k) (line + k) := by
  intro k
  induction k with
  | zero => exact fun _ _ _ _ => rfl
  | succ k ih =>
    intro fuel line hk hx
    obtain ⟨fuel', rfl⟩ : ∃ n, fuel = n + 1 := ⟨fuel - 1, by omega⟩
    rw [passExcluded, if_pos (hx line (Nat.le_refl line) (by omega)), ih fuel' (line + 1) (by omega) fun x h1 h2 => hx x (by omega)
      (by omega), show fuel' + 1 - (k + 1) = fuel' - k by omega, show line + (k + 1) = line + 1 + k by omega]

theorem passExcluded_stays {excluded : List Nat} {line : Nat} (h : line ∉ excluded) (fuel : Nat) :
    passExcluded excluded fuel line = line := by
  cases fuel with
  | zero => rfl
  | succ n => exact if_neg h

/-- A run of lines that are all excluded is no longer than the list of the excluded lines. -/
theorem excluded_run_length {excluded : List Nat} {line k : Nat} (h : ∀ x, line ≤ x → x < line + k → x ∈ excluded) :
    k ≤ excluded.length := by
  have hsub : List.range' line k ⊆ excluded := fun x hx => by
    rw [List.mem_range'_1] at hx
    exact h x hx.1 hx.2
  have hle := (List.subperm_of_subset List.nodup_range' hsub).length_le
  rwa [List.length_range'] at hle

theorem nextVisit_eq {excluded : List Nat} {limit line n : Nat} (hlow : line ≤ n) (hhigh : n ≤ limit) (hend : n = limit ∨ n ∉ excluded)
    (hpass : ∀ x, line ≤ x → x < n → x ∈ excluded) : nextVisit excluded limit line = n := by
  have hrun : ∀ x, line ≤ x → x < line + (n - line) → x ∈ excluded := fun x h1 h2 => hpass x h1 (by omega)
  unfold nextVisit
  rw [passExcluded_skips excluded (n - line) _ line (excluded_run_length hrun) hrun, Nat.add_sub_cancel' hlow]
  rcases hend with rfl | hout
  · exact Nat.min_eq_left (passExcluded_ge _ _ _)
  · rw [passExcluded_stays hout]
    exact Nat.min_eq_right hhigh

/-- With no line excluded the next line is the one above. -/
theorem passLine_span {l : LiveSurvey} (hexcluded : l.excluded = []) (hlimit : l.next < l.limit) :
    l.passLine = { l with next := l.next + 1 } := by
  unfold LiveSurvey.passLine
  rw [nextVisit_eq (n := l.next + 1) (Nat.le_refl _) hlimit (.inr (by rw [hexcluded]; exact List.not_mem_nil)) fun x h1 h2 =>
    absurd h1 (Nat.not_le.mpr h2)]

theorem examine_done {l : LiveSurvey} (h : l.limit ≤ l.next) (s : State) : examine l s = endSurvey .done l s := by
  unfold examine examineLines
  exact if_pos h

theorem skipsLine_true {s : State} {l : LiveSurvey} (hmode : l.mode = .span)
    (h : isPending s l.next = true ∨ isMoving s l.next = true ∨ (∃ e ∈ s.buf.entries, e.hla = l.next) ∨
      ∃ e ∈ s.buf.direct, e.hla = l.next) : skipsLine s l = true := by
  unfold skipsLine
  simp only [hmode, Bool.or_eq_true, List.any_eq_true, beq_iff_eq]
  rw [or_assoc, or_assoc]
  exact h

/-- A skipped line is counted, and the next one examined (R143). -/
theorem examine_skips {s : State} {l : LiveSurvey} (hexcluded : l.excluded = []) (hlimit : l.next < l.limit)
    (hskips : skipsLine s l = true) :
    examine l s = examine { l with next := l.next + 1, counts := { l.counts with skipped := l.counts.skipped + 1 } } s := by
  unfold examine
  rw [examineLines, if_neg (Nat.not_le.mpr hlimit), if_pos hskips, passLine_span hexcluded hlimit]
  exact congrArg (fun n => examineLines n _ s) (show l.limit - l.next = l.limit - (l.next + 1) + 1 by omega)

/-! ### The gap (R142) -/

theorem exec_surveyGapExpiry {s : State} {l : LiveSurvey} {units : Nat} (hlive : s.survey.live = some l)
    (hphase : l.phase = .gap units) : exec .surveyGapExpiry s = .next (settle (examine l (nextEvent s))) := by
  have hgap : gapExpires (nextEvent s) = some (examine l (nextEvent s)) := by
    unfold gapExpires
    rw [show (nextEvent s).survey.live = some l from hlive]
    simp only [hphase]
  show Host.Outcome.next (internalEvent gapExpires s) = _
  unfold internalEvent
  rw [hgap]

/-! ### Survey reads (R144, R145) -/

theorem exec_surveyReadAnswer {s : State} {ala step : Nat} {rest : List Flight}
    (hflight : s.array.inFlight = inFlightNow (.read ala) .surveyRead step :: rest) (line : ArrayLine) :
    exec (.surveyReadAnswer line) s = .next (settle (surveyReadOutcome (classify ala line) (answerTaken rest s))) := by
  have htaken := answerEvent_taken (accepts := Owner.isSurveyRead) (effect := takeRead line) hflight rfl rfl
  refine congrArg Host.Outcome.next (htaken.trans (congrArg settle ?_))
  rfl

theorem surveyReadOutcome_retries {s : State} {l : LiveSurvey} {d : Ladder} (hlive : s.survey.live = some l)
    (hphase : l.phase = .reading d) (hstep : d.step < d.depth) :
    surveyReadOutcome .uncorrectable s =
      placeAged .surveyRead d.age (setLive (some { l with phase := .reading { d with step := d.step + 1 } }) s) := by
  unfold surveyReadOutcome
  simp only [hlive, hphase, hstep, and_self, if_true]

theorem surveyReadOutcome_ends {s : State} {l : LiveSurvey} {d : Ladder} {c : Classification} (hlive : s.survey.live = some l)
    (hphase : l.phase = .reading d) (hend : c = .uncorrectable → d.depth ≤ d.step) :
    surveyReadOutcome c s = surveyReadEnd d c l s := by
  have hlast : ¬ (c = .uncorrectable ∧ d.step < d.depth) := fun h => Nat.not_lt.mpr (hend h.1) h.2
  unfold surveyReadOutcome
  simp only [hlive, hphase, if_neg hlast]

theorem surveyReadEnd_span {l : LiveSurvey} (hmode : l.mode = .span) (d : Ladder) (c : Classification) (s : State) :
    surveyReadEnd d c l s =
      surveyGoesOn (dropsAdd s l c) (spanDispatch d c l s).1.passLine (spanDispatch d c l s).2 := by
  unfold surveyReadEnd
  simp only [hmode]

theorem dropsAdd_iff {s : State} {l : LiveSurvey} (hmode : l.mode = .span) (c : Classification) :
    dropsAdd s l c = true ↔ c = .uncorrectable ∧ isMoving s l.next = false ∧ isPending s l.next = false ∧
      32 ≤ s.reloc.pendingList.length := by
  simp only [dropsAdd, hmode, addDropped, and_assoc, Bool.and_eq_true, beq_self_eq_true, true_and, beq_iff_eq, Bool.not_eq_true',
    decide_eq_true_eq]
  rfl

theorem surveyGoesOn_gap {s : State} {l : LiveSurvey} {dropped : Bool} (hend : l.endRequested = none) (hdropped : dropped = false)
    (hgap : s.policy.active.surveyGap ≠ 0) :
    surveyGoesOn dropped l s = setLive (some { l with phase := .gap s.policy.active.surveyGap }) s := by
  unfold surveyGoesOn
  simp only [hend, hdropped, Bool.false_eq_true, if_false, hgap]

theorem surveyGoesOn_ends {l : LiveSurvey} {dropped : Bool} {outcome : SurveyOutcome} (s : State)
    (h : (l.endRequested = some .reset ∧ outcome = .reset) ∨
      (l.endRequested ≠ some .reset ∧ dropped = true ∧ outcome = .haltedFull) ∨
      (l.endRequested = some outcome ∧ outcome ≠ .reset ∧ dropped = false)) :
    surveyGoesOn dropped l s = endSurvey outcome l s := by
  unfold surveyGoesOn
  rcases h with ⟨hend, rfl⟩ | ⟨hend, rfl, rfl⟩ | ⟨hend, hne, rfl⟩
  · simp only [hend]
  · split
    · next hreset => exact absurd hreset hend
    · rfl
    · rfl
  · rw [hend]
    cases outcome with
    | reset => exact absurd rfl hne
    | done => rfl
    | stopped => rfl
    | haltedFull => rfl

/-- The counts and the first uncorrectable line after a SPAN read (R144). -/
theorem spanCounted {l : LiveSurvey} {d : Ladder} {c : Classification} {counts : SurveyCounts} {first : Option Nat}
    (h : ((∃ x, c = .clean x) ∧ first = l.firstUncorrectable ∧
        counts = { l.counts with
          linesRead := l.counts.linesRead + 1
          cleanAfterRetry := l.counts.cleanAfterRetry + (if d.step = 0 then 0 else 1) }) ∨
      ((∃ x, c = .corrected x) ∧ first = l.firstUncorrectable ∧
        counts = { l.counts with
          linesRead := l.counts.linesRead + 1
          corrected := l.counts.corrected + (if d.step = 0 then 1 else 0)
          retriedCorrected := l.counts.retriedCorrected + (if d.step = 0 then 0 else 1) }) ∨
      (c = .uncorrectable ∧ first = some (l.firstUncorrectable.getD l.next) ∧
        counts = { l.counts with
          linesRead := l.counts.linesRead + 1, uncorrectable := l.counts.uncorrectable + 1 })) :
    spanCounts l.counts d.step c = counts ∧ keepFirst l c = first := by
  rcases h with ⟨⟨x, rfl⟩, rfl, rfl⟩ | ⟨⟨x, rfl⟩, rfl, rfl⟩ | ⟨rfl, rfl, rfl⟩
  · refine ⟨?_, ?_⟩
    · unfold spanCounts
      by_cases h0 : d.step = 0 <;> simp [h0]
    · unfold keepFirst
      cases l.firstUncorrectable <;> rfl
  · refine ⟨?_, ?_⟩
    · unfold spanCounts
      by_cases h0 : d.step = 0 <;> simp [h0]
    · unfold keepFirst
      cases l.firstUncorrectable <;> rfl
  · refine ⟨rfl, ?_⟩
    unfold keepFirst
    cases l.firstUncorrectable <;> rfl

/-- The end of a SPAN read: what follows the dispatch. -/
theorem surveyReadEnd_counted {s : State} {l : LiveSurvey} {d : Ladder} {c : Classification} {counts : SurveyCounts}
    {first : Option Nat} (hmode : l.mode = .span) (hexcluded : l.excluded = []) (hlimit : l.next < l.limit)
    (hcounts : spanCounts l.counts d.step c = counts ∧ keepFirst l c = first) :
    surveyReadEnd d c l s =
      surveyGoesOn (dropsAdd s l c) { l with next := l.next + 1, counts, firstUncorrectable := first }
        (dispatchRead l.next d.ala d.step .survey c s) := by
  obtain ⟨rfl, rfl⟩ := hcounts
  rw [surveyReadEnd_span hmode]
  exact congrArg (fun m => surveyGoesOn _ m _)
    (passLine_span (l := { l with counts := spanCounts l.counts d.step c, firstUncorrectable := keepFirst l c }) hexcluded hlimit)

/-- The counts after a SPARES read, with the mark it made (R145). -/
theorem sparesDispatch_counted {s : State} {l : LiveSurvey} {c : Classification} {counts : SurveyCounts} {first : Option Nat}
    {dead : Bool} (hdead : dead = true ↔ (∀ x, c ≠ .clean x) ∧ spareStateOf s l.next = some .free)
    (h : ((∃ x, c = .clean x) ∧ first = l.firstUncorrectable ∧
        counts = { l.counts with linesRead := l.counts.linesRead + 1 }) ∨
      ((∃ x, c = .corrected x) ∧ first = l.firstUncorrectable ∧
        counts = { l.counts with
          linesRead := l.counts.linesRead + 1, corrected := l.counts.corrected + 1
          markedDead := l.counts.markedDead + (if dead then 1 else 0) }) ∨
      (c = .uncorrectable ∧ first = some (l.firstUncorrectable.getD l.next) ∧
        counts = { l.counts with
          linesRead := l.counts.linesRead + 1, uncorrectable := l.counts.uncorrectable + 1
          markedDead := l.counts.markedDead + (if dead then 1 else 0) })) :
    sparesDispatch c l s =
      ({ l with counts, firstUncorrectable := first }, if dead then killSpare l.next s else s) := by
  rcases h with ⟨⟨x, rfl⟩, rfl, rfl⟩ | ⟨⟨x, rfl⟩, rfl, rfl⟩ | ⟨rfl, rfl, rfl⟩
  · have hnot : dead = false := Bool.eq_false_iff.mpr fun htrue => (hdead.mp htrue).1 x rfl
    have hkeep : keepFirst l (.clean x) = l.firstUncorrectable := by
      unfold keepFirst
      cases l.firstUncorrectable <;> rfl
    unfold sparesDispatch
    simp only [hnot, hkeep, Bool.false_eq_true, if_false]
    rfl
  · have hkeep : keepFirst l (.corrected x) = l.firstUncorrectable := by
      unfold keepFirst
      cases l.firstUncorrectable <;> rfl
    unfold sparesDispatch
    by_cases hfree : spareStateOf s l.next = some .free
    · have hyes : dead = true := hdead.mpr ⟨fun _ => nofun, hfree⟩
      simp only [hyes, hkeep, hfree, if_true]
      rfl
    · have hno : dead = false := Bool.eq_false_iff.mpr fun htrue => hfree (hdead.mp htrue).2
      simp only [hno, hkeep, if_neg hfree, Bool.false_eq_true, if_false]
      rfl
  · have hkeep : keepFirst l .uncorrectable = some (l.firstUncorrectable.getD l.next) := by
      unfold keepFirst
      cases l.firstUncorrectable <;> rfl
    unfold sparesDispatch
    by_cases hfree : spareStateOf s l.next = some .free
    · have hyes : dead = true := hdead.mpr ⟨fun _ => nofun, hfree⟩
      simp only [hyes, hkeep, hfree, if_true]
      rfl
    · have hno : dead = false := Bool.eq_false_iff.mpr fun htrue => hfree (hdead.mp htrue).2
      simp only [hno, hkeep, if_neg hfree, Bool.false_eq_true, if_false]
      rfl

/-- Settles O26: a survey read is counted and the survey goes on to the gap or ends; a gap's end examines the next line. -/
theorem surveyReadsAndGaps : Obligations.SurveyReadsAndGaps := by
  refine ⟨fun s ala step line rest l d data t hflight hlive hphase hmode hexcluded hlimit hstep hend hgap hclass ht => ?_,
    fun s l units t hlive hphase hmode => ⟨fun hlast ht => ?_, fun hlimit hpending hmoving hentries hdirect ht => ?_⟩,
    ⟨fun excluded limit line n hlow hhigh hnend hpass => nextVisit_eq hlow hhigh hnend hpass,
      fun s l hmode hexcluded hlimit hskip => examine_skips hexcluded hlimit (skipsLine_true hmode hskip)⟩,
    fun s ala step line rest l d u t hflight hlive hphase hmode hexcluded hlimit => ⟨fun hclass hstep ht => ?_,
      fun counts first dropped hdepth hcounts hdropped hu => ⟨fun hend hkeeps hgap ht => ?_, fun outcome houtcome ht => ?_⟩⟩,
    fun s ala step line rest l d counts first dead u t hflight hlive hphase hmode hdepth hend hgap hdead hu hcounts ht => ?_⟩
  · have hnobad : classify ala line = .uncorrectable → d.depth ≤ d.step := fun h => by rw [hclass] at h; cases h
    have hcounted := spanCounted (l := l) (d := d) (c := classify ala line) (first := l.firstUncorrectable)
      (counts := { l.counts with linesRead := l.counts.linesRead + 1 }) (.inl ⟨⟨data, hclass⟩, rfl, by simp [hstep]⟩)
    have hdrops : dropsAdd (answerTaken rest s) l (classify ala line) = false := by
      rw [Bool.eq_false_iff, Ne, dropsAdd_iff hmode, hclass]
      exact fun h => nomatch h.1
    have hdispatch : dispatchRead l.next d.ala d.step .survey (classify ala line) (answerTaken rest s) = answerTaken rest s := by
      rw [hclass, hstep]
      rfl
    rw [exec_surveyReadAnswer hflight, surveyReadOutcome_ends (by exact hlive) hphase hnobad,
      surveyReadEnd_counted hmode hexcluded hlimit hcounted, hdispatch, surveyGoesOn_gap (by exact hend) hdrops (by exact hgap), ht]
    rfl
  · rw [exec_surveyGapExpiry hlive hphase, examine_done hlast, ht]
    rfl
  · rw [exec_surveyGapExpiry hlive hphase,
      examine_reads hlimit (skipsLine_span (s := nextEvent s) hmode hpending hmoving hentries hdirect), ht]
    refine congrArg (fun v => Host.Outcome.next (settle v)) ?_
    unfold placeSurveyRead surveyLadder
    simp only [hmode]
    rfl
  · rw [exec_surveyReadAnswer hflight, hclass, surveyReadOutcome_retries (by exact hlive) hphase hstep, ht]
    rfl
  · have htables : TablesOnly (answerTaken rest s) u := hu ▸ .dispatchRead ..
    have hdrops : dropsAdd (answerTaken rest s) l (classify ala line) = false := by
      rw [Bool.eq_false_iff, Ne, dropsAdd_iff hmode]
      exact fun h => hkeeps (hdropped.mpr h)
    have hpolicy : u.policy = s.policy := htables.policy
    have hsurvey : u.survey = s.survey := htables.survey
    rw [exec_surveyReadAnswer hflight, surveyReadOutcome_ends (by exact hlive) hphase hdepth,
      surveyReadEnd_counted hmode hexcluded hlimit (spanCounted hcounts), ← hu,
      surveyGoesOn_gap (by exact hend) hdrops (by rw [hpolicy]; exact hgap), ht, hpolicy]
    unfold setLive
    rw [hsurvey]
  · have htables : TablesOnly (answerTaken rest s) u := hu ▸ .dispatchRead ..
    have hdrops : dropsAdd (answerTaken rest s) l (classify ala line) = true ↔ dropped :=
      (dropsAdd_iff hmode _).trans hdropped.symm
    have hcase : (l.endRequested = some .reset ∧ outcome = .reset) ∨
        (l.endRequested ≠ some .reset ∧ dropsAdd (answerTaken rest s) l (classify ala line) = true ∧ outcome = .haltedFull) ∨
        (l.endRequested = some outcome ∧ outcome ≠ .reset ∧ dropsAdd (answerTaken rest s) l (classify ala line) = false) := by
      have hkeeps : dropsAdd (answerTaken rest s) l (classify ala line) = false ↔ ¬ dropped := by
        rw [← hdrops, Bool.not_eq_true]
      rw [hdrops, hkeeps]
      exact houtcome
    have htick : u.tick = s.tick := htables.tick
    rw [exec_surveyReadAnswer hflight, surveyReadOutcome_ends (by exact hlive) hphase hdepth,
      surveyReadEnd_counted hmode hexcluded hlimit (spanCounted hcounts), ← hu, surveyGoesOn_ends u (by exact hcase), ht]
    unfold endSurvey latch
    rw [htick]
    rfl
  · have hdispatch : sparesDispatch (classify ala line) l (answerTaken rest s) =
        ({ l with counts, firstUncorrectable := first }, u) := by
      rw [sparesDispatch_counted (s := answerTaken rest s) (dead := dead) hdead hcounts, hu]
      rfl
    have hsurvey : u.survey = s.survey := by
      rw [hu]
      split
      · rw [offerRecord_survey]
        rfl
      · rfl
    have hpolicy : u.policy = s.policy := by
      rw [hu]
      split
      · rw [offerRecord_policy]
        rfl
      · rfl
    have hended : surveyReadEnd d (classify ala line) l (answerTaken rest s) =
        surveyGoesOn false { l with counts, firstUncorrectable := first }.passLine u := by
      have hdrops : dropsAdd (answerTaken rest s) l (classify ala line) = false := by
        unfold dropsAdd
        rw [hmode]
        rfl
      unfold surveyReadEnd
      simp only [hmode, hdrops, hdispatch]
    rw [exec_surveyReadAnswer hflight, surveyReadOutcome_ends (by exact hlive) hphase (fun _ => hdepth), hended,
      surveyGoesOn_gap (by exact hend) rfl (by rw [hpolicy]; exact hgap), ht, hpolicy]
    unfold setLive
    rw [hsurvey]
    rfl

end Sys2Proof.Machine
end

section
/-! Drain writes and in-place writes that the array answers (O27; R85 to R88, R91 to R95). The idea: the answer reaches its item
(`exec_drainWriteAnswer`), and what becomes of the item is completion, a merge into its line's slot, an offer, or its loss; an offer marks
the item RELOCATING, and that mark leaves the buffer with the item (`filter_marked`). -/

namespace Sys2Proof.Machine

-- One theorem after another, as in the laws (see `Quiet`): the memory of the check does not hold all their threads at once.
set_option Elab.async false

/-! ### Updates of the buffer that an operation passes by -/

theorem writeFault_setBuf (kind : FaultKind) (hla ala step : Option Nat) (s : State) (v : WriteBuffer) :
    writeFault kind hla ala step (s.setBuf v) = (writeFault kind hla ala step s).setBuf v := by
  rw [writeFault_sets, writeFault_sets]
  unfold alertAfterFault cursorAfterFault
  rw [show overwritesUnread (s.setBuf v) = overwritesUnread s from rfl]
  cases overwritesUnread s <;> rfl

theorem queueReport_setBuf (hla : Nat) (reason : ReportReason) (s : State) (v : WriteBuffer) :
    queueReport hla reason (s.setBuf v) = (queueReport hla reason s).setBuf v := by
  unfold queueReport
  rw [show (s.setBuf v).host = s.host from rfl]
  split <;> rfl

theorem pendingAdd_setBuf (hla : Nat) (origin : PendingOrigin) (s : State) (v : WriteBuffer) :
    pendingAdd hla origin (s.setBuf v) = (pendingAdd hla origin s).setBuf v := by
  unfold pendingAdd dropAdd
  rw [show isMoving (s.setBuf v) hla = isMoving s hla from rfl, show isPending (s.setBuf v) hla = isPending s hla from rfl,
    show (s.setBuf v).reloc = s.reloc from rfl,
    show latch .pendingFull (s.setBuf v) = (latch .pendingFull s).setBuf v from rfl, writeFault_setBuf]
  split
  · rfl
  split
  · split <;> rfl
  split <;> rfl

theorem beginRelocation_setBuf (home spare : Nat) (cause : RelocCause) (data : LineData) (epoch : Option Nat)
    (writes : List WaitingWrite) (s : State) (v : WriteBuffer) :
    beginRelocation home spare cause data epoch writes (s.setBuf v) =
      (beginRelocation home spare cause data epoch writes s).setBuf v := by
  cases cause <;> rfl

/-- An entry that leaves takes its changed fields with it. -/
theorem filter_marked (id : Nat) {f : Item → Item} (hf : ∀ e, (f e).id = e.id) (entries : List Item) :
    (entries.map fun e => if e.id == id then f e else e).filter (·.id != id) = entries.filter (·.id != id) := by
  induction entries with
  | nil => rfl
  | cons e rest ih =>
    rw [List.map_cons, List.filter_cons, List.filter_cons, ih]
    by_cases h : e.id == id
    · rw [if_pos h, show ((f e).id != id) = (e.id != id) by rw [hf]]
      simp only [bne, h, Bool.not_true, Bool.false_eq_true, if_false]
    · rw [if_neg h]

/-- An entry that leaves after a mark: the buffer is as if it had not been marked. -/
theorem leaveItem_marked (id : Nat) {f : Item → Item} (hf : ∀ e, (f e).id = e.id) {s : State} {v : WriteBuffer} (hv : s.buf = v) :
    leaveItem (.entry id) (s.setBuf { v with entries := v.entries.map fun e => if e.id == id then f e else e }) =
      leaveItem (.entry id) s := by
  subst hv
  rw [leaveItem_requeues, leaveItem_requeues]
  rw [show (s.setBuf { s.buf with entries := s.buf.entries.map fun e => if e.id == id then f e else e }).buf.entries =
    s.buf.entries.map fun e => if e.id == id then f e else e from rfl, filter_marked id hf]
  rfl

/-! ### Completed writes (R85, R95) -/

/-- A direct write whose tag is outstanding is answered DONE with the oldest deferred report as it leaves (R29, R35). -/
theorem completeItem_direct {s : State} {id : Nat} {r : HostReq} (hr : findReq s id = some r) (hlive : r.live = true) :
    completeItem (.direct id) s =
      responded (reportingAnswer .write r.tag .done s)
        ((s.setBuf { s.buf with direct := s.buf.direct.filter (·.id != id) }).setHost
          { s.host with
            order := s.host.order.filter (·.id != id), tags := s.host.tags.filter (· != r.tag)
            reports := s.host.reports.drop 1 }) := by
  unfold completeItem
  simp only [hr, hlive, if_true]
  rfl

theorem drainDone_still {s : State} {ref : ItemRef} {e : Item} (h : isMoving s e.hla = false) :
    drainDone ref e s = completeItem ref (unpend e.hla s) := by
  unfold drainDone
  rw [h, if_neg Bool.false_ne_true]

theorem drainDone_moving {s : State} {ref : ItemRef} {e : Item} (h : isMoving s e.hla = true) :
    drainDone ref e s = drainDoneMoving ref e s := if_pos h

/-- The slot of a MOVING line after the 64 bytes of a drain write have been copied over its data (R85). -/
theorem mergeSlot_whole (e : Item) (s : State) :
    unpend e.hla (mergeSlot e.hla e.data fullMask none [] s) =
      s.setReloc
        { s.reloc with
          slots := s.reloc.slots.map fun q =>
            if q.home == e.hla then
              { q with
                data := mergeLine q.data e.data (BitVec.allOnes 64)
                dirty := q.dirty || slotWriteInFlight s e.hla || q.state == .journaling }
            else q
          pendingList := s.reloc.pendingList.filter (·.hla != e.hla) } := by
  rw [mergeSlot_eq]
  simp only [lowerEpoch_none, List.append_nil]
  rfl

theorem waitingWriteOf_direct {s : State} {id : Nat} {r : HostReq} (hr : findReq s id = some r) :
    waitingWriteOf s (.direct id) = [{ tag := r.tag, live := r.live }] := by
  simp only [waitingWriteOf, hr, Option.map_some, Option.toList_some]

theorem updateSlot_congr {home : Nat} {f g : Slot → Slot} (h : ∀ q, f q = g q) (s : State) : updateSlot home f s = updateSlot home g s := by
  rw [funext h]

/-! ### Faulted writes (R86, R87, R91 to R95) -/

theorem drainFault_still {s : State} {ref : ItemRef} {e : Item} (h : isMoving s e.hla = false) :
    drainFault ref e s = offerItem ref e .writeFault s := by
  unfold drainFault
  rw [h, if_neg Bool.false_ne_true]

/-- The buffer with an entry RELOCATING. -/
def markedRelocating (id : Nat) (v : WriteBuffer) : WriteBuffer :=
  { v with entries := v.entries.map fun x => if x.id == id then { x with phase := .relocating } else x }

theorem offerItem_admitted {s : State} {id : Nat} {e : Item} (cause : RelocCause) (hreserved : reservationFor s e.hla = false)
    (hfree : slotFree s = true) :
    offerItem (.entry id) e cause s = admitItem (.entry id) e cause (s.setBuf (markedRelocating id s.buf)) := by
  unfold offerItem
  rw [if_pos (by rw [hreserved, hfree]; rfl)]
  rfl

theorem offerItem_queued {s : State} {id : Nat} {e : Item} (cause : RelocCause)
    (h : reservationFor s e.hla = true ∨ slotFree s = false) :
    offerItem (.entry id) e cause s =
      (s.setBuf (markedRelocating id s.buf)).setReloc
        { s.reloc with queue := s.reloc.queue ++ [.request (.entry id) e.hla cause] } := by
  have hno : ¬ (!reservationFor s e.hla && slotFree s) = true := by
    rcases h with h | h <;> simp [h]
  unfold offerItem
  rw [if_neg hno]
  rfl

theorem admitItem_moves {s : State} {id spare : Nat} {e : Item} (cause : RelocCause) (hbelow : e.hla < fenceValue s)
    (hmoving : isMoving s e.hla = false) (hfree : lowestFree s = some spare) :
    admitItem (.entry id) e cause s =
      leaveItem (.entry id) (beginRelocation e.hla spare cause e.data e.epoch [] (setMark spare .held s)) := by
  unfold admitItem
  rw [allocateFor_free hbelow hmoving hfree]
  rfl

theorem admitItem_heals {s : State} {id : Nat} {e : Item} (hbelow : e.hla < fenceValue s) (hmoving : isMoving s e.hla = false)
    (hfree : lowestFree s = none) :
    admitItem (.entry id) e .pendingWrite s = healInPlace (.entry id) e (latch .sparesOut s) := by
  unfold admitItem
  rw [allocateFor_none hbelow hmoving hfree]
  rfl

theorem admitItem_loses {s : State} {id : Nat} {e : Item} (hbelow : e.hla < fenceValue s) (hmoving : isMoving s e.hla = false)
    (hfree : lowestFree s = none) : admitItem (.entry id) e .writeFault s = loseItem (.entry id) e (latch .sparesOut s) := by
  unfold admitItem
  rw [allocateFor_none hbelow hmoving hfree]
  rfl

theorem discardItem_entry (id : Nat) (e : Item) (reason : ReportReason) (s : State) :
    discardItem (.entry id) e reason s = failCovered e.epoch (leaveItem (.entry id) (queueReport e.hla reason s)) := rfl

/-- A marked entry is discarded like one that has not been marked. -/
theorem loseItem_marked (id : Nat) (e : Item) {s : State} {v : WriteBuffer} (hv : s.buf = v) :
    loseItem (.entry id) e (s.setBuf (markedRelocating id v)) = loseItem (.entry id) e s := by
  have hbuf : (queueReport e.hla .noSpare
      (writeFault .homeWriteFault (some e.hla) (some e.place) none (pendingAdd e.hla .writeFault s))).buf = v := by
    rw [queueReport_buf, writeFault_buf, (TablesOnly.pendingAdd ..).buf, hv]
  unfold loseItem
  rw [discardItem_entry, discardItem_entry, pendingAdd_setBuf, writeFault_setBuf, queueReport_setBuf]
  unfold markedRelocating
  rw [leaveItem_marked id (f := fun x => { x with phase := .relocating }) (fun _ => rfl) hbuf]

theorem discardItem_live {s : State} {id : Nat} {r : HostReq} (e : Item) (reason : ReportReason) (hr : findReq s id = some r)
    (hlive : r.live = true) :
    discardItem (.direct id) e reason s =
      responded (reportingAnswer .write r.tag .poisonHit s)
        ((s.setBuf { s.buf with direct := s.buf.direct.filter (·.id != id) }).setHost
          { s.host with
            order := s.host.order.filter (·.id != id), tags := s.host.tags.filter (· != r.tag)
            reports := s.host.reports.drop 1 }) := by
  unfold discardItem
  simp only [hr, hlive, if_true]
  rfl

theorem discardItem_released {s : State} {id : Nat} {r : HostReq} (e : Item) (reason : ReportReason) (hr : findReq s id = some r)
    (hlive : r.live = false) : discardItem (.direct id) e reason s = leaveItem (.direct id) (queueReport e.hla reason s) := by
  unfold discardItem
  simp only [hr, hlive, Bool.false_eq_true, if_false]

/-- Settles O27: each answer is followed to its item, and the item to its end. -/
theorem drainWritesAnswered : Obligations.DrainWritesAnswered := by
  refine ⟨fun s id ala step data rest e u t hu hmoving => ⟨fun hflight he hwaiters ht => ?_, fun r hflight he hr hlive ht => ?_⟩,
    fun s id ala step data rest e u v t hmoving hu => ⟨fun hflight he hwaiters hv ht => ?_,
      fun r hflight he hepoch hr hlive hv ht => ?_⟩,
    fun s id ala step spare data rest e t hflight he hbelow hmoving hreserved hslot hfree hwaiters ht => ?_,
    fun s id ala step data rest e t hflight he hwaiters ht => ?_,
    ⟨fun s id ala step data rest e left u t he hleft => ⟨fun hflight hbelow hmoving hreserved hslot hfree hu ht => ?_,
      fun hflight hu ht => ?_⟩, fun s id e reason r u hr => ⟨fun hlive => discardItem_live e reason hr hlive, fun hdead hu => ?_⟩⟩,
    fun s id e cause u hu => ⟨fun hreserved hslot => ?_, fun hwaits => ?_, fun hbelow hmoving =>
      ⟨fun spare v hfree hv => ?_, fun place hfree hcause hplace => ?_⟩⟩⟩
  · rw [exec_drainWriteAnswer hflight, drainOutcome_done ((findItem_answerTaken rest s _).trans he),
      drainDone_still (by exact hmoving), ht, hu]
    exact congrArg (fun x => Host.Outcome.next (settle x)) (leaveItem_entry (s := unpend e.hla (answerTaken rest s)) hwaiters)
  · rw [exec_drainWriteAnswer hflight, drainOutcome_done ((findItem_answerTaken rest s _).trans he),
      drainDone_still (by exact hmoving), completeItem_direct (by exact hr) hlive, ht, hu]
    rfl
  · have hmerged : unpend e.hla (mergeSlot e.hla e.data fullMask none [] (answerTaken rest s)) = u := by
      rw [mergeSlot_whole, hu]
      rfl
    have hcompleted : settleBarriers (completeItem (.entry id) u) = v := by
      rw [hv, hu]
      exact congrArg settleBarriers (leaveItem_entry (by exact hwaiters))
    rw [exec_drainWriteAnswer hflight, drainOutcome_done ((findItem_answerTaken rest s _).trans he),
      drainDone_moving (by exact hmoving), drainDoneMoving, hmerged, hcompleted, ht]
    refine congrArg (fun x => Host.Outcome.next (settle x)) (updateSlot_congr (fun q => ?_) v)
    show ({ q with epoch := lowerEpoch q.epoch e.epoch, waiting := q.waiting ++ [] } : Slot) = _
    rw [List.append_nil]
    cases q.epoch <;> cases e.epoch <;> rfl
  · have hmerged : unpend e.hla (mergeSlot e.hla e.data fullMask none [] (answerTaken rest s)) = u := by
      rw [mergeSlot_whole, hu]
      rfl
    have hru : findReq u id = some r := by rw [hu]; exact hr
    have hcompleted : settleBarriers (completeItem (.direct id) u) = v := by
      rw [completeItem_direct hru hlive, hv, hu]
      rfl
    have hwaiting : (waitingWriteOf (answerTaken rest s) (.direct id)).map (fun w => { w with live := false }) =
        [{ tag := r.tag, live := false }] := by
      rw [waitingWriteOf_direct (by exact hr)]
      rfl
    rw [exec_drainWriteAnswer hflight, drainOutcome_done ((findItem_answerTaken rest s _).trans he),
      drainDone_moving (by exact hmoving), drainDoneMoving, hmerged, hcompleted, hwaiting, ht]
    refine congrArg (fun x => Host.Outcome.next (settle x)) (updateSlot_congr (fun q => ?_) v)
    rw [hepoch, lowerEpoch_none]
  · rw [exec_drainWriteAnswer hflight, drainOutcome_fault ((findItem_answerTaken rest s _).trans he),
      drainFault_still (by exact hmoving), offerItem_admitted _ (by exact hreserved) (by exact hslot),
      admitItem_moves _ (by exact hbelow) (by exact hmoving) (by exact hfree), ht]
    have hkept := (TablesOnly.setMap (answerTaken rest s) { s.map with marks := insertMark spare .held s.map.marks }).trans
      (.beginRelocation e.hla spare .writeFault e.data e.epoch [] _)
    refine congrArg (fun x => Host.Outcome.next (settle x)) ?_
    refine (congrArg (leaveItem (.entry id)) (beginRelocation_setBuf e.hla spare .writeFault e.data e.epoch []
      (setMark spare .held (answerTaken rest s)) (markedRelocating id s.buf))).trans ?_
    refine (leaveItem_marked id (f := fun x => { x with phase := .relocating }) (fun _ => rfl) hkept.buf).trans ?_
    rw [leaveItem_entry (by rw [hkept.host]; exact hwaiters), hkept.buf]
    rfl
  · rw [exec_inPlaceWriteAnswer hflight, inPlaceOutcome_done ((findItem_answerTaken rest s _).trans he), ht]
    exact congrArg (fun x => Host.Outcome.next (settle x)) (leaveItem_entry (s := unpend e.hla (answerTaken rest s)) hwaiters)
  · have hleaves : ∀ x, leaveItem (.entry id) x = left x := fun x => (leaveItem_requeues id x).trans (hleft x).symm
    rw [exec_drainWriteAnswer hflight, drainOutcome_fault ((findItem_answerTaken rest s _).trans he),
      drainFault_still (by exact hmoving), offerItem_admitted _ (by exact hreserved) (by exact hslot),
      admitItem_loses (by exact hbelow) (by exact hmoving) (by exact hfree), ht, hu, ← hleaves]
    exact congrArg (fun x => Host.Outcome.next (settle x))
      (loseItem_marked id e (s := latch .sparesOut (answerTaken rest s)) (v := s.buf) rfl)
  · have hleaves : ∀ x, leaveItem (.entry id) x = left x := fun x => (leaveItem_requeues id x).trans (hleft x).symm
    rw [exec_inPlaceWriteAnswer hflight, inPlaceOutcome_fault ((findItem_answerTaken rest s _).trans he), ht, hu, ← hleaves]
    rfl
  · rw [discardItem_released e reason hr hdead, ← hu]
    rfl
  · rw [offerItem_admitted cause hreserved hslot, hu]
    rfl
  · rw [offerItem_queued cause hwaits, hu]
    rfl
  · have hkept := (TablesOnly.setMap s { s.map with marks := insertMark spare .held s.map.marks }).trans
      (.beginRelocation e.hla spare cause e.data e.epoch [] _)
    have hbuf : v.buf = s.buf := by rw [hv]; exact hkept.buf
    have hhost : v.host = s.host := by rw [hv]; exact hkept.host
    rw [admitItem_moves cause hbelow hmoving hfree, ← hv, leaveItem_requeues, hbuf, hhost]
  · subst hcause hplace
    rw [admitItem_heals hbelow hmoving hfree]
    rfl

end Sys2Proof.Machine
end
section
/-! Writes of a slot that the array answers (O28, O29, O30; R98 to R105). The idea: the answer reaches its slot (`slotWriteOutcome_found`);
what a slot's end does to the table and the pool is one update of the map (`bindTarget_frees`, `revertEntry_eq`), and with no waiting
write and no LINE_RETIRE nothing else is told of it. -/

namespace Sys2Proof.Machine

-- One theorem after another, as in the laws (see `Quiet`): the memory of the check does not hold all their threads at once.
set_option Elab.async false

/-! ### The answer reaches its slot -/

theorem findSlot_home {s : State} {home : Nat} {q : Slot} (h : findSlot s home = some q) : q.home = home := by
  have hmatch := List.find?_some h
  exact beq_iff_eq.mp hmatch

theorem exec_targetWriteAnswer {s : State} {home ala step : Nat} {data : LineData} {rest : List Flight} {q : Slot}
    (hflight : s.array.inFlight = inFlightNow (.write ala data) (.slotWrite home .target) step :: rest)
    (hq : findSlot s home = some q) (answer : WriteAnswer) :
    exec (.targetWriteAnswer answer) s = .next (settle (targetOutcome q answer (answerTaken rest s))) := by
  have htaken := answerEvent_taken (accepts := Owner.isSlotWrite .target) (effect := takeWrite answer) hflight rfl rfl
  refine congrArg Host.Outcome.next (htaken.trans (congrArg settle ?_))
  show slotWriteOutcome home .target answer (answerTaken rest s) = _
  unfold slotWriteOutcome
  rw [show findSlot (answerTaken rest s) home = some q from hq]

theorem exec_finishingWriteAnswer {s : State} {home ala step : Nat} {data : LineData} {rest : List Flight} {q : Slot}
    (hflight : s.array.inFlight = inFlightNow (.write ala data) (.slotWrite home .finishing) step :: rest)
    (hq : findSlot s home = some q) (answer : WriteAnswer) :
    exec (.finishingWriteAnswer answer) s = .next (settle (finishingOutcome q answer (answerTaken rest s))) := by
  have htaken := answerEvent_taken (accepts := Owner.isSlotWrite .finishing) (effect := takeWrite answer) hflight rfl rfl
  refine congrArg Host.Outcome.next (htaken.trans (congrArg settle ?_))
  show slotWriteOutcome home .finishing answer (answerTaken rest s) = _
  unfold slotWriteOutcome
  rw [show findSlot (answerTaken rest s) home = some q from hq]

theorem exec_fallbackWriteAnswer {s : State} {home ala step : Nat} {data : LineData} {rest : List Flight} {q : Slot}
    (hflight : s.array.inFlight = inFlightNow (.write ala data) (.slotWrite home .fallback) step :: rest)
    (hq : findSlot s home = some q) (answer : WriteAnswer) :
    exec (.fallbackWriteAnswer answer) s = .next (settle (fallbackOutcome q answer (answerTaken rest s))) := by
  have htaken := answerEvent_taken (accepts := Owner.isSlotWrite .fallback) (effect := takeWrite answer) hflight rfl rfl
  refine congrArg Host.Outcome.next (htaken.trans (congrArg settle ?_))
  show slotWriteOutcome home .fallback answer (answerTaken rest s) = _
  unfold slotWriteOutcome
  rw [show findSlot (answerTaken rest s) home = some q from hq]

/-! ### What the map says of a home, and who reads it -/

theorem entryOf_congr {x s : State} (h : x.map = s.map) (home : Nat) : entryOf x home = entryOf s home := by
  unfold entryOf
  rw [h]

theorem targetOf_eq {s : State} {home target : Nat} {e : RemapEntry} (he : entryOf s home = some e) (ht : e.target = some target) :
    targetOf s home = target := by
  unfold targetOf
  rw [he, Option.bind_some, ht, Option.getD_some]

theorem servingPlace_eq {s : State} {home : Nat} {e : RemapEntry} (he : entryOf s home = some e) :
    servingPlace s home = e.spare.getD home := by
  unfold servingPlace
  rw [he, Option.bind_some]

theorem lowestFree_congr {x s : State} (hmap : x.map = s.map) (harray : x.array.lineCount = s.array.lineCount) :
    lowestFree x = lowestFree s := by
  unfold lowestFree fenceValue spareCount spareStateOf inReserve inRange reserveEnd
  rw [hmap, harray]

theorem allocate_eq_free {s : State} {spare : Nat} (h : lowestFree s = some spare) : allocate s = (some spare, setMark spare .held s) := by
  unfold allocate
  rw [h]

theorem allocate_eq_none {s : State} (h : lowestFree s = none) : allocate s = (none, latch .sparesOut s) := by
  unfold allocate
  rw [h]

theorem retarget_eq {s : State} {home old : Nat} {e : RemapEntry} (he : entryOf s home = some e) (hold : e.target = some old)
    (next : Nat) : retarget home next s = setEntry { e with target := some next } (setMark old .dead (setMark next .held s)) := by
  unfold retarget
  simp only [he, hold]

/-! ### Target writes (O28) -/

theorem targetOutcome_done (q : Slot) (s : State) :
    targetOutcome q .done s =
      if q.dirty = true then placeRequest (.slotWrite q.home) s
      else
        offerRecord (.bind q.home (targetOf s q.home))
          (s.setReloc
            { s.reloc with
              slots := s.reloc.slots.map fun x => if x.home == q.home then { x with state := .journaling } else x }) := rfl

theorem targetFault_retargets {s u : State} {q : Slot} {e : RemapEntry} {old next : Nat} (he : entryOf s q.home = some e)
    (hold : e.target = some old) (hu : u = writeFault .spareWriteFault (some q.home) (some old) none s) (hfew : q.attempts < 3)
    (hfree : lowestFree s = some next) :
    targetFault q s =
      placeRequest (.slotWrite q.home)
        ((offerRecord (.dead old)
          (setEntry { e with target := some next } (setMark old .dead (setMark next .held u)))).setReloc
          { s.reloc with
            slots := s.reloc.slots.map fun x => if x.home == q.home then { x with attempts := x.attempts + 1 } else x }) := by
  have humap : u.map = s.map := by rw [hu, writeFault_map]
  have hureloc : u.reloc = s.reloc := by rw [hu, writeFault_reloc]
  have hufree : lowestFree u = some next := (lowestFree_congr humap (by rw [hu, writeFault_array])).trans hfree
  unfold targetFault
  simp only [targetOf_eq he hold, ← hu, hfew, Config.sparesTried, if_true, allocate_eq_free hufree,
    retarget_eq ((entryOf_congr humap _).trans he) hold, updateSlot, offerRecord_reloc, setEntry, setMark, State.setMap_reloc, hureloc]

theorem enterReturning_eq {s v : State} {home old : Nat} {e : RemapEntry} (hmap : v.map = s.map) (hreloc : v.reloc = s.reloc)
    (he : entryOf s home = some e) (hold : e.target = some old) :
    enterReturning home v =
      placeRequest (.slotWrite home)
        ((writeFault .relocateFail (some home) (some old) none v).setReloc
          { s.reloc with
            slots := s.reloc.slots.map fun x => if x.home == home then { x with state := .returning } else x }) := by
  unfold enterReturning updateSlot
  simp only [targetOf_eq ((entryOf_congr hmap _).trans he) hold, writeFault_reloc, hreloc]

theorem targetFault_returns {s u v : State} {q : Slot} {e : RemapEntry} {old : Nat} (he : entryOf s q.home = some e)
    (hold : e.target = some old) (hu : u = writeFault .spareWriteFault (some q.home) (some old) none s)
    (hv : (3 ≤ q.attempts ∧ v = u) ∨ (q.attempts < 3 ∧ lowestFree s = none ∧ v = latch .sparesOut u)) :
    targetFault q s = enterReturning q.home v := by
  unfold targetFault
  simp only [targetOf_eq he hold, ← hu]
  rcases hv with ⟨hmany, rfl⟩ | ⟨hfew, hnone, rfl⟩
  · exact if_neg (Nat.not_lt.mpr hmany)
  · have hunone : lowestFree u = none :=
      (lowestFree_congr (by rw [hu, writeFault_map]) (by rw [hu, writeFault_array])).trans hnone
    simp only [hfew, Config.sparesTried, if_true, allocate_eq_none hunone]

/-- Settles O28: each row of R98 and R99 is one equation of the target's outcome. -/
theorem targetWriteAnswered : Obligations.TargetWriteAnswered := by
  refine ⟨fun s home ala step data rest q t hflight hq ht => ?_,
    fun s home ala step data rest q e old u t hflight hq he hold hu => ⟨fun next hfew hfree ht => ?_, fun v hv ht => ?_⟩⟩
  · obtain rfl := findSlot_home hq
    rw [exec_targetWriteAnswer hflight hq, targetOutcome_done, ht]
    rfl
  · obtain rfl := findSlot_home hq
    have hfault := targetFault_retargets (s := answerTaken rest s) he hold hu hfew hfree
    rw [exec_targetWriteAnswer hflight hq, ht]
    exact congrArg (fun x => Host.Outcome.next (settle x)) hfault
  · obtain rfl := findSlot_home hq
    have husame : u.map = s.map ∧ u.reloc = s.reloc := by
      rw [hu, writeFault_map, writeFault_reloc]
      exact ⟨rfl, rfl⟩
    have hsame : v.map = s.map ∧ v.reloc = s.reloc := by
      rcases hv with ⟨-, rfl⟩ | ⟨-, -, rfl⟩
      · exact husame
      · exact husame
    have hfault := (targetFault_returns (s := answerTaken rest s) he hold hu hv).trans (enterReturning_eq hsame.1 hsame.2 he hold)
    rw [exec_targetWriteAnswer hflight hq, ht]
    exact congrArg (fun x => Host.Outcome.next (settle x)) hfault

/-! ### Who is told of a slot's end -/

theorem answerWaiting_none {q : Slot} (h : q.waiting = []) (status : HostStatus) (s : State) : answerWaiting q status s = s := by
  unfold answerWaiting
  simp only [h, List.filter_nil, List.length_nil, freeOrder, List.foldl_nil]

/-- One waiting write, its tag outstanding, is answered with the oldest deferred report (R29, R35). -/
theorem answerWaiting_one {q : Slot} {w : WaitingWrite} (h : q.waiting = [w]) (hlive : w.live = true) (status : HostStatus)
    (s : State) :
    answerWaiting q status s =
      responded (reportingAnswer .write w.tag status s)
        (s.setHost { s.host with tags := s.host.tags.filter (· != w.tag), reports := s.host.reports.drop 1 }) := by
  unfold answerWaiting
  simp only [h, List.filter_cons, hlive, if_true, List.filter_nil, List.length_cons, List.length_nil, freeOrder, List.foldl_cons,
    List.foldl_nil]
  rfl

theorem answerWaiting_port (q : Slot) (status : HostStatus) (s : State) : (answerWaiting q status s).port = s.port := by
  unfold answerWaiting
  refine foldl_keeps (P := fun x => x.port = s.port) (fun x w hx => ?_) _ _ rfl
  exact hx

theorem answerBarriers_port (verdict : Barrier → Option HostStatus) (s : State) : (answerBarriers verdict s).port = s.port := by
  refine foldl_keeps (P := fun x => x.port = s.port) (fun x b hx => ?_) _ _ rfl
  split
  · exact hx
  · exact hx

theorem failCovered_port (epoch : Option Nat) (s : State) : (failCovered epoch s).port = s.port := answerBarriers_port _ s

/-- Data without an ack epoch is in no covered set (R78). -/
theorem failCovered_none (s : State) : failCovered none s = s := by
  have hverdict : ∀ b : Barrier, (if coveredBy b none = true then some HostStatus.incomplete else none) = none := fun b => if_neg nofun
  unfold failCovered answerBarriers
  simp only [hverdict, Option.isSome_none, Option.isNone_none, List.filter_false, List.filter_true, List.length_nil, freeOrder,
    List.foldl_nil]
  rfl

theorem answerRetire_runs {s : State} {seq : Byte} {home : Nat}
    (h : s.port.command = some { seq, command := .lineRetire home true }) (status : Status) (results : List Byte) :
    answerRetire home status results s = completeCommand seq status results s := by
  have hretiring : retiring s home = true := by
    unfold retiring currentCommand
    rw [h, Option.map_some]
    exact beq_self_eq_true _
  unfold answerRetire completeCurrent
  rw [if_pos hretiring, h]

theorem tellLost_idle {q : Slot} {s : State} (h : s.port.command = none) :
    tellLost q s = failCovered q.epoch (answerWaiting q .poisonHit (queueReport q.home .dataLost s)) := by
  unfold tellLost
  exact answerRetire_idle (by rw [failCovered_port, answerWaiting_port, queueReport_port]; exact h) ..

/-! ### FINISHING writes (O29) -/

/-- The marks after a binding: the target is BOUND, the old spare DEAD (R4). -/
def boundMarks (old : Option Nat) (target : Nat) (marks : List SpareMark) : List SpareMark :=
  match old with
  | some a => insertMark a .dead (insertMark target .bound marks)
  | none => insertMark target .bound marks

/-- The binding of a home, its slot free (R4, R93): of `x`, with the map and the slots that `s` has. -/
def bindingEnded (home target : Nat) (e : RemapEntry) (s x : State) : State :=
  (x.setMap
    { s.map with
      table := insertEntry { e with spare := some target, target := none, boundTick := some s.tick } s.map.table
      marks := boundMarks e.spare target s.map.marks }).setReloc
    { x.reloc with slots := s.reloc.slots.filter (·.home != home) }

theorem bindTarget_frees {s x : State} {home target : Nat} {e : RemapEntry} (hmap : x.map = s.map)
    (hslots : x.reloc.slots = s.reloc.slots) (htick : x.tick = s.tick) (he : entryOf s home = some e)
    (htarget : e.target = some target) : freeSlot home (bindTarget home x) = bindingEnded home target e s x := by
  unfold bindTarget bindingEnded
  simp only [(entryOf_congr hmap home).trans he, htarget, htick]
  unfold boundMarks
  rw [← hmap, ← hslots]
  cases e.spare <;> rfl

theorem completeBinding_quiet {q : Slot} {s : State} (hwaiting : q.waiting = []) (hidle : s.port.command = none) :
    completeBinding q s = freeSlot q.home (bindTarget q.home s) := by
  obtain ⟨v, hv⟩ := bindTarget_map (s := s) (home := q.home)
  unfold completeBinding
  simp only [answerWaiting_none hwaiting]
  exact answerRetire_idle (by rw [hv]; exact hidle) ..

theorem completeBinding_retires {q : Slot} {s : State} {seq : Byte} {target : Nat} {e : RemapEntry} (hwaiting : q.waiting = [])
    (he : entryOf s q.home = some e) (htarget : e.target = some target)
    (hc : s.port.command = some { seq, command := .lineRetire q.home true }) :
    completeBinding q s =
      completeCommand seq .ok (enc24 q.home ++ enc24 target) (freeSlot q.home (bindTarget q.home s)) := by
  obtain ⟨v, hv⟩ := bindTarget_map (s := s) (home := q.home)
  unfold completeBinding
  simp only [answerWaiting_none hwaiting, targetOf_eq he htarget]
  exact answerRetire_runs (by rw [hv]; exact hc) ..

theorem finishingOutcome_dirty {q : Slot} (h : q.dirty = true) (s : State) :
    finishingOutcome q .done s = placeRequest (.slotWrite q.home) s := if_pos ⟨rfl, h⟩

theorem finishingOutcome_ends {q : Slot} {answer : WriteAnswer} {s : State} (hstate : s.jour.state ≠ .stalled)
    (h : answer = .done → q.dirty = false) : finishingOutcome q answer s = endFinishing q answer s := by
  unfold finishingOutcome
  rw [if_neg (fun hd => by rw [h hd.1] at hd; exact Bool.false_ne_true hd.2), if_neg hstate]

theorem finishingOutcome_held {q : Slot} {answer : WriteAnswer} {s : State} (hstate : s.jour.state = .stalled)
    (h : answer = .done → q.dirty = false) : finishingOutcome q answer s = holdOutcome q answer s := by
  unfold finishingOutcome
  rw [if_neg (fun hd => by rw [h hd.1] at hd; exact Bool.false_ne_true hd.2), if_pos hstate]

theorem pendingListFull_iff (s : State) (hla : Nat) :
    pendingListFull s hla = true ↔ isPending s hla = false ∧ 32 ≤ s.reloc.pendingList.length := by
  simp only [pendingListFull, Bool.and_eq_true, Bool.not_eq_true', Config.pendingLimit]
  exact and_congr_right fun _ => decide_eq_true_iff

/-- A fault while the journal is STALLED: its records are written, and the outcome is held (R105, log 39). -/
theorem holdOutcome_fault {q : Slot} {s u v : State} {e : RemapEntry} {target : Nat} {dropped : Bool}
    (he : entryOf s q.home = some e) (htarget : e.target = some target)
    (hdropped : dropped = true ↔ isPending s q.home = false ∧ 32 ≤ s.reloc.pendingList.length)
    (hu : u = writeFault .spareWriteFault (some q.home) (some target) none s)
    (hv : v = if dropped = true then writeFault .pendingOverflow (some q.home) none none (latch .pendingFull u) else u) :
    holdOutcome q .fault s =
      (writeFault .dataLost (some q.home) (some target) none v).setReloc
        { s.reloc with held := s.reloc.held ++ [{ home := q.home, answer := .fault, dropped }] } := by
  have hfull : pendingListFull s q.home = dropped := by rw [Bool.eq_iff_iff, pendingListFull_iff, hdropped]
  have hureloc : u.reloc = s.reloc := by rw [hu, writeFault_reloc]
  have hvreloc : v.reloc = s.reloc := by
    rw [hv]
    cases dropped with
    | false => exact hureloc
    | true => exact (writeFault_reloc ..).trans hureloc
  have hrecorded : recordHeldFault q s = writeFault .dataLost (some q.home) (some target) none v := by
    unfold recordHeldFault
    simp only [targetOf_eq he htarget, ← hu, hfull, hv]
    rfl
  unfold holdOutcome
  simp only [hrecorded, hfull, writeFault_reloc, hvreloc]

theorem finishLost_idle {q : Slot} {s : State} {e : RemapEntry} {target : Nat} (he : entryOf s q.home = some e)
    (htarget : e.target = some target) (hidle : s.port.command = none) :
    finishLost q s =
      failCovered q.epoch
        (answerWaiting q .poisonHit
          (queueReport q.home .dataLost
            (writeFault .dataLost (some q.home) (some target) none
              (pendingAdd q.home .relocate
                (freeSlot q.home
                  (bindTarget q.home (writeFault .spareWriteFault (some q.home) (some target) none s))))))) := by
  obtain ⟨v, hv⟩ := bindTarget_map (s := writeFault .spareWriteFault (some q.home) (some target) none s) (home := q.home)
  unfold finishLost loseSlot
  simp only [targetOf_eq he htarget]
  refine tellLost_idle ?_
  rw [writeFault_port, (TablesOnly.pendingAdd ..).port, hv]
  show (writeFault .spareWriteFault (some q.home) (some target) none s).port.command = none
  rw [writeFault_port, hidle]

theorem finishHeldFault_idle {q : Slot} {dropped : Bool} {s : State} (hidle : s.port.command = none) :
    finishHeldFault q dropped s =
      failCovered q.epoch
        (answerWaiting q .poisonHit
          (queueReport q.home .dataLost
            (if dropped = true then freeSlot q.home (bindTarget q.home s)
             else pendingAdd q.home .relocate (freeSlot q.home (bindTarget q.home s))))) := by
  obtain ⟨v, hv⟩ := bindTarget_map (s := s) (home := q.home)
  unfold finishHeldFault
  refine tellLost_idle ?_
  rw [hv]
  cases dropped with
  | true => exact hidle
  | false => exact (congrArg ServicePort.command (TablesOnly.pendingAdd ..).port).trans hidle

theorem heldNext_takes {s : State} {h : HeldOutcome} {others : List HeldOutcome} {q : Slot} (hheld : s.reloc.held = h :: others)
    (hready : s.jour.state = .ready) (hq : findSlot s h.home = some q) :
    heldNext s = some (takeHeld q h (s.setReloc { s.reloc with held := others })) := by
  unfold heldNext
  rw [hheld]
  simp only [hready, if_true]
  rw [show findSlot (s.setReloc { s.reloc with held := others }) h.home = some q from hq]

/-- Settles O29: a FINISHING write's outcome is a further write, the end of the slot, or an outcome held for a READY journal. -/
theorem finishingWriteDone : Obligations.FinishingWriteDone := by
  refine ⟨fun s home ala step data rest q e target t hflight hq hhome he htarget => ⟨fun hdirty ht => ?_,
      fun hdirty hstate hwaiting hidle ht => ?_⟩,
    fun s home ala step data rest q e target bound t hq hhome he htarget hbound => ?_⟩
  · subst hhome
    rw [exec_finishingWriteAnswer hflight hq, finishingOutcome_dirty hdirty, ht]
  · subst hhome
    have hends := finishingOutcome_ends (s := answerTaken rest s) (answer := .done) (q := q) hstate (fun _ => hdirty)
    have hcompletes := completeBinding_quiet (s := answerTaken rest s) hwaiting hidle
    have hfrees := bindTarget_frees (x := answerTaken rest s) (s := s) rfl rfl rfl he htarget
    rw [exec_finishingWriteAnswer hflight hq, ht]
    refine congrArg (fun x => Host.Outcome.next (settle x)) ((hends.trans (hcompletes.trans hfrees)).trans ?_)
    unfold bindingEnded boundMarks
    cases e.spare <;> rfl
  · subst hhome
    have hended : ∀ x, bound x = bindingEnded q.home target e s x := fun x => by
      rw [hbound]
      unfold bindingEnded boundMarks
      cases e.spare <;> rfl
    have hbinds : ∀ x : State, x.map = s.map → x.reloc.slots = s.reloc.slots → x.tick = s.tick →
        freeSlot q.home (bindTarget q.home x) = bound x := fun x hmap hslots htick =>
      (bindTarget_frees hmap hslots htick he htarget).trans (hended x).symm
    refine ⟨fun hflight => ⟨fun hstate hdirty ht => ?_, fun dropped u v hstate hdropped hu hv ht => ?_, fun hstate hidle ht => ?_,
        fun seq hstate hdirty hwaiting hc ht => ?_⟩,
      fun w hlive hwaiting status => answerWaiting_one hwaiting hlive status s, fun hwaiting status => answerWaiting_none hwaiting status s,
      (heldNext_none_iff s).mpr, fun others hready hidle => ⟨fun hheld hdirty hwaiting => ?_, fun dropped u hheld hu => ?_⟩⟩
    · have hholds := finishingOutcome_held (s := answerTaken rest s) (answer := .done) (q := q) hstate (fun _ => hdirty)
      rw [exec_finishingWriteAnswer hflight hq, ht]
      exact congrArg (fun x => Host.Outcome.next (settle x)) hholds
    · have hholds := finishingOutcome_held (s := answerTaken rest s) (answer := .fault) (q := q) hstate nofun
      have hfault := holdOutcome_fault (s := answerTaken rest s) he htarget hdropped hu hv
      rw [exec_finishingWriteAnswer hflight hq, ht]
      exact congrArg (fun x => Host.Outcome.next (settle x)) (hholds.trans hfault)
    · have hends := finishingOutcome_ends (s := answerTaken rest s) (answer := .fault) (q := q) hstate nofun
      have hlost := finishLost_idle (s := answerTaken rest s) he htarget hidle
      rw [exec_finishingWriteAnswer hflight hq, ht]
      refine congrArg (fun x => Host.Outcome.next (settle x)) ((hends.trans hlost).trans ?_)
      rw [hbinds (writeFault .spareWriteFault (some q.home) (some target) none (answerTaken rest s)) (writeFault_map ..)
        (by rw [writeFault_reloc]; rfl) (writeFault_tick ..)]
    · have hends := finishingOutcome_ends (s := answerTaken rest s) (answer := .done) (q := q) hstate (fun _ => hdirty)
      have hcompletes := completeBinding_retires (s := answerTaken rest s) hwaiting he htarget hc
      rw [exec_finishingWriteAnswer hflight hq, ht]
      refine congrArg (fun x => Host.Outcome.next (settle x)) ((hends.trans hcompletes).trans ?_)
      rw [hbinds (answerTaken rest s) rfl rfl rfl]
    · have hends := finishingOutcome_ends (s := s.setReloc { s.reloc with held := others }) (answer := .done) (q := q)
        (by rw [State.setReloc_jour, hready]; exact nofun) (fun _ => hdirty)
      have hcompletes := completeBinding_quiet (s := s.setReloc { s.reloc with held := others }) hwaiting hidle
      rw [heldNext_takes hheld hready hq, ← hbinds (s.setReloc { s.reloc with held := others }) rfl rfl rfl]
      exact congrArg some (hends.trans hcompletes)
    · have hlost := finishHeldFault_idle (q := q) (dropped := dropped) (s := s.setReloc { s.reloc with held := others }) hidle
      rw [heldNext_takes hheld hready hq, hu, ← hbinds (s.setReloc { s.reloc with held := others }) rfl rfl rfl]
      exact congrArg some hlost

/-! ### Fallback writes (O30) -/

theorem revertEntry_port (home : Nat) (s : State) : (freeSlot home (revertEntry home s)).port = s.port := by
  unfold revertEntry killSpare dropTarget
  split
  · split
    · refine (offerRecord_port ..).trans ?_
      split <;> rfl
    · split <;> rfl
  · rfl

/-- Settles O30: the return ends by `revertEntry_eq`, and a fault tells the loss as well. -/
theorem fallbackWriteAnswered : Obligations.FallbackWriteAnswered := by
  refine ⟨fun s home ala step data rest q e target t hflight hq hhome he htarget hdirty hwaiting hidle ht => ?_,
    fun s home ala step data rest q e target t hflight hq hhome he htarget hwaiting hepoch hidle ht => ?_⟩
  · subst hhome
    have hport : (freeSlot q.home (revertEntry q.home (answerTaken rest s))).port.command = none := by
      rw [revertEntry_port]
      exact hidle
    have hends : fallbackOutcome q .done (answerTaken rest s) = freeSlot q.home (revertEntry q.home (answerTaken rest s)) := by
      unfold fallbackOutcome endReturn
      simp only [hdirty, Bool.false_eq_true, if_false, answerWaiting_none hwaiting]
      exact answerRetire_idle hport ..
    rw [exec_fallbackWriteAnswer hflight hq, hends, revertEntry_eq he htarget, ht]
  · subst hhome
    have hport : (freeSlot q.home (revertEntry q.home (answerTaken rest s))).port.command = none := by
      rw [revertEntry_port]
      exact hidle
    have hplace : fallbackPlace (answerTaken rest s) q.home = e.spare.getD q.home := servingPlace_eq (s := answerTaken rest s) he
    have hlost : fallbackOutcome q .fault (answerTaken rest s) =
        queueReport q.home .dataLost
          (writeFault .dataLost (some q.home) (some (e.spare.getD q.home)) none
            (pendingAdd q.home .relocate (freeSlot q.home (revertEntry q.home (answerTaken rest s))))) := by
      unfold fallbackOutcome returnLost loseSlot
      simp only [hplace]
      refine (tellLost_idle ?_).trans ?_
      · rw [writeFault_port, (TablesOnly.pendingAdd ..).port]
        exact hport
      · rw [hepoch, failCovered_none, answerWaiting_none hwaiting]
    rw [exec_fallbackWriteAnswer hflight hq, hlost, revertEntry_eq he htarget, ht]

end Sys2Proof.Machine
end
section
/-! The journal's decision and its LOG lines (O31, O60; R101, R118 to R122). The idea: a LOG line that is written leads to the effects of
its records one by one (`applyDurable`), and what a record comes to is a matter of the slot or the command that waits for it; a
compaction places the first lines of a list of records cut by six (`chunksOf_short`). -/

namespace Sys2Proof.Machine

-- One theorem after another, as in the laws (see `Quiet`): the memory of the check does not hold all their threads at once.
set_option Elab.async false

/-! ### The decision of R120 -/

theorem currentCommand_ne {s : State} {c : LongCommand} (h : ∀ p, s.port.command = some p → p.command ≠ c) : currentCommand s ≠ some c := by
  unfold currentCommand
  intro heq
  obtain ⟨p, hp, hc⟩ := Option.map_eq_some_iff.mp heq
  exact h p hp hc

theorem currentCommand_eq {s : State} {p : InProgress} (h : s.port.command = some p) : currentCommand s = some p.command := by
  unfold currentCommand
  rw [h, Option.map_some]

theorem completeCurrent_runs {s : State} {p : InProgress} (h : s.port.command = some p) (status : Status) (results : List Byte) :
    completeCurrent status results s = completeCommand p.seq status results s := by
  unfold completeCurrent
  rw [h]

/-- A list that is not empty is cut into one piece exactly when the piece holds it all. -/
theorem chunksOf_short {α : Type} (l : List α) (h : l ≠ []) : ((chunksOf 6 l.length l).length == 1) = decide (l.length ≤ 6) := by
  obtain ⟨a, rest, rfl⟩ := List.exists_cons_of_ne_nil h
  have hpieces : ∀ (k : Nat) (xs : List α), xs.length ≤ k → (chunksOf 6 k xs = [] ↔ xs = []) := by
    intro k xs hk
    cases k with
    | zero => exact ⟨fun _ => List.length_eq_zero_iff.mp (Nat.le_zero.mp hk), fun _ => rfl⟩
    | succ k =>
      unfold chunksOf
      cases xs with
      | nil => simp
      | cons x xs => simp
  have hrest := hpieces rest.length ((a :: rest).drop 6) (by simp only [List.length_drop, List.length_cons]; omega)
  rw [List.drop_eq_nil_iff] at hrest
  show (((a :: rest).take 6 :: chunksOf 6 rest.length ((a :: rest).drop 6)).length == 1) = _
  rw [Bool.eq_iff_iff, beq_iff_eq, decide_eq_true_eq, ← hrest, List.length_cons]
  exact ⟨fun hone => List.length_eq_zero_iff.mp (by omega), fun hnil => by rw [hnil]; rfl⟩

theorem chunksOf_head {α : Type} (l : List α) : (chunksOf 6 l.length l).headD [] = l.take 6 := by
  cases l with
  | nil => rfl
  | cons a rest => rfl

theorem snapshot_ne_nil (s : State) : snapshot s ≠ [] := nofun

/-- A compaction begins with line 0 of the other bank (R122). -/
theorem beginCompaction_eq {s : State} {bank : Bank} (h : s.jour.active = some bank) (faults : Nat) :
    beginCompaction faults s =
      placeRequest
        (.journalWrite .image (journalAla s bank.other 0)
          (journalLine (s.jour.lastSeq + 1) bank.other true (decide ((snapshot s).length ≤ 6)) ((snapshot s).take 6)))
        (s.setJour
          { s.jour with
            state := .compacting, line := none
            compaction := some
              { bank := bank.other, pos := 0, seq := s.jour.lastSeq + 1, faults
                lines := chunksOf 6 (snapshot s).length (snapshot s) } }) := by
  unfold beginCompaction
  rw [h]
  unfold placeImageLine
  rw [← chunksOf_short _ (snapshot_ne_nil s), ← chunksOf_head (snapshot s)]
  rfl

theorem decideNext_ready {s : State} {bank : Bank} (hstate : s.jour.state = .ready)
    (hop : s.start.op = .running ∨ s.start.op = .quiescing) (hactive : s.jour.active = some bank) :
    decideNext s =
      if currentCommand s = some .journalCompact ∨ 2048 < s.jour.nextLine + 64 then some (beginCompaction 0 s)
      else if s.jour.queue.isEmpty then none
      else some (formLogLine bank s) := by
  unfold decideNext
  rw [if_pos ⟨hstate, hop⟩, hactive]
  rfl

/-- Settles O60: the two rows of R120, and the image as the list of R122. -/
theorem journalDecides : Obligations.JournalDecides := by
  intro s bank hstate hop hactive
  have hready := decideNext_ready hstate hop hactive
  refine ⟨fun hroom hnone => ⟨fun hempty => ?_, fun hsome => ?_⟩, fun records hrecords => ⟨hrecords.symm, fun hfull => ?_⟩⟩
  · have hno : ¬ (currentCommand s = some .journalCompact ∨ 2048 < s.jour.nextLine + 64) :=
      not_or.mpr ⟨currentCommand_ne hnone, by omega⟩
    rw [hready, if_neg hno, hempty]
    rfl
  · have hno : ¬ (currentCommand s = some .journalCompact ∨ 2048 < s.jour.nextLine + 64) :=
      not_or.mpr ⟨currentCommand_ne hnone, by omega⟩
    rw [hready, if_neg hno, if_neg (fun h => hsome (List.isEmpty_iff.mp h))]
    rfl
  · have hsnapshot : snapshot s = records := hrecords.symm
    have hyes : currentCommand s = some .journalCompact ∨ 2048 < s.jour.nextLine + 64 := by
      rcases hfull with hlow | ⟨c, hc, hcompact⟩
      · exact .inr (by omega)
      · exact .inl ((currentCommand_eq hc).trans (congrArg some hcompact))
    rw [hready, if_pos hyes, beginCompaction_eq hactive, hsnapshot]

/-! ### What a record's durability does (R121) -/

theorem bindDurable_none {s : State} {home : Nat} (h : ∀ q, findSlot s home = some q → q.state ≠ .journaling) :
    bindDurable home s = s := by
  unfold bindDurable
  cases hq : findSlot s home with
  | none => rfl
  | some q => exact if_neg (h q hq)

theorem bindDurable_dirty {s : State} {home : Nat} {q : Slot} (hq : findSlot s home = some q) (hstate : q.state = .journaling)
    (hdirty : q.dirty = true) :
    bindDurable home s =
      placeRequest (.slotWrite home)
        (s.setReloc
          { s.reloc with
            slots := s.reloc.slots.map fun x => if x.home == home then { x with state := .finishing } else x }) := by
  unfold bindDurable
  simp only [hq, hstate, hdirty, if_true]
  rfl

theorem bindDurable_completes {s : State} {home : Nat} {q : Slot} (hq : findSlot s home = some q) (hstate : q.state = .journaling)
    (hdirty : q.dirty = false) : bindDurable home s = completeBinding q s := by
  unfold bindDurable
  simp only [hq, hstate, hdirty, if_true, Bool.false_eq_true, if_false]

theorem applyDurable_fence_none {s : State} {f : Nat} (h : currentCommand s ≠ some (.fenceAdjust f)) : applyDurable s (.fence f) = s :=
  if_neg fun hc => h hc.1

theorem applyDurable_policy_none {s : State} {p : PolicySet} (h : currentCommand s ≠ some .policyExchange) :
    applyDurable s (.policy p) = s := if_neg h

theorem applyDurable_policy {s : State} {p : PolicySet} {seq : Byte}
    (h : s.port.command = some { seq, command := .policyExchange }) :
    applyDurable s (.policy p) =
      completeCommand seq .ok s.policy.staged.pack (s.setPolicy { active := s.policy.staged, staged := s.policy.active }) := by
  have hexchanges : applyDurable s (.policy p) = exchangePolicies s := if_pos (currentCommand_eq h)
  rw [hexchanges]
  exact completeCurrent_runs (s := s.setPolicy { active := s.policy.staged, staged := s.policy.active }) h ..

/-- The watched lines of a closing range, spelt out (R53). -/
theorem inRange_closing (s : State) (hla : Nat) :
    inRange s .closing hla = decide (∃ r, s.map.range = some r ∧ r.kind = .closing ∧ r.lo ≤ hla ∧ hla < r.hi) := by
  unfold inRange
  cases hr : s.map.range with
  | none => simp
  | some r =>
    rw [Bool.eq_iff_iff, decide_eq_true_eq]
    simp [and_assoc]

/-- The state with the new fence in effect (R53). -/
def fenceMoved (new : Nat) (s : State) : State :=
  (s.setMap { s.map with fence := some new, range := none }).setReloc
    { s.reloc with watch := s.reloc.watch.filter fun w => !inRange s .closing w.hla }

theorem applyDurable_fence {s : State} {seq : Byte} {new : Nat}
    (h : s.port.command = some { seq, command := .fenceAdjust new }) (hmoves : fenceMoves s new = true) :
    applyDurable s (.fence new) =
      completeCommand seq .ok (enc24 new ++ enc24 (s.array.lineCount - 4096 - new)) (fenceMoved new s) := by
  have htakes : applyDurable s (.fence new) = fenceTakesEffect new s := if_pos ⟨currentCommand_eq h, hmoves⟩
  have heffect : fenceTakesEffect new s = completeCurrent .ok (fenceResults (fenceMoved new s)) (fenceMoved new s) := rfl
  have hresults : fenceResults (fenceMoved new s) = enc24 new ++ enc24 (s.array.lineCount - 4096 - new) :=
    fenceResults_eq (s := fenceMoved new s) rfl rfl
  rw [htakes, heffect, completeCurrent_runs (s := fenceMoved new s) h, hresults]

/-! ### The answer to a LOG line -/

theorem exec_logLineWriteAnswer {s : State} {ala step : Nat} {data : LineData} {rest : List Flight}
    (hflight : s.array.inFlight = inFlightNow (.write ala data) (.journalWrite .log) step :: rest) (answer : WriteAnswer) :
    exec (.logLineWriteAnswer answer) s = .next (settle (logOutcome ala answer (answerTaken rest s))) := by
  have htaken := answerEvent_taken (accepts := Owner.isJournalWrite .log) (effect := takeWrite answer) hflight rfl rfl
  refine congrArg Host.Outcome.next (htaken.trans (congrArg settle ?_))
  rfl

theorem logOutcome_done {s : State} {g : LogLine} (h : s.jour.line = some g) (ala : Nat) : logOutcome ala .done s = logLineDone g s := by
  unfold logOutcome
  rw [h]

theorem logOutcome_fault {s : State} {g : LogLine} (h : s.jour.line = some g) (ala : Nat) :
    logOutcome ala .fault s = logLineFault g ala s := by
  unfold logOutcome
  rw [h]

/-- The journal after a LOG line is written, before its records take effect (R119, R121). -/
theorem logLineDone_eq {s u : State} {g : LogLine} (rest : List Flight)
    (hu : u = (answerTaken rest s).setJour
      { s.jour with
        state := .ready, nextLine := s.jour.nextLine + 1, lastSeq := g.seq, line := none
        queue := s.jour.queue.drop g.count ++ s.jour.wait.take (16 - (s.jour.queue.drop g.count).length)
        wait := s.jour.wait.drop (16 - (s.jour.queue.drop g.count).length) }) :
    logLineDone g (answerTaken rest s) = (s.jour.queue.take g.count).foldl applyDurable u := by
  subst hu
  rfl

/-- Settles O31: the records of the line take effect one by one, each by its rule. -/
theorem logRecordsBecomeDurable : Obligations.LogRecordsBecomeDurable := by
  refine ⟨fun s ala step data rest g u t hflight hg hu => ⟨fun hdead ht => ?_,
      fun home spare q hqueue hq hstate hdirty ht => ?_⟩,
    fun s seq new t => ⟨fun hc hmoves ht => ?_, fun p hc ht => ?_⟩,
    fun s ala step data rest g u t => ⟨fun hflight hg => ⟨fun hu => ?_, fun hu ht => ?_⟩, fun a => rfl,
      fun f hnone => applyDurable_fence_none (currentCommand_ne hnone),
      fun p hnone => applyDurable_policy_none (currentCommand_ne hnone),
      fun home spare => ⟨fun hnone => bindDurable_none hnone, fun q hq hhome hstate => ⟨fun hdirty => bindDurable_dirty hq hstate hdirty,
        fun e target marks hdirty hwaiting hidle he htarget hmarks => ?_⟩⟩⟩⟩
  · have hfixed := foldl_fixed applyDurable u (s.jour.queue.take g.count) fun r hr => by
      obtain ⟨a, rfl⟩ := hdead r hr
      rfl
    rw [exec_logLineWriteAnswer hflight, logOutcome_done (by exact hg)]
    exact congrArg (fun x => Host.Outcome.next (settle x)) ((logLineDone_eq rest hu).trans (hfixed.trans ht.symm))
  · have hreloc : u.reloc = s.reloc := by rw [hu]; rfl
    have hfound : findSlot u home = some q := by
      unfold findSlot
      rw [hreloc]
      exact hq
    have hdurable := bindDurable_dirty hfound hstate hdirty
    rw [hreloc, ← ht] at hdurable
    have hdone := logLineDone_eq rest hu
    rw [hqueue] at hdone
    rw [exec_logLineWriteAnswer hflight, logOutcome_done (by exact hg)]
    exact congrArg (fun x => Host.Outcome.next (settle x)) (hdone.trans hdurable)
  · rw [applyDurable_fence hc hmoves, ht]
    refine congrArg (fun w => completeCommand seq .ok _ (State.setReloc _ { s.reloc with watch := w })) ?_
    exact congrArg (fun p => List.filter p s.reloc.watch) (funext fun w => congrArg (!·) (inRange_closing s w.hla))
  · rw [applyDurable_policy hc, ht]
  · rw [exec_logLineWriteAnswer hflight, logOutcome_done (by exact hg)]
    exact congrArg (fun x => Host.Outcome.next (settle x)) (logLineDone_eq rest hu)
  · have hjour : u.jour = s.jour := by
      rw [hu, writeFault_jour]
      rfl
    rw [exec_logLineWriteAnswer hflight, logOutcome_fault (by exact hg), ht, ← hjour, hu]
    rfl
  · subst hhome
    have hdurable : applyDurable s (.bind q.home spare) = completeBinding q s := bindDurable_completes hq hstate hdirty
    rw [hdurable, completeBinding_quiet hwaiting hidle, bindTarget_frees (s := s) rfl rfl rfl he htarget]
    unfold bindingEnded boundMarks
    rcases hmarks with ⟨old, hold, rfl⟩ | ⟨hnone, rfl⟩
    · rw [hold]
    · rw [hnone]

end Sys2Proof.Machine
end
section
/-! Image lines, the stall and format lines (O32, O33; R122 to R126, R133). The idea: the answer to a line is the next line of its list
(`imageLineDone_next`, `formatLineOutcome_next`), or the end of the list; what the stall ends is a matter of the command in progress
alone (`stallCommand`). -/

namespace Sys2Proof.Machine

-- One theorem after another, as in the laws (see `Quiet`): the memory of the check does not hold all their threads at once.
set_option Elab.async false

/-! ### Image lines (R123, R124) -/

theorem exec_imageLineWriteAnswer {s : State} {ala step : Nat} {data : LineData} {rest : List Flight} {c : Compaction}
    (hflight : s.array.inFlight = inFlightNow (.write ala data) (.journalWrite .image) step :: rest)
    (hc : s.jour.compaction = some c) :
    exec (.imageLineWriteAnswer .done) s = .next (settle (imageLineDone c (answerTaken rest s))) ∧
      exec (.imageLineWriteAnswer .fault) s = .next (settle (imageLineFault c ala (answerTaken rest s))) := by
  have hcompaction : (answerTaken rest s).jour.compaction = some c := hc
  constructor
  · have htaken := answerEvent_taken (accepts := Owner.isJournalWrite .image) (effect := takeWrite .done) hflight rfl rfl
    refine congrArg Host.Outcome.next (htaken.trans (congrArg settle ?_))
    show imageOutcome ala .done (answerTaken rest s) = _
    unfold imageOutcome
    rw [hcompaction]
  · have htaken := answerEvent_taken (accepts := Owner.isJournalWrite .image) (effect := takeWrite .fault) hflight rfl rfl
    refine congrArg Host.Outcome.next (htaken.trans (congrArg settle ?_))
    show imageOutcome ala .fault (answerTaken rest s) = _
    unfold imageOutcome
    rw [hcompaction]

theorem imageLineDone_next {c : Compaction} {done next : List Record} {others : List (List Record)} (h : c.lines = done :: next :: others)
    (s : State) :
    imageLineDone c s =
      placeRequest
        (.journalWrite .image (journalAla s c.bank (c.pos + 1)) (journalLine (c.seq + 1) c.bank true others.isEmpty next))
        (s.setJour
          { s.jour with
            state := .compacting
            compaction := some { c with pos := c.pos + 1, seq := c.seq + 1, lines := next :: others } }) := by
  have hcommit : ((next :: others).length == 1) = others.isEmpty := by cases others <;> simp
  have hplaces : imageLineDone c s = placeImageLine { c with pos := c.pos + 1, seq := c.seq + 1, lines := next :: others } s := by
    unfold imageLineDone
    rw [h]
    rfl
  rw [hplaces]
  unfold placeImageLine
  rw [hcommit]
  rfl

theorem imageLineDone_last {c : Compaction} {last : List Record} (h : c.lines = [last]) (s : State) :
    imageLineDone c s = commitImage c s := by
  unfold imageLineDone
  rw [h]
  rfl

/-- The state in which the image's bank is active (R123), with what is left of the fence range. -/
def committed (c : Compaction) (range : Option FenceRange) (s : State) : State :=
  (s.setMap { s.map with range }).setJour
    { s.jour with
      state := .ready, active := some c.bank, nextLine := c.pos + 1, lastSeq := c.seq, compaction := none, faulted := [] }

theorem setRange_same {s : State} {range : Option FenceRange} (h : s.map.range = range) : s.setMap { s.map with range } = s := by
  subst h
  rfl

theorem dissolveKept_eq {s : State} {range : Option FenceRange}
    (h : ((∃ r, s.map.range = some r ∧ r.kept = true) ∧ range = none) ∨
      ((∀ r, s.map.range = some r → r.kept = false) ∧ range = s.map.range)) :
    dissolveKept s = s.setMap { s.map with range } := by
  unfold dissolveKept
  rcases h with ⟨⟨r, hr, hkept⟩, rfl⟩ | ⟨hnone, rfl⟩
  · simp only [hr, hkept, if_true]
  · cases hr : s.map.range with
    | none => exact (setRange_same hr).symm
    | some r =>
      simp only [hnone r hr, Bool.false_eq_true, if_false]
      exact (setRange_same hr).symm

theorem commitImage_eq {c : Compaction} {s : State} {range : Option FenceRange}
    (h : ((∃ r, s.map.range = some r ∧ r.kept = true) ∧ range = none) ∨
      ((∀ r, s.map.range = some r → r.kept = false) ∧ range = s.map.range)) :
    ((∀ p, s.port.command = some p → p.command ≠ .journalCompact) → commitImage c s = committed c range s) ∧
      ∀ seq, s.port.command = some { seq, command := .journalCompact } →
        commitImage c s = completeCommand seq .ok (enc8 c.bank.code ++ enc16 (c.pos + 1)) (committed c range s) := by
  have hcommits : commitImage c s =
      if currentCommand (committed c range s) = some .journalCompact then
        completeCurrent .ok (enc8 c.bank.code ++ enc16 (c.pos + 1)) (committed c range s)
      else committed c range s := by
    unfold commitImage
    rw [dissolveKept_eq h]
    rfl
  refine ⟨fun hnone => ?_, fun seq hc => ?_⟩
  · rw [hcommits, if_neg (currentCommand_ne (s := committed c range s) hnone)]
  · rw [hcommits, if_pos (currentCommand_eq (s := committed c range s) hc), completeCurrent_runs (s := committed c range s) hc]

theorem imageLineFault_first {c : Compaction} (h : c.faults = 0) (ala : Nat) (s : State) :
    imageLineFault c ala s = beginCompaction 1 (writeFault .journalWriteFault none (some ala) none s) := if_pos h

theorem imageLineFault_second {c : Compaction} (h : c.faults ≠ 0) (ala : Nat) (s : State) :
    imageLineFault c ala s = stall (writeFault .journalWriteFault none (some ala) none s) := if_neg h

/-- The journal as the stall leaves it, the BARRIERs settled (R32, R125). -/
theorem stall_eq {s u v : State} (hjour : u.jour = s.jour)
    (hv : v = settleBarriers (u.setJour { s.jour with state := .stalled, compaction := none })) :
    stall u = stallCommand (v.setAlert { v.alert with causes := v.alert.causes ||| AlertCause.journal.bit }) := by
  unfold stall latch
  rw [hjour, ← hv]

/-! ### What the stall does to the command in progress (R125, R126) -/

theorem stallCommand_idle {s : State} (h : s.port.command = none) : stallCommand s = s := by
  unfold stallCommand currentCommand
  rw [h]
  rfl

theorem removed_eq {s : State} {which kept : Record → Bool} (h : ∀ r, kept r = !which r) :
    removeRecords which s =
      s.setJour { s.jour with queue := s.jour.queue.filter kept, wait := s.jour.wait.filter kept } := by
  obtain rfl : kept = fun r => !which r := funext h
  rfl

theorem kept_eq {which kept : Record → Bool} {p : Record → Prop} (hwhich : ∀ r, which r = true ↔ p r) (h : ∀ r, kept r = false ↔ p r) :
    ∀ r, kept r = !which r := fun r => by
  have hsame : kept r = false ↔ which r = true := (h r).trans (hwhich r).symm
  cases hk : kept r <;> cases hw : which r <;> simp [hk, hw] at hsame <;> rfl

theorem isPolicyRecord_iff (r : Record) : isPolicyRecord r = true ↔ ∃ p, r = .policy p := by
  cases r <;> simp [isPolicyRecord]

theorem isFenceRecord_iff (r : Record) : isFenceRecord r = true ↔ ∃ f, r = .fence f := by
  cases r <;> simp [isFenceRecord]

theorem stallCommand_exchange {s : State} {seq : Byte} {kept : Record → Bool} (hkept : ∀ r, kept r = false ↔ ∃ p, r = .policy p)
    (h : s.port.command = some { seq, command := .policyExchange }) :
    stallCommand s =
      completeCommand seq .journalFault []
        (s.setJour { s.jour with queue := s.jour.queue.filter kept, wait := s.jour.wait.filter kept }) := by
  unfold stallCommand
  rw [currentCommand_eq h, ← removed_eq (kept_eq isPolicyRecord_iff hkept)]
  exact completeCurrent_runs (s := removeRecords isPolicyRecord s) h ..

theorem endRange_eq {s : State} {kept : Record → Bool} {range : Option FenceRange} (hkept : ∀ r, kept r = !isFenceRecord r)
    (h : (range = none ∧ ∀ r ∈ s.jour.faulted, kept r = true) ∨
      ((∃ r ∈ s.jour.faulted, kept r = false) ∧ range = s.map.range.map fun x => { x with kept := true })) :
    endRange s = s.setMap { s.map with range } := by
  unfold endRange
  rcases h with ⟨rfl, hall⟩ | ⟨⟨r, hr, hfalse⟩, rfl⟩
  · have hno : s.jour.faulted.any isFenceRecord = false := by
      rw [List.any_eq_false]
      intro r hr
      have := hall r hr
      rw [hkept] at this
      simpa using this
    cases hrange : s.map.range with
    | none => exact (setRange_same hrange).symm
    | some x => simp only [hno, Bool.false_eq_true, if_false]
  · have hyes : s.jour.faulted.any isFenceRecord = true := by
      rw [List.any_eq_true]
      exact ⟨r, hr, by rw [hkept] at hfalse; simpa using hfalse⟩
    cases hrange : s.map.range with
    | none => exact (setRange_same hrange).symm
    | some x =>
      simp only [hyes, if_true]
      rfl

theorem stallCommand_fence {s : State} {seq : Byte} {new : Nat} {kept : Record → Bool} {range : Option FenceRange}
    (hkept : ∀ r, kept r = false ↔ ∃ f, r = .fence f) (hc : s.port.command = some { seq, command := .fenceAdjust new })
    (h : (range = none ∧ ∀ r ∈ s.jour.faulted, kept r = true) ∨
      ((∃ r ∈ s.jour.faulted, kept r = false) ∧ range = s.map.range.map fun x => { x with kept := true })) :
    stallCommand s =
      completeCommand seq .journalFault []
        ((s.setJour { s.jour with queue := s.jour.queue.filter kept, wait := s.jour.wait.filter kept }).setMap
          { s.map with range }) := by
  have hsame := kept_eq isFenceRecord_iff hkept
  have hended : endRange (removeRecords isFenceRecord s) = (removeRecords isFenceRecord s).setMap { s.map with range } :=
    endRange_eq (s := removeRecords isFenceRecord s) hsame h
  unfold stallCommand
  rw [currentCommand_eq hc]
  simp only [hended]
  rw [removed_eq hsame]
  refine completeCurrent_runs (p := { seq, command := .fenceAdjust new }) ?_ ..
  exact hc

/-- Settles O32: an image line leads to the next, to the commit, or by its fault to a restart or the stall. -/
theorem imageLineAnswered : Obligations.ImageLineAnswered := by
  refine ⟨fun s ala step data rest c t hflight hc => ⟨fun done next others hlines ht => ?_, fun hlines hrange hidle ht => ?_⟩,
    fun s ala step data rest c u t hflight hc hfaults hidle hu ht => ?_,
    fun s bank faults hactive => beginCompaction_eq hactive faults,
    fun s ala step data rest c u v t hflight hc hu => ⟨fun hfaults => ?_, fun hfaults hv => ?_, fun last range hlines hrange ht =>
      ⟨fun hnone => ?_, fun seq hcompact => ?_⟩⟩,
    fun s seq t => ⟨stallCommand_idle, fun hcompact => ?_, fun home moving hretire ht => ?_, fun hrestart => ?_,
      fun kept hkept hexchange => stallCommand_exchange hkept hexchange,
      fun new kept range hkept hfence hrange => stallCommand_fence hkept hfence hrange⟩⟩
  · have hnext := imageLineDone_next hlines (answerTaken rest s)
    rw [(exec_imageLineWriteAnswer hflight hc).1, ht]
    exact congrArg (fun x => Host.Outcome.next (settle x)) hnext
  · obtain ⟨last, hlast⟩ := hlines
    have hrange' : ∀ r, s.map.range = some r → r.kept = false := fun r hr => by
      rw [hrange] at hr
      cases hr
    have hcommits := (commitImage_eq (c := c) (s := answerTaken rest s) (.inr ⟨hrange', rfl⟩)).1 (fun p hp => by
      have hp' : s.port.command = some p := hp
      rw [hidle] at hp'
      cases hp')
    rw [(exec_imageLineWriteAnswer hflight hc).1, imageLineDone_last hlast, hcommits, ht]
    rfl
  · have hstall := stall_eq (s := s) (by rw [writeFault_jour]; rfl) hu
    have hport : (u.setAlert { u.alert with causes := u.alert.causes ||| AlertCause.journal.bit }).port.command = none := by
      rw [State.setAlert_port, hu]
      unfold settleBarriers
      rw [answerBarriers_port, State.setJour_port, writeFault_port]
      exact hidle
    rw [(exec_imageLineWriteAnswer hflight hc).2, imageLineFault_second hfaults, hstall, stallCommand_idle hport, ht]
  · rw [(exec_imageLineWriteAnswer hflight hc).2, imageLineFault_first hfaults, ← hu]
  · have hstall := stall_eq (s := s) (by rw [hu, writeFault_jour]; rfl) hv
    rw [(exec_imageLineWriteAnswer hflight hc).2, imageLineFault_second hfaults, ← hu, hstall]
  · have hcommits := (commitImage_eq (c := c) (s := answerTaken rest s) (range := range) hrange).1 hnone
    rw [(exec_imageLineWriteAnswer hflight hc).1, imageLineDone_last hlines, hcommits, ht]
    rfl
  · have hcommits := (commitImage_eq (c := c) (s := answerTaken rest s) (range := range) hrange).2 seq hcompact
    rw [(exec_imageLineWriteAnswer hflight hc).1, imageLineDone_last hlines, hcommits, ht]
    rfl
  · unfold stallCommand
    rw [currentCommand_eq hcompact]
    exact completeCurrent_runs hcompact ..
  · unfold stallCommand
    rw [currentCommand_eq hretire, ht]
    exact completeCurrent_runs (s := releaseReservation s) hretire ..
  · unfold stallCommand
    rw [currentCommand_eq hrestart]
    exact completeCurrent_runs (s := s.setStart { s.start with op := .running }) hrestart ..

/-! ### Format lines (R133) -/

theorem exec_formatLineWriteAnswer {s : State} {ala step : Nat} {data : LineData} {rest : List Flight} {j : FormatJob}
    (hflight : s.array.inFlight = inFlightNow (.write ala data) (.journalWrite .format) step :: rest)
    (hj : s.start.format = some j) (answer : WriteAnswer) :
    exec (.formatLineWriteAnswer answer) s = .next (settle (formatLineOutcome j ala answer (answerTaken rest s))) := by
  have htaken := answerEvent_taken (accepts := Owner.isJournalWrite .format) (effect := takeWrite answer) hflight rfl rfl
  refine congrArg Host.Outcome.next (htaken.trans (congrArg settle ?_))
  show formatOutcome ala answer (answerTaken rest s) = _
  unfold formatOutcome
  rw [show (answerTaken rest s).start.format = some j from hj]

theorem formatLineOutcome_next {j : FormatJob} (h : j.index + 1 < 4096) (ala : Nat) (s : State) :
    formatLineOutcome j ala .done s = placeFormatLine { j with index := j.index + 1 } s := if_pos h

theorem formatLineOutcome_last {j : FormatJob} (h : j.index + 1 = 4096) (ala : Nat) (s : State) :
    formatLineOutcome j ala .done s = startAfterFormat s := if_neg (by rw [h]; exact Nat.lt_irrefl _)

theorem formatPlace_bankB {i : Nat} (h : i < 2048) : formatPlace i = (.b, i) := if_pos h

theorem formatPlace_bankA {i : Nat} (h : i < 2047) : formatPlace (2048 + i) = (.a, 1 + i) := by
  unfold formatPlace Config.bankLines Config.journalLines
  rw [if_neg (by omega), if_pos (by omega), show 2048 + i + 1 - 2048 = 1 + i by omega]

theorem formatPlace_last : formatPlace 4095 = (.a, 0) := by
  unfold formatPlace Config.bankLines Config.journalLines
  rw [if_neg (by decide), if_neg (by decide)]

theorem formatLine_plain {i : Nat} {bank : Bank} (h : i < 4095) (hbank : (i < 2048 ∧ bank = .b) ∨ (2048 ≤ i ∧ bank = .a)) (f : Nat) :
    formatLine f i = journalLine 0 bank false false [.fence f] := by
  have hplace : (formatPlace i).1 = bank := by
    rcases hbank with ⟨hlow, rfl⟩ | ⟨hhigh, rfl⟩
    · rw [formatPlace_bankB hlow]
    · obtain ⟨k, rfl⟩ := Nat.exists_eq_add_of_le hhigh
      rw [formatPlace_bankA (by omega)]
  unfold formatLine Config.journalLines
  rw [if_pos (by omega), hplace]

theorem formatLine_last (f : Nat) : formatLine f 4095 = journalLine 1 .a true true [.fence f, .policy .default] := by
  unfold formatLine Config.journalLines
  rw [if_neg (by decide)]

theorem journalAla_a (s : State) (n : Nat) : journalAla s .a n = s.array.lineCount - 4096 + n := by
  unfold journalAla Config.journalLines
  rfl

theorem journalAla_b (s : State) (n : Nat) : journalAla s .b n = s.array.lineCount - 2048 + n := by
  unfold journalAla Config.bankLines
  rfl

theorem clearForStartUp_array (s : State) : (clearForStartUp s).array = s.array := rfl

/-- Start-up after a format: everything is cleared, and line 0 of bank A is read (R128, R133). -/
theorem startAfterFormat_eq (s : State) :
    startAfterFormat s =
      placeRequest (.journalRead (s.array.lineCount - 4096))
        ((clearForStartUp s).setStart { op := .starting, phase := .lineA, format := none }) := by
  have hala : journalAla ((clearForStartUp s).setStart { op := .starting, phase := .lineA, format := none }) .a 0 =
      s.array.lineCount - 4096 := by
    rw [journalAla_a, Nat.add_zero, State.setStart_array, clearForStartUp_array]
  unfold startAfterFormat placeJournalRead
  simp only [hala]
  rfl

/-- Settles O33: a format line leads to the next, to start-up, or by its fault to the end of the format. -/
theorem formatLineAnswered : Obligations.FormatLineAnswered := by
  refine ⟨fun s ala step data rest j t hflight hj => ⟨fun hmore ht => ?_, fun seq hc ht => ?_⟩,
    fun s ala step data rest j t hflight hj hlast ht => ?_, fun i hi => formatPlace_bankB hi, fun i hi => formatPlace_bankA hi,
    formatPlace_last, fun f i bank hi hbank => formatLine_plain hi hbank f, formatLine_last,
    fun s n => ⟨journalAla_a s n, journalAla_b s n⟩⟩
  · rw [exec_formatLineWriteAnswer hflight hj, formatLineOutcome_next hmore, ht]
    rfl
  · have hport : (writeFault .journalWriteFault none (some ala) none
        ((answerTaken rest s).setStart { s.start with format := none })).port.command = some { seq, command := .journalFormat } := by
      rw [writeFault_port]
      exact hc
    have hfault : formatLineOutcome j ala .fault (answerTaken rest s) = t := by
      rw [ht]
      exact completeCurrent_runs hport ..
    rw [exec_formatLineWriteAnswer hflight hj, hfault]
  · have hstarts : formatLineOutcome j ala .done (answerTaken rest s) = t := by
      rw [formatLineOutcome_last hlast, startAfterFormat_eq, ht]
      rfl
    rw [exec_formatLineWriteAnswer hflight hj, hstarts]

end Sys2Proof.Machine
end
section
/-! Start-up, read by read (O22; R60, R127 to R135). The idea: the answer to a journal line read is what the phase of start-up makes of
it (`exec_journalLineReadAnswer`), and each phase ends in the read of another line (`placeJournalRead_eq`), in RUNNING or in HELD;
replay of a record is decided by conditions that are written out as propositions (`fenceApplies_iff`, `bindApplies_iff`). -/

namespace Sys2Proof.Machine

-- One theorem after another, as in the laws (see `Quiet`): the memory of the check does not hold all their threads at once.
set_option Elab.async false

/-! ### The reads start-up places, and HELD -/

theorem placeJournalRead_eq (bank : Bank) (n : Nat) (phase : StartPhase) (s : State) :
    placeJournalRead bank n phase s =
      (placeRequest (.journalRead (journalAla s bank n)) s).setStart { s.start with phase } := rfl

theorem journalAla_congr {x s : State} (h : x.array.lineCount = s.array.lineCount) (bank : Bank) (n : Nat) :
    journalAla x bank n = journalAla s bank n := by
  cases bank with
  | a => rw [journalAla_a, journalAla_a, h]
  | b => rw [journalAla_b, journalAla_b, h]

/-- A read placed by a state that has the line count and the start-up state of `s`. -/
theorem placeJournalRead_congr {x s : State} (hcount : x.array.lineCount = s.array.lineCount) (hstart : x.start = s.start)
    (bank : Bank) (n : Nat) (phase : StartPhase) :
    placeJournalRead bank n phase x =
      (placeRequest (.journalRead (journalAla s bank n)) x).setStart { s.start with phase } := by
  rw [placeJournalRead_eq, journalAla_congr hcount, hstart]

theorem placeJournalRead_taken (rest : List Flight) (s : State) (bank : Bank) (n : Nat) (phase : StartPhase) :
    placeJournalRead bank n phase (answerTaken rest s) =
      (placeRequest (.journalRead (journalAla s bank n)) (answerTaken rest s)).setStart { s.start with phase } :=
  placeJournalRead_congr (x := answerTaken rest s) rfl rfl bank n phase

theorem enterHeld_idle {s : State} (h : s.port.command = none) (reason : HeldReason) :
    enterHeld reason s = s.setStart { s.start with op := .held reason, phase := .idle } :=
  answerStartUp_idle (s := s.setStart { s.start with op := .held reason, phase := .idle }) h

theorem enterHeld_answers {s : State} {seq : Byte} {command : LongCommand}
    (hcommand : command = .journalFormat ∨ command = .bridgeRestart) (h : s.port.command = some { seq, command })
    (reason : HeldReason) :
    enterHeld reason s =
      completeCommand seq .state [if reason = .noArray then 0 else 1]
        (s.setStart { s.start with op := .held reason, phase := .idle }) := by
  have hcode : enc8 reason.code = [if reason = .noArray then 0 else 1] := by cases reason <;> rfl
  have hcurrent := currentCommand_eq (s := s.setStart { s.start with op := .held reason, phase := .idle }) h
  unfold enterHeld answerStartUp
  rw [hcurrent, ← hcode]
  rcases hcommand with rfl | rfl
  · exact completeCurrent_runs (s := s.setStart { s.start with op := .held reason, phase := .idle }) h ..
  · exact completeCurrent_runs (s := s.setStart { s.start with op := .held reason, phase := .idle }) h ..

/-! ### The end of replay (R130, R132) -/

/-- The state at the end of replay: the rest of the reserve is FREE and the part is RUNNING. -/
def replayEnded (n : Nat) (last : Seq32) (s : State) : State :=
  ((s.setJour { s.jour with nextLine := n, lastSeq := last }).setStart
    { s.start with op := .running, phase := .idle }).setMap { s.map with poolBuilt := true }

theorem endReplay_idle {s : State} (h : s.port.command = none) (n : Nat) (last : Seq32) :
    endReplay n last s = replayEnded n last s := answerStartUp_idle (s := replayEnded n last s) h

theorem endReplay_format {s : State} {seq : Byte} (h : s.port.command = some { seq, command := .journalFormat }) (n : Nat)
    (last : Seq32) :
    endReplay n last s =
      completeCommand seq .ok
        (enc24 (s.map.fence.getD 0) ++
          enc24 (if s.map.fence = none then 0 else s.array.lineCount - 4096 - s.map.fence.getD 0)) (replayEnded n last s) := by
  have hresults := fenceResults_eq (s := replayEnded n last s) (f := s.map.fence.getD 0) (top := s.array.lineCount - 4096) rfl rfl
  have hends : endReplay n last s = completeCurrent .ok (fenceResults (replayEnded n last s)) (replayEnded n last s) := by
    show answerStartUp (replayEnded n last s) = _
    unfold answerStartUp
    rw [currentCommand_eq (s := replayEnded n last s) h]
    rfl
  rw [hends, completeCurrent_runs (s := replayEnded n last s) h, hresults]
  rfl

theorem endReplay_restart {s : State} {seq : Byte} (h : s.port.command = some { seq, command := .bridgeRestart }) (n : Nat)
    (last : Seq32) : endReplay n last s = completeCommand seq .ok [2] (replayEnded n last s) := by
  have hends : endReplay n last s = completeCurrent .ok [2] (replayEnded n last s) := by
    show answerStartUp (replayEnded n last s) = _
    unfold answerStartUp
    rw [currentCommand_eq (s := replayEnded n last s) h]
    rfl
  rw [hends, completeCurrent_runs (s := replayEnded n last s) h]

/-! ### IDENT (R60) -/

theorem exec_identAnswer {s : State} {step : Nat} {rest : List Flight}
    (hflight : s.array.inFlight = inFlightNow .ident .ident step :: rest) (count : Nat) :
    exec (.identAnswer count) s = .next (settle (identOutcome count (answerTaken rest s))) := by
  have htaken := answerEvent_taken (accepts := Owner.isIdent) (effect := fun _ => identOutcome count) hflight rfl rfl
  exact congrArg Host.Outcome.next htaken

/-- The state with C taken from IDENT. -/
def lineCountTaken (count : Nat) (s : State) : State := s.setArray { s.array with lineCount := count }

theorem identOutcome_accepted {s : State} {count : Nat} (hphase : s.start.phase = .ident) (h : acceptableCount count = true) :
    identOutcome count s = placeJournalRead .a 0 .lineA (lineCountTaken count s) := by
  unfold identOutcome
  rw [if_neg (not_not_intro hphase), if_pos h]
  rfl

theorem identOutcome_rejected {s : State} {count : Nat} (hphase : s.start.phase = .ident) (h : acceptableCount count = false) :
    identOutcome count s = enterHeld .noArray (lineCountTaken count s) := by
  unfold identOutcome
  rw [if_neg (not_not_intro hphase), h, if_neg Bool.false_ne_true]
  rfl

/-! ### Journal line reads -/

theorem exec_journalLineReadAnswer {s : State} {ala step : Nat} {rest : List Flight}
    (hflight : s.array.inFlight = inFlightNow (.read ala) .journalRead step :: rest) (line : ArrayLine) :
    exec (.journalLineReadAnswer line) s = .next (settle (journalReadOutcome (classify ala line) (answerTaken rest s))) := by
  have htaken := answerEvent_taken (accepts := Owner.isJournalRead) (effect := takeRead line) hflight rfl rfl
  refine congrArg Host.Outcome.next (htaken.trans (congrArg settle ?_))
  rfl

theorem journalReadOutcome_lineA {s : State} (h : s.start.phase = .lineA) (c : Classification) :
    journalReadOutcome c s = placeJournalRead .b 0 (.lineB ((readableLine .a c).map lineZero)) s := by
  unfold journalReadOutcome
  rw [h]

theorem journalReadOutcome_choice {s : State} {a : Option LineZero} {c : Classification} {bank : Bank} {next : Option Bank}
    (h : s.start.phase = .lineB a) (hchoice : candidates a ((readableLine .b c).map lineZero) = some (bank, next)) :
    journalReadOutcome c s = examineBank bank a ((readableLine .b c).map lineZero) next s := by
  unfold journalReadOutcome
  simp only [h, hchoice]

theorem journalReadOutcome_noChoice {s : State} {a : Option LineZero} {c : Classification}
    (h : s.start.phase = .lineB a) (hchoice : candidates a ((readableLine .b c).map lineZero) = none) :
    journalReadOutcome c s = enterHeld .noJournal s := by
  unfold journalReadOutcome
  simp only [h, hchoice]

theorem journalReadOutcome_examine {s : State} {bank : Bank} {pos : Nat} {prev : Seq32} {a b : Option LineZero} {next : Option Bank}
    (h : s.start.phase = .examine bank pos prev a b next) (c : Classification) :
    journalReadOutcome c s = examineOutcome bank pos prev a b next (readableLine bank c) s := by
  unfold journalReadOutcome
  rw [h]

theorem journalReadOutcome_replay {s : State} {bank : Bank} {pos : Nat} {prev : Seq32} (h : s.start.phase = .replay bank pos prev)
    (c : Classification) : journalReadOutcome c s = replayOutcome bank pos prev (readableLine bank c) s := by
  unfold journalReadOutcome
  rw [h]

/-! ### The choice of the bank (R129) -/

theorem newer_iff (a b : Seq32) : newer a b = true ↔ 1 ≤ (a - b).toNat ∧ (a - b).toNat ≤ 2147483647 := by
  simp only [newer, Bool.and_eq_true, decide_eq_true_eq]
  norm_num

/-- A line 0 that counts as a candidate: readable, and flagged IMAGE. -/
theorem filter_image {z : LineZero} (h : z.image = true) : (some z).filter (·.image) = some z := by
  rw [Option.filter_some, if_pos h]

theorem filter_noImage {a : Option LineZero} (h : ∀ z, a = some z → z.image = false) : a.filter (·.image) = none := by
  cases a with
  | none => rfl
  | some z => rw [Option.filter_some, h z rfl, if_neg Bool.false_ne_true]

theorem candidates_chosen {a b : Option LineZero} {bank : Bank} {next : Option Bank}
    (h : (∃ x y, a = some x ∧ b = some y ∧ x.image = true ∧ y.image = true ∧
        ((1 ≤ (y.seq - x.seq).toNat ∧ (y.seq - x.seq).toNat ≤ 2147483647 ∧ bank = .b ∧ next = some .a) ∨
          (((y.seq - x.seq).toNat < 1 ∨ 2147483647 < (y.seq - x.seq).toNat) ∧ bank = .a ∧ next = some .b))) ∨
      (∃ x, a = some x ∧ x.image = true ∧ (∀ y, b = some y → y.image = false) ∧ bank = .a ∧ next = none) ∨
      (∃ y, b = some y ∧ y.image = true ∧ (∀ x, a = some x → x.image = false) ∧ bank = .b ∧ next = none)) :
    candidates a b = some (bank, next) := by
  unfold candidates
  rcases h with ⟨x, y, rfl, rfl, hx, hy, horder⟩ | ⟨x, rfl, hx, hb, rfl, rfl⟩ | ⟨y, rfl, hy, ha, rfl, rfl⟩
  · simp only [filter_image hx, filter_image hy]
    rcases horder with ⟨hlow, hhigh, rfl, rfl⟩ | ⟨hold, rfl, rfl⟩
    · rw [if_pos ((newer_iff _ _).mpr ⟨hlow, hhigh⟩)]
    · rw [if_neg (fun hnewer => by have := (newer_iff _ _).mp hnewer; omega)]
  · simp only [filter_image hx, filter_noImage hb]
  · simp only [filter_image hy, filter_noImage ha]

theorem candidates_none {a b : Option LineZero} (ha : ∀ z, a = some z → z.image = false) (hb : ∀ z, b = some z → z.image = false) :
    candidates a b = none := by
  unfold candidates
  simp only [filter_noImage ha, filter_noImage hb]

/-! ### The examination (R129) -/

theorem follows_iff (pos : Nat) (seq prev : Seq32) : (pos == 0 || seq == prev + 1) = true ↔ pos = 0 ∨ seq = prev + 1 := by
  rw [Bool.or_eq_true, beq_iff_eq, beq_iff_eq]

theorem follows_false {pos : Nat} {seq prev : Seq32} (hpos : pos ≠ 0) (hseq : seq ≠ prev + 1) : (pos == 0 || seq == prev + 1) = false := by
  rw [Bool.eq_false_iff, Ne, follows_iff, not_or]
  exact ⟨hpos, hseq⟩

theorem examineOutcome_next {bank : Bank} {pos : Nat} {prev : Seq32} {a b : Option LineZero} {next : Option Bank} {h : JournalHeader}
    (himage : h.image = true) (hfollows : pos = 0 ∨ h.seq = prev + 1) (hcommit : h.commit = false) (hmore : pos + 1 < 2048) (s : State) :
    examineOutcome bank pos prev a b next (some h) s =
      placeJournalRead bank (pos + 1) (.examine bank (pos + 1) h.seq a b next) s := by
  unfold examineOutcome
  simp only [himage, (follows_iff pos h.seq prev).mpr hfollows, hcommit, hmore, Config.bankLines, Bool.and_self, if_true,
    Bool.false_eq_true, if_false]

theorem examineOutcome_commits {bank : Bank} {pos : Nat} {prev : Seq32} {a b : Option LineZero} {next : Option Bank} {h : JournalHeader}
    (himage : h.image = true) (hfollows : pos = 0 ∨ h.seq = prev + 1) (hcommit : h.commit = true) (s : State) :
    examineOutcome bank pos prev a b next (some h) s = chooseBank bank a b s := by
  unfold examineOutcome
  simp only [himage, (follows_iff pos h.seq prev).mpr hfollows, hcommit, Bool.and_self, if_true]

theorem examineOutcome_fails {bank : Bank} {pos : Nat} {prev : Seq32} {a b : Option LineZero} {next : Option Bank}
    {line : Option JournalHeader}
    (h : ∀ h, line = some h → h.image = false ∨ (pos ≠ 0 ∧ h.seq ≠ prev + 1) ∨ (h.commit = false ∧ 2048 ≤ pos + 1)) (s : State) :
    examineOutcome bank pos prev a b next line s = candidateFails a b next s := by
  unfold examineOutcome
  cases line with
  | none => rfl
  | some head =>
    rcases h head rfl with himage | ⟨hpos, hseq⟩ | ⟨hcommit, hlast⟩
    · simp only [himage, Bool.false_and, Bool.false_eq_true, if_false]
    · simp only [follows_false hpos hseq, Bool.and_false, Bool.false_eq_true, if_false]
    · have hnomore : ¬ pos + 1 < 2048 := Nat.not_lt.mpr hlast
      simp only [hcommit, hnomore, Config.bankLines, Bool.false_eq_true, if_false, ite_self]

/-- What is recorded of the line 0 of the other bank when it was not readable at its first read (R129, log 19). -/
def otherZeroRecorded (bank : Bank) (otherZero : Option LineZero) (s : State) : State :=
  if otherZero.isNone then writeFault .replayBank none (some (journalAla s bank.other 0)) none (latch .journal s) else s

theorem chooseBank_eq (bank : Bank) (a b : Option LineZero) (s : State) :
    chooseBank bank a b s =
      placeJournalRead bank 0 (.replay bank 0 0)
        ((otherZeroRecorded bank (if bank = .a then b else a) s).setJour
          { (otherZeroRecorded bank (if bank = .a then b else a) s).jour with active := some bank }) := by
  cases bank <;> rfl

theorem otherZeroRecorded_some {otherZero : Option LineZero} (h : otherZero ≠ none) (bank : Bank) (s : State) :
    otherZeroRecorded bank otherZero s = s := by
  unfold otherZeroRecorded
  rw [Option.isNone_eq_false_iff.mpr (Option.isSome_iff_ne_none.mpr h), if_neg Bool.false_ne_true]

theorem otherZeroRecorded_none {otherZero : Option LineZero} (h : otherZero = none) (bank : Bank) (s : State) :
    otherZeroRecorded bank otherZero s = writeFault .replayBank none (some (journalAla s bank.other 0)) none (latch .journal s) := by
  rw [h]
  rfl

/-! ### Replay of one record (R131) -/

theorem inReserve_iff (s : State) (x : Nat) :
    inReserve s x = true ↔ ∃ f, s.map.fence = some f ∧ f ≤ x ∧ x < s.array.lineCount - 4096 := by
  have hend : reserveEnd s = s.array.lineCount - 4096 := rfl
  unfold inReserve
  rw [hend]
  cases s.map.fence with
  | none => simp
  | some f => simp

theorem fenceApplies_iff (s : State) (f : Nat) :
    fenceApplies s f = true ↔ f + 64 ≤ s.array.lineCount - 4096 ∧ s.array.lineCount - 4096 ≤ f + 8192 ∧
      (∀ m ∈ s.map.marks, inReserve s m.ala = true → f ≤ m.ala) ∧
      ∀ e ∈ s.map.table, f ≤ e.home → e.home < s.array.lineCount - 4096 → inReserve s e.home = true := by
  have hend : reserveEnd s = s.array.lineCount - 4096 := rfl
  unfold fenceApplies
  rw [Bool.and_eq_true, Bool.and_eq_true, fenceInBounds_iff s f _ hend, and_assoc, and_assoc]
  refine and_congr_right fun _ => and_congr_right fun _ => and_congr ?_ ?_
  · simp only [Bool.not_eq_true', List.any_eq_false, Bool.and_eq_true, decide_eq_true_eq, not_and, Nat.not_lt]
  · simp only [Bool.not_eq_true', List.any_eq_false, Bool.and_eq_true, decide_eq_true_eq, not_and, hend, Bool.not_eq_false, and_imp]

theorem bindApplies_iff (s : State) (home x : Nat) :
    bindApplies s home x = true ↔ home < s.map.fence.getD 0 ∧ inReserve s x = true ∧
      (markOf s.map.marks x = none ∨ ∃ e, entryOf s home = some e ∧ e.spare = some x) := by
  unfold bindApplies fenceValue
  rw [Bool.and_eq_true, Bool.and_eq_true, decide_eq_true_eq, and_assoc, Bool.or_eq_true, Option.isNone_iff_eq_none, beq_iff_eq,
    Option.bind_eq_some_iff]

theorem replayRecord_fence (ala : Nat) (s : State) (f : Nat) :
    replayRecord ala s (.known (.fence f)) =
      if fenceApplies s f = true then s.setMap { s.map with fence := some f } else skipRecord ala none s := rfl

theorem replayRecord_dead (ala : Nat) (s : State) (x : Nat) :
    replayRecord ala s (.known (.dead x)) =
      if (inReserve s x && markOf s.map.marks x != some .bound) = true then setMark x .dead s else skipRecord ala none s := rfl

theorem replayRecord_bind (ala : Nat) (s : State) (home x : Nat) :
    replayRecord ala s (.known (.bind home x)) =
      if bindApplies s home x = true then replayBind home x s else skipRecord ala (some home) s := rfl

/-- The table and the marks as an applied BIND record leaves them (R5, R7). -/
theorem replayBind_eq {s : State} {home x : Nat} {marks : List SpareMark}
    (h : (∃ e old, entryOf s home = some e ∧ e.spare = some old ∧ old ≠ x ∧ marks = insertMark old .dead s.map.marks) ∨
      ((∀ e old, entryOf s home = some e → e.spare = some old → old = x) ∧ marks = s.map.marks)) :
    replayBind home x s =
      s.setMap
        { s.map with
          table := insertEntry { home, spare := some x, target := none, cause := none, boundTick := some s.tick } s.map.table
          marks := insertMark x .bound marks } := by
  unfold replayBind
  rcases h with ⟨e, old, he, hold, hne, rfl⟩ | ⟨hsame, rfl⟩
  · rw [he, Option.bind_some, hold]
    simp only [hne, if_false]
    rfl
  · cases hspare : (entryOf s home).bind (·.spare) with
    | none => rfl
    | some old =>
      obtain ⟨e, he, hold⟩ := Option.bind_eq_some_iff.mp hspare
      simp only [hsame e old he hold, if_true]
      rfl

/-- Replay of a record leaves the start-up state and the array as they are. -/
theorem replayRecord_frame (ala : Nat) (s : State) (r : DecodedRecord) :
    (replayRecord ala s r).start = s.start ∧ (replayRecord ala s r).array = s.array := by
  have hskip : ∀ hla, (skipRecord ala hla s).start = s.start ∧ (skipRecord ala hla s).array = s.array := fun hla =>
    ⟨writeFault_start, writeFault_array ..⟩
  cases r with
  | badPolicy => exact hskip none
  | unknownKind => exact hskip none
  | known r =>
    cases r with
    | policy p => exact ⟨rfl, rfl⟩
    | fence f =>
      rw [replayRecord_fence]
      split
      · exact ⟨rfl, rfl⟩
      · exact hskip none
    | dead x =>
      rw [replayRecord_dead]
      split
      · exact ⟨rfl, rfl⟩
      · exact hskip none
    | bind home x =>
      rw [replayRecord_bind]
      split
      · obtain ⟨v, hv⟩ := replayBind_map (s := s) (home := home) (spare := x)
        rw [hv]
        exact ⟨rfl, rfl⟩
      · exact hskip (some home)

/-! ### Replay of a line (R130) -/

/-- A line whose sequence follows has its records applied in order; the next line is read, or replay ends. -/
theorem replayOutcome_applies {bank : Bank} {pos : Nat} {prev : Seq32} {h : JournalHeader} (hfollows : pos = 0 ∨ h.seq = prev + 1)
    {s u : State} (hu : u = (h.places.map decodeRecord).foldl (replayRecord (journalAla s bank pos)) s) :
    replayOutcome bank pos prev (some h) s =
      if pos + 1 < 2048 then placeJournalRead bank (pos + 1) (.replay bank (pos + 1) h.seq) u else endReplay (pos + 1) h.seq u := by
  unfold replayOutcome
  simp only [(follows_iff pos h.seq prev).mpr hfollows, if_true, ← hu]
  rfl

theorem replayOutcome_ends {bank : Bank} {pos : Nat} {prev : Seq32} {h : JournalHeader} (hpos : pos ≠ 0) (hseq : h.seq ≠ prev + 1)
    (s : State) : replayOutcome bank pos prev (some h) s = endReplay pos (lastReplayed pos prev) s := by
  unfold replayOutcome
  simp only [follows_false hpos hseq, Bool.false_eq_true, if_false]

/-- Settles O22: each read is taken by its phase, and the phases one by one. -/
theorem startupReadsTaken : Obligations.StartupReadsTaken := by
  refine ⟨fun s count step rest t hflight hphase => ⟨fun haccepted ht => ?_, fun hrejected hidle ht => ?_⟩,
    fun s ala step line rest t hflight => ⟨fun hphase ht => ?_, fun a hphase ha hb hidle ht => ?_⟩,
    fun s ala step line rest a b bank next t hflight hphase hb hchoice ht => ?_,
    fun s ala step line rest bank pos prev a b next t hflight hphase => ⟨fun h hline himage hfollows =>
      ⟨fun hcommit hmore ht => ?_, fun u hcommit hother ht => ?_⟩, fun hfails => ⟨fun n hnext ht => ?_, fun hnone hidle ht => ?_⟩⟩,
    fun s ala reserve hreserve => ?_,
    fun s ala step line rest bank pos prev last u t => ⟨fun hflight hphase hlast => ⟨fun h hline => ⟨fun hfollows hu =>
      ⟨fun hmore ht => ?_, fun hend => ?_⟩, fun hpos hseq => ?_⟩, fun hline => ?_⟩, fun n ht => ⟨fun hidle => ?_, fun seq =>
        ⟨fun hformat => ?_, fun hrestart => ?_⟩⟩, fun reason seq command hcommand hc => enterHeld_answers hcommand hc reason⟩⟩
  · rw [exec_identAnswer hflight, identOutcome_accepted (by exact hphase) ((acceptableCount_iff count).mpr haccepted),
      placeJournalRead_eq, journalAla_a, Nat.add_zero, ht]
    rfl
  · have hbad : acceptableCount count = false := by
      rw [Bool.eq_false_iff, Ne, acceptableCount_iff]
      rintro ⟨k, hlow, hhigh, heq⟩
      exact hrejected k hlow hhigh heq
    rw [exec_identAnswer hflight, identOutcome_rejected (by exact hphase) hbad, enterHeld_idle (by exact hidle), ht]
    rfl
  · rw [exec_journalLineReadAnswer hflight, journalReadOutcome_lineA (by exact hphase),
      placeJournalRead_taken, journalAla_b, Nat.add_zero, ht]
  · have hb' : ∀ z, (readableLine .b (classify ala line)).map lineZero = some z → z.image = false := fun z hz => by
      obtain ⟨h, hh, rfl⟩ := Option.map_eq_some_iff.mp hz
      exact hb h hh
    rw [exec_journalLineReadAnswer hflight, journalReadOutcome_noChoice (by exact hphase) (candidates_none ha hb'),
      enterHeld_idle (by exact hidle), ht]
    rfl
  · have hexamines := journalReadOutcome_choice (s := answerTaken rest s) (c := classify ala line) hphase
      (by rw [← hb]; exact candidates_chosen hchoice)
    have hzero : journalAla s bank 0 = s.array.lineCount - (if bank = .a then 4096 else 2048) := by
      cases bank with
      | a => rw [journalAla_a, Nat.add_zero, if_pos rfl]
      | b => rw [journalAla_b, Nat.add_zero, if_neg nofun]
    rw [exec_journalLineReadAnswer hflight, hexamines, ← hb, examineBank, placeJournalRead_taken, hzero, ht]
  · rw [exec_journalLineReadAnswer hflight, journalReadOutcome_examine (by exact hphase), hline,
      examineOutcome_next himage hfollows hcommit hmore, placeJournalRead_taken, ht]
  · have hrecorded : otherZeroRecorded bank (if bank = .a then b else a) (answerTaken rest s) = u := by
      rcases hother with ⟨hsome, hu⟩ | ⟨hnone, hu⟩
      · rw [otherZeroRecorded_some hsome, hu]
      · rw [otherZeroRecorded_none hnone, journalAla_congr (x := answerTaken rest s) (s := s) rfl, hu]
        rfl
    have hsame : u.jour = s.jour ∧ u.array.lineCount = s.array.lineCount ∧ u.start = s.start := by
      rcases hother with ⟨-, rfl⟩ | ⟨-, rfl⟩
      · exact ⟨rfl, rfl, rfl⟩
      · rw [writeFault_jour, writeFault_array, writeFault_start]
        exact ⟨rfl, rfl, rfl⟩
    obtain ⟨hjour, hcount, hstart⟩ := hsame
    rw [exec_journalLineReadAnswer hflight, journalReadOutcome_examine (by exact hphase), hline,
      examineOutcome_commits himage hfollows hcommit, chooseBank_eq, hrecorded, hjour,
      placeJournalRead_congr (x := u.setJour { s.jour with active := some bank }) (s := s) hcount hstart, ht]
  · rw [exec_journalLineReadAnswer hflight, journalReadOutcome_examine (by exact hphase), examineOutcome_fails hfails, hnext,
      candidateFails, examineBank, placeJournalRead_taken, ht]
  · rw [exec_journalLineReadAnswer hflight, journalReadOutcome_examine (by exact hphase), examineOutcome_fails hfails, hnone,
      candidateFails, enterHeld_idle (by exact hidle), ht]
    rfl
  · have hin : ∀ x, inReserve s x = true ↔ reserve x := fun x => (inReserve_iff s x).trans (hreserve x).symm
    refine ⟨fun f ok hok => ?_, fun p => rfl, fun x => ⟨fun hx hmark => ?_, fun hskip => ?_⟩,
      fun home x ok marks hok hmarks => ?_, rfl, rfl⟩
    · have hdecides : fenceApplies s f = true ↔ ok := by
        rw [fenceApplies_iff, hok]
        simp only [hin]
      rw [replayRecord_fence]
      exact ⟨fun h => if_pos (hdecides.mpr h), fun h => if_neg fun hd => h (hdecides.mp hd)⟩
    · rw [replayRecord_dead, if_pos]
      · rfl
      · rw [Bool.and_eq_true, (hin x).mpr hx, bne_iff_ne]
        exact ⟨rfl, hmark⟩
    · rw [replayRecord_dead, if_neg]
      · rfl
      · rw [Bool.and_eq_true, hin x, bne_iff_ne]
        rintro ⟨hx, hmark⟩
        exact hskip.elim (fun hno => hno hx) hmark
    · have hdecides : bindApplies s home x = true ↔ ok := by
        rw [bindApplies_iff, hok, hin]
      rw [replayRecord_bind, replayBind_eq hmarks]
      exact ⟨fun h => if_pos (hdecides.mpr h), fun h => if_neg fun hd => h (hdecides.mp hd)⟩
  · have hsame : u.start = s.start ∧ u.array = (answerTaken rest s).array := by
      rw [hu]
      refine foldl_keeps (P := fun x => x.start = s.start ∧ x.array = (answerTaken rest s).array) (fun x r ⟨h1, h2⟩ => ?_) _ _ ⟨rfl, rfl⟩
      obtain ⟨k1, k2⟩ := replayRecord_frame (journalAla s bank pos) x r
      exact ⟨k1.trans h1, k2.trans h2⟩
    obtain ⟨hstart, harray⟩ := hsame
    have hcount : u.array.lineCount = s.array.lineCount := by rw [harray]; rfl
    rw [← journalAla_congr (x := answerTaken rest s) (s := s) rfl] at hu
    rw [exec_journalLineReadAnswer hflight, journalReadOutcome_replay (by exact hphase), hline, replayOutcome_applies hfollows hu,
      if_pos hmore, placeJournalRead_congr (s := s) hcount hstart, ht]
  · rw [← journalAla_congr (x := answerTaken rest s) (s := s) rfl] at hu
    rw [exec_journalLineReadAnswer hflight, journalReadOutcome_replay (by exact hphase), hline, replayOutcome_applies hfollows hu,
      if_neg (Nat.not_lt.mpr hend)]
  · rw [exec_journalLineReadAnswer hflight, journalReadOutcome_replay (by exact hphase), hline, replayOutcome_ends hpos hseq, hlast]
    rfl
  · rw [exec_journalLineReadAnswer hflight, journalReadOutcome_replay (by exact hphase), hline, replayOutcome,
      journalAla_congr (x := answerTaken rest s) (s := s) rfl, hlast]
    rfl
  · rw [endReplay_idle hidle, ht]
    rfl
  · rw [endReplay_format hformat, ht]
    rfl
  · rw [endReplay_restart hrestart, ht]
    rfl

end Sys2Proof.Machine
end
section
/-! The arbiter's choice and its grants (O36, O37; R61, R62, R79 to R85). The idea: of two requests the arbiter prefers the one with the
lesser key, in lexicographic order (`goesBefore_iff`), so that its choice is a least element of the requests that wait
(`foldl_least`); a grant then issues the chosen request (`arbiterGrant_issued`), or leaves the place to the next choice. -/

namespace Sys2Proof.Machine

-- One theorem after another, as in the laws (see `Quiet`): the memory of the check does not hold all their threads at once.
set_option Elab.async false

/-! ### The order of the requests (R61, R62) -/

/-- What the arbiter compares, in its order: the class, the event, the requester's place in it (log 12), an entry before a direct
write, and the order of placing. -/
def requestKey (s : State) (r : ArbReq) : Nat ×ₗ Nat ×ₗ Nat ×ₗ Nat ×ₗ Nat :=
  toLex (grantClass s r.body,
    toLex (r.age.event, toLex (Config.placingRank r.age.event r.body.requester, toLex (r.age.direct.toNat, r.age.order))))

theorem requestKey_lt (s : State) (a b : ArbReq) :
    requestKey s a < requestKey s b ↔
      grantClass s a.body < grantClass s b.body ∨ (grantClass s a.body = grantClass s b.body ∧
        (a.age.event < b.age.event ∨ (a.age.event = b.age.event ∧
          (Config.placingRank a.age.event a.body.requester < Config.placingRank b.age.event b.body.requester ∨
            (Config.placingRank a.age.event a.body.requester = Config.placingRank b.age.event b.body.requester ∧
              (a.age.direct.toNat < b.age.direct.toNat ∨
                (a.age.direct.toNat = b.age.direct.toNat ∧ a.age.order < b.age.order))))))) := by
  simp only [requestKey, Prod.Lex.toLex_lt_toLex]

theorem requestKey_le (s : State) (a b : ArbReq) :
    requestKey s a ≤ requestKey s b ↔
      grantClass s a.body < grantClass s b.body ∨ (grantClass s a.body = grantClass s b.body ∧
        (a.age.event < b.age.event ∨ (a.age.event = b.age.event ∧
          (Config.placingRank a.age.event a.body.requester < Config.placingRank b.age.event b.body.requester ∨
            (Config.placingRank a.age.event a.body.requester = Config.placingRank b.age.event b.body.requester ∧
              (a.age.direct.toNat < b.age.direct.toNat ∨
                (a.age.direct.toNat = b.age.direct.toNat ∧ a.age.order ≤ b.age.order))))))) := by
  simp only [requestKey, Prod.Lex.toLex_le_toLex]

theorem toNat_lt_iff (a b : Bool) : a.toNat < b.toNat ↔ a = false ∧ b = true := by
  cases a <;> cases b <;> decide

theorem toNat_eq_iff (a b : Bool) : a.toNat = b.toNat ↔ a = b := by
  cases a <;> cases b <;> decide

/-- Two requests of one event: the requester's rank decides, then entry or direct write, then the order of placing. -/
theorem placedBefore_iff {a b : ArbReq} (hevent : a.age.event = b.age.event) :
    placedBefore a b = true ↔
      (Config.placingRank a.age.event a.body.requester < Config.placingRank b.age.event b.body.requester ∨
        (Config.placingRank a.age.event a.body.requester = Config.placingRank b.age.event b.body.requester ∧
          (a.age.direct.toNat < b.age.direct.toNat ∨
            (a.age.direct.toNat = b.age.direct.toNat ∧ a.age.order < b.age.order)))) := by
  unfold placedBefore
  rw [toNat_lt_iff, ← hevent]
  by_cases hrank : Config.placingRank a.age.event a.body.requester = Config.placingRank a.age.event b.body.requester
  · rw [if_neg (fun h => h.2 hrank)]
    simp only [hrank, lt_irrefl, false_or, true_and]
    by_cases hdirect : a.age.direct = b.age.direct
    · rw [if_neg (not_not_intro hdirect), decide_eq_true_eq]
      cases hb : b.age.direct <;> simp [hdirect, hb]
    · rw [if_pos hdirect]
      cases ha : a.age.direct <;> cases hb : b.age.direct <;> simp [ha, hb] at hdirect ⊢
  · have hrequester : a.body.requester ≠ b.body.requester := fun h => hrank (by rw [h])
    simp only [hrequester, hrank, ne_eq, not_false_eq_true, and_self, if_true, decide_eq_true_eq, false_and, or_false]

/-- The arbiter prefers the request with the lesser key (R62). -/
theorem goesBefore_iff (s : State) (a b : ArbReq) : goesBefore s a b = true ↔ requestKey s a < requestKey s b := by
  rw [requestKey_lt]
  unfold goesBefore
  by_cases hclass : grantClass s a.body = grantClass s b.body
  · rw [if_neg (not_not_intro hclass)]
    by_cases hevent : a.age.event = b.age.event
    · rw [if_neg (not_not_intro hevent), placedBefore_iff hevent]
      simp only [hclass, hevent, lt_irrefl, false_or, true_and]
    · simp only [hevent, hclass, ne_eq, not_false_eq_true, if_true, decide_eq_true_eq, lt_irrefl, false_or, true_and, false_and, or_false]
  · simp only [hclass, ne_eq, not_false_eq_true, if_true, decide_eq_true_eq, false_and, or_false]

/-- Keeping the better of two along a list ends with a least element. -/
theorem foldl_least {α β : Type} [LinearOrder β] (key : α → β) {before : α → α → Bool} (h : ∀ a b, before a b = true ↔ key a < key b) :
    ∀ (l : List α) (r : α), (l.foldl (fun best q => if before q best then q else best) r) ∈ r :: l ∧
      ∀ q ∈ r :: l, key (l.foldl (fun best q => if before q best then q else best) r) ≤ key q
  | [], r => ⟨List.mem_singleton_self r, fun q hq => by rw [List.mem_singleton.mp hq, List.foldl_nil]⟩
  | a :: l, r => by
    rw [List.foldl_cons]
    by_cases hbefore : before a r = true
    · rw [if_pos hbefore]
      obtain ⟨hmem, hleast⟩ := foldl_least key h l a
      refine ⟨List.mem_cons_of_mem r hmem, fun q hq => ?_⟩
      rcases List.mem_cons.mp hq with rfl | hq
      · exact (hleast a (List.mem_cons_self ..)).trans ((h a q).mp hbefore).le
      · exact hleast q hq
    · rw [if_neg hbefore]
      obtain ⟨hmem, hleast⟩ := foldl_least key h l r
      have hfirst := hleast r (List.mem_cons_self ..)
      refine ⟨?_, fun q hq => ?_⟩
      · rcases List.mem_cons.mp hmem with heq | hmem
        · rw [heq]
          exact List.mem_cons_self ..
        · exact List.mem_cons_of_mem r (List.mem_cons_of_mem a hmem)
      · rcases List.mem_cons.mp hq with rfl | hq
        · exact hfirst
        · rcases List.mem_cons.mp hq with rfl | hq
          · exact hfirst.trans (not_lt.mp fun hlt => hbefore ((h q r).mpr hlt))
          · exact hleast q (List.mem_cons_of_mem r hq)

/-- The arbiter's choice is a least one of the requests that wait (R62). -/
theorem chooseRequest_least {s : State} {r : ArbReq} (h : chooseRequest s = some r) :
    r ∈ s.array.waiting ∧ ∀ q ∈ s.array.waiting, requestKey s r ≤ requestKey s q := by
  unfold chooseRequest at h
  cases hw : s.array.waiting with
  | nil => rw [hw] at h; cases h
  | cons a l =>
    rw [hw] at h
    obtain rfl := Option.some.inj h
    exact foldl_least (requestKey s) (goesBefore_iff s) l a

theorem drainClass_of {s : State} {ref : ItemRef} {e : Item} (h : findItem s ref = some e) :
    drainClass s ref = if e.mask = BitVec.allOnes 64 then (if 8 ≤ s.buf.entries.length then 3 else 5) else 4 := by
  unfold drainClass
  rw [h]
  by_cases hfull : e.mask = BitVec.allOnes 64
  · simp only [Option.any_some, fullMask, hfull, decide_true, Bool.not_true, Bool.false_eq_true, if_false, if_true]
    rfl
  · simp only [Option.any_some, fullMask, hfull, decide_false, Bool.not_false, if_true, if_false]

/-- Settles O36: the choice is a least request, and the classes are those of R61. -/
theorem arbiterChoosesLowestClass : Obligations.ArbiterChoosesLowestClass := by
  refine fun s => ⟨fun hwaits => ?_, fun r hr => ⟨(chooseRequest_least hr).1, fun q hq => ?_⟩, fun ala => ⟨rfl, rfl⟩,
    fun kind ala data => ⟨rfl, rfl⟩, fun home => ⟨rfl, rfl⟩, fun ref => ⟨rfl, rfl, rfl, rfl, rfl⟩,
    fun ref e he => ⟨fun hfull hlen => ?_, fun hmasked => ?_, fun hfull hlen => ?_⟩, fun id => ⟨rfl, rfl, rfl, rfl⟩, rfl, rfl⟩
  · obtain ⟨a, l, hw⟩ := List.exists_cons_of_ne_nil hwaits
    unfold chooseRequest
    rw [hw]
    exact ⟨_, rfl⟩
  · have hle := (requestKey_le s r q).mp ((chooseRequest_least hr).2 q hq)
    refine hle.imp_right fun ⟨hclass, hage⟩ => ⟨hclass, hage.imp_right fun ⟨hevent, hplace⟩ => ⟨hevent, fun hrequester => ?_⟩⟩
    rw [hevent, hrequester] at hplace
    rcases hplace with hrank | ⟨-, hdirect | ⟨hdirect, horder⟩⟩
    · exact absurd hrank (lt_irrefl _)
    · exact .inl ((toNat_lt_iff _ _).mp hdirect)
    · exact .inr ⟨(toNat_eq_iff _ _).mp hdirect, horder⟩
  · exact (drainClass_of he).trans (by rw [if_pos hfull, if_pos hlen])
  · exact (drainClass_of he).trans (if_neg hmasked)
  · exact (drainClass_of he).trans (by rw [if_pos hfull, if_neg (Nat.not_le.mpr hlen)])

/-! ### What a grant issues (R62, R80, R97) -/

theorem arbiterGrant_nothing {s : State} (h : s.array.waiting = []) : exec .arbiterGrant s = .next s := by
  have hno : ¬ grantPossible (nextEvent s) = true := fun hp => ((grantPossible_iff (nextEvent s)).mp hp).2 h
  exact congrArg Host.Outcome.next (internalEvent_none (if_neg hno))

/-- The state in which the chosen request is granted: it waits no longer. -/
def granting (q : ArbReq) (s : State) : State := (nextEvent s).setArray { s.array with waiting := s.array.waiting.erase q }

theorem arbiterGrant_issues {s t : State} {q : ArbReq} (hplaces : s.array.inFlight.length < 8) (hq : chooseRequest s = some q)
    (h : grantRequest q (granting q s) = .issued t) : exec .arbiterGrant s = .next (settle t) := arbiterGrant_issued hplaces hq h

theorem grantSlotWrite_issues {s : State} {home : Nat} {x : Slot} (h : findSlot s home = some x) :
    grantSlotWrite home s =
      .issued (issue (.write (slotWritePlan s x).1 x.data) (.slotWrite home (slotWritePlan s x).2) 0
        (updateSlot home (fun y => { y with dirty := false }) s)) := by
  unfold grantSlotWrite
  rw [h]

/-- Where a slot's write goes, by the slot's state (R98, R102, R103). -/
theorem slotWritePlan_of {s : State} {x : Slot} {place : Nat} {kind : SlotWriteKind}
    (h : ((x.state = .writing ∨ x.state = .journaling) ∧ kind = .target ∧
        place = ((entryOf s x.home).bind (·.target)).getD x.home) ∨
      (x.state = .finishing ∧ kind = .finishing ∧ place = ((entryOf s x.home).bind (·.target)).getD x.home) ∨
      (x.state = .returning ∧ kind = .fallback ∧ place = ((entryOf s x.home).bind (·.spare)).getD x.home)) :
    slotWritePlan s x = (place, kind) := by
  unfold slotWritePlan
  rcases h with ⟨hstate | hstate, rfl, rfl⟩ | ⟨hstate, rfl, rfl⟩ | ⟨hstate, rfl, rfl⟩ <;> rw [hstate] <;> rfl

theorem grantHostRead_issues {s : State} {id : Nat} {r : HostReq} {l : Ladder} (hr : findReq s id = some r)
    (hstage : r.stage = .inArray l) :
    grantHostRead id s =
      .issued (issue (.read l.ala) (.hostRead id) l.step (setStage id (.inArray { l with granted := true }) s)) := by
  unfold grantHostRead
  simp only [hr, hstage]

theorem grantRetireRead_issues {s : State} {id : Nat} {r : RetireRead} (hr : findRetireRead s id = some r) :
    grantRetireRead id s =
      .issued (issue (.read r.ladder.ala) (.retireRead id) r.ladder.step
        (updateRetireRead id (fun q => { q with ladder := { q.ladder with granted := true } }) s)) := by
  unfold grantRetireRead
  rw [hr]

theorem grantSurveyRead_issues {s : State} {l : LiveSurvey} {d : Ladder} (hl : s.survey.live = some l) (hphase : l.phase = .reading d) :
    grantSurveyRead s =
      .issued (issue (.read d.ala) .surveyRead d.step (setLive (some { l with phase := .reading { d with granted := true } }) s)) := by
  unfold grantSurveyRead
  simp only [hl, hphase]

theorem grantReadHalf_issues {s : State} {ref : ItemRef} {e : Item} {l : Ladder} (he : findItem s ref = some e) (hl : e.ladder = some l) :
    grantReadHalf ref s = .issued (issue (.read l.ala) (.rmwRead ref) l.step s) := by
  unfold grantReadHalf
  rw [he, Option.bind_some, hl]

theorem grantInPlace_issues {s : State} {ref : ItemRef} {e : Item} (he : findItem s ref = some e) :
    grantInPlace ref s = .issued (issue (.write e.place e.data) (.inPlace ref) 0 s) := by
  unfold grantInPlace
  rw [he]

theorem grantDrain_translates {s : State} {ref : ItemRef} {e : Item} (he : findItem s ref = some e) (age : Age) :
    grantDrain ref age s = translate ref e age s := by
  unfold grantDrain
  rw [he]

/-! ### Translation (R80 to R85) -/

theorem translate_merges {s : State} {ref : ItemRef} {e : Item} (h : isMoving s e.hla = true) (age : Age) :
    translate ref e age s = .free (mergeItem ref e s) := if_pos h

theorem translate_offers {s : State} {ref : ItemRef} {e : Item} (hmoving : isMoving s e.hla = false) (hpending : isPending s e.hla = true)
    (hfull : e.mask = BitVec.allOnes 64) (age : Age) : translate ref e age s = .free (offerItem ref e .pendingWrite s) := by
  unfold translate fullMask
  rw [hmoving, if_neg Bool.false_ne_true, if_pos ⟨hpending, hfull⟩]

theorem translate_discards {s : State} {ref : ItemRef} {e : Item} (hmoving : isMoving s e.hla = false) (hpending : isPending s e.hla = true)
    (hmasked : e.mask ≠ BitVec.allOnes 64) (age : Age) : translate ref e age s = .free (discardItem ref e .unreadableMerge s) := by
  unfold translate fullMask
  rw [hmoving, if_neg Bool.false_ne_true, if_neg (fun h => hmasked h.2), if_pos hpending]

theorem translate_writes {s : State} {ref : ItemRef} {e : Item} (hmoving : isMoving s e.hla = false) (hpending : isPending s e.hla = false)
    (hfull : e.mask = BitVec.allOnes 64) (age : Age) : translate ref e age s = .issued (beginLineWrite ref e s) := by
  unfold translate fullMask
  rw [hmoving, hpending, if_neg Bool.false_ne_true, if_neg (fun h => Bool.false_ne_true h.1), if_neg Bool.false_ne_true,
    if_neg (not_not_intro hfull)]

theorem translate_reads {s : State} {ref : ItemRef} {e : Item} (hmoving : isMoving s e.hla = false) (hpending : isPending s e.hla = false)
    (hmasked : e.mask ≠ BitVec.allOnes 64) (age : Age) : translate ref e age s = .issued (beginReadHalf ref e age s) := by
  unfold translate fullMask
  rw [hmoving, hpending, if_neg Bool.false_ne_true, if_neg (fun h => Bool.false_ne_true h.1), if_neg Bool.false_ne_true,
    if_pos hmasked]

/-- A granted drain request of an item whose line is neither MOVING nor pending (R80). -/
theorem grantRequest_drain {s : State} {q : ArbReq} {ref : ItemRef} {e : Item} (hbody : q.body = .drain ref)
    (he : findItem s ref = some e) : grantRequest q s = translate ref e q.age s := by
  unfold grantRequest
  rw [hbody]
  exact grantDrain_translates he q.age

/-! ### Choices that take no place (R79, log 42) -/

/-- A choice that takes no place and leaves nothing due goes to the next choice. -/
theorem grantLoop_free {s u : State} {q : ArbReq} (hplaces : s.array.inFlight.length < 8) (hq : chooseRequest s = some q)
    (hfree : grantRequest q (s.setArray { s.array with waiting := s.array.waiting.erase q }) = .free u) (hsteady : steady u = true)
    (n : Nat) : grantLoop (n + 1) s = grantLoop n u := by
  have hwaiting : s.array.waiting ≠ [] := fun h0 => by
    unfold chooseRequest at hq
    rw [h0] at hq
    cases hq
  have hloop : settleLoop (settleFuel u) u = u := by
    unfold settleFuel
    rw [settleLoop, microStep_steady hsteady]
  rw [grantLoop, if_pos ((grantPossible_iff s).mpr ⟨hplaces, hwaiting⟩), hq]
  simp only [hfree, hloop]

theorem grantLoop_idle {s : State} (h : s.array.waiting = []) (n : Nat) : grantLoop n s = s := by
  cases n with
  | zero => rfl
  | succ n =>
    rw [grantLoop, if_neg]
    exact fun hp => ((grantPossible_iff s).mp hp).2 h

theorem answerBarriers_array (verdict : Barrier → Option HostStatus) (s : State) : (answerBarriers verdict s).array = s.array := by
  unfold answerBarriers
  refine foldl_keeps (P := fun x => x.array = s.array) (fun x b hx => ?_) _ _ rfl
  split
  · exact hx
  · exact hx

theorem discardItem_array (id : Nat) (e : Item) (reason : ReportReason) (s : State) :
    (discardItem (.entry id) e reason s).array = s.array := by
  obtain ⟨reports, alert, hreport⟩ := queueReport_sets e.hla reason s
  rw [discardItem_entry, hreport]
  unfold failCovered
  rw [answerBarriers_array]
  rfl

/-- The only request that waits is granted without a place: nothing is issued. -/
theorem arbiterGrant_free {s u : State} {q : ArbReq} (hplaces : s.array.inFlight.length < 8) (hwaiting : s.array.waiting = [q])
    (hfree : grantRequest q ((nextEvent s).setArray { s.array with waiting := [] }) = .free u) (hnone : u.array.waiting = [])
    (hcalm : calm u = true) : exec .arbiterGrant s = .next (evalLevels u) := by
  obtain ⟨hsteady, -⟩ := (calm_iff u).mp hcalm
  have hq : chooseRequest (nextEvent s) = some q := by
    unfold chooseRequest
    rw [show (nextEvent s).array.waiting = [q] from hwaiting]
    rfl
  have herased : (nextEvent s).array.waiting.erase q = [] := by
    rw [show (nextEvent s).array.waiting = [q] from hwaiting, List.erase_cons_head]
  have hfuel : grantFuel (nextEvent s) = (grantFuel (nextEvent s) - 1) + 1 := by unfold grantFuel; omega
  have hpossible : grantPossible (nextEvent s) = true := (grantPossible_iff _).mpr ⟨hplaces, by
    rw [show (nextEvent s).array.waiting = [q] from hwaiting]
    exact List.cons_ne_nil _ _⟩
  have hloop : grantNext (nextEvent s) = some u := by
    unfold grantNext
    rw [if_pos hpossible, hfuel, grantLoop_free (s := nextEvent s) hplaces hq (by rw [herased]; exact hfree) hsteady, grantLoop_idle hnone]
  show Host.Outcome.next (internalEvent grantNext s) = _
  unfold internalEvent
  rw [hloop]
  exact congrArg Host.Outcome.next (settle_calm hcalm)

/-- Settles O37: each kind of request by what its grant issues, and the translations that issue nothing. -/
theorem grantIssuesRequest : Obligations.GrantIssuesRequest := by
  refine ⟨fun s q t => ⟨fun hnothing => ?_, fun hplaces hq => ⟨fun id r l hbody hr hstage ht => ?_, fun ala hbody ht => ?_,
      fun kind ala data hbody ht => ?_⟩⟩,
    fun s q id e place t hplaces hq hbody he hmoving hpending hplace => ⟨fun hfull ht => ?_, fun hmasked ht => ?_⟩,
    fun s q t sent hplaces hq hsent => ?_,
    fun s id e age u => ⟨fun hmoving hu hwaiters => ?_, fun hmoving hpending => ⟨fun hfull => translate_offers hmoving hpending hfull age,
      fun hmasked => translate_discards hmoving hpending hmasked age⟩,
      fun n q hplaces hq hfree hsteady => grantLoop_free hplaces hq hfree hsteady n,
      fun q hplaces hwaiting hbody he hmoving hpending hmasked hu hcalm => ?_⟩⟩
  · exact hnothing.elim arbiterGrant_full arbiterGrant_nothing
  · refine arbiterGrant_issues hplaces hq ?_
    unfold grantRequest
    rw [hbody, ht]
    exact grantHostRead_issues (s := granting q s) hr hstage
  · refine arbiterGrant_issues hplaces hq ?_
    unfold grantRequest
    rw [hbody, ht]
    rfl
  · refine arbiterGrant_issues hplaces hq ?_
    unfold grantRequest
    rw [hbody, ht]
    rfl
  · refine arbiterGrant_issues hplaces hq ?_
    rw [grantRequest_drain (s := granting q s) hbody he, translate_writes (s := granting q s) hmoving hpending hfull, ht, hplace]
    rfl
  · refine arbiterGrant_issues hplaces hq ?_
    rw [grantRequest_drain (s := granting q s) hbody he, translate_reads (s := granting q s) hmoving hpending hmasked, ht, hplace]
    rfl
  · have hissued : ∀ op owner step, issue op owner step (granting q s) = sent op owner step := fun op owner step => by
      rw [hsent]
      cases op <;> rfl
    refine ⟨fun home place kind x hbody hx hplan ht => ?_, fun ref e hbody he ht => ?_, fun id r hbody hr ht => ?_,
      fun l d hbody hl hphase ht => ?_, fun ref e l hbody he hl ht => ?_, fun id e place hbody he hmoving hpending hplace =>
        ⟨fun hfull ht => ?_, fun hmasked ht => ?_⟩⟩
    · refine arbiterGrant_issues hplaces hq ?_
      have hgrant := grantSlotWrite_issues (s := granting q s) hx
      rw [slotWritePlan_of (s := granting q s) hplan] at hgrant
      unfold grantRequest
      rw [hbody, ht, ← hissued]
      exact hgrant
    · refine arbiterGrant_issues hplaces hq ?_
      unfold grantRequest
      rw [hbody, ht, ← hissued]
      exact grantInPlace_issues (s := granting q s) he
    · refine arbiterGrant_issues hplaces hq ?_
      unfold grantRequest
      rw [hbody, ht, ← hissued]
      exact grantRetireRead_issues (s := granting q s) hr
    · refine arbiterGrant_issues hplaces hq ?_
      unfold grantRequest
      rw [hbody, ht, ← hissued]
      exact grantSurveyRead_issues (s := granting q s) hl hphase
    · refine arbiterGrant_issues hplaces hq ?_
      unfold grantRequest
      rw [hbody, ht, ← hissued]
      exact grantReadHalf_issues (s := granting q s) he hl
    · refine arbiterGrant_issues hplaces hq ?_
      rw [grantRequest_drain (s := granting q s) hbody he, translate_writes (s := granting q s) hmoving hpending hfull, ht, hplace,
        ← hissued]
      rfl
    · refine arbiterGrant_issues hplaces hq ?_
      rw [grantRequest_drain (s := granting q s) hbody he, translate_reads (s := granting q s) hmoving hpending hmasked, ht, hplace,
        ← hissued]
      rfl
  · have hmerged : mergeItem (.entry id) e s = u := by
      unfold mergeItem
      rw [leaveItem_entry (by exact hwaiters), hu, mergeSlot_eq]
      refine congrArg (fun f => (s.setReloc { s.reloc with slots := s.reloc.slots.map f }).setBuf
        { s.buf with entries := s.buf.entries.filter (·.id != id) }) (funext fun x => ?_)
      show (if x.home == e.hla then { x with
        data := mergeLine x.data e.data e.mask, dirty := x.dirty || slotWriteInFlight s e.hla || x.state == .journaling,
        epoch := lowerEpoch x.epoch e.epoch, waiting := x.waiting ++ [] } else x) = _
      rw [List.append_nil]
      cases x.epoch <;> cases e.epoch <;> rfl
    exact ⟨hmerged, by rw [translate_merges hmoving, hmerged]⟩
  · have hgranted : grantRequest q ((nextEvent s).setArray { s.array with waiting := [] }) = .free u := by
      rw [grantRequest_drain (s := (nextEvent s).setArray { s.array with waiting := [] }) hbody he,
        translate_discards (s := (nextEvent s).setArray { s.array with waiting := [] }) hmoving hpending hmasked, ← hu]
    refine arbiterGrant_free hplaces hwaiting hgranted ?_ hcalm
    rw [hu, discardItem_array]
    rfl

end Sys2Proof.Machine
end
section
/-! The part's own steps and how an event ends (O53, O54; R40, R77, R93, R119, R135, R13, R109). The idea: each internal row is the event
of one step (`internalEvent`), and the step that is due is what the tables say (`handoffNext_request`, `roomEntryNext_new` and the
like); an event with one step due ends after it (`settle_one`). -/

namespace Sys2Proof.Machine

-- One theorem after another, as in the laws (see `Quiet`): the memory of the check does not hold all their threads at once.
set_option Elab.async false

/-! ### Internal rows (O53) -/

/-- An internal row whose step is due is the event of that step. -/
theorem internalEvent_due {next : State → Option State} {s t : State} (h : next (nextEvent s) = some t) :
    (Host.Outcome.next (internalEvent next s) : Result) = .next (settle t) := by
  unfold internalEvent
  rw [h]

theorem presentNext_first {s : State} {r : HostReq} {others : List HostReq} (horder : s.host.order = r :: others)
    (hstage : r.stage = .queued) : presentNext s = some (present r s) := by
  unfold presentNext
  rw [horder, firstReady, if_pos ⟨hstage, List.not_mem_nil⟩, Option.map_some]

theorem present_read {r : HostReq} (h : r.write = none) (s : State) : present r s = presentRead r s := by
  unfold present
  rw [h]

theorem enterBuffer_new {s : State} {r : HostReq} (he : newestEntry s r.hla = none) (hroom : s.buf.entries.length < 8) (data : LineData)
    (mask : Mask) : enterBuffer r data mask s = some (answerReq r .write .done none (newEntry r.hla data mask (riseEpoch s))) := by
  unfold enterBuffer
  simp only [he, if_pos (show s.buf.entries.length < Config.bufferEntries from hroom)]

/-- The oldest write that waits for room enters the buffer (R77). -/
theorem roomEntryNext_enters {s : State} {id : Nat} {r : HostReq} {data : LineData} {mask : Mask} (hwait : s.host.roomWait = [id])
    (hr : findReq s id = some r) (hwrite : r.write = some (data, mask)) :
    roomEntryNext s = enterBuffer r data mask (s.setHost { s.host with roomWait := [] }) := by
  unfold roomEntryNext
  simp only [hwait, hr, hwrite]

/-- The request that waits alone for a slot is admitted (R93). -/
theorem handoffNext_request {s : State} {ref : ItemRef} {home : Nat} {cause : RelocCause} {e : Item}
    (hqueue : s.reloc.queue = [.request ref home cause]) (hfree : slotFree s = true) (hreserved : reservationFor s home = false)
    (he : findItem s ref = some e) :
    handoffNext s = some (admitItem ref e cause (s.setReloc { s.reloc with queue := [] })) := by
  have htakes : canTakeSlot s (.request ref home cause) = true := by
    show (!reservationFor s home) = true
    rw [hreserved]
    rfl
  have hitem : findItem (s.setReloc { s.reloc with queue := [] }) ref = some e := by
    cases ref <;> exact he
  unfold handoffNext
  rw [if_pos hfree, hqueue, List.find?_cons, htakes]
  simp only [List.erase_cons_head, hitem]

theorem joinNext_one {s : State} {r : Record} (hwait : s.jour.wait = [r]) (hroom : s.jour.queue.length < 16) :
    joinNext s = some (s.setJour { s.jour with queue := s.jour.queue ++ [r], wait := [] }) := by
  unfold joinNext
  rw [hwait]
  exact if_pos hroom

/-- Settles O53: each row by the step that is due. -/
theorem internalRowsAct : Obligations.InternalRowsAct := by
  refine fun s t => ⟨fun r others horder hstage hread hlive he hmoving hpending ht => ?_,
    fun id r data mask hwait hr hwrite hlive hroom he ht => ?_,
    fun id home spare cause e hqueue hslot hreserved he hbelow hmoving hfree hwaiters ht => ?_, fun r hwait hroom ht => ?_,
    fun hop htags horder hroom hentries hdirect hslots hreserved hqueue hlive hstate hjour hwait ht => ?_⟩
  · refine internalEvent_due ((presentNext_first (s := nextEvent s) horder hstage).trans (congrArg some ?_))
    rw [present_read hread, presentRead_pending (by exact he) (by exact hmoving) (by exact hpending) hlive, hitPending_eq, ht]
    rfl
  · refine internalEvent_due ((roomEntryNext_enters (s := nextEvent s) hwait hr hwrite).trans ?_)
    rw [enterBuffer_new (newestEntry_none (by exact he)) (by exact hroom), ht]
    unfold answerReq
    rw [hlive]
    rfl
  · refine internalEvent_due ((handoffNext_request (s := nextEvent s) hqueue hslot hreserved he).trans (congrArg some ?_))
    rw [admitItem_moves cause (by exact hbelow) (by exact hmoving) (by exact hfree), ht]
    have hkept := (TablesOnly.setMap ((nextEvent s).setReloc { s.reloc with queue := [] })
      { s.map with marks := insertMark spare .held s.map.marks }).trans (.beginRelocation e.hla spare cause e.data e.epoch [] _)
    refine (leaveItem_entry (s := beginRelocation e.hla spare cause e.data e.epoch []
      (setMark spare .held ((nextEvent s).setReloc { s.reloc with queue := [] }))) ?_).trans ?_
    · rw [show (beginRelocation e.hla spare cause e.data e.epoch []
        (setMark spare .held ((nextEvent s).setReloc { s.reloc with queue := [] }))).host = s.host from hkept.host]
      exact hwaiters
    · rw [show (beginRelocation e.hla spare cause e.data e.epoch []
        (setMark spare .held ((nextEvent s).setReloc { s.reloc with queue := [] }))).buf = s.buf from hkept.buf]
  · refine internalEvent_due ((joinNext_one (s := nextEvent s) hwait hroom).trans (congrArg some ?_))
    rw [ht]
    rfl
  · have hcomplete : quiesceComplete (nextEvent s) = true := by
      show quiesceComplete s = true
      simp only [quiesceComplete, htags, horder, hroom, hentries, hdirect, hslots, hreserved, hqueue, hlive, hstate, hjour, hwait,
        List.isEmpty_nil, Option.isNone_none, beq_self_eq_true, Bool.and_self]
    have hends : quiesceNext (nextEvent s) = some t := by
      rw [ht]
      exact if_pos ⟨hop, hcomplete⟩
    refine (internalEvent_due hends).trans (congrArg Host.Outcome.next (settle_calm ((calm_iff t).mpr ⟨(steady_iff t).mpr ?_, ?_⟩)))
    · have hop' : t.start.op = .starting := by rw [ht]
      refine ⟨by rw [ht]; exact hqueue, (heldNext_none_iff t).mpr (.inl (by rw [ht])), by rw [ht]; exact hroom, by rw [ht], by rw [ht],
        fun r hr => ?_, (decideNext_none_iff t).mpr (.inl fun h => ?_), quiesceNext_none (by rw [hop']; exact nofun)⟩
      · rw [ht] at hr
        have hr' : r ∈ s.host.order := hr
        rw [horder] at hr'
        cases hr'
      · rw [hop'] at h
        exact h.2.elim nofun nofun
    · unfold drained readyDirect
      rw [show t.buf.entries = [] by rw [ht]; exact hentries, show t.buf.direct = [] by rw [ht]; exact hdirect]
      rfl

/-! ### The end of an event (O54) -/

/-- With the journal's decision alone due, it is the next internal step (R120). -/
theorem microStep_decides {s t : State} (hqueue : s.reloc.queue = []) (hheld : s.reloc.held = []) (hroom : s.host.roomWait = [])
    (horder : ∀ r ∈ s.host.order, r.stage ≠ .queued) (hwait : s.jour.wait = []) (hdecide : decideNext s = some t) :
    microStep s = some t := by
  have hhandoff : handoffNext s = none := by
    unfold handoffNext
    rw [hqueue]
    split <;> rfl
  have hentry : roomEntryNext s = none := by
    unfold roomEntryNext
    rw [hroom]
  have hpresent : presentNext s = none := by
    unfold presentNext
    rw [firstReady_none _ _ horder]
    rfl
  have hjoin : joinNext s = none := by
    unfold joinNext
    rw [hwait]
  unfold microStep
  rw [(heldNext_none_iff s).mpr (.inl hheld), hhandoff, hentry, hpresent, hjoin, hdecide]
  rfl

theorem evalLevels_otherCause (s : State) {i : Nat} (hlow : i ≠ 0) (hhigh : i ≠ 2) :
    (evalLevels s).alert.causes.getLsbD i = s.alert.causes.getLsbD i := by
  unfold evalLevels
  simp only [State.setAlert, followLevel_bit, AlertCause.index, hlow, hhigh, if_false]

/-- Settles O54: the end of a steady event is known (`settle_steady`), and one step more leads to it (`settle_one`). -/
theorem eventEnds : Obligations.EventEnds := by
  refine fun s => ⟨settle_calm, settle_steady, fun t hqueue hheld hroom horder hwait hdecide hsteady =>
    settle_one (microStep_decides hqueue hheld hroom horder hwait hdecide) hsteady, ⟨_, rfl⟩, (evalLevels_levelLaw s).1,
    (evalLevels_levelLaw s).2, fun i hlow hhigh => evalLevels_otherCause s hlow hhigh⟩

end Sys2Proof.Machine
end
section
/-! Allocation, spare states and the tables of the Relocation Engine (O55, O56; R6, R8, R9, R34, R91 to R97, R106 to R111). The idea: the
lowest FREE spare is what a search from below finds (`range_find_first`), and each row of the tables is one branch of its operation. -/

namespace Sys2Proof.Machine

-- One theorem after another, as in the laws (see `Quiet`): the memory of the check does not hold all their threads at once.
set_option Elab.async false

/-! ### Allocation (R8, R9) -/

theorem lowestFree_some {s : State} {a : Nat} (h : lowestFree s = some a) :
    spareStateOf s a = some .free ∧ inRange s .withdrawal a = false ∧
      ∀ b, b < a → spareStateOf s b = some .free → inRange s .withdrawal b = true := by
  obtain ⟨-, -, hpass, hfirst⟩ := range_find_first _ _ _ _ h
  rw [Bool.and_eq_true, beq_iff_eq, Bool.not_eq_true'] at hpass
  obtain ⟨hfree, hrange⟩ := hpass
  refine ⟨hfree, hrange, fun b hb hbfree => ?_⟩
  have hfails := hfirst b (spareStateOf_bounds s b _ hbfree).1 hb
  rw [hbfree, beq_self_eq_true, Bool.true_and, Bool.not_eq_false'] at hfails
  exact hfails

theorem lowestFree_none {s : State} (h : lowestFree s = none) (b : Nat) (hb : spareStateOf s b = some .free) :
    inRange s .withdrawal b = true := by
  have hmem : b ∈ List.range' (fenceValue s) (spareCount s) := List.mem_range'_1.mpr (spareStateOf_bounds s b _ hb)
  have hfails := List.find?_eq_none.mp h b hmem
  rw [hb, beq_self_eq_true, Bool.true_and, Bool.not_eq_true', Bool.not_eq_false] at hfails
  exact hfails

/-! ### Spare states (R6) -/

theorem spareStateOf_outside {s : State} {a : Nat} (h : inReserve s a = false) : spareStateOf s a = none := by
  unfold spareStateOf
  rw [h, if_neg Bool.false_ne_true]

theorem spareStateOf_marked {s : State} {a : Nat} {state : SpareState} (h : inReserve s a = true)
    (hmark : markOf s.map.marks a = some state) : spareStateOf s a = some state := by
  unfold spareStateOf
  rw [if_pos h, hmark]

theorem markOf_unmarked {marks : List SpareMark} {a : Nat} (h : ∀ m ∈ marks, m.ala ≠ a) : markOf marks a = none := by
  unfold markOf
  rw [Option.map_eq_none_iff, List.find?_eq_none]
  exact fun m hm => by simpa using h m hm

/-- Of marks by rising line the one of a line is found (R6). -/
theorem markOf_sorted : ∀ {marks : List SpareMark}, (marks.map (·.ala)).Pairwise (· < ·) → ∀ m ∈ marks, markOf marks m.ala = some m.state
  | [], _, m, hm => by cases hm
  | x :: marks, hsorted, m, hm => by
    rw [List.map_cons, List.pairwise_cons] at hsorted
    obtain ⟨hfirst, hrest⟩ := hsorted
    rcases List.mem_cons.mp hm with rfl | hm
    · unfold markOf
      rw [List.find?_cons, beq_self_eq_true, Option.map_some]
    · have hne : ¬ (x.ala == m.ala) = true := by
        rw [beq_iff_eq]
        exact Nat.ne_of_lt (hfirst m.ala (List.mem_map_of_mem hm))
      have hlater := markOf_sorted hrest m hm
      unfold markOf at hlater ⊢
      rw [List.find?_cons_of_neg (p := fun y : SpareMark => y.ala == m.ala) hne, hlater]

/-! ### The start of a relocation and the slots (R93, R96, R97) -/

theorem beginEntry_eq {s : State} {home spare : Nat} {cause : RelocCause} {entry : RemapEntry}
    (h : (∃ e, entryOf s home = some e ∧ entry = { e with target := some spare, cause := some cause }) ∨
      (entryOf s home = none ∧
        entry = { home, spare := none, target := some spare, cause := some cause, boundTick := none })) :
    beginEntry s home spare cause = entry := by
  unfold beginEntry
  rcases h with ⟨e, he, rfl⟩ | ⟨he, rfl⟩ <;> rw [he]

theorem beginRelocation_eq {s : State} {home spare : Nat} {cause : RelocCause} {entry : RemapEntry}
    (h : beginEntry s home spare cause = entry) (data : LineData) (epoch : Option Nat) (writes : List WaitingWrite) :
    beginRelocation home spare cause data epoch writes s =
      placeRequest (.slotWrite home)
        ((s.setMap { s.map with table := insertEntry entry s.map.table }).setReloc
          { s.reloc with
            slots := s.reloc.slots ++
              [{ home, data, state := .writing, dirty := false, attempts := 1, epoch, waiting := writes }]
            reserved := if s.reloc.reserved = some home then none else s.reloc.reserved
            watch := s.reloc.watch.filter (·.hla != home)
            pendingList :=
              if cause = .pendingWrite ∨ cause = .writeFault then s.reloc.pendingList.filter (·.hla != home)
              else s.reloc.pendingList }) := by
  unfold beginRelocation
  rw [h]
  cases cause <;> rfl

theorem isSlotWriteOf_iff (f : Flight) (home : Nat) :
    (match f.owner with | .slotWrite h _ => h == home | _ => false) = true ↔ ∃ kind, f.owner = .slotWrite home kind := by
  cases f.owner with
  | slotWrite h kind =>
    refine beq_iff_eq.trans ⟨fun heq => ⟨kind, by rw [heq]⟩, fun ⟨k, hk⟩ => ?_⟩
    cases hk
    rfl
  | _ => simp

theorem slotWriteInFlight_iff (s : State) (home : Nat) :
    slotWriteInFlight s home = true ↔
      (∃ f ∈ s.array.inFlight, f.timedOut = false ∧ ∃ kind, f.owner = .slotWrite home kind) ∨ ∃ h ∈ s.reloc.held, h.home = home := by
  unfold slotWriteInFlight
  rw [Bool.or_eq_true, List.any_eq_true, List.any_eq_true]
  refine or_congr (exists_congr fun f => and_congr_right fun _ => ?_) (exists_congr fun h => and_congr_right fun _ => beq_iff_eq)
  rw [Bool.and_eq_true, Bool.not_eq_true']
  exact and_congr_right fun _ => isSlotWriteOf_iff f home

theorem slotFree_iff (s : State) : slotFree s = true ↔ s.reloc.slots.length + (if s.reloc.reserved = none then 0 else 1) < 4 := by
  unfold slotFree Retirement.busy Config.slotCount
  rw [decide_eq_true_eq]
  cases s.reloc.reserved <;> simp

theorem reservationFor_iff (s : State) (home : Nat) :
    reservationFor s home = true ↔ s.reloc.reserved = some home ∨ .reservation home ∈ s.reloc.queue := by
  unfold reservationFor
  rw [Bool.or_eq_true, beq_iff_eq, List.contains_iff_mem]

theorem allocateFor_allowed {s : State} {home : Nat} (hbelow : home < fenceValue s) (hmoving : isMoving s home = false) :
    allocateFor home s = allocate s := by
  unfold allocateFor
  rw [if_pos (by simp [hbelow, hmoving])]

theorem allocateFor_refused {s : State} {home : Nat} (h : fenceValue s ≤ home ∨ isMoving s home = true) :
    allocateFor home s = (none, s) := by
  unfold allocateFor
  rw [if_neg]
  rcases h with hbeyond | hmoving
  · simp [Nat.not_lt.mpr hbeyond]
  · simp [hmoving]

/-- Setting an entry changes what is found for that home alone (R3). -/
theorem find_insertEntry (e : RemapEntry) (home : Nat) : ∀ table : List RemapEntry,
    (insertEntry e table).find? (·.home == home) = if home = e.home then some e else table.find? (·.home == home)
  | [] => by
    by_cases h : home = e.home
    · rw [if_pos h, insertEntry, List.find?_cons_of_pos (by rw [h]; exact beq_self_eq_true _)]
    · rw [if_neg h, insertEntry, List.find?_cons_of_neg (by simpa using Ne.symm h)]
  | x :: table => by
    unfold insertEntry
    by_cases hlt : e.home < x.home
    · rw [if_pos hlt]
      by_cases h : home = e.home
      · rw [if_pos h, List.find?_cons_of_pos (by rw [h]; exact beq_self_eq_true _)]
      · rw [if_neg h, List.find?_cons_of_neg (by simpa using Ne.symm h)]
    rw [if_neg hlt]
    by_cases heq : e.home = x.home
    · rw [if_pos heq]
      by_cases h : home = e.home
      · rw [if_pos h, List.find?_cons_of_pos (by rw [h]; exact beq_self_eq_true _)]
      · rw [if_neg h, List.find?_cons_of_neg (by simpa using Ne.symm h),
          List.find?_cons_of_neg (by simpa [← heq] using Ne.symm h)]
    · rw [if_neg heq]
      by_cases hx : x.home = home
      · have h : home ≠ e.home := fun h => heq (hx.trans h).symm
        rw [List.find?_cons_of_pos (by simpa using hx), List.find?_cons_of_pos (by simpa using hx), if_neg h]
      · rw [List.find?_cons_of_neg (by simpa using hx), List.find?_cons_of_neg (by simpa using hx), find_insertEntry e home table]

/-- Settles O55: the lowest FREE spare is found by a search from below; the rest is one rule for each operation. -/
theorem allocationTakesLowest : Obligations.AllocationTakesLowest := by
  refine ⟨fun s => ⟨fun a t h => ?_, fun t h => ?_⟩,
    fun s => ⟨fun a h => ?_, fun f a hf hlow hhigh => ⟨fun hlaw m hm hma => ?_, fun hnone => ?_⟩,
      fun home spare cause data epoch writes entry hentry => beginRelocation_eq (beginEntry_eq hentry) data epoch writes,
      slotWriteInFlight_iff s, slotFree_iff s, reservationFor_iff s, fun home => ⟨allocateFor_allowed, allocateFor_refused⟩,
      fun e home => find_insertEntry e home s.map.table, fun marks a b state => markOf_insertMark a b state marks⟩⟩
  · cases hfree : lowestFree s with
    | none => rw [allocate_eq_none hfree] at h; cases h
    | some x =>
      rw [allocate_eq_free hfree] at h
      cases h
      exact ⟨rfl, lowestFree_some hfree⟩
  · cases hfree : lowestFree s with
    | none =>
      rw [allocate_eq_none hfree] at h
      cases h
      exact ⟨rfl, lowestFree_none hfree⟩
    | some x => rw [allocate_eq_free hfree] at h; cases h
  · refine spareStateOf_outside (Bool.eq_false_iff.mpr fun hin => ?_)
    obtain ⟨f, hf, hlow, hhigh⟩ := (inReserve_iff s a).mp hin
    exact Nat.not_lt.mpr (h f hf hlow) hhigh
  · have hin : inReserve s a = true := (inReserve_iff s a).mpr ⟨f, hf, hlow, hhigh⟩
    subst hma
    exact spareStateOf_marked hin (markOf_sorted hlaw.2 m hm)
  · have hin : inReserve s a = true := (inReserve_iff s a).mpr ⟨f, hf, hlow, hhigh⟩
    unfold spareStateOf
    rw [if_pos hin, markOf_unmarked hnone]

/-! ### Pending List adds (R106, R107) -/

theorem countsHit_eq {origin : PendingOrigin} {counts : Bool} (h : counts = true ↔ origin = .hostRead ∨ origin = .spareRead) :
    countsHit origin = counts := by
  rw [Bool.eq_iff_iff, h]
  cases origin <;> simp [countsHit]

theorem pendingAdd_hits {s : State} {hla : Nat} {origin : PendingOrigin} (hmoving : isMoving s hla = false)
    (hpending : isPending s hla = true) : pendingAdd hla origin s = if countsHit origin = true then hitPending hla s else s := by
  unfold pendingAdd
  rw [hmoving, if_neg Bool.false_ne_true, if_pos hpending]

theorem pendingAdd_dropped {s : State} {hla : Nat} {origin : PendingOrigin} (hmoving : isMoving s hla = false)
    (hpending : isPending s hla = false) (hfull : 32 ≤ s.reloc.pendingList.length) : pendingAdd hla origin s = dropAdd hla s := by
  unfold pendingAdd
  rw [hmoving, hpending, if_neg Bool.false_ne_true, if_neg Bool.false_ne_true, if_pos (by exact hfull)]

theorem pendingAdd_joins {s : State} {hla : Nat} {origin : PendingOrigin} (hmoving : isMoving s hla = false)
    (hpending : isPending s hla = false) (hroom : s.reloc.pendingList.length < 32) :
    pendingAdd hla origin s =
      s.setReloc
        { s.reloc with
          pendingList := s.reloc.pendingList ++
            [{ hla, origin, entered := s.tick, hits := if countsHit origin = true then 1 else 0 }]
          watch := s.reloc.watch.filter (·.hla != hla) } := by
  unfold pendingAdd
  rw [hmoving, hpending, if_neg Bool.false_ne_true, if_neg Bool.false_ne_true, if_neg (Nat.not_le.mpr (by exact hroom))]
  rfl

/-! ### Watch updates (R110, R111) -/

/-- The entry a watch update gives a line. -/
theorem watchedEntry_eq {s : State} {hla count : Nat}
    (h : (∃ w, s.reloc.watch.find? (·.hla == hla) = some w ∧ count = min (w.count + 1) 15) ∨
      ((∀ w ∈ s.reloc.watch, w.hla ≠ hla) ∧ count = 1)) : watchedEntry s hla = { hla, count, last := s.tick } := by
  unfold watchedEntry
  rcases h with ⟨w, hw, rfl⟩ | ⟨hnone, rfl⟩
  · have hsame : w.hla = hla := by
      have hmatch := List.find?_some hw
      exact beq_iff_eq.mp hmatch
    rw [hw, ← hsame]
    rfl
  · have hfind : s.reloc.watch.find? (·.hla == hla) = none := List.find?_eq_none.mpr fun w hw => by simpa using hnone w hw
    rw [hfind]

theorem watchUpdate_ignored {s : State} {hla : Nat} (h : isPending s hla = true ∨ isMoving s hla = true) (data : LineData) :
    watchUpdate hla data s = s := if_pos (Bool.or_eq_true .. ▸ h)

theorem watchUpdate_eq {s : State} {hla count : Nat} (hpending : isPending s hla = false) (hmoving : isMoving s hla = false)
    (hentry : watchedEntry s hla = { hla, count, last := s.tick }) (data : LineData) :
    watchUpdate hla data s =
      if s.policy.active.watchLimit ≤ count then
        offerRead .watch hla data (s.setReloc { s.reloc with watch := (s.reloc.watch.filter (·.hla != hla)).take 63 })
      else
        s.setReloc
          { s.reloc with
            watch := { hla, count, last := s.tick } :: (s.reloc.watch.filter (·.hla != hla)).take 63 } := by
  unfold watchUpdate
  rw [hpending, hmoving, hentry]
  rfl

/-! ### WATCH and RETRY requests (R91 to R94) -/

theorem requestWaits_iff (s : State) (home : Nat) :
    requestWaits s home = true ↔ ∃ ref c, QueueItem.request ref home c ∈ s.reloc.queue := by
  unfold requestWaits
  rw [List.any_eq_true]
  constructor
  · rintro ⟨q, hq, hmatch⟩
    cases q with
    | reservation h => cases hmatch
    | request ref h c =>
      obtain rfl : h = home := beq_iff_eq.mp hmatch
      exact ⟨ref, c, hq⟩
  · rintro ⟨ref, c, hq⟩
    exact ⟨_, hq, beq_self_eq_true home⟩

theorem relocationInProgress_iff (s : State) (home : Nat) :
    relocationInProgress s home = true ↔ isMoving s home = true ∨ (∃ ref c, QueueItem.request ref home c ∈ s.reloc.queue) ∨
      reservationFor s home = true := by
  unfold relocationInProgress
  rw [Bool.or_eq_true, Bool.or_eq_true, requestWaits_iff, or_assoc]

theorem offerRead_discarded {s : State} {home : Nat} (h : isPending s home = true ∨ relocationInProgress s home = true)
    (cause : RelocCause) (data : LineData) : offerRead cause home data s = s := if_pos (Bool.or_eq_true .. ▸ h)

theorem offerRead_moves {s : State} {home spare : Nat} (hpending : isPending s home = false)
    (hprogress : relocationInProgress s home = false) (hmoving : isMoving s home = false) (hslot : slotFree s = true)
    (hbelow : home < fenceValue s) (hfree : lowestFree s = some spare) (cause : RelocCause) (data : LineData) :
    offerRead cause home data s = beginRelocation home spare cause data none [] (setMark spare .held s) := by
  unfold offerRead
  rw [hpending, hprogress, if_neg (by simp), if_pos hslot, allocateFor_free hbelow hmoving hfree]

theorem offerRead_noSpare {s : State} {home : Nat} (hpending : isPending s home = false)
    (hprogress : relocationInProgress s home = false) (hmoving : isMoving s home = false) (hslot : slotFree s = true)
    (hbelow : home < fenceValue s) (hfree : lowestFree s = none) (cause : RelocCause) (data : LineData) :
    offerRead cause home data s = rewatch home (latch .sparesOut s) := by
  unfold offerRead
  rw [hpending, hprogress, if_neg (by simp), if_pos hslot, allocateFor_none hbelow hmoving hfree]

theorem offerRead_noSlot {s : State} {home : Nat} (hpending : isPending s home = false)
    (hprogress : relocationInProgress s home = false) (hslot : slotFree s = false) (cause : RelocCause) (data : LineData) :
    offerRead cause home data s = rewatch home s := by
  unfold offerRead
  rw [hpending, hprogress, if_neg (by simp), hslot, if_neg Bool.false_ne_true]

/-- A line watched again, at WATCH_LIMIT at the front of the table (R94). -/
theorem rewatch_eq (home : Nat) (s : State) :
    rewatch home s =
      s.setReloc
        { s.reloc with
          watch := { hla := home, count := s.policy.active.watchLimit, last := s.tick } ::
            (s.reloc.watch.filter (·.hla != home)).take 63
          deferred := if s.reloc.deferred = 65535 then 65535 else s.reloc.deferred + 1 } := by
  rw [← saturate16_eq]
  rfl

/-- Settles O56: each row of R106, R110 and R91 to R94 is a branch of its operation. -/
theorem pendingAndWatchRows : Obligations.PendingAndWatchRows := by
  refine ⟨fun s hla origin data counts hcounts => ?_, fun s home cause data again hagain => ?_⟩
  · have hcount := countsHit_eq hcounts
    refine ⟨fun hmoving => if_pos hmoving, fun hmoving hpending => ?_,
      fun hmoving hpending hfull => pendingAdd_dropped hmoving hpending hfull,
      fun hmoving hpending hroom => ?_, fun h => watchUpdate_ignored h data, fun hpending hmoving count hentry => ?_⟩
    · rw [pendingAdd_hits hmoving hpending, hcount, hitPending_eq]
    · rw [pendingAdd_joins hmoving hpending hroom, hcount]
    · have hupdate := watchUpdate_eq hpending hmoving (watchedEntry_eq hentry) data
      exact ⟨fun hless => by rw [hupdate, if_neg (Nat.not_le.mpr hless)], fun hlimit => by rw [hupdate, if_pos hlimit]⟩
  · refine ⟨fun h => ?_, fun hpending hmoving hreserved hnone => ?_, fun reason => ⟨fun hroom => if_pos hroom, fun hfull => ?_⟩⟩
    · refine offerRead_discarded ?_ cause data
      rcases h with hpending | hmoving | hreserved | hwaits
      · exact .inl hpending
      · exact .inr ((relocationInProgress_iff s home).mpr (.inl hmoving))
      · exact .inr ((relocationInProgress_iff s home).mpr (.inr (.inr hreserved)))
      · exact .inr ((relocationInProgress_iff s home).mpr (.inr (.inl hwaits)))
    · have hprogress : relocationInProgress s home = false := by
        rw [Bool.eq_false_iff, Ne, relocationInProgress_iff, hmoving, hreserved]
        rintro (h | ⟨ref, c, hq⟩ | h)
        · exact Bool.false_ne_true h
        · exact hnone ref c hq
        · exact Bool.false_ne_true h
      refine ⟨fun spare hslot hbelow hfree => offerRead_moves hpending hprogress hmoving hslot hbelow hfree cause data,
        fun hslot hbelow hfree => ?_, fun hslot => ?_⟩
      · rw [offerRead_noSpare hpending hprogress hmoving hslot hbelow hfree, rewatch_eq, hagain]
        rfl
      · rw [offerRead_noSlot hpending hprogress hslot, rewatch_eq, hagain]
    · exact if_neg (Nat.not_lt.mpr hfull)

end Sys2Proof.Machine
end
section
/-! The line checker (O58; R64, R65) and the round trip of journal lines (O59; R116, R193). The idea: what the checker makes of a line is
a matter of two counts, of defective data bytes and of defective check bytes (`classifyOwn_*`), and each defect counts once, in its
byte (`filter_range_length`); a journal line is its ten header bytes followed by its records (`bytesOfLine_journalLine`). -/

namespace Sys2Proof.Machine

-- One theorem after another, as in the laws (see `Quiet`): the memory of the check does not hold all their threads at once.
set_option Elab.async false

/-! ### Counting defective bytes -/

/-- Of the places below `n` those of a list are counted, each once. -/
theorem filter_range_length {n : Nat} {p : Nat → Bool} {l : List Nat} (hl : ∀ i, i < n → (p i = true ↔ i ∈ l)) (hnodup : l.Nodup)
    (hb : ∀ i ∈ l, i < n) : ((List.range n).filter p).length = l.length := by
  have hperm : ((List.range n).filter p).Perm l := by
    rw [List.perm_ext_iff_of_nodup (List.Nodup.filter _ List.nodup_range) hnodup]
    intro i
    rw [List.mem_filter, List.mem_range]
    exact ⟨fun ⟨hi, hp⟩ => (hl i hi).mp hp, fun hi => ⟨hb i hi, (hl i (hb i hi)).mpr hi⟩⟩
  exact hperm.length_eq

theorem differingBytes_self (d : LineData) : differingBytes d d = 0 :=
  differingBytes_eq d d [] (fun _ _ => ⟨fun h => absurd rfl h, fun h => absurd h List.not_mem_nil⟩) List.nodup_nil nofun

/-- A line with this byte changed by these bits. -/
def flipByte (i : Nat) (x : Byte) (d : LineData) : LineData := d ^^^ (x.setWidth 512 <<< (8 * i))

theorem differingBytes_flip (d : LineData) {i : Nat} {x : Byte} (hi : i < 64) (hx : x ≠ 0) : differingBytes d (flipByte i x d) = 1 := by
  refine differingBytes_eq d (flipByte i x d) [i] (fun j hj => ?_) (List.nodup_singleton i) (fun j hj => by
    rw [List.mem_singleton.mp hj]
    exact hi)
  rw [flipByte, lineByte_xor d x i j hi hj, List.mem_singleton]
  by_cases h : j = i
  · simp only [h, if_true, iff_true]
    exact xor_ne_self _ x hx
  · simp [h]

theorem differingBytes_flips (d : LineData) {i j : Nat} {x y : Byte} (hij : i < j) (hj : j < 64) (hx : x ≠ 0) (hy : y ≠ 0) :
    differingBytes d (flipByte j y (flipByte i x d)) = 2 := by
  have hi : i < 64 := hij.trans hj
  refine differingBytes_eq d (flipByte j y (flipByte i x d)) [i, j] (fun k hk => ?_) (by simp [Nat.ne_of_lt hij]) (fun k hk => by
    rcases List.mem_pair.mp hk with rfl | rfl
    · exact hi
    · exact hj)
  rw [flipByte, lineByte_xor _ y j k hj hk, flipByte, lineByte_xor d x i k hi hk, List.mem_pair]
  by_cases hkj : k = j
  · subst hkj
    have hki : k ≠ i := Nat.ne_of_gt hij
    simp only [hki, if_true, if_false, or_true, iff_true]
    exact xor_ne_self _ y hy
  · by_cases hki : k = i
    · subst hki
      simp only [hkj, if_true, if_false, true_or, iff_true]
      exact xor_ne_self _ x hx
    · simp [hki, hkj]

/-- A repair of one byte leaves at most one byte differing (R64). -/
theorem differingBytes_repaired (d : LineData) {i : Nat} (x : Byte) (hi : i < 64) : differingBytes (flipByte i x d) d ≤ 1 := by
  by_cases hx : x = 0
  · have hsame : flipByte i x d = d := by
      unfold flipByte
      rw [hx]
      simp
    rw [hsame, differingBytes_self]
    exact Nat.zero_le 1
  · have hback : flipByte i x (flipByte i x d) = d := by
      unfold flipByte
      rw [BitVec.xor_assoc, BitVec.xor_self, BitVec.xor_zero]
    have hone := differingBytes_flip (flipByte i x d) hi hx
    rw [hback] at hone
    exact hone.le

/-- Byte `i` of the flipped bits of the check bytes. -/
def checkByte (flips : BitVec 64) (i : Nat) : Byte := BitVec.ofNat 8 (flips.toNat >>> (8 * i))

theorem checkByte_bit (flips : BitVec 64) (i k : Nat) : (checkByte flips i).getLsbD k = (decide (k < 8) && flips.getLsbD (8 * i + k)) := by
  unfold checkByte
  rw [BitVec.getLsbD_ofNat, Nat.testBit_shiftRight, BitVec.testBit_toNat]

theorem checkByte_xor (f g : BitVec 64) (i : Nat) : checkByte (f ^^^ g) i = checkByte f i ^^^ checkByte g i := by
  apply BitVec.eq_of_getLsbD_eq
  intro k hk
  rw [BitVec.getLsbD_xor, checkByte_bit, checkByte_bit, checkByte_bit, BitVec.getLsbD_xor, decide_eq_true hk]
  rfl

theorem checkByte_shift (a : Byte) {m i : Nat} (hi : i < 8) : checkByte (a.setWidth 64 <<< (8 * m)) i = if i = m then a else 0 := by
  apply BitVec.eq_of_getLsbD_eq
  intro k hk
  rw [checkByte_bit, BitVec.getLsbD_shiftLeft, BitVec.getLsbD_setWidth, decide_eq_true hk, decide_eq_true (by omega : 8 * i + k < 64)]
  by_cases him : i = m
  · subst him
    rw [if_pos rfl, decide_eq_false (by omega : ¬ 8 * i + k < 8 * i), show 8 * i + k - 8 * i = k by omega,
      decide_eq_true (by omega : k < 64)]
    rfl
  · rw [if_neg him]
    by_cases hlt : 8 * i + k < 8 * m
    · simp [hlt]
    · have hout : a.getLsbD (8 * i + k - 8 * m) = false := BitVec.getLsbD_of_ge _ _ (by omega)
      simp [hout]

theorem defectiveCheckBytes_eq {flips : BitVec 64} {l : List Nat} (hl : ∀ i, i < 8 → (checkByte flips i ≠ 0 ↔ i ∈ l)) (hnodup : l.Nodup)
    (hb : ∀ i ∈ l, i < 8) : defectiveCheckBytes flips = l.length :=
  filter_range_length (fun i hi => bne_iff_ne.trans (hl i hi)) hnodup hb

theorem defectiveCheckBytes_zero : defectiveCheckBytes 0 = 0 := by decide

theorem defectiveCheckBytes_one {m : Nat} {a : Byte} (hm : m < 8) (ha : a ≠ 0) : defectiveCheckBytes (a.setWidth 64 <<< (8 * m)) = 1 := by
  refine defectiveCheckBytes_eq (l := [m]) (fun i hi => ?_) (List.nodup_singleton m) (fun i hi => by
    rw [List.mem_singleton.mp hi]
    exact hm)
  rw [checkByte_shift a hi, List.mem_singleton]
  by_cases h : i = m
  · simp only [h, if_true, iff_true]
    exact ha
  · simp [h]

theorem defectiveCheckBytes_two {m n : Nat} {a b : Byte} (hmn : m < n) (hn : n < 8) (ha : a ≠ 0) (hb : b ≠ 0) :
    defectiveCheckBytes ((a.setWidth 64 <<< (8 * m)) ^^^ (b.setWidth 64 <<< (8 * n))) = 2 := by
  refine defectiveCheckBytes_eq (l := [m, n]) (fun i hi => ?_) (by simp [Nat.ne_of_lt hmn]) (fun i hi => by
    rcases List.mem_pair.mp hi with rfl | rfl
    · exact hmn.trans hn
    · exact hn)
  rw [checkByte_xor, checkByte_shift a hi, checkByte_shift b hi, List.mem_pair]
  by_cases him : i = m
  · subst him
    have hin : i ≠ n := Nat.ne_of_lt hmn
    simpa [hin] using ha
  · by_cases hin : i = n
    · simpa [hin, Nat.ne_of_gt hmn] using hb
    · simp [him, hin]

/-! ### The checker by the two counts (R64) -/

section
variable {ala : Nat} {written read : LineData} {flips : BitVec 64}

theorem classifyOwn_clean (hdata : differingBytes written read = 0) (hcheck : defectiveCheckBytes flips = 0) :
    classifyOwn ala written read flips = .clean read := by
  unfold classifyOwn
  simp only [hdata, hcheck]

theorem classifyOwn_one (hdata : differingBytes written read = 1) (hcheck : defectiveCheckBytes flips = 0) :
    classifyOwn ala written read flips = .corrected written := by
  unfold classifyOwn
  simp only [hdata, hcheck]

theorem classifyOwn_checkByte (hdata : differingBytes written read = 0) (hcheck : defectiveCheckBytes flips = 1) :
    classifyOwn ala written read flips = .corrected read ∨ classifyOwn ala written read flips = .uncorrectable := by
  unfold classifyOwn
  simp only [hdata, hcheck]
  split
  · exact .inl rfl
  · exact .inr rfl

theorem classifyOwn_two {d c : Nat} (hdata : differingBytes written read = d) (hcheck : defectiveCheckBytes flips = c)
    (h : (d = 2 ∧ c = 0) ∨ (d = 1 ∧ c = 1) ∨ (d = 0 ∧ c = 2)) : classifyOwn ala written read flips = .uncorrectable := by
  unfold classifyOwn
  rcases h with ⟨rfl, rfl⟩ | ⟨rfl, rfl⟩ | ⟨rfl, rfl⟩ <;> simp only [hdata, hcheck, Nat.reduceAdd, if_true]

theorem classifyOwn_many (h : 3 ≤ differingBytes written read + defectiveCheckBytes flips) :
    classifyOwn ala written read flips = neverWritten written (handOn read (Config.manyDefects ala written read flips)) := by
  unfold classifyOwn
  split
  · next hdata hcheck => omega
  · next hdata hcheck => omega
  · next hdata hcheck => omega
  · exact if_neg (by omega)
end

theorem classify_code (ala : Nat) (written data : LineData) :
    classify ala { data, check := .code ala written } = classifyOwn ala written data 0 := if_neg (not_not_intro rfl)

theorem classify_damaged (ala : Nat) (written data : LineData) (flips : BitVec 64) :
    classify ala { data, check := .damaged ala written flips } = classifyOwn ala written data flips := if_neg (not_not_intro rfl)

/-- What may be handed on of a line read as `read`: nothing, the data as read, or the data with at most one byte repaired. -/
def handsOnRead (read : LineData) (c : Classification) : Prop :=
  c = .uncorrectable ∨ c = .clean read ∨ ∃ d, c = .corrected d ∧ differingBytes d read ≤ 1

theorem handOn_handsOnRead (read : LineData) (v : Verdict) : handsOnRead read (handOn read v) := by
  cases v with
  | clean => exact .inr (.inl rfl)
  | repaired byte flips => exact .inr (.inr ⟨_, rfl, differingBytes_repaired read flips byte.isLt⟩)
  | uncorrectable => exact .inl rfl

theorem neverWritten_handsOnRead {read : LineData} {c : Classification} (written : LineData) (h : handsOnRead read c) :
    handsOnRead read (neverWritten written c) := by
  have hkeeps : neverWritten written c = .uncorrectable ∨ neverWritten written c = c := by
    cases c with
    | clean d =>
      by_cases hd : d = written
      · exact .inl (if_pos hd)
      · exact .inr (if_neg hd)
    | corrected d =>
      by_cases hd : d = written
      · exact .inl (if_pos hd)
      · exact .inr (if_neg hd)
    | uncorrectable => exact .inl rfl
  rcases hkeeps with hnothing | hsame
  · exact .inl hnothing
  · rw [hsame]
    exact h

theorem neverWritten_ne (written : LineData) (c : Classification) :
    neverWritten written c ≠ .clean written ∧ neverWritten written c ≠ .corrected written := by
  cases c with
  | clean d =>
    by_cases hd : d = written
    · rw [show neverWritten written (.clean d) = .uncorrectable from if_pos hd]
      exact ⟨nofun, nofun⟩
    · rw [show neverWritten written (.clean d) = .clean d from if_neg hd]
      exact ⟨fun h => hd (by injection h), nofun⟩
  | corrected d =>
    by_cases hd : d = written
    · rw [show neverWritten written (.corrected d) = .uncorrectable from if_pos hd]
      exact ⟨nofun, nofun⟩
    · rw [show neverWritten written (.corrected d) = .corrected d from if_neg hd]
      exact ⟨nofun, fun h => hd (by injection h)⟩
  | uncorrectable => exact ⟨nofun, nofun⟩

theorem classifyOwn_handsOnRead (ala : Nat) (written read : LineData) (flips : BitVec 64) :
    handsOnRead read (classifyOwn ala written read flips) := by
  unfold classifyOwn
  split
  · exact .inr (.inl rfl)
  · next hdata _ => exact .inr (.inr ⟨written, rfl, hdata.le⟩)
  · split
    · exact .inr (.inr ⟨read, rfl, (differingBytes_self read).le.trans (Nat.zero_le 1)⟩)
    · exact .inl rfl
  · split
    · exact .inl rfl
    · exact neverWritten_handsOnRead written (handOn_handsOnRead read _)

theorem classify_handsOnRead (ala : Nat) (line : ArrayLine) : handsOnRead line.data (classify ala line) := by
  unfold classify
  split
  · exact handOn_handsOnRead line.data _
  · split
    · exact .inl rfl
    · exact classifyOwn_handsOnRead ..
  · split
    · exact .inl rfl
    · exact classifyOwn_handsOnRead ..

/-- Settles O58: each row is one pair of counts. -/
theorem lineCheckerClasses : Obligations.LineCheckerClasses := by
  refine fun ala place written => ⟨fun data hplace => if_pos hplace, ?_, classify_handsOnRead ala,
    fun data flips check hmany hcheck => ?_, fun i j x y hij hj hx hy => ⟨?_, ?_, ?_, fun flips m a hm ha => ⟨fun hflips =>
      ⟨fun data hplace => if_pos hplace, ?_, fun k hk => ?_⟩, fun n b hmn hn hb hflips => ?_⟩⟩⟩
  · exact (classify_code ala written written).trans (classifyOwn_clean (differingBytes_self written) defectiveCheckBytes_zero)
  · have hown : classify ala { data, check } = classifyOwn ala written data flips := by
      rcases hcheck with rfl | ⟨rfl, rfl⟩
      · exact classify_damaged ala written data flips
      · exact classify_code ala written data
    rw [hown, classifyOwn_many hmany]
    exact neverWritten_ne written _
  · rw [classify_code]
    exact classifyOwn_one (differingBytes_flip written (hij.trans hj) hx) defectiveCheckBytes_zero
  · rw [classify_code]
    exact classifyOwn_one (differingBytes_flip written hj hy) defectiveCheckBytes_zero
  · rw [classify_code]
    exact classifyOwn_two (differingBytes_flips written hij hj hx hy) defectiveCheckBytes_zero (.inl ⟨rfl, rfl⟩)
  · rw [classify_damaged, hflips]
    exact classifyOwn_checkByte (differingBytes_self written) (defectiveCheckBytes_one hm ha)
  · rw [classify_damaged, hflips]
    exact classifyOwn_two (differingBytes_flip written hk hx) (defectiveCheckBytes_one hm ha) (.inr (.inl ⟨rfl, rfl⟩))
  · rw [classify_damaged, hflips]
    exact classifyOwn_two (differingBytes_self written) (defectiveCheckBytes_two hmn hn ha hb) (.inr (.inr ⟨rfl, rfl⟩))

/-! ### Journal lines (R116, R193) -/

/-- The header of a journal line: sequence, bank, flags, record count, three zeros (section 11.7). -/
def headerBytes (seq : Seq32) (bank : Bank) (image commit : Bool) (count : Nat) : List Byte :=
  enc32 seq ++ enc8 bank.code ++ enc8 ((if image then 1 else 0) + (if commit then 2 else 0)) ++ enc8 count ++ [0, 0, 0]

theorem headerBytes_length (seq : Seq32) (bank : Bank) (image commit : Bool) (count : Nat) :
    (headerBytes seq bank image commit count).length = 10 := rfl

/-- A journal line's bytes: its header, its records, zeros. -/
theorem bytesOfLine_journalLine (seq : Seq32) (bank : Bank) (image commit : Bool) {records : List Record} (hmost : records.length ≤ 6) :
    ∃ zeros, bytesOfLine (journalLine seq bank image commit records) =
      headerBytes seq bank image commit records.length ++ records.flatMap Record.bytes ++ zeros := by
  have hlength : (headerBytes seq bank image commit records.length ++ records.flatMap Record.bytes).length ≤ 64 := by
    rw [List.length_append, headerBytes_length, records_bytes_length]
    omega
  exact ⟨_, bytesOfLine_lineOfBytes _ hlength⟩

theorem byteOf_count {n : Nat} (h : n ≤ 6) : (byteOf n 0).toNat = n := by
  rw [byteOf_toNat]
  simp only [Nat.mul_zero, Nat.pow_zero, Nat.div_one]
  omega

theorem byteOf_bank (bank : Bank) : (byteOf bank.code 0).toNat = bank.code := by
  cases bank <;> rfl

theorem flags_image (image commit : Bool) :
    (byteOf ((if image then 1 else 0) + (if commit then 2 else 0)) 0).getLsbD 0 = image := by
  cases image <;> cases commit <;> rfl

theorem flags_commit (image commit : Bool) :
    (byteOf ((if image then 1 else 0) + (if commit then 2 else 0)) 0).getLsbD 1 = commit := by
  cases image <;> cases commit <;> rfl

/-- A line with this header is readable exactly for the bank it names (R116). -/
theorem decodeJournalLine_header {d : LineData} {seq : Seq32} {bank : Bank} {image commit : Bool} {count : Nat} {tail : List Byte}
    (hd : bytesOfLine d = headerBytes seq bank image commit count ++ tail) (hleast : 1 ≤ count) (hmost : count ≤ 6) (reader : Bank) :
    decodeJournalLine reader d =
      if bank = reader then some { seq, image, commit, places := recordPlaces (headerBytes seq bank image commit count ++ tail) count }
      else none := by
  have hreader : bank.code = reader.code ↔ bank = reader := by cases bank <;> cases reader <;> decide
  have hbank : ((headerBytes seq bank image commit count ++ tail).getD 4 0).toNat = bank.code := byteOf_bank bank
  have hcount : ((headerBytes seq bank image commit count ++ tail).getD 6 0).toNat = count := byteOf_count hmost
  have himage : ((headerBytes seq bank image commit count ++ tail).getD 5 0).getLsbD 0 = image := flags_image image commit
  have hcommit : ((headerBytes seq bank image commit count ++ tail).getD 5 0).getLsbD 1 = commit := flags_commit image commit
  have hseq : bigEndian 32 ((headerBytes seq bank image commit count ++ tail).take 4) = seq := bigEndian32_enc32 seq
  unfold decodeJournalLine Config.recordsPerLine
  simp only [hd, hbank, hcount, himage, hcommit, hseq, hreader, hleast, hmost, and_self, and_true]

theorem placeLine_bytes {n at_ : Nat} {place : List Byte} (hplace : (place.drop at_).take 3 = enc24 n) (hn : n < 2 ^ 24) :
    placeLine place at_ = n := by
  unfold placeLine
  rw [hplace, bigEndian24_enc24 hn]

/-- A record that fits its place is read back (R193). -/
theorem decodeRecord_bytes {r : Record} (h : recordFits r = true) : decodeRecord r.bytes = .known r := by
  cases r with
  | bind home spare =>
    simp only [recordFits, Bool.and_eq_true, decide_eq_true_eq] at h
    obtain ⟨hhome, hspare⟩ := h
    have hdecodes : decodeRecord (Record.bind home spare).bytes =
        .known (.bind (placeLine (Record.bind home spare).bytes 1) (placeLine (Record.bind home spare).bytes 4)) := rfl
    rw [hdecodes, placeLine_bytes rfl hhome, placeLine_bytes rfl hspare]
  | dead spare =>
    have hdecodes : decodeRecord (Record.dead spare).bytes = .known (.dead (placeLine (Record.dead spare).bytes 1)) := rfl
    rw [hdecodes, placeLine_bytes rfl (of_decide_eq_true h)]
  | fence f =>
    have hdecodes : decodeRecord (Record.fence f).bytes = .known (.fence (placeLine (Record.fence f).bytes 1)) := rfl
    rw [hdecodes, placeLine_bytes rfl (of_decide_eq_true h)]
  | policy set =>
    have hpacked : ((Record.policy set).bytes.drop 1).take 7 = set.pack ++ [] := rfl
    have hunpacked : unpackPolicy (((Record.policy set).bytes.drop 1).take 7) = .ok set := by
      rw [hpacked]
      exact unpackPolicy_pack set h []
    have hkind : ((Record.policy set).bytes.getD 0 0).toNat = 4 := rfl
    unfold decodeRecord
    simp only [hkind, hunpacked]

/-- Settles O59: the line's bytes are known, so its header and its places are. -/
theorem journalLineRoundTrip : Obligations.JournalLineRoundTrip := by
  intro seq bank image commit records hleast hmost hfits
  obtain ⟨zeros, hbytes⟩ := bytesOfLine_journalLine seq bank image commit hmost
  have hplaces : recordPlaces (headerBytes seq bank image commit records.length ++ records.flatMap Record.bytes ++ zeros) records.length =
      records.map Record.bytes := by
    rw [recordPlaces_eq records _ zeros (headerBytes_length ..) records.length (Nat.le_refl _), List.take_length]
  have hdecodes := decodeJournalLine_header (hbytes.trans (List.append_assoc ..)) hleast hmost
  rw [← List.append_assoc, hplaces] at hdecodes
  refine ⟨⟨records.map Record.bytes, (hdecodes bank).trans (if_pos rfl), ?_⟩, (hdecodes bank.other).trans (if_neg ?_)⟩
  · rw [List.map_map]
    exact List.map_congr_left fun r hr => decodeRecord_bytes (hfits r hr)
  · cases bank <;> exact nofun

end Sys2Proof.Machine
end
